-- ==== Sys2Proof/Word.lean ====
section
/-! DEFINITION. The widths of 00_scope.md R6: byte, word and doubleword. -/

namespace Sys2Proof

/-- 8 bits (R6). -/
abbrev Byte := BitVec 8

/-- 16 bits: offsets, selectors, the general registers of the admitted subset (R6, R4). -/
abbrev Word := BitVec 16

/-- 32 bits: IDTR.base, DR6 (R6, R18, R20). -/
abbrev Dword := BitVec 32

end Sys2Proof
end

