-- ==== Sys2Proof/Config.lean ====
section
/-! DEFINITION. What an implementation or a platform fixes (00_scope.md R4, 10_state.md R27), and the free values
(the spec's `draw`, R7): constants with no body, so that no proof can know what they are. -/

namespace Sys2Proof

/-- What MemMap says of a populated address (92_eei_decisions.md D3). -/
inductive MemKind where
  /-- ordinary memory, readable and writable -/
  | ram
  /-- the read-only subset -/
  | rom
deriving DecidableEq, Repr

/-- One stretch of populated linear addresses: `base` to `base + size - 1`. -/
structure Region where
  base : Nat
  size : Nat
  kind : MemKind
deriving DecidableEq, Repr

/-- A byte pattern as R84 writes one: pairs (match, mask) laid over the bytes from the opcode on. -/
abbrev Pattern := List (Byte × Byte)

/-- The open parameters of R4 and D22. State holds them (`State.cfg`); no step changes them. -/
structure Config where
  /-- HAS_COPROCESSOR -/
  hasCoprocessor : Bool
  /-- MemMap: the first region that holds an address says what is there -/
  memMap : List Region
  /-- UNDEFINED_OPCODES: the patterns outside the opcode table that raise #6 (R72, D14) -/
  undefinedOpcodes : List Pattern
  /-- NMI_LATCHED_WHILE_MASKED (D22) -/
  nmiLatchedWhileMasked : Bool
deriving DecidableEq, Repr

/-- DESIGN CHOICE (log 10). Free values for the flags an instruction leaves undefined; each flag takes the bit at its own position. -/
opaque Config.freeFlags : Nat → Word

/-- DESIGN CHOICE (log 11). Free 16-bit results (R138, R139 with a masked count above 16). -/
opaque Config.freeResult : Nat → Word

/-- DESIGN CHOICE (log 12). The IP saved when execution stands past offset 65,535 (R45, D24). -/
opaque Config.freeIp : Nat → Word

/-- DESIGN CHOICE (log 14). The bits of DR6 other than bit 14 (R20, U9). -/
opaque Config.freeDr6 : Nat → Dword

/-- DESIGN CHOICE (log 15). Whether a shift whose masked count is 0 writes its operand back (R140, U30). -/
opaque Config.freeWriteBack : Nat → Bool

/-- DESIGN CHOICE (log 46). How many bytes the memory operand of a coprocessor operation has, by opcode bits 2:0 and the
`reg` field, which select the operation; the spec does not give it (R187, R25). -/
opaque Config.escWidth : BitVec 3 → BitVec 3 → Nat

end Sys2Proof
end

