-- ==== Sys2Proof/Syntax.lean ====
section
/-! DEFINITION. The instructions: one constructor per row of spec/opcode_table.json (30_encoding.md section 6), over
the operand forms of R75. A prefix byte is an instruction of its own, as in the table (log 16). -/

namespace Sys2Proof

/-- The six segment registers (R14). -/
inductive Seg where
  | es | cs | ss | ds | fs | gs
deriving DecidableEq, Repr

/-- The 16-bit general registers `x[0]` to `x[7]` (R11). -/
inductive Reg16 where
  | ax | cx | dx | bx | sp | bp | si | di
deriving DecidableEq, Repr

/-- The 8-bit general registers `x8[0]` to `x8[7]` (R11). -/
inductive Reg8 where
  | al | cl | dl | bl | ah | ch | dh | bh
deriving DecidableEq, Repr

/-- The base of a memory operand, by the `rm` field (R75). -/
inductive Base where
  | bxSi | bxDi | bpSi | bpDi | si | di | bp | bx
deriving DecidableEq, Repr

/-- A memory operand of 16-bit addressing, one constructor per shape of displacement (R75). -/
inductive Mem where
  /-- mod 00: the base alone (never BP alone: that `rm` is `direct`) -/
  | base (b : Base)
  /-- mod 00, rm 110: disp16 with no base; also the `moffs` operand -/
  | direct (o : Word)
  /-- mod 01: disp8, sign-extended -/
  | disp8 (b : Base) (o : Byte)
  /-- mod 10: disp16 -/
  | disp16 (b : Base) (o : Word)
deriving DecidableEq, Repr

/-- A register or memory operand (`r/m`, R75). -/
inductive RM (ρ : Type) where
  | reg (r : ρ)
  | mem (m : Mem)
deriving DecidableEq, Repr

abbrev RM8 := RM Reg8
abbrev RM16 := RM Reg16

/-- The instructions of the opcode table, in its order. -/
inductive Instr where
  /-- LOCK (prefix) (R150) -/
  | lockPrefix
  /-- ES: (segment override prefix) (R77) -/
  | esPrefix
  /-- CS: (segment override prefix) (R77) -/
  | csPrefix
  /-- SS: (segment override prefix) (R77) -/
  | ssPrefix
  /-- DS: (segment override prefix) (R77) -/
  | dsPrefix
  /-- FS: (segment override prefix) (R77) -/
  | fsPrefix
  /-- GS: (segment override prefix) (R77) -/
  | gsPrefix
  /-- REPNE/REPNZ (prefix) (R77) -/
  | repnePrefix
  /-- REP/REPE/REPZ (prefix) (R77) -/
  | repPrefix
  /-- operand-size (prefix) (R81) -/
  | operandSizePrefix
  /-- address-size (prefix) (R81) -/
  | addressSizePrefix
  /-- DIV r/m8 (R101) -/
  | divRm8 (d : RM8)
  /-- DIV r/m16 (R101) -/
  | divRm16 (d : RM16)
  /-- IDIV r/m8 (R102) -/
  | idivRm8 (d : RM8)
  /-- IDIV r/m16 (R102) -/
  | idivRm16 (d : RM16)
  /-- PUSH r16 (r != SP) (R110) -/
  | pushR16 (r : Reg16)
  /-- PUSH SP (R111) -/
  | pushSp
  /-- PUSH r/m16 (R110) -/
  | pushRm16 (d : RM16)
  /-- PUSH imm16 (R110) -/
  | pushImm16 (v : Word)
  /-- PUSH imm8 (R110) -/
  | pushImm8 (v : Byte)
  /-- PUSH ES (R110) -/
  | pushEs
  /-- PUSH CS (R110) -/
  | pushCs
  /-- PUSH SS (R110) -/
  | pushSs
  /-- PUSH DS (R110) -/
  | pushDs
  /-- PUSH FS (R110) -/
  | pushFs
  /-- PUSH GS (R110) -/
  | pushGs
  /-- PUSHF (R112) -/
  | pushf
  /-- MOV r/m8, r8 (R113) -/
  | movRm8R8 (d : RM8) (r : Reg8)
  /-- MOV r/m16, r16 (R113) -/
  | movRm16R16 (d : RM16) (r : Reg16)
  /-- MOV r8, r/m8 (R113) -/
  | movR8Rm8 (r : Reg8) (d : RM8)
  /-- MOV r16, r/m16 (R113) -/
  | movR16Rm16 (r : Reg16) (d : RM16)
  /-- MOV r/m16, Sreg (R114) -/
  | movRm16Sreg (d : RM16) (g : Seg)
  /-- MOV Sreg, r/m16 (R114) -/
  | movSregRm16 (g : Seg) (d : RM16)
  /-- MOV AL, moffs8 (R113) -/
  | movAlMoffs8 (o : Word)
  /-- MOV AX, moffs16 (R113) -/
  | movAxMoffs16 (o : Word)
  /-- MOV moffs8, AL (R113) -/
  | movMoffs8Al (o : Word)
  /-- MOV moffs16, AX (R113) -/
  | movMoffs16Ax (o : Word)
  /-- MOV r8, imm8 (R113) -/
  | movR8Imm8 (r : Reg8) (v : Byte)
  /-- MOV r16, imm16 (R113) -/
  | movR16Imm16 (r : Reg16) (v : Word)
  /-- MOV r/m8, imm8 (R113) -/
  | movRm8Imm8 (d : RM8) (v : Byte)
  /-- MOV r/m16, imm16 (R113) -/
  | movRm16Imm16 (d : RM16) (v : Word)
  /-- XCHG r/m8, r8 (R115) -/
  | xchgRm8R8 (d : RM8) (r : Reg8)
  /-- XCHG r/m16, r16 (R115) -/
  | xchgRm16R16 (d : RM16) (r : Reg16)
  /-- XCHG AX, r16 (R115) -/
  | xchgAxR16 (r : Reg16)
  /-- ROL r/m8, 1 (R131) -/
  | rolRm8One (d : RM8)
  /-- ROL r/m16, 1 (R131) -/
  | rolRm16One (d : RM16)
  /-- ROL r/m8, CL (R131) -/
  | rolRm8Cl (d : RM8)
  /-- ROL r/m16, CL (R131) -/
  | rolRm16Cl (d : RM16)
  /-- ROL r/m8, imm8 (R131) -/
  | rolRm8Imm8 (d : RM8) (v : Byte)
  /-- ROL r/m16, imm8 (R131) -/
  | rolRm16Imm8 (d : RM16) (v : Byte)
  /-- ROR r/m8, 1 (R132) -/
  | rorRm8One (d : RM8)
  /-- ROR r/m16, 1 (R132) -/
  | rorRm16One (d : RM16)
  /-- ROR r/m8, CL (R132) -/
  | rorRm8Cl (d : RM8)
  /-- ROR r/m16, CL (R132) -/
  | rorRm16Cl (d : RM16)
  /-- ROR r/m8, imm8 (R132) -/
  | rorRm8Imm8 (d : RM8) (v : Byte)
  /-- ROR r/m16, imm8 (R132) -/
  | rorRm16Imm8 (d : RM16) (v : Byte)
  /-- RCL r/m8, 1 (R133) -/
  | rclRm8One (d : RM8)
  /-- RCL r/m16, 1 (R133) -/
  | rclRm16One (d : RM16)
  /-- RCL r/m8, CL (R133) -/
  | rclRm8Cl (d : RM8)
  /-- RCL r/m16, CL (R133) -/
  | rclRm16Cl (d : RM16)
  /-- RCL r/m8, imm8 (R133) -/
  | rclRm8Imm8 (d : RM8) (v : Byte)
  /-- RCL r/m16, imm8 (R133) -/
  | rclRm16Imm8 (d : RM16) (v : Byte)
  /-- RCR r/m8, 1 (R134) -/
  | rcrRm8One (d : RM8)
  /-- RCR r/m16, 1 (R134) -/
  | rcrRm16One (d : RM16)
  /-- RCR r/m8, CL (R134) -/
  | rcrRm8Cl (d : RM8)
  /-- RCR r/m16, CL (R134) -/
  | rcrRm16Cl (d : RM16)
  /-- RCR r/m8, imm8 (R134) -/
  | rcrRm8Imm8 (d : RM8) (v : Byte)
  /-- RCR r/m16, imm8 (R134) -/
  | rcrRm16Imm8 (d : RM16) (v : Byte)
  /-- SHL/SAL r/m8, 1 (R135) -/
  | shlRm8One (d : RM8)
  /-- SHL/SAL r/m16, 1 (R135) -/
  | shlRm16One (d : RM16)
  /-- SHL/SAL r/m8, CL (R135) -/
  | shlRm8Cl (d : RM8)
  /-- SHL/SAL r/m16, CL (R135) -/
  | shlRm16Cl (d : RM16)
  /-- SHL/SAL r/m8, imm8 (R135) -/
  | shlRm8Imm8 (d : RM8) (v : Byte)
  /-- SHL/SAL r/m16, imm8 (R135) -/
  | shlRm16Imm8 (d : RM16) (v : Byte)
  /-- SHR r/m8, 1 (R136) -/
  | shrRm8One (d : RM8)
  /-- SHR r/m16, 1 (R136) -/
  | shrRm16One (d : RM16)
  /-- SHR r/m8, CL (R136) -/
  | shrRm8Cl (d : RM8)
  /-- SHR r/m16, CL (R136) -/
  | shrRm16Cl (d : RM16)
  /-- SHR r/m8, imm8 (R136) -/
  | shrRm8Imm8 (d : RM8) (v : Byte)
  /-- SHR r/m16, imm8 (R136) -/
  | shrRm16Imm8 (d : RM16) (v : Byte)
  /-- SAR r/m8, 1 (R137) -/
  | sarRm8One (d : RM8)
  /-- SAR r/m16, 1 (R137) -/
  | sarRm16One (d : RM16)
  /-- SAR r/m8, CL (R137) -/
  | sarRm8Cl (d : RM8)
  /-- SAR r/m16, CL (R137) -/
  | sarRm16Cl (d : RM16)
  /-- SAR r/m8, imm8 (R137) -/
  | sarRm8Imm8 (d : RM8) (v : Byte)
  /-- SAR r/m16, imm8 (R137) -/
  | sarRm16Imm8 (d : RM16) (v : Byte)
  /-- SHLD r/m16, r16, imm8 (R138) -/
  | shldRm16R16Imm8 (d : RM16) (r : Reg16) (v : Byte)
  /-- SHLD r/m16, r16, CL (R138) -/
  | shldRm16R16Cl (d : RM16) (r : Reg16)
  /-- SHRD r/m16, r16, imm8 (R139) -/
  | shrdRm16R16Imm8 (d : RM16) (r : Reg16) (v : Byte)
  /-- SHRD r/m16, r16, CL (R139) -/
  | shrdRm16R16Cl (d : RM16) (r : Reg16)
  /-- BTS r/m16, r16 (R155) -/
  | btsRm16R16 (d : RM16) (r : Reg16)
  /-- BTS r/m16, imm8 (R155) -/
  | btsRm16Imm8 (d : RM16) (v : Byte)
  /-- BTR r/m16, r16 (R156) -/
  | btrRm16R16 (d : RM16) (r : Reg16)
  /-- BTR r/m16, imm8 (R156) -/
  | btrRm16Imm8 (d : RM16) (v : Byte)
  /-- BTC r/m16, r16 (R157) -/
  | btcRm16R16 (d : RM16) (r : Reg16)
  /-- BTC r/m16, imm8 (R157) -/
  | btcRm16Imm8 (d : RM16) (v : Byte)
  /-- ADD r/m8, r8 (R158) -/
  | addRm8R8 (d : RM8) (r : Reg8)
  /-- ADD r/m16, r16 (R158) -/
  | addRm16R16 (d : RM16) (r : Reg16)
  /-- ADD r8, r/m8 (R158) -/
  | addR8Rm8 (r : Reg8) (d : RM8)
  /-- ADD r16, r/m16 (R158) -/
  | addR16Rm16 (r : Reg16) (d : RM16)
  /-- ADD AL, imm8 (R158) -/
  | addAlImm8 (v : Byte)
  /-- ADD AX, imm16 (R158) -/
  | addAxImm16 (v : Word)
  /-- ADD r/m8, imm8 (R158) -/
  | addRm8Imm8 (d : RM8) (v : Byte)
  /-- ADD r/m16, imm16 (R158) -/
  | addRm16Imm16 (d : RM16) (v : Word)
  /-- ADD r/m16, imm8 (R158) -/
  | addRm16Imm8 (d : RM16) (v : Byte)
  /-- OR r/m8, r8 (R165) -/
  | orRm8R8 (d : RM8) (r : Reg8)
  /-- OR r/m16, r16 (R165) -/
  | orRm16R16 (d : RM16) (r : Reg16)
  /-- OR r8, r/m8 (R165) -/
  | orR8Rm8 (r : Reg8) (d : RM8)
  /-- OR r16, r/m16 (R165) -/
  | orR16Rm16 (r : Reg16) (d : RM16)
  /-- OR AL, imm8 (R165) -/
  | orAlImm8 (v : Byte)
  /-- OR AX, imm16 (R165) -/
  | orAxImm16 (v : Word)
  /-- OR r/m8, imm8 (R165) -/
  | orRm8Imm8 (d : RM8) (v : Byte)
  /-- OR r/m16, imm16 (R165) -/
  | orRm16Imm16 (d : RM16) (v : Word)
  /-- OR r/m16, imm8 (R165) -/
  | orRm16Imm8 (d : RM16) (v : Byte)
  /-- ADC r/m8, r8 (R159) -/
  | adcRm8R8 (d : RM8) (r : Reg8)
  /-- ADC r/m16, r16 (R159) -/
  | adcRm16R16 (d : RM16) (r : Reg16)
  /-- ADC r8, r/m8 (R159) -/
  | adcR8Rm8 (r : Reg8) (d : RM8)
  /-- ADC r16, r/m16 (R159) -/
  | adcR16Rm16 (r : Reg16) (d : RM16)
  /-- ADC AL, imm8 (R159) -/
  | adcAlImm8 (v : Byte)
  /-- ADC AX, imm16 (R159) -/
  | adcAxImm16 (v : Word)
  /-- ADC r/m8, imm8 (R159) -/
  | adcRm8Imm8 (d : RM8) (v : Byte)
  /-- ADC r/m16, imm16 (R159) -/
  | adcRm16Imm16 (d : RM16) (v : Word)
  /-- ADC r/m16, imm8 (R159) -/
  | adcRm16Imm8 (d : RM16) (v : Byte)
  /-- SBB r/m8, r8 (R161) -/
  | sbbRm8R8 (d : RM8) (r : Reg8)
  /-- SBB r/m16, r16 (R161) -/
  | sbbRm16R16 (d : RM16) (r : Reg16)
  /-- SBB r8, r/m8 (R161) -/
  | sbbR8Rm8 (r : Reg8) (d : RM8)
  /-- SBB r16, r/m16 (R161) -/
  | sbbR16Rm16 (r : Reg16) (d : RM16)
  /-- SBB AL, imm8 (R161) -/
  | sbbAlImm8 (v : Byte)
  /-- SBB AX, imm16 (R161) -/
  | sbbAxImm16 (v : Word)
  /-- SBB r/m8, imm8 (R161) -/
  | sbbRm8Imm8 (d : RM8) (v : Byte)
  /-- SBB r/m16, imm16 (R161) -/
  | sbbRm16Imm16 (d : RM16) (v : Word)
  /-- SBB r/m16, imm8 (R161) -/
  | sbbRm16Imm8 (d : RM16) (v : Byte)
  /-- AND r/m8, r8 (R164) -/
  | andRm8R8 (d : RM8) (r : Reg8)
  /-- AND r/m16, r16 (R164) -/
  | andRm16R16 (d : RM16) (r : Reg16)
  /-- AND r8, r/m8 (R164) -/
  | andR8Rm8 (r : Reg8) (d : RM8)
  /-- AND r16, r/m16 (R164) -/
  | andR16Rm16 (r : Reg16) (d : RM16)
  /-- AND AL, imm8 (R164) -/
  | andAlImm8 (v : Byte)
  /-- AND AX, imm16 (R164) -/
  | andAxImm16 (v : Word)
  /-- AND r/m8, imm8 (R164) -/
  | andRm8Imm8 (d : RM8) (v : Byte)
  /-- AND r/m16, imm16 (R164) -/
  | andRm16Imm16 (d : RM16) (v : Word)
  /-- AND r/m16, imm8 (R164) -/
  | andRm16Imm8 (d : RM16) (v : Byte)
  /-- SUB r/m8, r8 (R160) -/
  | subRm8R8 (d : RM8) (r : Reg8)
  /-- SUB r/m16, r16 (R160) -/
  | subRm16R16 (d : RM16) (r : Reg16)
  /-- SUB r8, r/m8 (R160) -/
  | subR8Rm8 (r : Reg8) (d : RM8)
  /-- SUB r16, r/m16 (R160) -/
  | subR16Rm16 (r : Reg16) (d : RM16)
  /-- SUB AL, imm8 (R160) -/
  | subAlImm8 (v : Byte)
  /-- SUB AX, imm16 (R160) -/
  | subAxImm16 (v : Word)
  /-- SUB r/m8, imm8 (R160) -/
  | subRm8Imm8 (d : RM8) (v : Byte)
  /-- SUB r/m16, imm16 (R160) -/
  | subRm16Imm16 (d : RM16) (v : Word)
  /-- SUB r/m16, imm8 (R160) -/
  | subRm16Imm8 (d : RM16) (v : Byte)
  /-- XOR r/m8, r8 (R166) -/
  | xorRm8R8 (d : RM8) (r : Reg8)
  /-- XOR r/m16, r16 (R166) -/
  | xorRm16R16 (d : RM16) (r : Reg16)
  /-- XOR r8, r/m8 (R166) -/
  | xorR8Rm8 (r : Reg8) (d : RM8)
  /-- XOR r16, r/m16 (R166) -/
  | xorR16Rm16 (r : Reg16) (d : RM16)
  /-- XOR AL, imm8 (R166) -/
  | xorAlImm8 (v : Byte)
  /-- XOR AX, imm16 (R166) -/
  | xorAxImm16 (v : Word)
  /-- XOR r/m8, imm8 (R166) -/
  | xorRm8Imm8 (d : RM8) (v : Byte)
  /-- XOR r/m16, imm16 (R166) -/
  | xorRm16Imm16 (d : RM16) (v : Word)
  /-- XOR r/m16, imm8 (R166) -/
  | xorRm16Imm8 (d : RM16) (v : Byte)
  /-- INC r/m8 (R162) -/
  | incRm8 (d : RM8)
  /-- INC r/m16 (R162) -/
  | incRm16 (d : RM16)
  /-- INC r16 (R162) -/
  | incR16 (r : Reg16)
  /-- DEC r/m8 (R163) -/
  | decRm8 (d : RM8)
  /-- DEC r/m16 (R163) -/
  | decRm16 (d : RM16)
  /-- DEC r16 (R163) -/
  | decR16 (r : Reg16)
  /-- NOT r/m8 (R167) -/
  | notRm8 (d : RM8)
  /-- NOT r/m16 (R167) -/
  | notRm16 (d : RM16)
  /-- NEG r/m8 (R168) -/
  | negRm8 (d : RM8)
  /-- NEG r/m16 (R168) -/
  | negRm16 (d : RM16)
  /-- INT 3 (R180) -/
  | int3
  /-- INT n (R181) -/
  | intN (v : Byte)
  /-- INTO (R182) -/
  | into
  /-- BOUND r16, m16&16 (R183) -/
  | boundR16M (r : Reg16) (m : Mem)
  /-- IRET (R184) -/
  | iret
  /-- CALL rel16 (R185) -/
  | callRel16 (v : Word)
  /-- CALL r/m16 (R185) -/
  | callRm16 (d : RM16)
  /-- CALL ptr16:16 (R185) -/
  | callPtr16 (o : Word) (c : Word)
  /-- CALL m16:16 (R185) -/
  | callM16 (m : Mem)
  /-- LIDT m16&32 (R186) -/
  | lidtM (m : Mem)
  /-- ESC (coprocessor escape, D8..DF) (R187) -/
  | esc (x : BitVec 3) (y : BitVec 3) (d : RM16)
  /-- WAIT (R188) -/
  | wait
deriving DecidableEq, Repr

end Sys2Proof
end

