-- ==== Sys2Proof/WellFormed.lean ====
section
/-! DEFINITION. Which terms of `Instr` an encoding of the opcode table stands for. -/

namespace Sys2Proof

/-- BP alone has no encoding without a displacement (R75, R116). -/
def Mem.wellFormed : Mem → Bool
  | .base b => b != .bp
  | .direct _ => true
  | .disp8 _ _ => true
  | .disp16 _ _ => true

def RM.wellFormed {ρ : Type} : RM ρ → Bool
  | .reg _ => true
  | .mem m => m.wellFormed

/-- The row `PUSH r16` excludes SP, which has a row of its own (R84); `MOV Sreg` has no form for CS (R114). -/
def Instr.wellFormed : Instr → Bool
  | .lockPrefix => true
  | .esPrefix => true
  | .csPrefix => true
  | .ssPrefix => true
  | .dsPrefix => true
  | .fsPrefix => true
  | .gsPrefix => true
  | .repnePrefix => true
  | .repPrefix => true
  | .operandSizePrefix => true
  | .addressSizePrefix => true
  | .divRm8 d => d.wellFormed
  | .divRm16 d => d.wellFormed
  | .idivRm8 d => d.wellFormed
  | .idivRm16 d => d.wellFormed
  | .pushR16 r => r != .sp
  | .pushSp => true
  | .pushRm16 d => d.wellFormed
  | .pushImm16 _ => true
  | .pushImm8 _ => true
  | .pushEs => true
  | .pushCs => true
  | .pushSs => true
  | .pushDs => true
  | .pushFs => true
  | .pushGs => true
  | .pushf => true
  | .movRm8R8 d _ => d.wellFormed
  | .movRm16R16 d _ => d.wellFormed
  | .movR8Rm8 _ d => d.wellFormed
  | .movR16Rm16 _ d => d.wellFormed
  | .movRm16Sreg d _ => d.wellFormed
  | .movSregRm16 g d => g != .cs && d.wellFormed
  | .movAlMoffs8 _ => true
  | .movAxMoffs16 _ => true
  | .movMoffs8Al _ => true
  | .movMoffs16Ax _ => true
  | .movR8Imm8 _ _ => true
  | .movR16Imm16 _ _ => true
  | .movRm8Imm8 d _ => d.wellFormed
  | .movRm16Imm16 d _ => d.wellFormed
  | .xchgRm8R8 d _ => d.wellFormed
  | .xchgRm16R16 d _ => d.wellFormed
  | .xchgAxR16 _ => true
  | .rolRm8One d => d.wellFormed
  | .rolRm16One d => d.wellFormed
  | .rolRm8Cl d => d.wellFormed
  | .rolRm16Cl d => d.wellFormed
  | .rolRm8Imm8 d _ => d.wellFormed
  | .rolRm16Imm8 d _ => d.wellFormed
  | .rorRm8One d => d.wellFormed
  | .rorRm16One d => d.wellFormed
  | .rorRm8Cl d => d.wellFormed
  | .rorRm16Cl d => d.wellFormed
  | .rorRm8Imm8 d _ => d.wellFormed
  | .rorRm16Imm8 d _ => d.wellFormed
  | .rclRm8One d => d.wellFormed
  | .rclRm16One d => d.wellFormed
  | .rclRm8Cl d => d.wellFormed
  | .rclRm16Cl d => d.wellFormed
  | .rclRm8Imm8 d _ => d.wellFormed
  | .rclRm16Imm8 d _ => d.wellFormed
  | .rcrRm8One d => d.wellFormed
  | .rcrRm16One d => d.wellFormed
  | .rcrRm8Cl d => d.wellFormed
  | .rcrRm16Cl d => d.wellFormed
  | .rcrRm8Imm8 d _ => d.wellFormed
  | .rcrRm16Imm8 d _ => d.wellFormed
  | .shlRm8One d => d.wellFormed
  | .shlRm16One d => d.wellFormed
  | .shlRm8Cl d => d.wellFormed
  | .shlRm16Cl d => d.wellFormed
  | .shlRm8Imm8 d _ => d.wellFormed
  | .shlRm16Imm8 d _ => d.wellFormed
  | .shrRm8One d => d.wellFormed
  | .shrRm16One d => d.wellFormed
  | .shrRm8Cl d => d.wellFormed
  | .shrRm16Cl d => d.wellFormed
  | .shrRm8Imm8 d _ => d.wellFormed
  | .shrRm16Imm8 d _ => d.wellFormed
  | .sarRm8One d => d.wellFormed
  | .sarRm16One d => d.wellFormed
  | .sarRm8Cl d => d.wellFormed
  | .sarRm16Cl d => d.wellFormed
  | .sarRm8Imm8 d _ => d.wellFormed
  | .sarRm16Imm8 d _ => d.wellFormed
  | .shldRm16R16Imm8 d _ _ => d.wellFormed
  | .shldRm16R16Cl d _ => d.wellFormed
  | .shrdRm16R16Imm8 d _ _ => d.wellFormed
  | .shrdRm16R16Cl d _ => d.wellFormed
  | .btsRm16R16 d _ => d.wellFormed
  | .btsRm16Imm8 d _ => d.wellFormed
  | .btrRm16R16 d _ => d.wellFormed
  | .btrRm16Imm8 d _ => d.wellFormed
  | .btcRm16R16 d _ => d.wellFormed
  | .btcRm16Imm8 d _ => d.wellFormed
  | .addRm8R8 d _ => d.wellFormed
  | .addRm16R16 d _ => d.wellFormed
  | .addR8Rm8 _ d => d.wellFormed
  | .addR16Rm16 _ d => d.wellFormed
  | .addAlImm8 _ => true
  | .addAxImm16 _ => true
  | .addRm8Imm8 d _ => d.wellFormed
  | .addRm16Imm16 d _ => d.wellFormed
  | .addRm16Imm8 d _ => d.wellFormed
  | .orRm8R8 d _ => d.wellFormed
  | .orRm16R16 d _ => d.wellFormed
  | .orR8Rm8 _ d => d.wellFormed
  | .orR16Rm16 _ d => d.wellFormed
  | .orAlImm8 _ => true
  | .orAxImm16 _ => true
  | .orRm8Imm8 d _ => d.wellFormed
  | .orRm16Imm16 d _ => d.wellFormed
  | .orRm16Imm8 d _ => d.wellFormed
  | .adcRm8R8 d _ => d.wellFormed
  | .adcRm16R16 d _ => d.wellFormed
  | .adcR8Rm8 _ d => d.wellFormed
  | .adcR16Rm16 _ d => d.wellFormed
  | .adcAlImm8 _ => true
  | .adcAxImm16 _ => true
  | .adcRm8Imm8 d _ => d.wellFormed
  | .adcRm16Imm16 d _ => d.wellFormed
  | .adcRm16Imm8 d _ => d.wellFormed
  | .sbbRm8R8 d _ => d.wellFormed
  | .sbbRm16R16 d _ => d.wellFormed
  | .sbbR8Rm8 _ d => d.wellFormed
  | .sbbR16Rm16 _ d => d.wellFormed
  | .sbbAlImm8 _ => true
  | .sbbAxImm16 _ => true
  | .sbbRm8Imm8 d _ => d.wellFormed
  | .sbbRm16Imm16 d _ => d.wellFormed
  | .sbbRm16Imm8 d _ => d.wellFormed
  | .andRm8R8 d _ => d.wellFormed
  | .andRm16R16 d _ => d.wellFormed
  | .andR8Rm8 _ d => d.wellFormed
  | .andR16Rm16 _ d => d.wellFormed
  | .andAlImm8 _ => true
  | .andAxImm16 _ => true
  | .andRm8Imm8 d _ => d.wellFormed
  | .andRm16Imm16 d _ => d.wellFormed
  | .andRm16Imm8 d _ => d.wellFormed
  | .subRm8R8 d _ => d.wellFormed
  | .subRm16R16 d _ => d.wellFormed
  | .subR8Rm8 _ d => d.wellFormed
  | .subR16Rm16 _ d => d.wellFormed
  | .subAlImm8 _ => true
  | .subAxImm16 _ => true
  | .subRm8Imm8 d _ => d.wellFormed
  | .subRm16Imm16 d _ => d.wellFormed
  | .subRm16Imm8 d _ => d.wellFormed
  | .xorRm8R8 d _ => d.wellFormed
  | .xorRm16R16 d _ => d.wellFormed
  | .xorR8Rm8 _ d => d.wellFormed
  | .xorR16Rm16 _ d => d.wellFormed
  | .xorAlImm8 _ => true
  | .xorAxImm16 _ => true
  | .xorRm8Imm8 d _ => d.wellFormed
  | .xorRm16Imm16 d _ => d.wellFormed
  | .xorRm16Imm8 d _ => d.wellFormed
  | .incRm8 d => d.wellFormed
  | .incRm16 d => d.wellFormed
  | .incR16 _ => true
  | .decRm8 d => d.wellFormed
  | .decRm16 d => d.wellFormed
  | .decR16 _ => true
  | .notRm8 d => d.wellFormed
  | .notRm16 d => d.wellFormed
  | .negRm8 d => d.wellFormed
  | .negRm16 d => d.wellFormed
  | .int3 => true
  | .intN _ => true
  | .into => true
  | .boundR16M _ m => m.wellFormed
  | .iret => true
  | .callRel16 _ => true
  | .callRm16 d => d.wellFormed
  | .callPtr16 _ _ => true
  | .callM16 m => m.wellFormed
  | .lidtM m => m.wellFormed
  | .esc _ _ d => d.wellFormed
  | .wait => true

end Sys2Proof
end

