-- ==== Sys2Proof/Decode.lean ====
section
/-! DEFINITION. The decoder, total on any bytes, from the encodings of 30_encoding.md sections 2 and 6, and after it
the encoder. A prefix byte decodes to its own instruction (log 16). -/

namespace Sys2Proof

/-! ### Register numbers and fields -/

/-- R7, R11: `x[0]` to `x[7]`. -/
def Reg16.code : Reg16 → BitVec 3
  | .ax => 0 | .cx => 1 | .dx => 2 | .bx => 3 | .sp => 4 | .bp => 5 | .si => 6 | .di => 7

def Reg16.ofCode (n : BitVec 3) : Reg16 :=
  match n.toNat with
  | 0 => .ax | 1 => .cx | 2 => .dx | 3 => .bx | 4 => .sp | 5 => .bp | 6 => .si | _ => .di

/-- R7, R11: `x8[0]` to `x8[7]`. -/
def Reg8.code : Reg8 → BitVec 3
  | .al => 0 | .cl => 1 | .dl => 2 | .bl => 3 | .ah => 4 | .ch => 5 | .dh => 6 | .bh => 7

def Reg8.ofCode (n : BitVec 3) : Reg8 :=
  match n.toNat with
  | 0 => .al | 1 => .cl | 2 => .dl | 3 => .bl | 4 => .ah | 5 => .ch | 6 => .dh | _ => .bh

/-- R14, R75: ES = 0, CS = 1, SS = 2, DS = 3, FS = 4, GS = 5. -/
def Seg.code : Seg → BitVec 3
  | .es => 0 | .cs => 1 | .ss => 2 | .ds => 3 | .fs => 4 | .gs => 5

/-- R75: numbers 6 and 7 are undefined. -/
def Seg.ofCode (n : BitVec 3) : Option Seg :=
  match n.toNat with
  | 0 => some .es | 1 => some .cs | 2 => some .ss | 3 => some .ds | 4 => some .fs | 5 => some .gs | _ => none

/-- The `rm` column of R75's table. -/
def Base.code : Base → BitVec 3
  | .bxSi => 0 | .bxDi => 1 | .bpSi => 2 | .bpDi => 3 | .si => 4 | .di => 5 | .bp => 6 | .bx => 7

def Base.ofCode (n : BitVec 3) : Base :=
  match n.toNat with
  | 0 => .bxSi | 1 => .bxDi | 2 => .bpSi | 3 => .bpDi | 4 => .si | 5 => .di | 6 => .bp | _ => .bx

/-- The ModR/M byte: `mod = b[7:6]`, `reg = b[5:3]`, `rm = b[2:0]` (R75). -/
def modRm (mod : BitVec 2) (reg rm : BitVec 3) : Byte := mod ++ reg ++ rm

def modField (b : Byte) : BitVec 2 := b.extractLsb' 6 2
def regField (b : Byte) : BitVec 3 := b.extractLsb' 3 3
def rmField (b : Byte) : BitVec 3 := b.extractLsb' 0 3

/-- A word of two bytes, the low byte first (R46, R76; log 1). -/
def wordOf (lo hi : Byte) : Word := hi ++ lo

/-- The bytes of a word in memory order (R46, R76; log 1). -/
def encodeWord (v : Word) : List Byte := [v.extractLsb' 0 8, v.extractLsb' 8 8]

/-- How many bytes the ModR/M byte and the displacement of a memory operand take (R75). -/
def Mem.size : Mem → Nat
  | .base _ => 1
  | .direct _ => 3
  | .disp8 _ _ => 2
  | .disp16 _ _ => 3

/-- How many bytes the ModR/M byte and the displacement of an `r/m` operand take (R75). -/
def RM.size {ρ : Type} : RM ρ → Nat
  | .reg _ => 1
  | .mem m => m.size

/-- Whether the operand is memory, `mod != 11` (R151). -/
def RM.isMem {ρ : Type} : RM ρ → Bool
  | .reg _ => false
  | .mem _ => true

/-! ### Parsers -/

/-- Why no instruction is read from the bytes. -/
inductive DecodeError where
  /-- the bytes end before the instruction does -/
  | short
  /-- a form a rule calls undefined: `mod = 11` of BOUND, CALL m16:16, LIDT, a segment number 6 or 7, a load of CS
  (R75, R114, R183, R185, R186) -/
  | undefinedForm
  /-- no row of the opcode table matches (R72) -/
  | unknownOpcode
deriving DecidableEq, Repr

/-- What a parser answers: a value and the bytes after it, or why there is none. -/
abbrev Parsed (α : Type) := Except DecodeError (α × List Byte)

def takeByte : List Byte → Parsed Byte
  | [] => .error .short
  | b :: bs => .ok (b, bs)

def takeWord : List Byte → Parsed Word
  | lo :: hi :: bs => .ok (wordOf lo hi, bs)
  | _ => .error .short

/-- The operand of a ModR/M byte, a register still by its number, and its displacement (R75). -/
def takeOperand (b : Byte) (bs : List Byte) : Parsed (RM (BitVec 3)) :=
  match (modField b).toNat with
  | 0 =>
    if (rmField b).toNat = 6 then
      match takeWord bs with
      | .ok (o, rest) => .ok (.mem (.direct o), rest)
      | .error e => .error e
    else .ok (.mem (.base (Base.ofCode (rmField b))), bs)
  | 1 =>
    match takeByte bs with
    | .ok (o, rest) => .ok (.mem (.disp8 (Base.ofCode (rmField b)) o), rest)
    | .error e => .error e
  | 2 =>
    match takeWord bs with
    | .ok (o, rest) => .ok (.mem (.disp16 (Base.ofCode (rmField b)) o), rest)
    | .error e => .error e
  | _ => .ok (.reg (rmField b), bs)

/-- A ModR/M byte with its displacement: the `reg` field and the `r/m` operand (R75). -/
def takeModRm : List Byte → Parsed (BitVec 3 × RM (BitVec 3))
  | [] => .error .short
  | b :: bs =>
    match takeOperand b bs with
    | .ok (d, rest) => .ok ((regField b, d), rest)
    | .error e => .error e

/-- The same operand with its register named. -/
def RM.map {ρ σ : Type} (f : ρ → σ) : RM ρ → RM σ
  | .reg r => .reg (f r)
  | .mem m => .mem m

def toRm8 (d : RM (BitVec 3)) : RM8 := d.map Reg8.ofCode
def toRm16 (d : RM (BitVec 3)) : RM16 := d.map Reg16.ofCode

/-- Read one item, then go on with it. -/
def andThen {α β : Type} (p : Parsed α) (f : α → List Byte → Parsed β) : Parsed β :=
  match p with
  | .ok (a, rest) => f a rest
  | .error e => .error e

def parseByte (k : Byte → Instr) (bs : List Byte) : Parsed Instr :=
  andThen (takeByte bs) fun v rest => .ok (k v, rest)

def parseWord (k : Word → Instr) (bs : List Byte) : Parsed Instr :=
  andThen (takeWord bs) fun v rest => .ok (k v, rest)

def parseWords (k : Word → Word → Instr) (bs : List Byte) : Parsed Instr :=
  andThen (takeWord bs) fun v rest => parseWord (k v) rest

def parseRm8 (k : RM8 → Instr) (bs : List Byte) : Parsed Instr :=
  andThen (takeModRm bs) fun p rest => .ok (k (toRm8 p.2), rest)

def parseRm16 (k : RM16 → Instr) (bs : List Byte) : Parsed Instr :=
  andThen (takeModRm bs) fun p rest => .ok (k (toRm16 p.2), rest)

def parseRm8R8 (k : RM8 → Reg8 → Instr) (bs : List Byte) : Parsed Instr :=
  andThen (takeModRm bs) fun p rest => .ok (k (toRm8 p.2) (Reg8.ofCode p.1), rest)

def parseRm16R16 (k : RM16 → Reg16 → Instr) (bs : List Byte) : Parsed Instr :=
  andThen (takeModRm bs) fun p rest => .ok (k (toRm16 p.2) (Reg16.ofCode p.1), rest)

def parseRm8Byte (k : RM8 → Byte → Instr) (bs : List Byte) : Parsed Instr :=
  andThen (takeModRm bs) fun p rest => parseByte (k (toRm8 p.2)) rest

def parseRm16Byte (k : RM16 → Byte → Instr) (bs : List Byte) : Parsed Instr :=
  andThen (takeModRm bs) fun p rest => parseByte (k (toRm16 p.2)) rest

def parseRm16Word (k : RM16 → Word → Instr) (bs : List Byte) : Parsed Instr :=
  andThen (takeModRm bs) fun p rest => parseWord (k (toRm16 p.2)) rest

def parseRm16R16Byte (k : RM16 → Reg16 → Byte → Instr) (bs : List Byte) : Parsed Instr :=
  andThen (takeModRm bs) fun p rest => parseByte (k (toRm16 p.2) (Reg16.ofCode p.1)) rest

/-- A form whose `r/m` operand must be memory: `mod = 11` is undefined (R183, R185, R186). -/
def parseMem (k : BitVec 3 → Mem → Instr) (bs : List Byte) : Parsed Instr :=
  andThen (takeModRm bs) fun p rest =>
    match p.2 with
    | .mem m => .ok (k p.1 m, rest)
    | .reg _ => .error .undefinedForm

/-- Opcode 8C: `reg` is a segment register, 6 and 7 undefined (R75, R114). -/
def parseSeg (k : RM16 → Seg → Instr) (bs : List Byte) : Parsed Instr :=
  andThen (takeModRm bs) fun p rest =>
    match Seg.ofCode p.1 with
    | some g => .ok (k (toRm16 p.2) g, rest)
    | none => .error .undefinedForm

/-- Opcode 8E: as 8C, and CS is undefined too (R114). -/
def parseSegDest (k : Seg → RM16 → Instr) (bs : List Byte) : Parsed Instr :=
  andThen (takeModRm bs) fun p rest =>
    match Seg.ofCode p.1 with
    | some .cs => .error .undefinedForm
    | some g => .ok (k g (toRm16 p.2), rest)
    | none => .error .undefinedForm

/-- Opcodes D8 to DF: opcode bits 2:0 and the `reg` field select the coprocessor operation (R187). -/
def parseEsc (x : BitVec 3) (bs : List Byte) : Parsed Instr :=
  andThen (takeModRm bs) fun p rest => .ok (.esc x p.1 (toRm16 p.2), rest)

/-- A row chosen by the `reg` field of the ModR/M byte, which is read before any displacement (R78, R84). DESIGN CHOICE
(log 52): where no row has that `reg` field, no byte after the ModR/M byte belongs to the instruction. -/
def parseGroup (bs : List Byte) (rows : Nat → Option (List Byte → Parsed Instr)) : Parsed Instr :=
  match bs with
  | [] => .error .short
  | b :: _ =>
    match rows (regField b).toNat with
    | some p => p bs
    | none => .error .unknownOpcode

/-! ### The decoder -/

/-- The prefix bytes (R77, R81, R150). -/
def decodePrefix (b : Byte) : Option Instr :=
  match b.toNat with
  | 0xF0 => some .lockPrefix
  | 0x26 => some .esPrefix
  | 0x2E => some .csPrefix
  | 0x36 => some .ssPrefix
  | 0x3E => some .dsPrefix
  | 0x64 => some .fsPrefix
  | 0x65 => some .gsPrefix
  | 0xF2 => some .repnePrefix
  | 0xF3 => some .repPrefix
  | 0x66 => some .operandSizePrefix
  | 0x67 => some .addressSizePrefix
  | _ => none

/-! The rows of an opcode whose `reg` field selects the operation (30_encoding.md section 6). -/

/-- Rows by the number in the `reg` field. -/
abbrev Rows := Nat → Option (List Byte → Parsed Instr)

/-- Opcode 80. -/
def group80 : Rows
  | 0 => some (parseRm8Byte .addRm8Imm8)
  | 1 => some (parseRm8Byte .orRm8Imm8)
  | 2 => some (parseRm8Byte .adcRm8Imm8)
  | 3 => some (parseRm8Byte .sbbRm8Imm8)
  | 4 => some (parseRm8Byte .andRm8Imm8)
  | 5 => some (parseRm8Byte .subRm8Imm8)
  | 6 => some (parseRm8Byte .xorRm8Imm8)
  | _ => none

/-- Opcode 81. -/
def group81 : Rows
  | 0 => some (parseRm16Word .addRm16Imm16)
  | 1 => some (parseRm16Word .orRm16Imm16)
  | 2 => some (parseRm16Word .adcRm16Imm16)
  | 3 => some (parseRm16Word .sbbRm16Imm16)
  | 4 => some (parseRm16Word .andRm16Imm16)
  | 5 => some (parseRm16Word .subRm16Imm16)
  | 6 => some (parseRm16Word .xorRm16Imm16)
  | _ => none

/-- Opcode 83. -/
def group83 : Rows
  | 0 => some (parseRm16Byte .addRm16Imm8)
  | 1 => some (parseRm16Byte .orRm16Imm8)
  | 2 => some (parseRm16Byte .adcRm16Imm8)
  | 3 => some (parseRm16Byte .sbbRm16Imm8)
  | 4 => some (parseRm16Byte .andRm16Imm8)
  | 5 => some (parseRm16Byte .subRm16Imm8)
  | 6 => some (parseRm16Byte .xorRm16Imm8)
  | _ => none

/-- Opcode C0. -/
def groupC0 : Rows
  | 0 => some (parseRm8Byte .rolRm8Imm8)
  | 1 => some (parseRm8Byte .rorRm8Imm8)
  | 2 => some (parseRm8Byte .rclRm8Imm8)
  | 3 => some (parseRm8Byte .rcrRm8Imm8)
  | 4 => some (parseRm8Byte .shlRm8Imm8)
  | 5 => some (parseRm8Byte .shrRm8Imm8)
  | 7 => some (parseRm8Byte .sarRm8Imm8)
  | _ => none

/-- Opcode C1. -/
def groupC1 : Rows
  | 0 => some (parseRm16Byte .rolRm16Imm8)
  | 1 => some (parseRm16Byte .rorRm16Imm8)
  | 2 => some (parseRm16Byte .rclRm16Imm8)
  | 3 => some (parseRm16Byte .rcrRm16Imm8)
  | 4 => some (parseRm16Byte .shlRm16Imm8)
  | 5 => some (parseRm16Byte .shrRm16Imm8)
  | 7 => some (parseRm16Byte .sarRm16Imm8)
  | _ => none

/-- Opcode C6. -/
def groupC6 : Rows
  | 0 => some (parseRm8Byte .movRm8Imm8)
  | _ => none

/-- Opcode C7. -/
def groupC7 : Rows
  | 0 => some (parseRm16Word .movRm16Imm16)
  | _ => none

/-- Opcode D0. -/
def groupD0 : Rows
  | 0 => some (parseRm8 .rolRm8One)
  | 1 => some (parseRm8 .rorRm8One)
  | 2 => some (parseRm8 .rclRm8One)
  | 3 => some (parseRm8 .rcrRm8One)
  | 4 => some (parseRm8 .shlRm8One)
  | 5 => some (parseRm8 .shrRm8One)
  | 7 => some (parseRm8 .sarRm8One)
  | _ => none

/-- Opcode D1. -/
def groupD1 : Rows
  | 0 => some (parseRm16 .rolRm16One)
  | 1 => some (parseRm16 .rorRm16One)
  | 2 => some (parseRm16 .rclRm16One)
  | 3 => some (parseRm16 .rcrRm16One)
  | 4 => some (parseRm16 .shlRm16One)
  | 5 => some (parseRm16 .shrRm16One)
  | 7 => some (parseRm16 .sarRm16One)
  | _ => none

/-- Opcode D2. -/
def groupD2 : Rows
  | 0 => some (parseRm8 .rolRm8Cl)
  | 1 => some (parseRm8 .rorRm8Cl)
  | 2 => some (parseRm8 .rclRm8Cl)
  | 3 => some (parseRm8 .rcrRm8Cl)
  | 4 => some (parseRm8 .shlRm8Cl)
  | 5 => some (parseRm8 .shrRm8Cl)
  | 7 => some (parseRm8 .sarRm8Cl)
  | _ => none

/-- Opcode D3. -/
def groupD3 : Rows
  | 0 => some (parseRm16 .rolRm16Cl)
  | 1 => some (parseRm16 .rorRm16Cl)
  | 2 => some (parseRm16 .rclRm16Cl)
  | 3 => some (parseRm16 .rcrRm16Cl)
  | 4 => some (parseRm16 .shlRm16Cl)
  | 5 => some (parseRm16 .shrRm16Cl)
  | 7 => some (parseRm16 .sarRm16Cl)
  | _ => none

/-- Opcode F6. -/
def groupF6 : Rows
  | 2 => some (parseRm8 .notRm8)
  | 3 => some (parseRm8 .negRm8)
  | 6 => some (parseRm8 .divRm8)
  | 7 => some (parseRm8 .idivRm8)
  | _ => none

/-- Opcode F7. -/
def groupF7 : Rows
  | 2 => some (parseRm16 .notRm16)
  | 3 => some (parseRm16 .negRm16)
  | 6 => some (parseRm16 .divRm16)
  | 7 => some (parseRm16 .idivRm16)
  | _ => none

/-- Opcode FE. -/
def groupFE : Rows
  | 0 => some (parseRm8 .incRm8)
  | 1 => some (parseRm8 .decRm8)
  | _ => none

/-- Opcode FF. -/
def groupFF : Rows
  | 0 => some (parseRm16 .incRm16)
  | 1 => some (parseRm16 .decRm16)
  | 2 => some (parseRm16 .callRm16)
  | 3 => some (parseMem (fun _ m => .callM16 m))
  | 6 => some (parseRm16 .pushRm16)
  | _ => none

/-- Opcode 0F 01. -/
def group0F01 : Rows
  | 3 => some (parseMem (fun _ m => .lidtM m))
  | _ => none

/-- Opcode 0F BA. -/
def group0FBA : Rows
  | 5 => some (parseRm16Byte .btsRm16Imm8)
  | 6 => some (parseRm16Byte .btrRm16Imm8)
  | 7 => some (parseRm16Byte .btcRm16Imm8)
  | _ => none

/-- The one-byte opcodes (30_encoding.md section 6); `bs` are the bytes after the opcode. -/
def decodePrimary (op : Nat) (bs : List Byte) : Parsed Instr :=
  match op with
  | 0x00 => parseRm8R8 .addRm8R8 bs
  | 0x01 => parseRm16R16 .addRm16R16 bs
  | 0x02 => parseRm8R8 (fun d r => .addR8Rm8 r d) bs
  | 0x03 => parseRm16R16 (fun d r => .addR16Rm16 r d) bs
  | 0x04 => parseByte .addAlImm8 bs
  | 0x05 => parseWord .addAxImm16 bs
  | 0x08 => parseRm8R8 .orRm8R8 bs
  | 0x09 => parseRm16R16 .orRm16R16 bs
  | 0x0A => parseRm8R8 (fun d r => .orR8Rm8 r d) bs
  | 0x0B => parseRm16R16 (fun d r => .orR16Rm16 r d) bs
  | 0x0C => parseByte .orAlImm8 bs
  | 0x0D => parseWord .orAxImm16 bs
  | 0x10 => parseRm8R8 .adcRm8R8 bs
  | 0x11 => parseRm16R16 .adcRm16R16 bs
  | 0x12 => parseRm8R8 (fun d r => .adcR8Rm8 r d) bs
  | 0x13 => parseRm16R16 (fun d r => .adcR16Rm16 r d) bs
  | 0x14 => parseByte .adcAlImm8 bs
  | 0x15 => parseWord .adcAxImm16 bs
  | 0x18 => parseRm8R8 .sbbRm8R8 bs
  | 0x19 => parseRm16R16 .sbbRm16R16 bs
  | 0x1A => parseRm8R8 (fun d r => .sbbR8Rm8 r d) bs
  | 0x1B => parseRm16R16 (fun d r => .sbbR16Rm16 r d) bs
  | 0x1C => parseByte .sbbAlImm8 bs
  | 0x1D => parseWord .sbbAxImm16 bs
  | 0x20 => parseRm8R8 .andRm8R8 bs
  | 0x21 => parseRm16R16 .andRm16R16 bs
  | 0x22 => parseRm8R8 (fun d r => .andR8Rm8 r d) bs
  | 0x23 => parseRm16R16 (fun d r => .andR16Rm16 r d) bs
  | 0x24 => parseByte .andAlImm8 bs
  | 0x25 => parseWord .andAxImm16 bs
  | 0x28 => parseRm8R8 .subRm8R8 bs
  | 0x29 => parseRm16R16 .subRm16R16 bs
  | 0x2A => parseRm8R8 (fun d r => .subR8Rm8 r d) bs
  | 0x2B => parseRm16R16 (fun d r => .subR16Rm16 r d) bs
  | 0x2C => parseByte .subAlImm8 bs
  | 0x2D => parseWord .subAxImm16 bs
  | 0x30 => parseRm8R8 .xorRm8R8 bs
  | 0x31 => parseRm16R16 .xorRm16R16 bs
  | 0x32 => parseRm8R8 (fun d r => .xorR8Rm8 r d) bs
  | 0x33 => parseRm16R16 (fun d r => .xorR16Rm16 r d) bs
  | 0x34 => parseByte .xorAlImm8 bs
  | 0x35 => parseWord .xorAxImm16 bs
  | 0x06 => .ok (.pushEs, bs)
  | 0x0E => .ok (.pushCs, bs)
  | 0x16 => .ok (.pushSs, bs)
  | 0x1E => .ok (.pushDs, bs)
  | 0x40 | 0x41 | 0x42 | 0x43 | 0x44 | 0x45 | 0x46 | 0x47 => .ok (.incR16 (Reg16.ofCode (.ofNat 3 op)), bs)
  | 0x48 | 0x49 | 0x4A | 0x4B | 0x4C | 0x4D | 0x4E | 0x4F => .ok (.decR16 (Reg16.ofCode (.ofNat 3 op)), bs)
  | 0x54 => .ok (.pushSp, bs)
  | 0x50 | 0x51 | 0x52 | 0x53 | 0x55 | 0x56 | 0x57 => .ok (.pushR16 (Reg16.ofCode (.ofNat 3 op)), bs)
  | 0x62 => parseMem (fun y m => .boundR16M (Reg16.ofCode y) m) bs
  | 0x68 => parseWord .pushImm16 bs
  | 0x6A => parseByte .pushImm8 bs
  | 0x80 => parseGroup bs group80
  | 0x81 => parseGroup bs group81
  | 0x83 => parseGroup bs group83
  | 0x86 => parseRm8R8 .xchgRm8R8 bs
  | 0x87 => parseRm16R16 .xchgRm16R16 bs
  | 0x88 => parseRm8R8 .movRm8R8 bs
  | 0x89 => parseRm16R16 .movRm16R16 bs
  | 0x8A => parseRm8R8 (fun d r => .movR8Rm8 r d) bs
  | 0x8B => parseRm16R16 (fun d r => .movR16Rm16 r d) bs
  | 0x8C => parseSeg .movRm16Sreg bs
  | 0x8E => parseSegDest .movSregRm16 bs
  | 0x90 | 0x91 | 0x92 | 0x93 | 0x94 | 0x95 | 0x96 | 0x97 => .ok (.xchgAxR16 (Reg16.ofCode (.ofNat 3 op)), bs)
  | 0x9A => parseWords .callPtr16 bs
  | 0x9B => .ok (.wait, bs)
  | 0x9C => .ok (.pushf, bs)
  | 0xA0 => parseWord .movAlMoffs8 bs
  | 0xA1 => parseWord .movAxMoffs16 bs
  | 0xA2 => parseWord .movMoffs8Al bs
  | 0xA3 => parseWord .movMoffs16Ax bs
  | 0xB0 | 0xB1 | 0xB2 | 0xB3 | 0xB4 | 0xB5 | 0xB6 | 0xB7 => parseByte (.movR8Imm8 (Reg8.ofCode (.ofNat 3 op))) bs
  | 0xB8 | 0xB9 | 0xBA | 0xBB | 0xBC | 0xBD | 0xBE | 0xBF => parseWord (.movR16Imm16 (Reg16.ofCode (.ofNat 3 op))) bs
  | 0xC0 => parseGroup bs groupC0
  | 0xC1 => parseGroup bs groupC1
  | 0xC6 => parseGroup bs groupC6
  | 0xC7 => parseGroup bs groupC7
  | 0xCC => .ok (.int3, bs)
  | 0xCD => parseByte .intN bs
  | 0xCE => .ok (.into, bs)
  | 0xCF => .ok (.iret, bs)
  | 0xD0 => parseGroup bs groupD0
  | 0xD1 => parseGroup bs groupD1
  | 0xD2 => parseGroup bs groupD2
  | 0xD3 => parseGroup bs groupD3
  | 0xD8 | 0xD9 | 0xDA | 0xDB | 0xDC | 0xDD | 0xDE | 0xDF => parseEsc (.ofNat 3 op) bs
  | 0xE8 => parseWord .callRel16 bs
  | 0xF6 => parseGroup bs groupF6
  | 0xF7 => parseGroup bs groupF7
  | 0xFE => parseGroup bs groupFE
  | 0xFF => parseGroup bs groupFF
  | _ => .error .unknownOpcode

/-- The opcodes after the escape byte 0F (30_encoding.md section 6). -/
def decodeEscaped (op : Nat) (bs : List Byte) : Parsed Instr :=
  match op with
  | 0x01 => parseGroup bs group0F01
  | 0xA0 => .ok (.pushFs, bs)
  | 0xA4 => parseRm16R16Byte .shldRm16R16Imm8 bs
  | 0xA5 => parseRm16R16 .shldRm16R16Cl bs
  | 0xA8 => .ok (.pushGs, bs)
  | 0xAB => parseRm16R16 .btsRm16R16 bs
  | 0xAC => parseRm16R16Byte .shrdRm16R16Imm8 bs
  | 0xAD => parseRm16R16 .shrdRm16R16Cl bs
  | 0xB3 => parseRm16R16 .btrRm16R16 bs
  | 0xBA => parseGroup bs group0FBA
  | 0xBB => parseRm16R16 .btcRm16R16 bs
  | _ => .error .unknownOpcode

/-- One instruction from its first byte that is no prefix on (R78). -/
def decodeOp : List Byte → Parsed Instr
  | [] => .error .short
  | b :: bs =>
    if b.toNat = 0x0F then
      match bs with
      | [] => .error .short
      | b2 :: rest => decodeEscaped b2.toNat rest
    else decodePrimary b.toNat bs

/-- One item of the instruction stream: a prefix, or an instruction without its prefixes. -/
def decode : List Byte → Parsed Instr
  | [] => .error .short
  | b :: bs =>
    match decodePrefix b with
    | some p => .ok (p, bs)
    | none => decodeOp (b :: bs)

/-- The leading prefixes of an instruction and the bytes after them (R78). -/
def splitPrefixes : List Byte → List Instr × List Byte
  | [] => ([], [])
  | b :: bs =>
    match decodePrefix b with
    | some p => (p :: (splitPrefixes bs).1, (splitPrefixes bs).2)
    | none => ([], b :: bs)

/-- Whether the bytes match a pattern; `none` where the bytes end before the answer is known (R84). -/
def matchPattern : Pattern → List Byte → Option Bool
  | [], _ => some true
  | _ :: _, [] => none
  | (v, k) :: ps, b :: bs => if b &&& k = v then matchPattern ps bs else some false

/-- Whether the bytes match one of the patterns (UNDEFINED_OPCODES, R72); `none` where more bytes are needed. -/
def matchAny : List Pattern → List Byte → Option Bool
  | [], _ => some false
  | p :: ps, bs =>
    match matchPattern p bs with
    | some true => some true
    | some false => matchAny ps bs
    | none =>
      match matchAny ps bs with
      | some true => some true
      | _ => none

/-- The decoder with UNDEFINED_OPCODES: a pattern of that set is an undefined form, any other pattern outside the
opcode table stays unknown (R72, D14). DESIGN CHOICE (log 47): where no row matches and a pattern needs a byte that R78
does not fetch, the instruction counts as incomplete until that byte is there. -/
def decodeWith (undefinedOpcodes : List Pattern) (bs : List Byte) : Parsed Instr :=
  match decodeOp bs with
  | .error .unknownOpcode =>
    match matchAny undefinedOpcodes bs with
    | some true => .error .undefinedForm
    | some false => .error .unknownOpcode
    | none => .error .short
  | r => r

/-! ### The encoder -/

def encodeMem (y : BitVec 3) : Mem → List Byte
  | .base b => [modRm 0 y b.code]
  | .direct o => modRm 0 y 6 :: encodeWord o
  | .disp8 b o => [modRm 1 y b.code, o]
  | .disp16 b o => modRm 2 y b.code :: encodeWord o

def encodeRm8 (y : BitVec 3) : RM8 → List Byte
  | .reg r => [modRm 3 y r.code]
  | .mem m => encodeMem y m

def encodeRm16 (y : BitVec 3) : RM16 → List Byte
  | .reg r => [modRm 3 y r.code]
  | .mem m => encodeMem y m

/-- The bytes of an instruction, first byte first (30_encoding.md section 6). -/
def encode : Instr → List Byte
  | .lockPrefix => [0xF0#8]
  | .esPrefix => [0x26#8]
  | .csPrefix => [0x2E#8]
  | .ssPrefix => [0x36#8]
  | .dsPrefix => [0x3E#8]
  | .fsPrefix => [0x64#8]
  | .gsPrefix => [0x65#8]
  | .repnePrefix => [0xF2#8]
  | .repPrefix => [0xF3#8]
  | .operandSizePrefix => [0x66#8]
  | .addressSizePrefix => [0x67#8]
  | .divRm8 d => 0xF6#8 :: encodeRm8 6 d
  | .divRm16 d => 0xF7#8 :: encodeRm16 6 d
  | .idivRm8 d => 0xF6#8 :: encodeRm8 7 d
  | .idivRm16 d => 0xF7#8 :: encodeRm16 7 d
  | .pushR16 r => [0x50#8 + r.code.setWidth 8]
  | .pushSp => [0x54#8]
  | .pushRm16 d => 0xFF#8 :: encodeRm16 6 d
  | .pushImm16 v => 0x68#8 :: encodeWord v
  | .pushImm8 v => [0x6A#8, v]
  | .pushEs => [0x06#8]
  | .pushCs => [0x0E#8]
  | .pushSs => [0x16#8]
  | .pushDs => [0x1E#8]
  | .pushFs => [0x0F#8, 0xA0#8]
  | .pushGs => [0x0F#8, 0xA8#8]
  | .pushf => [0x9C#8]
  | .movRm8R8 d r => 0x88#8 :: encodeRm8 r.code d
  | .movRm16R16 d r => 0x89#8 :: encodeRm16 r.code d
  | .movR8Rm8 r d => 0x8A#8 :: encodeRm8 r.code d
  | .movR16Rm16 r d => 0x8B#8 :: encodeRm16 r.code d
  | .movRm16Sreg d g => 0x8C#8 :: encodeRm16 g.code d
  | .movSregRm16 g d => 0x8E#8 :: encodeRm16 g.code d
  | .movAlMoffs8 o => 0xA0#8 :: encodeWord o
  | .movAxMoffs16 o => 0xA1#8 :: encodeWord o
  | .movMoffs8Al o => 0xA2#8 :: encodeWord o
  | .movMoffs16Ax o => 0xA3#8 :: encodeWord o
  | .movR8Imm8 r v => [0xB0#8 + r.code.setWidth 8, v]
  | .movR16Imm16 r v => (0xB8#8 + r.code.setWidth 8) :: encodeWord v
  | .movRm8Imm8 d v => 0xC6#8 :: encodeRm8 0 d ++ [v]
  | .movRm16Imm16 d v => 0xC7#8 :: encodeRm16 0 d ++ encodeWord v
  | .xchgRm8R8 d r => 0x86#8 :: encodeRm8 r.code d
  | .xchgRm16R16 d r => 0x87#8 :: encodeRm16 r.code d
  | .xchgAxR16 r => [0x90#8 + r.code.setWidth 8]
  | .rolRm8One d => 0xD0#8 :: encodeRm8 0 d
  | .rolRm16One d => 0xD1#8 :: encodeRm16 0 d
  | .rolRm8Cl d => 0xD2#8 :: encodeRm8 0 d
  | .rolRm16Cl d => 0xD3#8 :: encodeRm16 0 d
  | .rolRm8Imm8 d v => 0xC0#8 :: encodeRm8 0 d ++ [v]
  | .rolRm16Imm8 d v => 0xC1#8 :: encodeRm16 0 d ++ [v]
  | .rorRm8One d => 0xD0#8 :: encodeRm8 1 d
  | .rorRm16One d => 0xD1#8 :: encodeRm16 1 d
  | .rorRm8Cl d => 0xD2#8 :: encodeRm8 1 d
  | .rorRm16Cl d => 0xD3#8 :: encodeRm16 1 d
  | .rorRm8Imm8 d v => 0xC0#8 :: encodeRm8 1 d ++ [v]
  | .rorRm16Imm8 d v => 0xC1#8 :: encodeRm16 1 d ++ [v]
  | .rclRm8One d => 0xD0#8 :: encodeRm8 2 d
  | .rclRm16One d => 0xD1#8 :: encodeRm16 2 d
  | .rclRm8Cl d => 0xD2#8 :: encodeRm8 2 d
  | .rclRm16Cl d => 0xD3#8 :: encodeRm16 2 d
  | .rclRm8Imm8 d v => 0xC0#8 :: encodeRm8 2 d ++ [v]
  | .rclRm16Imm8 d v => 0xC1#8 :: encodeRm16 2 d ++ [v]
  | .rcrRm8One d => 0xD0#8 :: encodeRm8 3 d
  | .rcrRm16One d => 0xD1#8 :: encodeRm16 3 d
  | .rcrRm8Cl d => 0xD2#8 :: encodeRm8 3 d
  | .rcrRm16Cl d => 0xD3#8 :: encodeRm16 3 d
  | .rcrRm8Imm8 d v => 0xC0#8 :: encodeRm8 3 d ++ [v]
  | .rcrRm16Imm8 d v => 0xC1#8 :: encodeRm16 3 d ++ [v]
  | .shlRm8One d => 0xD0#8 :: encodeRm8 4 d
  | .shlRm16One d => 0xD1#8 :: encodeRm16 4 d
  | .shlRm8Cl d => 0xD2#8 :: encodeRm8 4 d
  | .shlRm16Cl d => 0xD3#8 :: encodeRm16 4 d
  | .shlRm8Imm8 d v => 0xC0#8 :: encodeRm8 4 d ++ [v]
  | .shlRm16Imm8 d v => 0xC1#8 :: encodeRm16 4 d ++ [v]
  | .shrRm8One d => 0xD0#8 :: encodeRm8 5 d
  | .shrRm16One d => 0xD1#8 :: encodeRm16 5 d
  | .shrRm8Cl d => 0xD2#8 :: encodeRm8 5 d
  | .shrRm16Cl d => 0xD3#8 :: encodeRm16 5 d
  | .shrRm8Imm8 d v => 0xC0#8 :: encodeRm8 5 d ++ [v]
  | .shrRm16Imm8 d v => 0xC1#8 :: encodeRm16 5 d ++ [v]
  | .sarRm8One d => 0xD0#8 :: encodeRm8 7 d
  | .sarRm16One d => 0xD1#8 :: encodeRm16 7 d
  | .sarRm8Cl d => 0xD2#8 :: encodeRm8 7 d
  | .sarRm16Cl d => 0xD3#8 :: encodeRm16 7 d
  | .sarRm8Imm8 d v => 0xC0#8 :: encodeRm8 7 d ++ [v]
  | .sarRm16Imm8 d v => 0xC1#8 :: encodeRm16 7 d ++ [v]
  | .shldRm16R16Imm8 d r v => 0x0F#8 :: 0xA4#8 :: encodeRm16 r.code d ++ [v]
  | .shldRm16R16Cl d r => 0x0F#8 :: 0xA5#8 :: encodeRm16 r.code d
  | .shrdRm16R16Imm8 d r v => 0x0F#8 :: 0xAC#8 :: encodeRm16 r.code d ++ [v]
  | .shrdRm16R16Cl d r => 0x0F#8 :: 0xAD#8 :: encodeRm16 r.code d
  | .btsRm16R16 d r => 0x0F#8 :: 0xAB#8 :: encodeRm16 r.code d
  | .btsRm16Imm8 d v => 0x0F#8 :: 0xBA#8 :: encodeRm16 5 d ++ [v]
  | .btrRm16R16 d r => 0x0F#8 :: 0xB3#8 :: encodeRm16 r.code d
  | .btrRm16Imm8 d v => 0x0F#8 :: 0xBA#8 :: encodeRm16 6 d ++ [v]
  | .btcRm16R16 d r => 0x0F#8 :: 0xBB#8 :: encodeRm16 r.code d
  | .btcRm16Imm8 d v => 0x0F#8 :: 0xBA#8 :: encodeRm16 7 d ++ [v]
  | .addRm8R8 d r => 0x00#8 :: encodeRm8 r.code d
  | .addRm16R16 d r => 0x01#8 :: encodeRm16 r.code d
  | .addR8Rm8 r d => 0x02#8 :: encodeRm8 r.code d
  | .addR16Rm16 r d => 0x03#8 :: encodeRm16 r.code d
  | .addAlImm8 v => [0x04#8, v]
  | .addAxImm16 v => 0x05#8 :: encodeWord v
  | .addRm8Imm8 d v => 0x80#8 :: encodeRm8 0 d ++ [v]
  | .addRm16Imm16 d v => 0x81#8 :: encodeRm16 0 d ++ encodeWord v
  | .addRm16Imm8 d v => 0x83#8 :: encodeRm16 0 d ++ [v]
  | .orRm8R8 d r => 0x08#8 :: encodeRm8 r.code d
  | .orRm16R16 d r => 0x09#8 :: encodeRm16 r.code d
  | .orR8Rm8 r d => 0x0A#8 :: encodeRm8 r.code d
  | .orR16Rm16 r d => 0x0B#8 :: encodeRm16 r.code d
  | .orAlImm8 v => [0x0C#8, v]
  | .orAxImm16 v => 0x0D#8 :: encodeWord v
  | .orRm8Imm8 d v => 0x80#8 :: encodeRm8 1 d ++ [v]
  | .orRm16Imm16 d v => 0x81#8 :: encodeRm16 1 d ++ encodeWord v
  | .orRm16Imm8 d v => 0x83#8 :: encodeRm16 1 d ++ [v]
  | .adcRm8R8 d r => 0x10#8 :: encodeRm8 r.code d
  | .adcRm16R16 d r => 0x11#8 :: encodeRm16 r.code d
  | .adcR8Rm8 r d => 0x12#8 :: encodeRm8 r.code d
  | .adcR16Rm16 r d => 0x13#8 :: encodeRm16 r.code d
  | .adcAlImm8 v => [0x14#8, v]
  | .adcAxImm16 v => 0x15#8 :: encodeWord v
  | .adcRm8Imm8 d v => 0x80#8 :: encodeRm8 2 d ++ [v]
  | .adcRm16Imm16 d v => 0x81#8 :: encodeRm16 2 d ++ encodeWord v
  | .adcRm16Imm8 d v => 0x83#8 :: encodeRm16 2 d ++ [v]
  | .sbbRm8R8 d r => 0x18#8 :: encodeRm8 r.code d
  | .sbbRm16R16 d r => 0x19#8 :: encodeRm16 r.code d
  | .sbbR8Rm8 r d => 0x1A#8 :: encodeRm8 r.code d
  | .sbbR16Rm16 r d => 0x1B#8 :: encodeRm16 r.code d
  | .sbbAlImm8 v => [0x1C#8, v]
  | .sbbAxImm16 v => 0x1D#8 :: encodeWord v
  | .sbbRm8Imm8 d v => 0x80#8 :: encodeRm8 3 d ++ [v]
  | .sbbRm16Imm16 d v => 0x81#8 :: encodeRm16 3 d ++ encodeWord v
  | .sbbRm16Imm8 d v => 0x83#8 :: encodeRm16 3 d ++ [v]
  | .andRm8R8 d r => 0x20#8 :: encodeRm8 r.code d
  | .andRm16R16 d r => 0x21#8 :: encodeRm16 r.code d
  | .andR8Rm8 r d => 0x22#8 :: encodeRm8 r.code d
  | .andR16Rm16 r d => 0x23#8 :: encodeRm16 r.code d
  | .andAlImm8 v => [0x24#8, v]
  | .andAxImm16 v => 0x25#8 :: encodeWord v
  | .andRm8Imm8 d v => 0x80#8 :: encodeRm8 4 d ++ [v]
  | .andRm16Imm16 d v => 0x81#8 :: encodeRm16 4 d ++ encodeWord v
  | .andRm16Imm8 d v => 0x83#8 :: encodeRm16 4 d ++ [v]
  | .subRm8R8 d r => 0x28#8 :: encodeRm8 r.code d
  | .subRm16R16 d r => 0x29#8 :: encodeRm16 r.code d
  | .subR8Rm8 r d => 0x2A#8 :: encodeRm8 r.code d
  | .subR16Rm16 r d => 0x2B#8 :: encodeRm16 r.code d
  | .subAlImm8 v => [0x2C#8, v]
  | .subAxImm16 v => 0x2D#8 :: encodeWord v
  | .subRm8Imm8 d v => 0x80#8 :: encodeRm8 5 d ++ [v]
  | .subRm16Imm16 d v => 0x81#8 :: encodeRm16 5 d ++ encodeWord v
  | .subRm16Imm8 d v => 0x83#8 :: encodeRm16 5 d ++ [v]
  | .xorRm8R8 d r => 0x30#8 :: encodeRm8 r.code d
  | .xorRm16R16 d r => 0x31#8 :: encodeRm16 r.code d
  | .xorR8Rm8 r d => 0x32#8 :: encodeRm8 r.code d
  | .xorR16Rm16 r d => 0x33#8 :: encodeRm16 r.code d
  | .xorAlImm8 v => [0x34#8, v]
  | .xorAxImm16 v => 0x35#8 :: encodeWord v
  | .xorRm8Imm8 d v => 0x80#8 :: encodeRm8 6 d ++ [v]
  | .xorRm16Imm16 d v => 0x81#8 :: encodeRm16 6 d ++ encodeWord v
  | .xorRm16Imm8 d v => 0x83#8 :: encodeRm16 6 d ++ [v]
  | .incRm8 d => 0xFE#8 :: encodeRm8 0 d
  | .incRm16 d => 0xFF#8 :: encodeRm16 0 d
  | .incR16 r => [0x40#8 + r.code.setWidth 8]
  | .decRm8 d => 0xFE#8 :: encodeRm8 1 d
  | .decRm16 d => 0xFF#8 :: encodeRm16 1 d
  | .decR16 r => [0x48#8 + r.code.setWidth 8]
  | .notRm8 d => 0xF6#8 :: encodeRm8 2 d
  | .notRm16 d => 0xF7#8 :: encodeRm16 2 d
  | .negRm8 d => 0xF6#8 :: encodeRm8 3 d
  | .negRm16 d => 0xF7#8 :: encodeRm16 3 d
  | .int3 => [0xCC#8]
  | .intN v => [0xCD#8, v]
  | .into => [0xCE#8]
  | .boundR16M r m => 0x62#8 :: encodeMem r.code m
  | .iret => [0xCF#8]
  | .callRel16 v => 0xE8#8 :: encodeWord v
  | .callRm16 d => 0xFF#8 :: encodeRm16 2 d
  | .callPtr16 o c => 0x9A#8 :: encodeWord o ++ encodeWord c
  | .callM16 m => 0xFF#8 :: encodeMem 3 m
  | .lidtM m => 0x0F#8 :: 0x01#8 :: encodeMem 3 m
  | .esc x y d => (0xD8#8 + x.setWidth 8) :: encodeRm16 y d
  | .wait => [0x9B#8]

/-! ### Table words -/

/-- `n` bytes of a number, the least significant first. -/
def bytesOf : Nat → Nat → List Byte
  | 0, _ => []
  | n + 1, w => BitVec.ofNat 8 w :: bytesOf n (w / 256)

/-- The fifteen bytes (R70, the longest instruction) of a table word, every bit above `nbits` zero. -/
def tableBytes (nbits w : Nat) : List Byte := bytesOf 15 (w % 2 ^ nbits)

/-- What the decoder reads from an instruction whose bits are `w`, as spec/opcode_table.json numbers them. -/
def decodeTableWord (nbits w : Nat) : Option Instr :=
  match decode (tableBytes nbits w) with
  | .ok (i, _) => some i
  | .error _ => none

end Sys2Proof
end

