-- ==== Sys2Proof/Machine/State.lean ====
section
/-! DEFINITION. The state of the machine as plain data (10_state.md), the reasons a step can stop, and reset. -/

namespace Sys2Proof.Machine
open Sys2Proof

/-- The eight general registers at 16 bits, or the eight upper halves (R11). -/
structure Regs where
  ax : Word
  cx : Word
  dx : Word
  bx : Word
  sp : Word
  bp : Word
  si : Word
  di : Word
deriving DecidableEq, Repr

/-- The six selectors (R14). -/
structure SegRegs where
  es : Word
  cs : Word
  ss : Word
  ds : Word
  fs : Word
  gs : Word
deriving DecidableEq, Repr

/-- The flags that have a name of their own in FLAGS (R17). -/
inductive Flag where
  | cf | pf | af | zf | sf | tf | intf | df | ovf
deriving DecidableEq, Repr

/-- Memory: what is listed, in one canonical form (`Memory.Wf`). -/
abbrev Memory := List Host.Cell

/-- The MODEL's own: the prefixes read so far of the instruction being executed (R78 "record it"; log 16). -/
structure Prefixes where
  /-- how many prefix bytes -/
  count : Nat
  /-- a LOCK prefix among them (R71: a repeated LOCK is one lock) -/
  lock : Bool
  /-- the last segment override (R77) -/
  seg : Option Seg
deriving DecidableEq, Repr

/-- What the environment can do at an instruction boundary (R24, R27; log 28). -/
inductive EnvEvent where
  /-- an NMI arrives (R225) -/
  | nmi
  /-- the interrupt controller requests an interrupt with this vector (R226) -/
  | intr (v : Byte)
  /-- the controller withdraws its request -/
  | intrWithdrawn
  /-- the coprocessor error signal becomes this (R22) -/
  | copError (b : Bool)
  /-- another bus master writes a byte (R50, R51) -/
  | busWrite (a : Dword) (b : Byte)
deriving DecidableEq, Repr

/-- Everything the spec gives the machine; INVENTORY.md lists each field with its rule. -/
structure State where
  /-- AX to DI, bits 15:0 of EAX to EDI (R10, R11) -/
  regs : Regs
  /-- bits 31:16 of EAX to EDI (R11; log 37) -/
  upper : Regs
  /-- the selectors (R14) -/
  segs : SegRegs
  /-- IP (R13) -/
  ip : Word
  /-- sequential execution stands at offset 65,536, which IP cannot hold (R13, R45; log 13) -/
  pastEnd : Bool
  /-- FLAGS (R16, R17) -/
  flags : Word
  /-- IDTR.limit (R18) -/
  idtrLimit : Word
  /-- IDTR.base (R18) -/
  idtrBase : Dword
  /-- MSW: EM is bit 2, TS is bit 3 (R19; log 36) -/
  msw : Word
  /-- DR6 (R20) -/
  dr6 : Dword
  /-- the NMI mask latch (R21) -/
  nmiMasked : Bool
  /-- an NMI waits (R24) -/
  nmiPending : Bool
  /-- an external interrupt request and its vector (R24) -/
  intrPending : Option Byte
  /-- the coprocessor error signal (R22) -/
  copErrorPending : Bool
  /-- LOCK was asserted during the instruction just completed (R23; log 31) -/
  lockSignal : Bool
  /-- TF when the instruction just completed started (R24) -/
  stepDue : Bool
  /-- the instruction just completed was a MOV to SS (R114, R233) -/
  ssShadow : Bool
  /-- memory by linear address (R40, R41) -/
  mem : Memory
  /-- linear addresses the program wrote since the last control transfer, rising (R53; log 20) -/
  dirty : List Nat
  /-- the MODEL's own: prefixes of the instruction being executed -/
  pfx : Prefixes
  /-- the MODEL's own: where the next free value is taken (log 43) -/
  draws : Nat
  /-- the MODEL's own: the events of the boundaries to come (log 28) -/
  env : List (List EnvEvent)
  /-- the parameters of R4; no step changes them -/
  cfg : Config
deriving DecidableEq, Repr

/-- Why the machine stops. -/
inductive Fault where
  /-- Raised when an exception or interrupt cannot be delivered: its own pushes cross the stack segment's extreme, or
  entry 8 is beyond IDTR.limit (R229, R237, D11). Safe: the chip shuts down. -/
  | deliveryFault
deriving DecidableEq, Repr

/-- Why a step has no meaning. -/
inductive Refusal where
  /-- Raised by `exec` for an instruction without a meaning yet. Safe. -/
  | notModelled (mnemonic : String)
  /-- Raised by an access to a byte MemMap does not populate (R49, D3). Safe. -/
  | outsideMemMap
  /-- Raised by a write to the read-only subset of MemMap (R49, D3). Safe. -/
  | readOnlyByte
  /-- Raised by a fetch of a byte the program wrote with no control transfer since (R53, D9). Safe. -/
  | staleFetch
  /-- Raised by a byte pattern outside the opcode table and outside UNDEFINED_OPCODES (R72, D14). Safe. -/
  | unknownOpcode
  /-- Raised by an operand-size prefix (R81, D10). Safe. -/
  | operandSizePrefix
  /-- Raised by an address-size prefix (R81, D10). Safe. -/
  | addressSizePrefix
  /-- Raised by an ESC that passes its exception checks (R187, D13). Safe. -/
  | coprocessorOperation
deriving DecidableEq, Repr

/-- The three outcomes of an instruction. -/
abbrev Result := Host.Outcome State Fault Refusal

/-- The reset parameters of R4 and 92_eei_decisions.md D4, D5: what a launch names. -/
structure Launch where
  regs : Regs
  upper : Regs
  segs : SegRegs
  ip : Word
  flags : Word
  idtrBase : Dword
  msw : Word
  dr6 : Dword
  mem : Memory
  env : List (List EnvEvent)
  cfg : Config
deriving DecidableEq, Repr

/-- A launch (R26, R260): IDTR.limit is 3FFH, FLAGS bit 15 is 0 (and bits 1, 3, 5 fixed, D23), no NMI masked and no
coprocessor error outstanding (D5); everything else is a parameter. -/
def State.launch (p : Launch) : State where
  regs := p.regs
  upper := p.upper
  segs := p.segs
  ip := p.ip
  pastEnd := false
  flags := (p.flags &&& 0x7FD7#16) ||| 0x0002#16
  idtrLimit := 0x03FF#16
  idtrBase := p.idtrBase
  msw := p.msw
  dr6 := p.dr6
  nmiMasked := false
  nmiPending := false
  intrPending := none
  copErrorPending := false
  lockSignal := false
  stepDue := false
  ssShadow := false
  mem := p.mem
  dirty := []
  pfx := { count := 0, lock := false, seg := none }
  draws := 0
  env := p.env
  cfg := p.cfg

/-- PRESUMED (log 18). The candidates of 93_implementation_defined.md U1 for UNDEFINED_OPCODES. -/
def undefinedCandidates : List Pattern :=
  [ [(0x0F, 0xFF), (0xFF, 0xFF)],
    [(0x0F, 0xFF), (0x00, 0xFF)],
    [(0x0F, 0xFF), (0x02, 0xFF)],
    [(0x0F, 0xFF), (0x03, 0xFF)],
    [(0x63, 0xFF)],
    [(0xFF, 0xFF), (0x38, 0x38)],
    -- FE /2 to /7: reg is neither 0 nor 1
    [(0xFE, 0xFF), (0x10, 0x10)],
    [(0xFE, 0xFF), (0x20, 0x20)],
    -- 8C and 8E with reg 6 or 7, 8E with reg 1
    [(0x8C, 0xFD), (0x30, 0x30)],
    [(0x8E, 0xFF), (0x08, 0x38)],
    -- C6, C7 and 8F with reg other than 0
    [(0xC6, 0xFE), (0x08, 0x08)],
    [(0xC6, 0xFE), (0x10, 0x10)],
    [(0xC6, 0xFE), (0x20, 0x20)],
    [(0x8F, 0xFF), (0x08, 0x08)],
    [(0x8F, 0xFF), (0x10, 0x10)],
    [(0x8F, 0xFF), (0x20, 0x20)],
    -- register forms of BOUND, 0F 01 /0 to /3, 8D, C4, C5
    [(0x62, 0xFF), (0xC0, 0xC0)],
    [(0x0F, 0xFF), (0x01, 0xFF), (0xC0, 0xE0)],
    [(0x8D, 0xFF), (0xC0, 0xC0)],
    [(0xC4, 0xFE), (0xC0, 0xC0)] ]

/-- All eight registers zero. -/
def Regs.zero : Regs := { ax := 0, cx := 0, dx := 0, bx := 0, sp := 0, bp := 0, si := 0, di := 0 }

/-- The launch of `State.reset`: the values R260 quotes for the family where it quotes one (PRESUMED, log 5), DX a
component identifier (PRESUMED, log 6), and zero elsewhere (DESIGN CHOICE, log 6); the parameters of logs 3, 18, 26, 29. -/
def resetLaunch : Launch where
  regs := { Regs.zero with dx := 0x0300 }
  upper := Regs.zero
  segs := { es := 0, cs := 0xF000, ss := 0, ds := 0, fs := 0, gs := 0 }
  ip := 0xFFF0
  flags := 0x0002
  idtrBase := 0
  msw := 0
  dr6 := 0
  mem := []
  env := []
  cfg :=
    { hasCoprocessor := true
      memMap := [{ base := 0, size := 0x100000000, kind := .ram }]
      undefinedOpcodes := undefinedCandidates
      nmiLatchedWhileMasked := true }

/-- The machine right after reset (R26, R260, R261). -/
def State.reset : State := State.launch resetLaunch

end Sys2Proof.Machine
end

