-- ==== Sys2Proof/Machine/Flags.lean ====
section
/-! DEFINITION. FLAGS (R16, R17) and every flag and result computation of 42_shift_rotate.md and 43_lock.md.
An operation takes the old FLAGS and a word of free bits, from which each flag the rules leave as a `draw` takes the
bit at its own position. -/

namespace Sys2Proof.Machine
open Sys2Proof

/-! ### The flags word -/

/-- The bit of a flag (R17). -/
def Flag.bit : Flag → Nat
  | .cf => 0 | .pf => 2 | .af => 4 | .zf => 6 | .sf => 7 | .tf => 8 | .intf => 9 | .df => 10 | .ovf => 11

/-- One bit of a word made `b`. -/
def setBit {w : Nat} (v : BitVec w) (i : Nat) (b : Bool) : BitVec w :=
  if b then v ||| BitVec.twoPow w i else v &&& ~~~ BitVec.twoPow w i

def getFlag (f : Flag) (fl : Word) : Bool := fl.getLsbD f.bit

def setFlag (f : Flag) (b : Bool) (fl : Word) : Word := setBit fl f.bit b

/-- A word as the flags register holds it: bits 15, 5 and 3 are 0 and bit 1 is 1, whatever is written (R16, R17, D23). -/
def fixedFlags (v : Word) : Word := (v &&& 0x7FD7#16) ||| 0x0002#16

/-- The image PUSHF, interrupts and exceptions store (R112, R230). -/
def flagsImage (fl : Word) : Word := fixedFlags fl

/-- FLAGS after a load of the popped image (R184). -/
def loadFlags (img : Word) : Word := fixedFlags img

/-- A flag that takes its free value (D25). -/
def drawFlag (f : Flag) (free fl : Word) : Word := setFlag f (getFlag f free) fl

/-- The free value of all six arithmetic flags (U4). -/
def drawArith (free fl : Word) : Word :=
  drawFlag .cf free (drawFlag .pf free (drawFlag .af free (drawFlag .zf free (drawFlag .sf free (drawFlag .ovf free fl)))))

/-! ### Flags of a result (R169) -/

/-- An even number of one bits in the low byte. -/
def evenParity {w : Nat} (r : BitVec w) : Bool :=
  !(r.getLsbD 0 ^^ r.getLsbD 1 ^^ r.getLsbD 2 ^^ r.getLsbD 3 ^^ r.getLsbD 4 ^^ r.getLsbD 5 ^^ r.getLsbD 6 ^^ r.getLsbD 7)

/-- ZF, SF and PF from a result. -/
def resultFlags {w : Nat} (r : BitVec w) (fl : Word) : Word :=
  setFlag .zf (decide (r = 0#w)) (setFlag .sf r.msb (setFlag .pf (evenParity r) fl))

/-- AF of an addition or subtraction. -/
def auxCarry {w : Nat} (a b r : BitVec w) : Bool := (a ^^^ b ^^^ r).getLsbD 4

/-- ADD and ADC with carry in `cin`: the result and all six flags. -/
def addWith {w : Nat} (cin : Bool) (a b : BitVec w) (fl : Word) : BitVec w × Word :=
  let sum := a.toNat + b.toNat + cin.toNat
  let r := BitVec.ofNat w sum
  (r, setFlag .cf (decide (2 ^ w ≤ sum))
        (setFlag .ovf (a.msb == b.msb && r.msb != a.msb)
          (setFlag .af (auxCarry a b r) (resultFlags r fl))))

/-- SUB and SBB with borrow in `bin`: the result and all six flags. -/
def subWith {w : Nat} (bin : Bool) (a b : BitVec w) (fl : Word) : BitVec w × Word :=
  let r := a - b - BitVec.ofNat w bin.toNat
  (r, setFlag .cf (decide (a.toNat < b.toNat + bin.toNat))
        (setFlag .ovf (a.msb != b.msb && r.msb != a.msb)
          (setFlag .af (auxCarry a b r) (resultFlags r fl))))

/-- AND, OR, XOR: CF and OF clear, AF free. -/
def logicFlags {w : Nat} (r : BitVec w) (fl free : Word) : Word :=
  setFlag .cf false (setFlag .ovf false (drawFlag .af free (resultFlags r fl)))

/-! ### The two-operand operations: destination `a`, source `b` -/

/-- R158. -/
def aluAdd {w : Nat} (a b : BitVec w) (fl _free : Word) : BitVec w × Word := addWith false a b fl
/-- R159. -/
def aluAdc {w : Nat} (a b : BitVec w) (fl _free : Word) : BitVec w × Word := addWith (getFlag .cf fl) a b fl
/-- R160. -/
def aluSub {w : Nat} (a b : BitVec w) (fl _free : Word) : BitVec w × Word := subWith false a b fl
/-- R161. -/
def aluSbb {w : Nat} (a b : BitVec w) (fl _free : Word) : BitVec w × Word := subWith (getFlag .cf fl) a b fl
/-- R164. -/
def aluAnd {w : Nat} (a b : BitVec w) (fl free : Word) : BitVec w × Word := (a &&& b, logicFlags (a &&& b) fl free)
/-- R165. -/
def aluOr {w : Nat} (a b : BitVec w) (fl free : Word) : BitVec w × Word := (a ||| b, logicFlags (a ||| b) fl free)
/-- R166. -/
def aluXor {w : Nat} (a b : BitVec w) (fl free : Word) : BitVec w × Word := (a ^^^ b, logicFlags (a ^^^ b) fl free)

/-! ### The one-operand operations -/

/-- R162: as ADD with 1, CF unchanged. -/
def aluInc {w : Nat} (a : BitVec w) (fl _free : Word) : BitVec w × Word :=
  ((addWith false a 1#w fl).1, setFlag .cf (getFlag .cf fl) (addWith false a 1#w fl).2)
/-- R163: as SUB with 1, CF unchanged. -/
def aluDec {w : Nat} (a : BitVec w) (fl _free : Word) : BitVec w × Word :=
  ((subWith false a 1#w fl).1, setFlag .cf (getFlag .cf fl) (subWith false a 1#w fl).2)
/-- R167: no flag is written. -/
def aluNot {w : Nat} (a : BitVec w) (fl _free : Word) : BitVec w × Word := (~~~ a, fl)
/-- R168: as SUB with minuend 0. -/
def aluNeg {w : Nat} (a : BitVec w) (fl _free : Word) : BitVec w × Word := subWith false 0#w a fl

/-! ### Shifts and rotates, for a masked count `c` that is not 0 (R130, R140) -/

/-- The masked count: the low-order five bits (R130). -/
def maskedCount (count : Byte) : Nat := (count &&& 0x1F#8).toNat

/-- OF, which is defined only for a count of 1. -/
def shiftOf (c : Nat) (b : Bool) (free fl : Word) : Word :=
  if c = 1 then setFlag .ovf b fl else drawFlag .ovf free fl

/-- R131. -/
def rotateLeft {w : Nat} (v : BitVec w) (c : Nat) (fl free : Word) : BitVec w × Word :=
  let r := c % w
  let res := (v <<< r) ||| (v >>> (w - r))
  let cf := res.getLsbD 0
  (res, shiftOf c (res.msb ^^ cf) free (setFlag .cf cf fl))

/-- R132. -/
def rotateRight {w : Nat} (v : BitVec w) (c : Nat) (fl free : Word) : BitVec w × Word :=
  let r := c % w
  let res := (v >>> r) ||| (v <<< (w - r))
  (res, shiftOf c (res.getLsbD (w - 1) ^^ res.getLsbD (w - 2)) free (setFlag .cf res.msb fl))

/-- `n` single steps of a rotate left through carry (R133). -/
def rclSteps {w : Nat} : Nat → BitVec w × Bool → BitVec w × Bool
  | 0, p => p
  | n + 1, (v, cf) => rclSteps n ((v <<< 1) ||| (BitVec.ofBool cf).setWidth w, v.msb)

/-- R133. -/
def rotateCarryLeft {w : Nat} (v : BitVec w) (c : Nat) (fl free : Word) : BitVec w × Word :=
  let p := rclSteps (c % (w + 1)) (v, getFlag .cf fl)
  (p.1, shiftOf c (p.1.msb ^^ p.2) free (setFlag .cf p.2 fl))

/-- `n` single steps of a rotate right through carry (R134). -/
def rcrSteps {w : Nat} : Nat → BitVec w × Bool → BitVec w × Bool
  | 0, p => p
  | n + 1, (v, cf) => rcrSteps n ((v >>> 1) ||| ((BitVec.ofBool cf).setWidth w <<< (w - 1)), v.getLsbD 0)

/-- R134: OF from the values before. -/
def rotateCarryRight {w : Nat} (v : BitVec w) (c : Nat) (fl free : Word) : BitVec w × Word :=
  let p := rcrSteps (c % (w + 1)) (v, getFlag .cf fl)
  (p.1, setFlag .cf p.2 (shiftOf c (v.msb ^^ getFlag .cf fl) free fl))

/-- SF, ZF, PF from the result and AF free, as every shift leaves them (R140). -/
def shiftFlags {w : Nat} (r : BitVec w) (free fl : Word) : Word := drawFlag .af free (resultFlags r fl)

/-- R135: CF is free where the count reaches the width. -/
def shiftLeft {w : Nat} (v : BitVec w) (c : Nat) (fl free : Word) : BitVec w × Word :=
  let res := v <<< c
  let cf := if c < w then v.getLsbD (w - c) else getFlag .cf free
  (res, shiftOf c (res.msb ^^ cf) free (setFlag .cf cf (shiftFlags res free fl)))

/-- R136: CF is free where the count reaches the width. -/
def shiftRight {w : Nat} (v : BitVec w) (c : Nat) (fl free : Word) : BitVec w × Word :=
  let res := v >>> c
  let cf := if c ≤ w - 1 then v.getLsbD (c - 1) else getFlag .cf free
  (res, shiftOf c v.msb free (setFlag .cf cf (shiftFlags res free fl)))

/-- R137: CF is the sign where the count reaches the width. -/
def shiftArith {w : Nat} (v : BitVec w) (c : Nat) (fl free : Word) : BitVec w × Word :=
  let res := v.sshiftRight c
  let cf := if c ≤ w - 1 then v.getLsbD (c - 1) else v.msb
  (res, shiftOf c false free (setFlag .cf cf (shiftFlags res free fl)))

/-- R138: above 16 the result and every arithmetic flag are free. -/
def doubleLeft (v x : Word) (c : Nat) (fl free freeRes : Word) : Word × Word :=
  if 16 < c then (freeRes, drawArith free fl)
  else
    let res := (v <<< c) ||| (x >>> (16 - c))
    (res, shiftOf c (res.msb ^^ v.msb) free (setFlag .cf (v.getLsbD (16 - c)) (shiftFlags res free fl)))

/-- R139: above 16 the result and every arithmetic flag are free. -/
def doubleRight (v x : Word) (c : Nat) (fl free freeRes : Word) : Word × Word :=
  if 16 < c then (freeRes, drawArith free fl)
  else
    let res := (v >>> c) ||| (x <<< (16 - c))
    (res, shiftOf c (res.msb ^^ v.msb) free (setFlag .cf (v.getLsbD (c - 1)) (shiftFlags res free fl)))

/-! ### Bit tests (R155 to R157) -/

/-- CF is the old bit; OF, SF, ZF, AF, PF are free (U28). -/
def bitFlags (old : Bool) (fl free : Word) : Word := setFlag .cf old (drawArith free fl)

/-- R155. -/
def bitSet (v : Word) (n : Nat) : Word := setBit v n true
/-- R156. -/
def bitReset (v : Word) (n : Nat) : Word := setBit v n false
/-- R157. -/
def bitComplement (v : Word) (n : Nat) : Word := setBit v n (!v.getLsbD n)

/-! ### Divides: the quotient and remainder, or `none` for a divide error -/

/-- R101, byte form: dividend AX. -/
def udivByte (n : Word) (d : Byte) : Option (Byte × Byte) :=
  if d.toNat = 0 then none
  else if 0xFF < n.toNat / d.toNat then none
  else some (BitVec.ofNat 8 (n.toNat / d.toNat), BitVec.ofNat 8 (n.toNat % d.toNat))

/-- R101, word form: dividend DX ++ AX. -/
def udivWord (n : Dword) (d : Word) : Option (Word × Word) :=
  if d.toNat = 0 then none
  else if 0xFFFF < n.toNat / d.toNat then none
  else some (BitVec.ofNat 16 (n.toNat / d.toNat), BitVec.ofNat 16 (n.toNat % d.toNat))

/-- R102, R103, byte form: the quotient rounds toward zero, -128 is accepted. -/
def sdivByte (n : Word) (d : Byte) : Option (Byte × Byte) :=
  if d.toInt = 0 then none
  else if n.toInt.tdiv d.toInt < -128 ∨ 127 < n.toInt.tdiv d.toInt then none
  else some (BitVec.ofInt 8 (n.toInt.tdiv d.toInt), BitVec.ofInt 8 (n.toInt - n.toInt.tdiv d.toInt * d.toInt))

/-- R102, R103, word form: the quotient rounds toward zero, -32768 is accepted. -/
def sdivWord (n : Dword) (d : Word) : Option (Word × Word) :=
  if d.toInt = 0 then none
  else if n.toInt.tdiv d.toInt < -32768 ∨ 32767 < n.toInt.tdiv d.toInt then none
  else some (BitVec.ofInt 16 (n.toInt.tdiv d.toInt), BitVec.ofInt 16 (n.toInt - n.toInt.tdiv d.toInt * d.toInt))

end Sys2Proof.Machine
end

