-- ==== Sys2Proof/Machine/Memory.lean ====
section
/-! DEFINITION. Memory as a list of cells in one canonical form, and the list of written addresses. -/

namespace Sys2Proof.Machine
open Sys2Proof

/-- DESIGN CHOICE (log 4). What a byte that nothing has written reads as; the spec gives none (R262). -/
def Memory.background : Byte := 0

/-- The canonical form: addresses strictly rising, no entry that an unlisted address would read as. -/
abbrev Memory.Wf (m : Memory) : Prop :=
  m.Pairwise (fun c d => c.1 < d.1) ∧ ∀ c ∈ m, c.2 ≠ Memory.background

/-- One byte of memory. -/
def Memory.read : Memory → Nat → Byte
  | [], _ => Memory.background
  | (a, b) :: m, x => if a = x then b else Memory.read m x

/-- Memory with one byte changed, in canonical form. -/
def Memory.write : Memory → Nat → Byte → Memory
  | [], x, v => if v = Memory.background then [] else [(x, v)]
  | (a, b) :: m, x, v =>
    if x < a then
      if v = Memory.background then (a, b) :: m else (x, v) :: (a, b) :: m
    else if x = a then
      if v = Memory.background then m else (x, v) :: m
    else (a, b) :: Memory.write m x v

/-- An address put into a strictly rising list. -/
def insertAddr : List Nat → Nat → List Nat
  | [], x => [x]
  | a :: l, x =>
    if x < a then x :: a :: l
    else if x = a then a :: l
    else a :: insertAddr l x

/-- What MemMap says of an address: the first region that holds it (R49, D3). -/
def memKind : List Region → Nat → Option MemKind
  | [], _ => none
  | r :: rs, a => if r.base ≤ a ∧ a < r.base + r.size then some r.kind else memKind rs a

end Sys2Proof.Machine
end

