-- ==== Sys2Proof/Machine/Ops.lean ====
section
/-! DEFINITION. The named operations: registers, checked memory accesses, the end of an instruction, taking an
exception (60_exceptions.md R229) and returning from one. -/

namespace Sys2Proof.Machine
open Sys2Proof

/-! ### Registers -/

def Regs.get (g : Regs) : Reg16 → Word
  | .ax => g.ax | .cx => g.cx | .dx => g.dx | .bx => g.bx | .sp => g.sp | .bp => g.bp | .si => g.si | .di => g.di

def Regs.set (g : Regs) (r : Reg16) (v : Word) : Regs :=
  match r with
  | .ax => { g with ax := v } | .cx => { g with cx := v } | .dx => { g with dx := v } | .bx => { g with bx := v }
  | .sp => { g with sp := v } | .bp => { g with bp := v } | .si => { g with si := v } | .di => { g with di := v }

/-- The 16-bit register an 8-bit register is a byte of (R11). -/
def Reg8.home : Reg8 → Reg16
  | .al => .ax | .cl => .cx | .dl => .dx | .bl => .bx | .ah => .ax | .ch => .cx | .dh => .dx | .bh => .bx

/-- Whether it is the high byte (R11). -/
def Reg8.isHigh : Reg8 → Bool
  | .al => false | .cl => false | .dl => false | .bl => false | .ah => true | .ch => true | .dh => true | .bh => true

def lowByte (v : Word) : Byte := v.extractLsb' 0 8
def highByte (v : Word) : Byte := v.extractLsb' 8 8

/-- R11: `x8[i]` for i < 4 is `x[i][7:0]`, for i >= 4 is `x[i-4][15:8]`. -/
def Regs.get8 (g : Regs) (r : Reg8) : Byte :=
  if Reg8.isHigh r then highByte (g.get (Reg8.home r)) else lowByte (g.get (Reg8.home r))

/-- R11: an 8-bit write leaves the other bits unchanged. -/
def Regs.set8 (g : Regs) (r : Reg8) (v : Byte) : Regs :=
  g.set (Reg8.home r)
    (if Reg8.isHigh r then wordOf (lowByte (g.get (Reg8.home r))) v else wordOf v (highByte (g.get (Reg8.home r))))

def SegRegs.get (g : SegRegs) : Seg → Word
  | .es => g.es | .cs => g.cs | .ss => g.ss | .ds => g.ds | .fs => g.fs | .gs => g.gs

def SegRegs.set (g : SegRegs) (r : Seg) (v : Word) : SegRegs :=
  match r with
  | .es => { g with es := v } | .cs => { g with cs := v } | .ss => { g with ss := v }
  | .ds => { g with ds := v } | .fs => { g with fs := v } | .gs => { g with gs := v }

/-- `x[i]` (R7). -/
def State.reg16 (s : State) (r : Reg16) : Word := s.regs.get r
def State.setReg16 (s : State) (r : Reg16) (v : Word) : State := { s with regs := s.regs.set r v }
/-- `x8[i]` (R7). -/
def State.reg8 (s : State) (r : Reg8) : Byte := s.regs.get8 r
def State.setReg8 (s : State) (r : Reg8) (v : Byte) : State := { s with regs := s.regs.set8 r v }
/-- All 32 bits of a general register (R11). -/
def State.reg32 (s : State) (r : Reg16) : Dword := s.upper.get r ++ s.regs.get r
/-- `Sel(s)` (R7). -/
def State.sel (s : State) (g : Seg) : Word := s.segs.get g
def State.setSel (s : State) (g : Seg) (v : Word) : State := { s with segs := s.segs.set g v }
def State.setFlags (s : State) (v : Word) : State := { s with flags := v }

/-- EM of the MSW (R19). -/
def State.mswEm (s : State) : Bool := s.msw.getLsbD 2
/-- TS of the MSW (R19). -/
def State.mswTs (s : State) : Bool := s.msw.getLsbD 3

/-- The free bits of this instruction (D25; log 10). -/
def State.freeFlags (s : State) : Word := Config.freeFlags s.draws
/-- The free result of this instruction (log 11). -/
def State.freeResult (s : State) : Word := Config.freeResult s.draws

/-! ### What ends an instruction early -/

/-- An exception raised as a fault, or a refusal. -/
inductive Stop where
  /-- `raise #n` (R7) -/
  | exception (v : Byte)
  | refuse (r : Refusal)
deriving DecidableEq, Repr

/-- A part of an instruction: its value, or what ends the instruction. -/
abbrev Op (α : Type) := Except Stop α

/-! ### Memory by linear address -/

/-- `Lin(s, off)`: selector times 16 plus offset, never truncated (R41). -/
def State.lin (s : State) (g : Seg) (off : Word) : Nat := (s.sel g).toNat * 16 + off.toNat

/-- Read a populated byte (R49). -/
def loadByte (s : State) (a : Nat) : Op Byte :=
  match memKind s.cfg.memMap a with
  | some _ => .ok (s.mem.read a)
  | none => .error (.refuse .outsideMemMap)

/-- Whether the processor may write a byte (R49, D3). -/
def checkWritable (s : State) (a : Nat) : Op Unit :=
  match memKind s.cfg.memMap a with
  | some .ram => .ok ()
  | some .rom => .error (.refuse .readOnlyByte)
  | none => .error (.refuse .outsideMemMap)

/-- A byte stored, and remembered as written (R53). -/
def State.setByte (s : State) (a : Nat) (v : Byte) : State :=
  { s with mem := s.mem.write a v, dirty := insertAddr s.dirty a }

/-- Write a byte (R49). -/
def storeByte (a : Nat) (v : Byte) (s : State) : Op State :=
  match checkWritable s a with
  | .ok _ => .ok (s.setByte a v)
  | .error e => .error e

/-- `MemRead(a, 2)`, little-endian (R46). -/
def loadWord (s : State) (a : Nat) : Op Word := do
  let lo ← loadByte s a
  let hi ← loadByte s (a + 1)
  return wordOf lo hi

/-- `MemWrite(a, 2, v)`, little-endian (R46). -/
def storeWord (a : Nat) (v : Word) (s : State) : Op State := do
  let t ← storeByte a (lowByte v) s
  storeByte (a + 1) (highByte v) t

/-! ### Memory through a segment register -/

/-- Whether `n` bytes at `off` cross a segment extreme (R43). -/
def crosses (off : Word) (n : Nat) : Bool := decide (0xFFFF < off.toNat + n - 1)

/-- The exception of a crossing: 12 through SS, 13 through another segment register (R15, R43). -/
def crossVector (g : Seg) : Byte := if g = .ss then 12#8 else 13#8

/-- The segment-extreme check (R43). -/
def checkExtreme (g : Seg) (off : Word) (n : Nat) : Op Unit :=
  if crosses off n then .error (.exception (crossVector g)) else .ok ()

/-- `SegRead(s, off, 1)`. -/
def segRead8 (g : Seg) (off : Word) (s : State) : Op Byte := do
  checkExtreme g off 1
  loadByte s (s.lin g off)

/-- `SegRead(s, off, 2)`. -/
def segRead16 (g : Seg) (off : Word) (s : State) : Op Word := do
  checkExtreme g off 2
  loadWord s (s.lin g off)

/-- `SegWrite(s, off, 1, v)`. -/
def segWrite8 (g : Seg) (off : Word) (v : Byte) (s : State) : Op State := do
  checkExtreme g off 1
  storeByte (s.lin g off) v s

/-- `SegWrite(s, off, 2, v)`. -/
def segWrite16 (g : Seg) (off : Word) (v : Word) (s : State) : Op State := do
  checkExtreme g off 2
  storeWord (s.lin g off) v s

/-- `SegRead(s, off, 4)` as its two words, the lower first: one operand for the check (D29). -/
def segReadPair (g : Seg) (off : Word) (s : State) : Op (Word × Word) := do
  checkExtreme g off 4
  let lo ← loadWord s (s.lin g off)
  let hi ← loadWord s (s.lin g off + 2)
  return (lo, hi)

/-- LIDT's operand, limit and base: one operand of six bytes for the check; the top byte is read and not used (R186, D29). -/
def segReadIdt (g : Seg) (off : Word) (s : State) : Op (Word × Dword) := do
  checkExtreme g off 6
  let limit ← loadWord s (s.lin g off)
  let lo ← loadWord s (s.lin g off + 2)
  let hi ← loadWord s (s.lin g off + 4)
  return (limit, ((lowByte hi) ++ lo).setWidth 32)

/-- The checks of the words an instruction accesses on the stack, each by itself, all before the first access (D15, D29). -/
def checkStackWords : List Word → Op Unit
  | [] => .ok ()
  | off :: offs => do
    checkExtreme .ss off 2
    checkStackWords offs

/-- `Push16(v)` (R7, R110): SP moves only if the write succeeds. -/
def push16 (v : Word) (s : State) : Op State := do
  let t ← segWrite16 .ss (s.regs.sp - 2#16) v s
  return t.setReg16 .sp (s.regs.sp - 2#16)

/-! ### Prefixes and the end of an instruction -/

/-- No prefix read. -/
def Prefixes.empty : Prefixes := { count := 0, lock := false, seg := none }

/-- One more prefix byte; the last segment override wins, a LOCK stays (R71, R77). -/
def State.recordPrefix (lock : Bool) (seg : Option Seg) (s : State) : State :=
  { s with pfx := { count := s.pfx.count + 1, lock := s.pfx.lock || lock, seg := seg.or s.pfx.seg } }

/-- The offset of the byte after an instruction of `n` bytes and its prefixes, modulo 65,536 (R7, R185). -/
def State.nextIp (s : State) (n : Nat) : Word := s.ip + BitVec.ofNat 16 (s.pfx.count + n)

/-- The end of an instruction that is no control transfer: IP at the byte after it (R13), past the end of the segment
where that is offset 65,536 (R45, R271). `locked` says whether LOCK was asserted (R23). -/
def State.retire (locked : Bool) (n : Nat) (s : State) : State :=
  { s with
    ip := s.nextIp n
    pastEnd := decide (0xFFFF < s.ip.toNat + (s.pfx.count + n))
    lockSignal := locked
    pfx := Prefixes.empty
    draws := s.draws + 1 }

/-- The end of a control transfer to an offset in the present code segment; fetch sees every store again (R53). -/
def State.jump (target : Word) (s : State) : State :=
  { s with
    ip := target
    pastEnd := false
    lockSignal := false
    dirty := []
    pfx := Prefixes.empty
    draws := s.draws + 1 }

/-- R73, R152: a LOCK prefix where it is not legal raises #6. -/
def checkLock (legal : Bool) (s : State) : Op Unit :=
  if s.pfx.lock && !legal then .error (.exception 6#8) else .ok ()

/-! ### Taking an exception (60_exceptions.md section 3) -/

/-- Entry `v` lies beyond IDTR.limit (R231). -/
def State.beyondLimit (s : State) (v : Byte) : Bool := decide (s.idtrLimit.toNat < 4 * v.toNat + 3)

/-- One of the three words an entry pushes crosses the stack segment's extreme (R229). -/
def State.frameCrosses (s : State) : Bool :=
  crosses (s.regs.sp - 2#16) 2 || crosses (s.regs.sp - 4#16) 2 || crosses (s.regs.sp - 6#16) 2

/-- The entry itself (R229): read the table entry, push the flags image, clear IF and TF, push CS and the return
offset, load CS:IP. -/
def enterOp (v : Byte) (ret : Word) (s : State) : Op State := do
  let newIp ← loadWord s (s.idtrBase.toNat + 4 * v.toNat)
  let newCs ← loadWord s (s.idtrBase.toNat + 4 * v.toNat + 2)
  let t ← push16 (flagsImage s.flags) s
  let t ← push16 (s.sel .cs) (t.setFlags (setFlag .intf false (setFlag .tf false t.flags)))
  let t ← push16 ret t
  return (t.setSel .cs newCs).jump newIp

/-- An entry whose checks have passed. -/
def enter (v : Byte) (ret : Word) (s : State) : Result :=
  match enterOp v ret s with
  | .ok t => .next t
  | .error (.refuse r) => .refused r
  | .error (.exception _) => .fault .deliveryFault

/-- The delivery of #8, after which nothing else can be delivered (R229, D11). -/
def deliverTable (start : Word) (s : State) : Result :=
  if s.beyondLimit 8#8 then .fault .deliveryFault
  else if s.frameCrosses then .fault .deliveryFault
  else enter 8#8 start s

/-- The delivery of a #12 that the pushes of a software interrupt raised (R229). -/
def deliverStack (start : Word) (s : State) : Result :=
  if s.beyondLimit 12#8 then deliverTable start s
  else if s.frameCrosses then .fault .deliveryFault
  else enter 12#8 start s

/-- `Deliver(v, ret)` (R229): `start` is the offset of the current instruction, `software` says whether INT n, INT 3 or
INTO raised `v`. -/
def deliver (software : Bool) (v : Byte) (ret start : Word) (s : State) : Result :=
  if s.beyondLimit v then deliverTable start s
  else if s.frameCrosses then
    if software && v != 12#8 && v != 8#8 then deliverStack start s else .fault .deliveryFault
  else enter v ret s

/-- `raise #v` as a fault: the saved CS:IP is the first byte of the instruction, prefixes included (R228). -/
def raise (v : Byte) (s : State) : Result := deliver false v s.ip s.ip s

/-- The outcome of an instruction that started in `s`: a fault is delivered from `s`, so that the instruction has
changed no state (R232, D15). -/
def complete (s : State) (r : Op State) : Result :=
  match r with
  | .ok t => .next t
  | .error (.exception v) => raise v s
  | .error (.refuse r) => .refused r

/-! ### Returning from one (R184, R236) -/

/-- The three pops of IRET, each checked by itself (D29), the load of FLAGS, and the end of NMI masking. DESIGN CHOICE
(log 51): all three are checked before the first is read. -/
def returnOp (s : State) : Op State := do
  checkStackWords [s.regs.sp, s.regs.sp + 2#16, s.regs.sp + 4#16]
  let ip ← segRead16 .ss s.regs.sp s
  let cs ← segRead16 .ss (s.regs.sp + 2#16) s
  let img ← segRead16 .ss (s.regs.sp + 4#16) s
  let t := (s.setReg16 .sp (s.regs.sp + 6#16)).setFlags (loadFlags img)
  return ({ t with nmiMasked := false }.setSel .cs cs).jump ip

end Sys2Proof.Machine
end

