-- ==== Sys2Proof/Machine/Operands.lean ====
section
/-! DEFINITION. Operands (30_encoding.md R75, R77): effective addresses, segments, and the `r/m` operand read and
written at 8 and 16 bits. -/

namespace Sys2Proof.Machine
open Sys2Proof

/-- The registers of a base, modulo 65,536 (R75). -/
def baseOffset (s : State) : Base → Word
  | .bxSi => s.regs.bx + s.regs.si
  | .bxDi => s.regs.bx + s.regs.di
  | .bpSi => s.regs.bp + s.regs.si
  | .bpDi => s.regs.bp + s.regs.di
  | .si => s.regs.si
  | .di => s.regs.di
  | .bp => s.regs.bp
  | .bx => s.regs.bx

/-- `EA`, modulo 65,536; disp8 is sign-extended (R75, R76). -/
def effectiveOffset (s : State) : Mem → Word
  | .base b => baseOffset s b
  | .direct o => o
  | .disp8 b o => baseOffset s b + o.signExtend 16
  | .disp16 b o => baseOffset s b + o

/-- BP-based addresses default to SS, all others to DS (R75, R116). -/
def baseSeg : Base → Seg
  | .bxSi => .ds | .bxDi => .ds | .bpSi => .ss | .bpDi => .ss | .si => .ds | .di => .ds | .bp => .ss | .bx => .ds

def defaultSeg : Mem → Seg
  | .base b => baseSeg b
  | .direct _ => .ds
  | .disp8 b _ => baseSeg b
  | .disp16 b _ => baseSeg b

/-- The segment register of a memory operand: an override replaces the default (R77, D28). -/
def operandSeg (s : State) (m : Mem) : Seg := s.pfx.seg.getD (defaultSeg m)

/-- The linear address of a memory operand. -/
def operandAddr (s : State) (m : Mem) : Nat := s.lin (operandSeg s m) (effectiveOffset s m)

def readRm8 (d : RM8) (s : State) : Op Byte :=
  match d with
  | .reg r => .ok (s.reg8 r)
  | .mem m => segRead8 (operandSeg s m) (effectiveOffset s m) s

def readRm16 (d : RM16) (s : State) : Op Word :=
  match d with
  | .reg r => .ok (s.reg16 r)
  | .mem m => segRead16 (operandSeg s m) (effectiveOffset s m) s

def writeRm8 (d : RM8) (v : Byte) (s : State) : Op State :=
  match d with
  | .reg r => .ok (s.setReg8 r v)
  | .mem m => segWrite8 (operandSeg s m) (effectiveOffset s m) v s

def writeRm16 (d : RM16) (v : Word) (s : State) : Op State :=
  match d with
  | .reg r => .ok (s.setReg16 r v)
  | .mem m => segWrite16 (operandSeg s m) (effectiveOffset s m) v s

/-! ### Shapes shared by the instructions of several families -/

/-- Read, modify and write back an 8-bit `r/m` operand: the order of R169, LOCK legal on memory (R151). -/
def modifyRm8 (d : RM8) (f : Byte → Word → Word → Byte × Word) (n : Nat) (s : State) : Result :=
  complete s do
    checkLock d.isMem s
    let a ← readRm8 d s
    let t ← writeRm8 d (f a s.flags s.freeFlags).1 s
    return (t.setFlags (f a s.flags s.freeFlags).2).retire s.pfx.lock n

/-- The same for a 16-bit operand. -/
def modifyRm16 (d : RM16) (f : Word → Word → Word → Word × Word) (n : Nat) (s : State) : Result :=
  complete s do
    checkLock d.isMem s
    let a ← readRm16 d s
    let t ← writeRm16 d (f a s.flags s.freeFlags).1 s
    return (t.setFlags (f a s.flags s.freeFlags).2).retire s.pfx.lock n

/-- A register destination combined with an 8-bit `r/m` source; never lockable (R151). -/
def combineReg8 (r : Reg8) (d : RM8) (f : Byte → Byte → Word → Word → Byte × Word) (n : Nat) (s : State) : Result :=
  complete s do
    checkLock false s
    let b ← readRm8 d s
    let p := f (s.reg8 r) b s.flags s.freeFlags
    return ((s.setReg8 r p.1).setFlags p.2).retire false n

/-- The same at 16 bits. -/
def combineReg16 (r : Reg16) (d : RM16) (f : Word → Word → Word → Word → Word × Word) (n : Nat) (s : State) : Result :=
  complete s do
    checkLock false s
    let b ← readRm16 d s
    let p := f (s.reg16 r) b s.flags s.freeFlags
    return ((s.setReg16 r p.1).setFlags p.2).retire false n

end Sys2Proof.Machine
end

