-- ==== Sys2Proof/Machine/Arith.lean ====
section
/-! DEFINITION. ADD, ADC, SUB, SBB, INC, DEC, NEG (43_lock.md R158 to R163, R168). -/

namespace Sys2Proof.Machine
open Sys2Proof

/-- ADD r/m8, r8: R158, flags by R169. -/
def execAddRm8R8 (d : RM8) (r : Reg8) (s : State) : Result :=
  modifyRm8 d (fun a => aluAdd a (s.reg8 r)) (1 + d.size) s

/-- ADD r/m16, r16: R158, flags by R169. -/
def execAddRm16R16 (d : RM16) (r : Reg16) (s : State) : Result :=
  modifyRm16 d (fun a => aluAdd a (s.reg16 r)) (1 + d.size) s

/-- ADD r8, r/m8: R158, flags by R169. -/
def execAddR8Rm8 (r : Reg8) (d : RM8) (s : State) : Result :=
  combineReg8 r d aluAdd (1 + d.size) s

/-- ADD r16, r/m16: R158, flags by R169. -/
def execAddR16Rm16 (r : Reg16) (d : RM16) (s : State) : Result :=
  combineReg16 r d aluAdd (1 + d.size) s

/-- ADD AL, imm8: R158, flags by R169. -/
def execAddAlImm8 (v : Byte) (s : State) : Result :=
  modifyRm8 (.reg .al) (fun a => aluAdd a v) 2 s

/-- ADD AX, imm16: R158, flags by R169. -/
def execAddAxImm16 (v : Word) (s : State) : Result :=
  modifyRm16 (.reg .ax) (fun a => aluAdd a v) 3 s

/-- ADD r/m8, imm8: R158, flags by R169. -/
def execAddRm8Imm8 (d : RM8) (v : Byte) (s : State) : Result :=
  modifyRm8 d (fun a => aluAdd a v) (2 + d.size) s

/-- ADD r/m16, imm16: R158, flags by R169. -/
def execAddRm16Imm16 (d : RM16) (v : Word) (s : State) : Result :=
  modifyRm16 d (fun a => aluAdd a v) (3 + d.size) s

/-- ADD r/m16, imm8: R158, flags by R169; the byte is sign-extended (R76). -/
def execAddRm16Imm8 (d : RM16) (v : Byte) (s : State) : Result :=
  modifyRm16 d (fun a => aluAdd a (v.signExtend 16)) (2 + d.size) s

/-- ADC r/m8, r8: R159, flags by R169. -/
def execAdcRm8R8 (d : RM8) (r : Reg8) (s : State) : Result :=
  modifyRm8 d (fun a => aluAdc a (s.reg8 r)) (1 + d.size) s

/-- ADC r/m16, r16: R159, flags by R169. -/
def execAdcRm16R16 (d : RM16) (r : Reg16) (s : State) : Result :=
  modifyRm16 d (fun a => aluAdc a (s.reg16 r)) (1 + d.size) s

/-- ADC r8, r/m8: R159, flags by R169. -/
def execAdcR8Rm8 (r : Reg8) (d : RM8) (s : State) : Result :=
  combineReg8 r d aluAdc (1 + d.size) s

/-- ADC r16, r/m16: R159, flags by R169. -/
def execAdcR16Rm16 (r : Reg16) (d : RM16) (s : State) : Result :=
  combineReg16 r d aluAdc (1 + d.size) s

/-- ADC AL, imm8: R159, flags by R169. -/
def execAdcAlImm8 (v : Byte) (s : State) : Result :=
  modifyRm8 (.reg .al) (fun a => aluAdc a v) 2 s

/-- ADC AX, imm16: R159, flags by R169. -/
def execAdcAxImm16 (v : Word) (s : State) : Result :=
  modifyRm16 (.reg .ax) (fun a => aluAdc a v) 3 s

/-- ADC r/m8, imm8: R159, flags by R169. -/
def execAdcRm8Imm8 (d : RM8) (v : Byte) (s : State) : Result :=
  modifyRm8 d (fun a => aluAdc a v) (2 + d.size) s

/-- ADC r/m16, imm16: R159, flags by R169. -/
def execAdcRm16Imm16 (d : RM16) (v : Word) (s : State) : Result :=
  modifyRm16 d (fun a => aluAdc a v) (3 + d.size) s

/-- ADC r/m16, imm8: R159, flags by R169; the byte is sign-extended (R76). -/
def execAdcRm16Imm8 (d : RM16) (v : Byte) (s : State) : Result :=
  modifyRm16 d (fun a => aluAdc a (v.signExtend 16)) (2 + d.size) s

/-- SBB r/m8, r8: R161, flags by R169. -/
def execSbbRm8R8 (d : RM8) (r : Reg8) (s : State) : Result :=
  modifyRm8 d (fun a => aluSbb a (s.reg8 r)) (1 + d.size) s

/-- SBB r/m16, r16: R161, flags by R169. -/
def execSbbRm16R16 (d : RM16) (r : Reg16) (s : State) : Result :=
  modifyRm16 d (fun a => aluSbb a (s.reg16 r)) (1 + d.size) s

/-- SBB r8, r/m8: R161, flags by R169. -/
def execSbbR8Rm8 (r : Reg8) (d : RM8) (s : State) : Result :=
  combineReg8 r d aluSbb (1 + d.size) s

/-- SBB r16, r/m16: R161, flags by R169. -/
def execSbbR16Rm16 (r : Reg16) (d : RM16) (s : State) : Result :=
  combineReg16 r d aluSbb (1 + d.size) s

/-- SBB AL, imm8: R161, flags by R169. -/
def execSbbAlImm8 (v : Byte) (s : State) : Result :=
  modifyRm8 (.reg .al) (fun a => aluSbb a v) 2 s

/-- SBB AX, imm16: R161, flags by R169. -/
def execSbbAxImm16 (v : Word) (s : State) : Result :=
  modifyRm16 (.reg .ax) (fun a => aluSbb a v) 3 s

/-- SBB r/m8, imm8: R161, flags by R169. -/
def execSbbRm8Imm8 (d : RM8) (v : Byte) (s : State) : Result :=
  modifyRm8 d (fun a => aluSbb a v) (2 + d.size) s

/-- SBB r/m16, imm16: R161, flags by R169. -/
def execSbbRm16Imm16 (d : RM16) (v : Word) (s : State) : Result :=
  modifyRm16 d (fun a => aluSbb a v) (3 + d.size) s

/-- SBB r/m16, imm8: R161, flags by R169; the byte is sign-extended (R76). -/
def execSbbRm16Imm8 (d : RM16) (v : Byte) (s : State) : Result :=
  modifyRm16 d (fun a => aluSbb a (v.signExtend 16)) (2 + d.size) s

/-- SUB r/m8, r8: R160, flags by R169. -/
def execSubRm8R8 (d : RM8) (r : Reg8) (s : State) : Result :=
  modifyRm8 d (fun a => aluSub a (s.reg8 r)) (1 + d.size) s

/-- SUB r/m16, r16: R160, flags by R169. -/
def execSubRm16R16 (d : RM16) (r : Reg16) (s : State) : Result :=
  modifyRm16 d (fun a => aluSub a (s.reg16 r)) (1 + d.size) s

/-- SUB r8, r/m8: R160, flags by R169. -/
def execSubR8Rm8 (r : Reg8) (d : RM8) (s : State) : Result :=
  combineReg8 r d aluSub (1 + d.size) s

/-- SUB r16, r/m16: R160, flags by R169. -/
def execSubR16Rm16 (r : Reg16) (d : RM16) (s : State) : Result :=
  combineReg16 r d aluSub (1 + d.size) s

/-- SUB AL, imm8: R160, flags by R169. -/
def execSubAlImm8 (v : Byte) (s : State) : Result :=
  modifyRm8 (.reg .al) (fun a => aluSub a v) 2 s

/-- SUB AX, imm16: R160, flags by R169. -/
def execSubAxImm16 (v : Word) (s : State) : Result :=
  modifyRm16 (.reg .ax) (fun a => aluSub a v) 3 s

/-- SUB r/m8, imm8: R160, flags by R169. -/
def execSubRm8Imm8 (d : RM8) (v : Byte) (s : State) : Result :=
  modifyRm8 d (fun a => aluSub a v) (2 + d.size) s

/-- SUB r/m16, imm16: R160, flags by R169. -/
def execSubRm16Imm16 (d : RM16) (v : Word) (s : State) : Result :=
  modifyRm16 d (fun a => aluSub a v) (3 + d.size) s

/-- SUB r/m16, imm8: R160, flags by R169; the byte is sign-extended (R76). -/
def execSubRm16Imm8 (d : RM16) (v : Byte) (s : State) : Result :=
  modifyRm16 d (fun a => aluSub a (v.signExtend 16)) (2 + d.size) s

/-- INC r/m8: R162. -/
def execIncRm8 (d : RM8) (s : State) : Result :=
  modifyRm8 d aluInc (1 + d.size) s

/-- INC r/m16: R162. -/
def execIncRm16 (d : RM16) (s : State) : Result :=
  modifyRm16 d aluInc (1 + d.size) s

/-- INC r16: R162. -/
def execIncR16 (r : Reg16) (s : State) : Result :=
  modifyRm16 (.reg r) aluInc 1 s

/-- DEC r/m8: R163. -/
def execDecRm8 (d : RM8) (s : State) : Result :=
  modifyRm8 d aluDec (1 + d.size) s

/-- DEC r/m16: R163. -/
def execDecRm16 (d : RM16) (s : State) : Result :=
  modifyRm16 d aluDec (1 + d.size) s

/-- DEC r16: R163. -/
def execDecR16 (r : Reg16) (s : State) : Result :=
  modifyRm16 (.reg r) aluDec 1 s

/-- NEG r/m8: R168. -/
def execNegRm8 (d : RM8) (s : State) : Result :=
  modifyRm8 d aluNeg (1 + d.size) s

/-- NEG r/m16: R168. -/
def execNegRm16 (d : RM16) (s : State) : Result :=
  modifyRm16 d aluNeg (1 + d.size) s

end Sys2Proof.Machine
end

