-- ==== Sys2Proof/Machine/Bits.lean ====
section
/-! DEFINITION. BTS, BTR, BTC (43_lock.md R155 to R157). -/

namespace Sys2Proof.Machine
open Sys2Proof

/-- The word a register bit offset selects: EA + 2 * floor(k / 16), modulo 65,536, k signed (R155). -/
def bitWordOffset (s : State) (m : Mem) (k : Word) : Word :=
  effectiveOffset s m + 2#16 * (k.sshiftRight 4)

/-- Test and change bit `n` of the word at an offset. -/
def bitTestAt (f : Word → Nat → Word) (g : Seg) (off : Word) (n len : Nat) (s : State) : Op State := do
  let v ← segRead16 g off s
  let t ← segWrite16 g off (f v n) s
  return (t.setFlags (bitFlags (v.getLsbD n) s.flags s.freeFlags)).retire s.pfx.lock len

/-- Test and change bit `n` of a register. -/
def bitTestIn (f : Word → Nat → Word) (r : Reg16) (n len : Nat) (s : State) : State :=
  ((s.setReg16 r (f (s.reg16 r) n)).setFlags (bitFlags ((s.reg16 r).getLsbD n) s.flags s.freeFlags)).retire s.pfx.lock len

/-- The bit offset in a register: modulo 16 for a register base, the whole signed offset for a memory base (R155). -/
def bitTestReg (f : Word → Nat → Word) (d : RM16) (k : Word) (len : Nat) (s : State) : Result :=
  complete s do
    checkLock d.isMem s
    match d with
    | .reg r => return bitTestIn f r (k.toNat % 16) len s
    | .mem m => bitTestAt f (operandSeg s m) (bitWordOffset s m k) (k.toNat % 16) len s

/-- The bit offset in an immediate byte, modulo 16 (R155). -/
def bitTestImm (f : Word → Nat → Word) (d : RM16) (k : Byte) (len : Nat) (s : State) : Result :=
  complete s do
    checkLock d.isMem s
    match d with
    | .reg r => return bitTestIn f r (k.toNat % 16) len s
    | .mem m => bitTestAt f (operandSeg s m) (effectiveOffset s m) (k.toNat % 16) len s

/-- BTS r/m16, r16: R155, register bit offset. -/
def execBtsRm16R16 (d : RM16) (r : Reg16) (s : State) : Result :=
  bitTestReg bitSet d (s.reg16 r) (2 + d.size) s

/-- BTS r/m16, imm8: R155, immediate bit offset. -/
def execBtsRm16Imm8 (d : RM16) (v : Byte) (s : State) : Result :=
  bitTestImm bitSet d v (3 + d.size) s

/-- BTR r/m16, r16: R156, register bit offset. -/
def execBtrRm16R16 (d : RM16) (r : Reg16) (s : State) : Result :=
  bitTestReg bitReset d (s.reg16 r) (2 + d.size) s

/-- BTR r/m16, imm8: R156, immediate bit offset. -/
def execBtrRm16Imm8 (d : RM16) (v : Byte) (s : State) : Result :=
  bitTestImm bitReset d v (3 + d.size) s

/-- BTC r/m16, r16: R157, register bit offset. -/
def execBtcRm16R16 (d : RM16) (r : Reg16) (s : State) : Result :=
  bitTestReg bitComplement d (s.reg16 r) (2 + d.size) s

/-- BTC r/m16, imm8: R157, immediate bit offset. -/
def execBtcRm16Imm8 (d : RM16) (v : Byte) (s : State) : Result :=
  bitTestImm bitComplement d v (3 + d.size) s

end Sys2Proof.Machine
end

