-- ==== Sys2Proof/Machine/Control.lean ====
section
/-! DEFINITION. INT, INTO, BOUND, IRET, CALL (44_interrupt_and_coprocessor_instructions.md R180 to R185). -/

namespace Sys2Proof.Machine
open Sys2Proof

/-- INT 3 and INT n: a trap, the saved IP is the next instruction's (R180, R181). -/
def softwareInterrupt (v : Byte) (n : Nat) (s : State) : Result :=
  if s.pfx.lock then raise 6#8 s else deliver true v (s.nextIp n) s.ip s

/-- INTO: interrupt 4 when OF is 1 (R182). -/
def interruptOnOverflow (n : Nat) (s : State) : Result :=
  if s.pfx.lock then raise 6#8 s
  else if getFlag .ovf s.flags then deliver true 4#8 (s.nextIp n) s.ip s
  else .next (s.retire false n)

/-- BOUND: #5 when the register is outside the signed limits (R183). -/
def checkBounds (r : Reg16) (m : Mem) (n : Nat) (s : State) : Result :=
  complete s do
    checkLock false s
    let p ← segReadPair (operandSeg s m) (effectiveOffset s m) s
    if (s.reg16 r).toInt < p.1.toInt ∨ p.2.toInt < (s.reg16 r).toInt then .error (.exception 5#8)
    else return s.retire false n

/-- IRET (R184). -/
def interruptReturn (s : State) : Result :=
  complete s do
    checkLock false s
    returnOp s

/-- A near CALL to a known offset (R185). -/
def callNear (target : Word) (n : Nat) (s : State) : Result :=
  complete s do
    checkLock false s
    let t ← push16 (s.nextIp n) s
    return t.jump target

/-- A near CALL through an operand, read before the push (R185). -/
def callNearIndirect (d : RM16) (n : Nat) (s : State) : Result :=
  complete s do
    checkLock false s
    let target ← readRm16 d s
    let t ← push16 (s.nextIp n) s
    return t.jump target

/-- The two pushes and the transfer of a far CALL; both pushes are checked before the first word is stored (R185, D15,
D29). -/
def callFarOp (off sel : Word) (n : Nat) (s : State) : Op State := do
  checkStackWords [s.regs.sp - 2#16, s.regs.sp - 4#16]
  let t ← push16 (s.sel .cs) s
  let t ← push16 (s.nextIp n) t
  return (t.setSel .cs sel).jump off

/-- A far CALL to an immediate pointer (R185). -/
def callFar (off sel : Word) (n : Nat) (s : State) : Result :=
  complete s do
    checkLock false s
    callFarOp off sel n s

/-- A far CALL through a pointer in memory, one operand of four bytes (R185, D29). -/
def callFarIndirect (m : Mem) (n : Nat) (s : State) : Result :=
  complete s do
    checkLock false s
    let p ← segReadPair (operandSeg s m) (effectiveOffset s m) s
    callFarOp p.1 p.2 n s

/-- INT 3: R180: Deliver(3, IP + length). -/
def execInt3 (s : State) : Result :=
  softwareInterrupt 3#8 1 s

/-- INT n: R181: Deliver(n, IP + length). -/
def execIntN (v : Byte) (s : State) : Result :=
  softwareInterrupt v 2 s

/-- INTO: R182. -/
def execInto (s : State) : Result :=
  interruptOnOverflow 1 s

/-- BOUND r16, m16&16: R183. -/
def execBoundR16M (r : Reg16) (m : Mem) (s : State) : Result :=
  checkBounds r m (1 + m.size) s

/-- IRET: R184. -/
def execIret (s : State) : Result :=
  interruptReturn s

/-- CALL rel16: R185, near, relative. -/
def execCallRel16 (v : Word) (s : State) : Result :=
  callNear (s.nextIp 3 + v) 3 s

/-- CALL r/m16: R185, near, indirect. -/
def execCallRm16 (d : RM16) (s : State) : Result :=
  callNearIndirect d (1 + d.size) s

/-- CALL ptr16:16: R185, far, immediate pointer. -/
def execCallPtr16 (o : Word) (c : Word) (s : State) : Result :=
  callFar o c 5 s

/-- CALL m16:16: R185, far, pointer in memory. -/
def execCallM16 (m : Mem) (s : State) : Result :=
  callFarIndirect m (1 + m.size) s

end Sys2Proof.Machine
end

