-- ==== Sys2Proof/Machine/Divide.lean ====
section
/-! DEFINITION. DIV and IDIV (40_divide.md). -/

namespace Sys2Proof.Machine
open Sys2Proof

/-- A byte divide: AX by the operand, quotient to AL and remainder to AH, all six flags free; #0 where `f` gives no
quotient (R100 to R103). -/
def divideByte (f : Word → Byte → Option (Byte × Byte)) (d : RM8) (s : State) : Result :=
  complete s do
    checkLock false s
    let v ← readRm8 d s
    match f s.regs.ax v with
    | none => .error (.exception 0#8)
    | some (q, r) =>
      return ((s.setReg16 .ax (wordOf q r)).setFlags (drawArith s.freeFlags s.flags)).retire false (1 + d.size)

/-- A word divide: DX ++ AX by the operand, quotient to AX and remainder to DX, all six flags free; #0 where `f` gives
no quotient (R100 to R103). -/
def divideWord (f : Dword → Word → Option (Word × Word)) (d : RM16) (s : State) : Result :=
  complete s do
    checkLock false s
    let v ← readRm16 d s
    match f (s.regs.dx ++ s.regs.ax) v with
    | none => .error (.exception 0#8)
    | some (q, r) =>
      return (((s.setReg16 .ax q).setReg16 .dx r).setFlags (drawArith s.freeFlags s.flags)).retire false (1 + d.size)

/-- DIV r/m8: R101, byte form. -/
def execDivRm8 (d : RM8) (s : State) : Result :=
  divideByte udivByte d s

/-- DIV r/m16: R101, word form. -/
def execDivRm16 (d : RM16) (s : State) : Result :=
  divideWord udivWord d s

/-- IDIV r/m8: R102 and R103, byte form. -/
def execIdivRm8 (d : RM8) (s : State) : Result :=
  divideByte sdivByte d s

/-- IDIV r/m16: R102 and R103, word form. -/
def execIdivRm16 (d : RM16) (s : State) : Result :=
  divideWord sdivWord d s

end Sys2Proof.Machine
end

