-- ==== Sys2Proof/Machine/Logic.lean ====
section
/-! DEFINITION. AND, OR, XOR, NOT (43_lock.md R164 to R167). -/

namespace Sys2Proof.Machine
open Sys2Proof

/-- OR r/m8, r8: R165, flags by R169. -/
def execOrRm8R8 (d : RM8) (r : Reg8) (s : State) : Result :=
  modifyRm8 d (fun a => aluOr a (s.reg8 r)) (1 + d.size) s

/-- OR r/m16, r16: R165, flags by R169. -/
def execOrRm16R16 (d : RM16) (r : Reg16) (s : State) : Result :=
  modifyRm16 d (fun a => aluOr a (s.reg16 r)) (1 + d.size) s

/-- OR r8, r/m8: R165, flags by R169. -/
def execOrR8Rm8 (r : Reg8) (d : RM8) (s : State) : Result :=
  combineReg8 r d aluOr (1 + d.size) s

/-- OR r16, r/m16: R165, flags by R169. -/
def execOrR16Rm16 (r : Reg16) (d : RM16) (s : State) : Result :=
  combineReg16 r d aluOr (1 + d.size) s

/-- OR AL, imm8: R165, flags by R169. -/
def execOrAlImm8 (v : Byte) (s : State) : Result :=
  modifyRm8 (.reg .al) (fun a => aluOr a v) 2 s

/-- OR AX, imm16: R165, flags by R169. -/
def execOrAxImm16 (v : Word) (s : State) : Result :=
  modifyRm16 (.reg .ax) (fun a => aluOr a v) 3 s

/-- OR r/m8, imm8: R165, flags by R169. -/
def execOrRm8Imm8 (d : RM8) (v : Byte) (s : State) : Result :=
  modifyRm8 d (fun a => aluOr a v) (2 + d.size) s

/-- OR r/m16, imm16: R165, flags by R169. -/
def execOrRm16Imm16 (d : RM16) (v : Word) (s : State) : Result :=
  modifyRm16 d (fun a => aluOr a v) (3 + d.size) s

/-- OR r/m16, imm8: R165, flags by R169; the byte is sign-extended (R76). -/
def execOrRm16Imm8 (d : RM16) (v : Byte) (s : State) : Result :=
  modifyRm16 d (fun a => aluOr a (v.signExtend 16)) (2 + d.size) s

/-- AND r/m8, r8: R164, flags by R169. -/
def execAndRm8R8 (d : RM8) (r : Reg8) (s : State) : Result :=
  modifyRm8 d (fun a => aluAnd a (s.reg8 r)) (1 + d.size) s

/-- AND r/m16, r16: R164, flags by R169. -/
def execAndRm16R16 (d : RM16) (r : Reg16) (s : State) : Result :=
  modifyRm16 d (fun a => aluAnd a (s.reg16 r)) (1 + d.size) s

/-- AND r8, r/m8: R164, flags by R169. -/
def execAndR8Rm8 (r : Reg8) (d : RM8) (s : State) : Result :=
  combineReg8 r d aluAnd (1 + d.size) s

/-- AND r16, r/m16: R164, flags by R169. -/
def execAndR16Rm16 (r : Reg16) (d : RM16) (s : State) : Result :=
  combineReg16 r d aluAnd (1 + d.size) s

/-- AND AL, imm8: R164, flags by R169. -/
def execAndAlImm8 (v : Byte) (s : State) : Result :=
  modifyRm8 (.reg .al) (fun a => aluAnd a v) 2 s

/-- AND AX, imm16: R164, flags by R169. -/
def execAndAxImm16 (v : Word) (s : State) : Result :=
  modifyRm16 (.reg .ax) (fun a => aluAnd a v) 3 s

/-- AND r/m8, imm8: R164, flags by R169. -/
def execAndRm8Imm8 (d : RM8) (v : Byte) (s : State) : Result :=
  modifyRm8 d (fun a => aluAnd a v) (2 + d.size) s

/-- AND r/m16, imm16: R164, flags by R169. -/
def execAndRm16Imm16 (d : RM16) (v : Word) (s : State) : Result :=
  modifyRm16 d (fun a => aluAnd a v) (3 + d.size) s

/-- AND r/m16, imm8: R164, flags by R169; the byte is sign-extended (R76). -/
def execAndRm16Imm8 (d : RM16) (v : Byte) (s : State) : Result :=
  modifyRm16 d (fun a => aluAnd a (v.signExtend 16)) (2 + d.size) s

/-- XOR r/m8, r8: R166, flags by R169. -/
def execXorRm8R8 (d : RM8) (r : Reg8) (s : State) : Result :=
  modifyRm8 d (fun a => aluXor a (s.reg8 r)) (1 + d.size) s

/-- XOR r/m16, r16: R166, flags by R169. -/
def execXorRm16R16 (d : RM16) (r : Reg16) (s : State) : Result :=
  modifyRm16 d (fun a => aluXor a (s.reg16 r)) (1 + d.size) s

/-- XOR r8, r/m8: R166, flags by R169. -/
def execXorR8Rm8 (r : Reg8) (d : RM8) (s : State) : Result :=
  combineReg8 r d aluXor (1 + d.size) s

/-- XOR r16, r/m16: R166, flags by R169. -/
def execXorR16Rm16 (r : Reg16) (d : RM16) (s : State) : Result :=
  combineReg16 r d aluXor (1 + d.size) s

/-- XOR AL, imm8: R166, flags by R169. -/
def execXorAlImm8 (v : Byte) (s : State) : Result :=
  modifyRm8 (.reg .al) (fun a => aluXor a v) 2 s

/-- XOR AX, imm16: R166, flags by R169. -/
def execXorAxImm16 (v : Word) (s : State) : Result :=
  modifyRm16 (.reg .ax) (fun a => aluXor a v) 3 s

/-- XOR r/m8, imm8: R166, flags by R169. -/
def execXorRm8Imm8 (d : RM8) (v : Byte) (s : State) : Result :=
  modifyRm8 d (fun a => aluXor a v) (2 + d.size) s

/-- XOR r/m16, imm16: R166, flags by R169. -/
def execXorRm16Imm16 (d : RM16) (v : Word) (s : State) : Result :=
  modifyRm16 d (fun a => aluXor a v) (3 + d.size) s

/-- XOR r/m16, imm8: R166, flags by R169; the byte is sign-extended (R76). -/
def execXorRm16Imm8 (d : RM16) (v : Byte) (s : State) : Result :=
  modifyRm16 d (fun a => aluXor a (v.signExtend 16)) (2 + d.size) s

/-- NOT r/m8: R167. -/
def execNotRm8 (d : RM8) (s : State) : Result :=
  modifyRm8 d aluNot (1 + d.size) s

/-- NOT r/m16: R167. -/
def execNotRm16 (d : RM16) (s : State) : Result :=
  modifyRm16 d aluNot (1 + d.size) s

end Sys2Proof.Machine
end

