-- ==== Sys2Proof/Machine/Move.lean ====
section
/-! DEFINITION. MOV and XCHG (41_stack_and_move.md R113 to R115). -/

namespace Sys2Proof.Machine
open Sys2Proof

/-- MOV into an 8-bit `r/m` operand. -/
def storeRm8 (d : RM8) (v : Byte) (n : Nat) (s : State) : Result :=
  complete s do
    checkLock false s
    let t ← writeRm8 d v s
    return t.retire false n

/-- MOV into a 16-bit `r/m` operand. -/
def storeRm16 (d : RM16) (v : Word) (n : Nat) (s : State) : Result :=
  complete s do
    checkLock false s
    let t ← writeRm16 d v s
    return t.retire false n

/-- MOV into an 8-bit register. -/
def loadReg8 (r : Reg8) (d : RM8) (n : Nat) (s : State) : Result :=
  complete s do
    checkLock false s
    let v ← readRm8 d s
    return (s.setReg8 r v).retire false n

/-- MOV into a 16-bit register. -/
def loadReg16 (r : Reg16) (d : RM16) (n : Nat) (s : State) : Result :=
  complete s do
    checkLock false s
    let v ← readRm16 d s
    return (s.setReg16 r v).retire false n

/-- MOV into a segment register: CS raises #6; after SS no event is recognised at the next boundary (R114). -/
def loadSeg (g : Seg) (d : RM16) (n : Nat) (s : State) : Result :=
  complete s do
    checkLock false s
    if g = .cs then .error (.exception 6#8)
    else do
      let v ← readRm16 d s
      return { (s.setSel g v).retire false n with ssShadow := s.ssShadow || g == .ss }

/-- XCHG of 8 bits: with memory always locked (R115, R153). -/
def exchange8 (d : RM8) (r : Reg8) (n : Nat) (s : State) : Result :=
  complete s do
    checkLock d.isMem s
    let v ← readRm8 d s
    let t ← writeRm8 d (s.reg8 r) s
    return (t.setReg8 r v).retire d.isMem n

/-- XCHG of 16 bits: with memory always locked (R115, R153). -/
def exchange16 (d : RM16) (r : Reg16) (n : Nat) (s : State) : Result :=
  complete s do
    checkLock d.isMem s
    let v ← readRm16 d s
    let t ← writeRm16 d (s.reg16 r) s
    return (t.setReg16 r v).retire d.isMem n

/-- MOV r/m8, r8: R113. -/
def execMovRm8R8 (d : RM8) (r : Reg8) (s : State) : Result :=
  storeRm8 d (s.reg8 r) (1 + d.size) s

/-- MOV r/m16, r16: R113. -/
def execMovRm16R16 (d : RM16) (r : Reg16) (s : State) : Result :=
  storeRm16 d (s.reg16 r) (1 + d.size) s

/-- MOV r8, r/m8: R113. -/
def execMovR8Rm8 (r : Reg8) (d : RM8) (s : State) : Result :=
  loadReg8 r d (1 + d.size) s

/-- MOV r16, r/m16: R113. -/
def execMovR16Rm16 (r : Reg16) (d : RM16) (s : State) : Result :=
  loadReg16 r d (1 + d.size) s

/-- MOV r/m16, Sreg: R114, opcode 8C. -/
def execMovRm16Sreg (d : RM16) (g : Seg) (s : State) : Result :=
  storeRm16 d (s.sel g) (1 + d.size) s

/-- MOV Sreg, r/m16: R114, opcode 8E. -/
def execMovSregRm16 (g : Seg) (d : RM16) (s : State) : Result :=
  loadSeg g d (1 + d.size) s

/-- MOV AL, moffs8: R113; the `moffs` operand is the direct offset in DS (R76, R77). -/
def execMovAlMoffs8 (o : Word) (s : State) : Result :=
  loadReg8 .al (.mem (.direct o)) 3 s

/-- MOV AX, moffs16: R113; the `moffs` operand is the direct offset in DS (R76, R77). -/
def execMovAxMoffs16 (o : Word) (s : State) : Result :=
  loadReg16 .ax (.mem (.direct o)) 3 s

/-- MOV moffs8, AL: R113. -/
def execMovMoffs8Al (o : Word) (s : State) : Result :=
  storeRm8 (.mem (.direct o)) (s.reg8 .al) 3 s

/-- MOV moffs16, AX: R113. -/
def execMovMoffs16Ax (o : Word) (s : State) : Result :=
  storeRm16 (.mem (.direct o)) (s.reg16 .ax) 3 s

/-- MOV r8, imm8: R113. -/
def execMovR8Imm8 (r : Reg8) (v : Byte) (s : State) : Result :=
  storeRm8 (.reg r) v 2 s

/-- MOV r16, imm16: R113. -/
def execMovR16Imm16 (r : Reg16) (v : Word) (s : State) : Result :=
  storeRm16 (.reg r) v 3 s

/-- MOV r/m8, imm8: R113. -/
def execMovRm8Imm8 (d : RM8) (v : Byte) (s : State) : Result :=
  storeRm8 d v (2 + d.size) s

/-- MOV r/m16, imm16: R113. -/
def execMovRm16Imm16 (d : RM16) (v : Word) (s : State) : Result :=
  storeRm16 d v (3 + d.size) s

/-- XCHG r/m8, r8: R115, R153. -/
def execXchgRm8R8 (d : RM8) (r : Reg8) (s : State) : Result :=
  exchange8 d r (1 + d.size) s

/-- XCHG r/m16, r16: R115, R153. -/
def execXchgRm16R16 (d : RM16) (r : Reg16) (s : State) : Result :=
  exchange16 d r (1 + d.size) s

/-- XCHG AX, r16: R115; opcode 90 is XCHG AX, AX. -/
def execXchgAxR16 (r : Reg16) (s : State) : Result :=
  exchange16 (.reg .ax) r 1 s

end Sys2Proof.Machine
end

