-- ==== Sys2Proof/Machine/Prefix.lean ====
section
/-! DEFINITION. The prefix bytes (30_encoding.md R71, R77, R81; 43_lock.md R150). A prefix is recorded; the step goes on
with the instruction it stands before (log 16). -/

namespace Sys2Proof.Machine
open Sys2Proof

/-- LOCK (prefix): R150: LOCK is asserted while the prefixed instruction accesses its memory destination. -/
def execLockPrefix (s : State) : Result :=
  .next (State.recordPrefix true none s)

/-- ES: (segment override prefix): R77 -/
def execEsPrefix (s : State) : Result :=
  .next (State.recordPrefix false (some .es) s)

/-- CS: (segment override prefix): R77 -/
def execCsPrefix (s : State) : Result :=
  .next (State.recordPrefix false (some .cs) s)

/-- SS: (segment override prefix): R77 -/
def execSsPrefix (s : State) : Result :=
  .next (State.recordPrefix false (some .ss) s)

/-- DS: (segment override prefix): R77 -/
def execDsPrefix (s : State) : Result :=
  .next (State.recordPrefix false (some .ds) s)

/-- FS: (segment override prefix): R77 -/
def execFsPrefix (s : State) : Result :=
  .next (State.recordPrefix false (some .fs) s)

/-- GS: (segment override prefix): R77 -/
def execGsPrefix (s : State) : Result :=
  .next (State.recordPrefix false (some .gs) s)

/-- REPNE/REPNZ (prefix): R77: no effect on an instruction that is not a string instruction. -/
def execRepnePrefix (s : State) : Result :=
  .next (State.recordPrefix false none s)

/-- REP/REPE/REPZ (prefix): R77: no effect on an instruction that is not a string instruction. -/
def execRepPrefix (s : State) : Result :=
  .next (State.recordPrefix false none s)

/-- operand-size (prefix): R81: the model refuses an instruction that carries 66 (D10). -/
def execOperandSizePrefix (_ : State) : Result :=
  .refused .operandSizePrefix

/-- address-size (prefix): R81: the model refuses an instruction that carries 67 (D10). -/
def execAddressSizePrefix (_ : State) : Result :=
  .refused .addressSizePrefix

end Sys2Proof.Machine
end

