-- ==== Sys2Proof/Machine/Shift.lean ====
section
/-! DEFINITION. Shifts and rotates (42_shift_rotate.md). A masked count of 0 changes nothing; whether a memory operand
is then written back is free (R140, U30; log 15). -/

namespace Sys2Proof.Machine
open Sys2Proof

/-- What a write-back of unchanged bytes can show: the bytes count as written (R53), or one of them is not writable
(R49). -/
def touchBytes : List Nat → State → Op State
  | [], s => .ok s
  | a :: as, s => do
    checkWritable s a
    touchBytes as { s with dirty := insertAddr s.dirty a }

/-- The operand of a zero-count shift, written back or not as the free value says. -/
def rewriteBytes (as : List Nat) (s : State) : Op State :=
  match touchBytes as s with
  | .ok t => .ok { s with dirty := if Config.freeWriteBack s.draws then t.dirty else s.dirty }
  | .error e => if Config.freeWriteBack s.draws then .error e else .ok s

def rewriteRm8 (d : RM8) (s : State) : Op State :=
  match d with
  | .reg _ => .ok s
  | .mem m => rewriteBytes [operandAddr s m] s

def rewriteRm16 (d : RM16) (s : State) : Op State :=
  match d with
  | .reg _ => .ok s
  | .mem m => rewriteBytes [operandAddr s m, operandAddr s m + 1] s

/-- A shift or rotate of an 8-bit operand (R130, R140). -/
def shiftRm8 (f : Byte → Nat → Word → Word → Byte × Word) (d : RM8) (count : Byte) (n : Nat) (s : State) : Result :=
  complete s do
    checkLock false s
    let v ← readRm8 d s
    if maskedCount count = 0 then do
      let t ← rewriteRm8 d s
      return t.retire false n
    else do
      let t ← writeRm8 d (f v (maskedCount count) s.flags s.freeFlags).1 s
      return (t.setFlags (f v (maskedCount count) s.flags s.freeFlags).2).retire false n

/-- A shift or rotate of a 16-bit operand (R130, R140). -/
def shiftRm16 (f : Word → Nat → Word → Word → Word × Word) (d : RM16) (count : Byte) (n : Nat) (s : State) : Result :=
  complete s do
    checkLock false s
    let v ← readRm16 d s
    if maskedCount count = 0 then do
      let t ← rewriteRm16 d s
      return t.retire false n
    else do
      let t ← writeRm16 d (f v (maskedCount count) s.flags s.freeFlags).1 s
      return (t.setFlags (f v (maskedCount count) s.flags s.freeFlags).2).retire false n

/-- SHLD and SHRD: a shift of a 16-bit operand that takes bits from register `r` (R138, R139). -/
def doubleShift (f : Word → Word → Nat → Word → Word → Word → Word × Word) (d : RM16) (r : Reg16) (count : Byte) (n : Nat)
    (s : State) : Result :=
  shiftRm16 (fun v c fl free => f v (s.reg16 r) c fl free s.freeResult) d count n s

/-- ROL r/m8, 1: R131, R140; the count is 1. -/
def execRolRm8One (d : RM8) (s : State) : Result :=
  shiftRm8 rotateLeft d 1#8 (1 + d.size) s

/-- ROL r/m16, 1: R131, R140; the count is 1. -/
def execRolRm16One (d : RM16) (s : State) : Result :=
  shiftRm16 rotateLeft d 1#8 (1 + d.size) s

/-- ROL r/m8, CL: R131, R140; the count is CL. -/
def execRolRm8Cl (d : RM8) (s : State) : Result :=
  shiftRm8 rotateLeft d (s.reg8 .cl) (1 + d.size) s

/-- ROL r/m16, CL: R131, R140; the count is CL. -/
def execRolRm16Cl (d : RM16) (s : State) : Result :=
  shiftRm16 rotateLeft d (s.reg8 .cl) (1 + d.size) s

/-- ROL r/m8, imm8: R131, R140; the count is the immediate byte. -/
def execRolRm8Imm8 (d : RM8) (v : Byte) (s : State) : Result :=
  shiftRm8 rotateLeft d v (2 + d.size) s

/-- ROL r/m16, imm8: R131, R140; the count is the immediate byte. -/
def execRolRm16Imm8 (d : RM16) (v : Byte) (s : State) : Result :=
  shiftRm16 rotateLeft d v (2 + d.size) s

/-- ROR r/m8, 1: R132, R140; the count is 1. -/
def execRorRm8One (d : RM8) (s : State) : Result :=
  shiftRm8 rotateRight d 1#8 (1 + d.size) s

/-- ROR r/m16, 1: R132, R140; the count is 1. -/
def execRorRm16One (d : RM16) (s : State) : Result :=
  shiftRm16 rotateRight d 1#8 (1 + d.size) s

/-- ROR r/m8, CL: R132, R140; the count is CL. -/
def execRorRm8Cl (d : RM8) (s : State) : Result :=
  shiftRm8 rotateRight d (s.reg8 .cl) (1 + d.size) s

/-- ROR r/m16, CL: R132, R140; the count is CL. -/
def execRorRm16Cl (d : RM16) (s : State) : Result :=
  shiftRm16 rotateRight d (s.reg8 .cl) (1 + d.size) s

/-- ROR r/m8, imm8: R132, R140; the count is the immediate byte. -/
def execRorRm8Imm8 (d : RM8) (v : Byte) (s : State) : Result :=
  shiftRm8 rotateRight d v (2 + d.size) s

/-- ROR r/m16, imm8: R132, R140; the count is the immediate byte. -/
def execRorRm16Imm8 (d : RM16) (v : Byte) (s : State) : Result :=
  shiftRm16 rotateRight d v (2 + d.size) s

/-- RCL r/m8, 1: R133, R140; the count is 1. -/
def execRclRm8One (d : RM8) (s : State) : Result :=
  shiftRm8 rotateCarryLeft d 1#8 (1 + d.size) s

/-- RCL r/m16, 1: R133, R140; the count is 1. -/
def execRclRm16One (d : RM16) (s : State) : Result :=
  shiftRm16 rotateCarryLeft d 1#8 (1 + d.size) s

/-- RCL r/m8, CL: R133, R140; the count is CL. -/
def execRclRm8Cl (d : RM8) (s : State) : Result :=
  shiftRm8 rotateCarryLeft d (s.reg8 .cl) (1 + d.size) s

/-- RCL r/m16, CL: R133, R140; the count is CL. -/
def execRclRm16Cl (d : RM16) (s : State) : Result :=
  shiftRm16 rotateCarryLeft d (s.reg8 .cl) (1 + d.size) s

/-- RCL r/m8, imm8: R133, R140; the count is the immediate byte. -/
def execRclRm8Imm8 (d : RM8) (v : Byte) (s : State) : Result :=
  shiftRm8 rotateCarryLeft d v (2 + d.size) s

/-- RCL r/m16, imm8: R133, R140; the count is the immediate byte. -/
def execRclRm16Imm8 (d : RM16) (v : Byte) (s : State) : Result :=
  shiftRm16 rotateCarryLeft d v (2 + d.size) s

/-- RCR r/m8, 1: R134, R140; the count is 1. -/
def execRcrRm8One (d : RM8) (s : State) : Result :=
  shiftRm8 rotateCarryRight d 1#8 (1 + d.size) s

/-- RCR r/m16, 1: R134, R140; the count is 1. -/
def execRcrRm16One (d : RM16) (s : State) : Result :=
  shiftRm16 rotateCarryRight d 1#8 (1 + d.size) s

/-- RCR r/m8, CL: R134, R140; the count is CL. -/
def execRcrRm8Cl (d : RM8) (s : State) : Result :=
  shiftRm8 rotateCarryRight d (s.reg8 .cl) (1 + d.size) s

/-- RCR r/m16, CL: R134, R140; the count is CL. -/
def execRcrRm16Cl (d : RM16) (s : State) : Result :=
  shiftRm16 rotateCarryRight d (s.reg8 .cl) (1 + d.size) s

/-- RCR r/m8, imm8: R134, R140; the count is the immediate byte. -/
def execRcrRm8Imm8 (d : RM8) (v : Byte) (s : State) : Result :=
  shiftRm8 rotateCarryRight d v (2 + d.size) s

/-- RCR r/m16, imm8: R134, R140; the count is the immediate byte. -/
def execRcrRm16Imm8 (d : RM16) (v : Byte) (s : State) : Result :=
  shiftRm16 rotateCarryRight d v (2 + d.size) s

/-- SHL/SAL r/m8, 1: R135, R140; the count is 1. -/
def execShlRm8One (d : RM8) (s : State) : Result :=
  shiftRm8 shiftLeft d 1#8 (1 + d.size) s

/-- SHL/SAL r/m16, 1: R135, R140; the count is 1. -/
def execShlRm16One (d : RM16) (s : State) : Result :=
  shiftRm16 shiftLeft d 1#8 (1 + d.size) s

/-- SHL/SAL r/m8, CL: R135, R140; the count is CL. -/
def execShlRm8Cl (d : RM8) (s : State) : Result :=
  shiftRm8 shiftLeft d (s.reg8 .cl) (1 + d.size) s

/-- SHL/SAL r/m16, CL: R135, R140; the count is CL. -/
def execShlRm16Cl (d : RM16) (s : State) : Result :=
  shiftRm16 shiftLeft d (s.reg8 .cl) (1 + d.size) s

/-- SHL/SAL r/m8, imm8: R135, R140; the count is the immediate byte. -/
def execShlRm8Imm8 (d : RM8) (v : Byte) (s : State) : Result :=
  shiftRm8 shiftLeft d v (2 + d.size) s

/-- SHL/SAL r/m16, imm8: R135, R140; the count is the immediate byte. -/
def execShlRm16Imm8 (d : RM16) (v : Byte) (s : State) : Result :=
  shiftRm16 shiftLeft d v (2 + d.size) s

/-- SHR r/m8, 1: R136, R140; the count is 1. -/
def execShrRm8One (d : RM8) (s : State) : Result :=
  shiftRm8 shiftRight d 1#8 (1 + d.size) s

/-- SHR r/m16, 1: R136, R140; the count is 1. -/
def execShrRm16One (d : RM16) (s : State) : Result :=
  shiftRm16 shiftRight d 1#8 (1 + d.size) s

/-- SHR r/m8, CL: R136, R140; the count is CL. -/
def execShrRm8Cl (d : RM8) (s : State) : Result :=
  shiftRm8 shiftRight d (s.reg8 .cl) (1 + d.size) s

/-- SHR r/m16, CL: R136, R140; the count is CL. -/
def execShrRm16Cl (d : RM16) (s : State) : Result :=
  shiftRm16 shiftRight d (s.reg8 .cl) (1 + d.size) s

/-- SHR r/m8, imm8: R136, R140; the count is the immediate byte. -/
def execShrRm8Imm8 (d : RM8) (v : Byte) (s : State) : Result :=
  shiftRm8 shiftRight d v (2 + d.size) s

/-- SHR r/m16, imm8: R136, R140; the count is the immediate byte. -/
def execShrRm16Imm8 (d : RM16) (v : Byte) (s : State) : Result :=
  shiftRm16 shiftRight d v (2 + d.size) s

/-- SAR r/m8, 1: R137, R140; the count is 1. -/
def execSarRm8One (d : RM8) (s : State) : Result :=
  shiftRm8 shiftArith d 1#8 (1 + d.size) s

/-- SAR r/m16, 1: R137, R140; the count is 1. -/
def execSarRm16One (d : RM16) (s : State) : Result :=
  shiftRm16 shiftArith d 1#8 (1 + d.size) s

/-- SAR r/m8, CL: R137, R140; the count is CL. -/
def execSarRm8Cl (d : RM8) (s : State) : Result :=
  shiftRm8 shiftArith d (s.reg8 .cl) (1 + d.size) s

/-- SAR r/m16, CL: R137, R140; the count is CL. -/
def execSarRm16Cl (d : RM16) (s : State) : Result :=
  shiftRm16 shiftArith d (s.reg8 .cl) (1 + d.size) s

/-- SAR r/m8, imm8: R137, R140; the count is the immediate byte. -/
def execSarRm8Imm8 (d : RM8) (v : Byte) (s : State) : Result :=
  shiftRm8 shiftArith d v (2 + d.size) s

/-- SAR r/m16, imm8: R137, R140; the count is the immediate byte. -/
def execSarRm16Imm8 (d : RM16) (v : Byte) (s : State) : Result :=
  shiftRm16 shiftArith d v (2 + d.size) s

/-- SHLD r/m16, r16, imm8: R138. -/
def execShldRm16R16Imm8 (d : RM16) (r : Reg16) (v : Byte) (s : State) : Result :=
  doubleShift doubleLeft d r v (3 + d.size) s

/-- SHLD r/m16, r16, CL: R138. -/
def execShldRm16R16Cl (d : RM16) (r : Reg16) (s : State) : Result :=
  doubleShift doubleLeft d r (s.reg8 .cl) (2 + d.size) s

/-- SHRD r/m16, r16, imm8: R139. -/
def execShrdRm16R16Imm8 (d : RM16) (r : Reg16) (v : Byte) (s : State) : Result :=
  doubleShift doubleRight d r v (3 + d.size) s

/-- SHRD r/m16, r16, CL: R139. -/
def execShrdRm16R16Cl (d : RM16) (r : Reg16) (s : State) : Result :=
  doubleShift doubleRight d r (s.reg8 .cl) (2 + d.size) s

end Sys2Proof.Machine
end

