-- ==== Sys2Proof/Machine/Stack.lean ====
section
/-! DEFINITION. PUSH and PUSHF (41_stack_and_move.md R110 to R112). -/

namespace Sys2Proof.Machine
open Sys2Proof

/-- Push a value the instruction already has; `n` is its length. -/
def pushValue (v : Word) (n : Nat) (s : State) : Result :=
  complete s do
    checkLock false s
    let t ← push16 v s
    return t.retire false n

/-- Push an `r/m` operand, read before SP changes (R110); the register SP gives its value before the push (R111). -/
def pushOperand (d : RM16) (n : Nat) (s : State) : Result :=
  complete s do
    checkLock false s
    let v ← readRm16 d s
    let t ← push16 v s
    return t.retire false n

/-- PUSH r16 (r != SP): R110. -/
def execPushR16 (r : Reg16) (s : State) : Result :=
  pushValue (s.reg16 r) 1 s

/-- PUSH SP: R111: the value of SP before the push adjusts it. -/
def execPushSp (s : State) : Result :=
  pushValue s.regs.sp 1 s

/-- PUSH r/m16: R110; with the register SP, R111. -/
def execPushRm16 (d : RM16) (s : State) : Result :=
  pushOperand d (1 + d.size) s

/-- PUSH imm16: R110. -/
def execPushImm16 (v : Word) (s : State) : Result :=
  pushValue v 3 s

/-- PUSH imm8: R110, R76: the byte is sign-extended. -/
def execPushImm8 (v : Byte) (s : State) : Result :=
  pushValue (v.signExtend 16) 2 s

/-- PUSH ES: R110. -/
def execPushEs (s : State) : Result :=
  pushValue (s.sel .es) 1 s

/-- PUSH CS: R110. -/
def execPushCs (s : State) : Result :=
  pushValue (s.sel .cs) 1 s

/-- PUSH SS: R110. -/
def execPushSs (s : State) : Result :=
  pushValue (s.sel .ss) 1 s

/-- PUSH DS: R110. -/
def execPushDs (s : State) : Result :=
  pushValue (s.sel .ds) 1 s

/-- PUSH FS: R110. -/
def execPushFs (s : State) : Result :=
  pushValue (s.sel .fs) 2 s

/-- PUSH GS: R110. -/
def execPushGs (s : State) : Result :=
  pushValue (s.sel .gs) 2 s

/-- PUSHF: R112: bit 15 of the image is 0, bits 14:12 as last loaded. -/
def execPushf (s : State) : Result :=
  pushValue (flagsImage s.flags) 1 s

end Sys2Proof.Machine
end

