-- ==== Sys2Proof/Machine/System.lean ====
section
/-! DEFINITION. LIDT, ESC, WAIT (44_interrupt_and_coprocessor_instructions.md R186 to R188). -/

namespace Sys2Proof.Machine
open Sys2Proof

/-- LIDT: limit and 24-bit base from a six-byte operand (R186). -/
def loadIdtr (m : Mem) (n : Nat) (s : State) : Result :=
  complete s do
    checkLock false s
    let p ← segReadIdt (operandSeg s m) (effectiveOffset s m) s
    return { s with idtrLimit := p.1, idtrBase := p.2 }.retire false n

/-- The crossing check of an ESC's memory operand, whose width the spec leaves to the coprocessor operation (R187, R43;
log 46). -/
def checkEscOperand (x y : BitVec 3) (d : RM16) (s : State) : Op Unit :=
  match d with
  | .reg _ => .ok ()
  | .mem m => checkExtreme (operandSeg s m) (effectiveOffset s m) (Config.escWidth x y)

/-- ESC: #7 for EM or TS, #16 for a pending coprocessor error, #12 or #13 for a memory operand that crosses, else a
coprocessor operation, which is refused (R187, R233, D13, D21). DESIGN CHOICE (log 50): so too where no coprocessor is
present, which the checks do not ask. -/
def coprocessorEscape (x y : BitVec 3) (d : RM16) (s : State) : Result :=
  complete s do
    checkLock false s
    if s.mswEm then .error (.exception 7#8)
    else if s.mswTs then .error (.exception 7#8)
    else if s.copErrorPending then .error (.exception 16#8)
    else do
      checkEscOperand x y d s
      .error (.refuse .coprocessorOperation)

/-- WAIT: #7 for TS, #16 for a pending coprocessor error, else the coprocessor is taken as not busy (R188). -/
def waitCoprocessor (s : State) : Result :=
  complete s do
    checkLock false s
    if s.mswTs then .error (.exception 7#8)
    else if s.copErrorPending then .error (.exception 16#8)
    else return s.retire false 1

/-- LIDT m16&32: R186. -/
def execLidtM (m : Mem) (s : State) : Result :=
  loadIdtr m (2 + m.size) s

/-- ESC (coprocessor escape, D8..DF): R187. -/
def execEsc (x : BitVec 3) (y : BitVec 3) (d : RM16) (s : State) : Result :=
  coprocessorEscape x y d s

/-- WAIT: R188. -/
def execWait (s : State) : Result :=
  waitCoprocessor s

end Sys2Proof.Machine
end

