-- ==== Sys2Proof/Machine/Dispatch.lean ====
section
/-! DEFINITION. One arm per instruction, each one call of its meaning. -/

namespace Sys2Proof.Machine
open Sys2Proof

def exec (i : Instr) (s : State) : Host.Outcome State Fault Refusal :=
  match i with
  | .lockPrefix => Sys2Proof.Machine.execLockPrefix s
  | .esPrefix => Sys2Proof.Machine.execEsPrefix s
  | .csPrefix => Sys2Proof.Machine.execCsPrefix s
  | .ssPrefix => Sys2Proof.Machine.execSsPrefix s
  | .dsPrefix => Sys2Proof.Machine.execDsPrefix s
  | .fsPrefix => Sys2Proof.Machine.execFsPrefix s
  | .gsPrefix => Sys2Proof.Machine.execGsPrefix s
  | .repnePrefix => Sys2Proof.Machine.execRepnePrefix s
  | .repPrefix => Sys2Proof.Machine.execRepPrefix s
  | .operandSizePrefix => Sys2Proof.Machine.execOperandSizePrefix s
  | .addressSizePrefix => Sys2Proof.Machine.execAddressSizePrefix s
  | .divRm8 d => Sys2Proof.Machine.execDivRm8 d s
  | .divRm16 d => Sys2Proof.Machine.execDivRm16 d s
  | .idivRm8 d => Sys2Proof.Machine.execIdivRm8 d s
  | .idivRm16 d => Sys2Proof.Machine.execIdivRm16 d s
  | .pushR16 r => Sys2Proof.Machine.execPushR16 r s
  | .pushSp => Sys2Proof.Machine.execPushSp s
  | .pushRm16 d => Sys2Proof.Machine.execPushRm16 d s
  | .pushImm16 v => Sys2Proof.Machine.execPushImm16 v s
  | .pushImm8 v => Sys2Proof.Machine.execPushImm8 v s
  | .pushEs => Sys2Proof.Machine.execPushEs s
  | .pushCs => Sys2Proof.Machine.execPushCs s
  | .pushSs => Sys2Proof.Machine.execPushSs s
  | .pushDs => Sys2Proof.Machine.execPushDs s
  | .pushFs => Sys2Proof.Machine.execPushFs s
  | .pushGs => Sys2Proof.Machine.execPushGs s
  | .pushf => Sys2Proof.Machine.execPushf s
  | .movRm8R8 d r => Sys2Proof.Machine.execMovRm8R8 d r s
  | .movRm16R16 d r => Sys2Proof.Machine.execMovRm16R16 d r s
  | .movR8Rm8 r d => Sys2Proof.Machine.execMovR8Rm8 r d s
  | .movR16Rm16 r d => Sys2Proof.Machine.execMovR16Rm16 r d s
  | .movRm16Sreg d g => Sys2Proof.Machine.execMovRm16Sreg d g s
  | .movSregRm16 g d => Sys2Proof.Machine.execMovSregRm16 g d s
  | .movAlMoffs8 o => Sys2Proof.Machine.execMovAlMoffs8 o s
  | .movAxMoffs16 o => Sys2Proof.Machine.execMovAxMoffs16 o s
  | .movMoffs8Al o => Sys2Proof.Machine.execMovMoffs8Al o s
  | .movMoffs16Ax o => Sys2Proof.Machine.execMovMoffs16Ax o s
  | .movR8Imm8 r v => Sys2Proof.Machine.execMovR8Imm8 r v s
  | .movR16Imm16 r v => Sys2Proof.Machine.execMovR16Imm16 r v s
  | .movRm8Imm8 d v => Sys2Proof.Machine.execMovRm8Imm8 d v s
  | .movRm16Imm16 d v => Sys2Proof.Machine.execMovRm16Imm16 d v s
  | .xchgRm8R8 d r => Sys2Proof.Machine.execXchgRm8R8 d r s
  | .xchgRm16R16 d r => Sys2Proof.Machine.execXchgRm16R16 d r s
  | .xchgAxR16 r => Sys2Proof.Machine.execXchgAxR16 r s
  | .rolRm8One d => Sys2Proof.Machine.execRolRm8One d s
  | .rolRm16One d => Sys2Proof.Machine.execRolRm16One d s
  | .rolRm8Cl d => Sys2Proof.Machine.execRolRm8Cl d s
  | .rolRm16Cl d => Sys2Proof.Machine.execRolRm16Cl d s
  | .rolRm8Imm8 d v => Sys2Proof.Machine.execRolRm8Imm8 d v s
  | .rolRm16Imm8 d v => Sys2Proof.Machine.execRolRm16Imm8 d v s
  | .rorRm8One d => Sys2Proof.Machine.execRorRm8One d s
  | .rorRm16One d => Sys2Proof.Machine.execRorRm16One d s
  | .rorRm8Cl d => Sys2Proof.Machine.execRorRm8Cl d s
  | .rorRm16Cl d => Sys2Proof.Machine.execRorRm16Cl d s
  | .rorRm8Imm8 d v => Sys2Proof.Machine.execRorRm8Imm8 d v s
  | .rorRm16Imm8 d v => Sys2Proof.Machine.execRorRm16Imm8 d v s
  | .rclRm8One d => Sys2Proof.Machine.execRclRm8One d s
  | .rclRm16One d => Sys2Proof.Machine.execRclRm16One d s
  | .rclRm8Cl d => Sys2Proof.Machine.execRclRm8Cl d s
  | .rclRm16Cl d => Sys2Proof.Machine.execRclRm16Cl d s
  | .rclRm8Imm8 d v => Sys2Proof.Machine.execRclRm8Imm8 d v s
  | .rclRm16Imm8 d v => Sys2Proof.Machine.execRclRm16Imm8 d v s
  | .rcrRm8One d => Sys2Proof.Machine.execRcrRm8One d s
  | .rcrRm16One d => Sys2Proof.Machine.execRcrRm16One d s
  | .rcrRm8Cl d => Sys2Proof.Machine.execRcrRm8Cl d s
  | .rcrRm16Cl d => Sys2Proof.Machine.execRcrRm16Cl d s
  | .rcrRm8Imm8 d v => Sys2Proof.Machine.execRcrRm8Imm8 d v s
  | .rcrRm16Imm8 d v => Sys2Proof.Machine.execRcrRm16Imm8 d v s
  | .shlRm8One d => Sys2Proof.Machine.execShlRm8One d s
  | .shlRm16One d => Sys2Proof.Machine.execShlRm16One d s
  | .shlRm8Cl d => Sys2Proof.Machine.execShlRm8Cl d s
  | .shlRm16Cl d => Sys2Proof.Machine.execShlRm16Cl d s
  | .shlRm8Imm8 d v => Sys2Proof.Machine.execShlRm8Imm8 d v s
  | .shlRm16Imm8 d v => Sys2Proof.Machine.execShlRm16Imm8 d v s
  | .shrRm8One d => Sys2Proof.Machine.execShrRm8One d s
  | .shrRm16One d => Sys2Proof.Machine.execShrRm16One d s
  | .shrRm8Cl d => Sys2Proof.Machine.execShrRm8Cl d s
  | .shrRm16Cl d => Sys2Proof.Machine.execShrRm16Cl d s
  | .shrRm8Imm8 d v => Sys2Proof.Machine.execShrRm8Imm8 d v s
  | .shrRm16Imm8 d v => Sys2Proof.Machine.execShrRm16Imm8 d v s
  | .sarRm8One d => Sys2Proof.Machine.execSarRm8One d s
  | .sarRm16One d => Sys2Proof.Machine.execSarRm16One d s
  | .sarRm8Cl d => Sys2Proof.Machine.execSarRm8Cl d s
  | .sarRm16Cl d => Sys2Proof.Machine.execSarRm16Cl d s
  | .sarRm8Imm8 d v => Sys2Proof.Machine.execSarRm8Imm8 d v s
  | .sarRm16Imm8 d v => Sys2Proof.Machine.execSarRm16Imm8 d v s
  | .shldRm16R16Imm8 d r v => Sys2Proof.Machine.execShldRm16R16Imm8 d r v s
  | .shldRm16R16Cl d r => Sys2Proof.Machine.execShldRm16R16Cl d r s
  | .shrdRm16R16Imm8 d r v => Sys2Proof.Machine.execShrdRm16R16Imm8 d r v s
  | .shrdRm16R16Cl d r => Sys2Proof.Machine.execShrdRm16R16Cl d r s
  | .btsRm16R16 d r => Sys2Proof.Machine.execBtsRm16R16 d r s
  | .btsRm16Imm8 d v => Sys2Proof.Machine.execBtsRm16Imm8 d v s
  | .btrRm16R16 d r => Sys2Proof.Machine.execBtrRm16R16 d r s
  | .btrRm16Imm8 d v => Sys2Proof.Machine.execBtrRm16Imm8 d v s
  | .btcRm16R16 d r => Sys2Proof.Machine.execBtcRm16R16 d r s
  | .btcRm16Imm8 d v => Sys2Proof.Machine.execBtcRm16Imm8 d v s
  | .addRm8R8 d r => Sys2Proof.Machine.execAddRm8R8 d r s
  | .addRm16R16 d r => Sys2Proof.Machine.execAddRm16R16 d r s
  | .addR8Rm8 r d => Sys2Proof.Machine.execAddR8Rm8 r d s
  | .addR16Rm16 r d => Sys2Proof.Machine.execAddR16Rm16 r d s
  | .addAlImm8 v => Sys2Proof.Machine.execAddAlImm8 v s
  | .addAxImm16 v => Sys2Proof.Machine.execAddAxImm16 v s
  | .addRm8Imm8 d v => Sys2Proof.Machine.execAddRm8Imm8 d v s
  | .addRm16Imm16 d v => Sys2Proof.Machine.execAddRm16Imm16 d v s
  | .addRm16Imm8 d v => Sys2Proof.Machine.execAddRm16Imm8 d v s
  | .orRm8R8 d r => Sys2Proof.Machine.execOrRm8R8 d r s
  | .orRm16R16 d r => Sys2Proof.Machine.execOrRm16R16 d r s
  | .orR8Rm8 r d => Sys2Proof.Machine.execOrR8Rm8 r d s
  | .orR16Rm16 r d => Sys2Proof.Machine.execOrR16Rm16 r d s
  | .orAlImm8 v => Sys2Proof.Machine.execOrAlImm8 v s
  | .orAxImm16 v => Sys2Proof.Machine.execOrAxImm16 v s
  | .orRm8Imm8 d v => Sys2Proof.Machine.execOrRm8Imm8 d v s
  | .orRm16Imm16 d v => Sys2Proof.Machine.execOrRm16Imm16 d v s
  | .orRm16Imm8 d v => Sys2Proof.Machine.execOrRm16Imm8 d v s
  | .adcRm8R8 d r => Sys2Proof.Machine.execAdcRm8R8 d r s
  | .adcRm16R16 d r => Sys2Proof.Machine.execAdcRm16R16 d r s
  | .adcR8Rm8 r d => Sys2Proof.Machine.execAdcR8Rm8 r d s
  | .adcR16Rm16 r d => Sys2Proof.Machine.execAdcR16Rm16 r d s
  | .adcAlImm8 v => Sys2Proof.Machine.execAdcAlImm8 v s
  | .adcAxImm16 v => Sys2Proof.Machine.execAdcAxImm16 v s
  | .adcRm8Imm8 d v => Sys2Proof.Machine.execAdcRm8Imm8 d v s
  | .adcRm16Imm16 d v => Sys2Proof.Machine.execAdcRm16Imm16 d v s
  | .adcRm16Imm8 d v => Sys2Proof.Machine.execAdcRm16Imm8 d v s
  | .sbbRm8R8 d r => Sys2Proof.Machine.execSbbRm8R8 d r s
  | .sbbRm16R16 d r => Sys2Proof.Machine.execSbbRm16R16 d r s
  | .sbbR8Rm8 r d => Sys2Proof.Machine.execSbbR8Rm8 r d s
  | .sbbR16Rm16 r d => Sys2Proof.Machine.execSbbR16Rm16 r d s
  | .sbbAlImm8 v => Sys2Proof.Machine.execSbbAlImm8 v s
  | .sbbAxImm16 v => Sys2Proof.Machine.execSbbAxImm16 v s
  | .sbbRm8Imm8 d v => Sys2Proof.Machine.execSbbRm8Imm8 d v s
  | .sbbRm16Imm16 d v => Sys2Proof.Machine.execSbbRm16Imm16 d v s
  | .sbbRm16Imm8 d v => Sys2Proof.Machine.execSbbRm16Imm8 d v s
  | .andRm8R8 d r => Sys2Proof.Machine.execAndRm8R8 d r s
  | .andRm16R16 d r => Sys2Proof.Machine.execAndRm16R16 d r s
  | .andR8Rm8 r d => Sys2Proof.Machine.execAndR8Rm8 r d s
  | .andR16Rm16 r d => Sys2Proof.Machine.execAndR16Rm16 r d s
  | .andAlImm8 v => Sys2Proof.Machine.execAndAlImm8 v s
  | .andAxImm16 v => Sys2Proof.Machine.execAndAxImm16 v s
  | .andRm8Imm8 d v => Sys2Proof.Machine.execAndRm8Imm8 d v s
  | .andRm16Imm16 d v => Sys2Proof.Machine.execAndRm16Imm16 d v s
  | .andRm16Imm8 d v => Sys2Proof.Machine.execAndRm16Imm8 d v s
  | .subRm8R8 d r => Sys2Proof.Machine.execSubRm8R8 d r s
  | .subRm16R16 d r => Sys2Proof.Machine.execSubRm16R16 d r s
  | .subR8Rm8 r d => Sys2Proof.Machine.execSubR8Rm8 r d s
  | .subR16Rm16 r d => Sys2Proof.Machine.execSubR16Rm16 r d s
  | .subAlImm8 v => Sys2Proof.Machine.execSubAlImm8 v s
  | .subAxImm16 v => Sys2Proof.Machine.execSubAxImm16 v s
  | .subRm8Imm8 d v => Sys2Proof.Machine.execSubRm8Imm8 d v s
  | .subRm16Imm16 d v => Sys2Proof.Machine.execSubRm16Imm16 d v s
  | .subRm16Imm8 d v => Sys2Proof.Machine.execSubRm16Imm8 d v s
  | .xorRm8R8 d r => Sys2Proof.Machine.execXorRm8R8 d r s
  | .xorRm16R16 d r => Sys2Proof.Machine.execXorRm16R16 d r s
  | .xorR8Rm8 r d => Sys2Proof.Machine.execXorR8Rm8 r d s
  | .xorR16Rm16 r d => Sys2Proof.Machine.execXorR16Rm16 r d s
  | .xorAlImm8 v => Sys2Proof.Machine.execXorAlImm8 v s
  | .xorAxImm16 v => Sys2Proof.Machine.execXorAxImm16 v s
  | .xorRm8Imm8 d v => Sys2Proof.Machine.execXorRm8Imm8 d v s
  | .xorRm16Imm16 d v => Sys2Proof.Machine.execXorRm16Imm16 d v s
  | .xorRm16Imm8 d v => Sys2Proof.Machine.execXorRm16Imm8 d v s
  | .incRm8 d => Sys2Proof.Machine.execIncRm8 d s
  | .incRm16 d => Sys2Proof.Machine.execIncRm16 d s
  | .incR16 r => Sys2Proof.Machine.execIncR16 r s
  | .decRm8 d => Sys2Proof.Machine.execDecRm8 d s
  | .decRm16 d => Sys2Proof.Machine.execDecRm16 d s
  | .decR16 r => Sys2Proof.Machine.execDecR16 r s
  | .notRm8 d => Sys2Proof.Machine.execNotRm8 d s
  | .notRm16 d => Sys2Proof.Machine.execNotRm16 d s
  | .negRm8 d => Sys2Proof.Machine.execNegRm8 d s
  | .negRm16 d => Sys2Proof.Machine.execNegRm16 d s
  | .int3 => Sys2Proof.Machine.execInt3 s
  | .intN v => Sys2Proof.Machine.execIntN v s
  | .into => Sys2Proof.Machine.execInto s
  | .boundR16M r m => Sys2Proof.Machine.execBoundR16M r m s
  | .iret => Sys2Proof.Machine.execIret s
  | .callRel16 v => Sys2Proof.Machine.execCallRel16 v s
  | .callRm16 d => Sys2Proof.Machine.execCallRm16 d s
  | .callPtr16 o c => Sys2Proof.Machine.execCallPtr16 o c s
  | .callM16 m => Sys2Proof.Machine.execCallM16 m s
  | .lidtM m => Sys2Proof.Machine.execLidtM m s
  | .esc x y d => Sys2Proof.Machine.execEsc x y d s
  | .wait => Sys2Proof.Machine.execWait s

end Sys2Proof.Machine
end

