-- ==== Sys2Proof/Machine/Fetch.lean ====
section
/-! DEFINITION. Fetching the bytes of an instruction (30_encoding.md R78, 20_memory.md R45, R53), and placing an
instruction where it is fetched. -/

namespace Sys2Proof.Machine
open Sys2Proof

/-- The linear address of byte `k` of the instruction at CS:IP. -/
def State.codeAddr (s : State) (k : Nat) : Nat := (s.sel .cs).toNat * 16 + (s.ip.toNat + k)

/-- `fetch()` of R78 for byte `k`, counted from 0, when it is not a sixteenth byte: #13 past offset 65,535 (R45), a
refusal for a byte the program wrote since the last control transfer (R53). -/
def fetchByte (s : State) (k : Nat) : Op Byte :=
  if 0xFFFF < s.ip.toNat + k then .error (.exception 13#8)
  else if s.codeAddr k ∈ s.dirty then .error (.refuse .staleFetch)
  else loadByte s (s.codeAddr k)

/-- The bytes that can be fetched from byte `k` on, at most `n`, and what stops the fetch of one more: with no byte
left of the fifteen, #13 (R70). -/
def window (s : State) : Nat → Nat → List Byte × Stop
  | 0, _ => ([], .exception 13#8)
  | n + 1, k =>
    match fetchByte s k with
    | .ok b => (b :: (window s n (k + 1)).1, (window s n (k + 1)).2)
    | .error e => ([], e)

/-- The fifteen bytes an instruction can have (R70). -/
def fetchWindow (s : State) : List Byte × Stop := window s 15 0

/-- What a fetch and decode finds (R78): the prefixes, and the instruction after them or why there is none. -/
structure Fetched where
  prefixes : List Instr
  body : Except DecodeError Instr
  /-- what ends the step where the bytes are too few -/
  stop : Stop
deriving Repr

/-- Fetch and decode one instruction with its prefixes (R78). -/
def fetch (s : State) : Fetched :=
  let w := fetchWindow s
  let p := splitPrefixes w.1
  { prefixes := p.1
    body :=
      match decodeWith s.cfg.undefinedOpcodes p.2 with
      | .ok (i, _) => .ok i
      | .error e => .error e
    stop := w.2 }

/-- Bytes put into memory from outside, none of them counted as written by the program. -/
def placeBytes : List Byte → Nat → State → State
  | [], _, s => s
  | b :: bs, a, s =>
    placeBytes bs (a + 1) { s with mem := s.mem.write a b, dirty := s.dirty.filter (fun x => x != a) }

/-- Bytes at CS:IP, and no event due before they are fetched (log 9). -/
def placeInstruction (bs : List Byte) (s : State) : State :=
  let t := placeBytes bs (s.codeAddr 0) s
  { t with pastEnd := false, stepDue := false, nmiPending := false, intrPending := none, env := [] }

end Sys2Proof.Machine
end

