-- ==== Sys2Proof/Machine/Boundary.lean ====
section
/-! DEFINITION. The instruction-boundary procedure (60_exceptions.md R233). -/

namespace Sys2Proof.Machine
open Sys2Proof

/-- One event of the environment. An NMI that arrives while masked is remembered or lost as the parameter says (D22);
a coprocessor error needs a coprocessor (R22); another bus master reaches only RAM. DESIGN CHOICE (log 48): of two
external requests before the first is recognised the later stays, and the earlier is lost. DESIGN CHOICE (log 49): a second
NMI before the first is recognised is one with it. -/
def applyEvent (s : State) : EnvEvent → State
  | .nmi => if s.nmiMasked && !s.cfg.nmiLatchedWhileMasked then s else { s with nmiPending := true }
  | .intr v => { s with intrPending := some v }
  | .intrWithdrawn => { s with intrPending := none }
  | .copError b => { s with copErrorPending := b && s.cfg.hasCoprocessor }
  | .busWrite a b => if memKind s.cfg.memMap a.toNat = some .ram then { s with mem := s.mem.write a.toNat b } else s

/-- The events of this boundary happen (R24, R51; log 28). -/
def arrive (s : State) : State :=
  match s.env with
  | [] => s
  | es :: rest => es.foldl applyEvent { s with env := rest }

/-- The offset of the next instruction to execute, as an event saves it (R228); past the segment end it is free
(D24; log 12). -/
def State.nextOffset (s : State) : Word := if s.pastEnd then Config.freeIp s.draws else s.ip

/-- A delivery at a boundary, of an event no instruction raised (R228, R229). -/
def deliverEvent (v : Byte) (s : State) : Result := deliver false v s.nextOffset s.nextOffset s

/-- DR6 after a single-step trap: bit 14 set, the rest free (R20, U9; log 14). -/
def stepDr6 (s : State) : Dword := setBit (Config.freeDr6 s.draws) 14 true

/-- Step 1 of R233. -/
def takeSingleStep (s : State) : Result := deliverEvent 1#8 { s with dr6 := stepDr6 s, stepDue := false }

/-- Step 2 of R233 (R225): the mask is set and the request is served. -/
def takeNmi (s : State) : Result := deliverEvent 2#8 { s with nmiMasked := true, nmiPending := false }

/-- Step 3 of R233 (R226); the request is served (log 27). -/
def takeIntr (v : Byte) (s : State) : Result := deliverEvent v { s with intrPending := none }

/-- The start of an instruction: single-step is due after it if TF is 1 now (R24), or if it stayed pending over a MOV
to SS (R233 step 0; log 39). -/
def State.begin (s : State) : State :=
  { s with
    ssShadow := false
    stepDue := getFlag .tf s.flags || (s.ssShadow && s.stepDue)
    pfx := Prefixes.empty }

/-- The prefixes of an instruction, first to last. -/
def runPrefixes : List Instr → State → Result
  | [], s => .next s
  | p :: ps, s =>
    match exec p s with
    | .next t => runPrefixes ps t
    | .fault e => .fault e
    | .refused r => .refused r

/-- What was fetched after its prefixes: an undefined form raises #6, an unknown opcode is refused (R72, R78). -/
def runBody (body : Except DecodeError Instr) (s : State) : Result :=
  match body with
  | .ok i => exec i s
  | .error .undefinedForm => raise 6#8 s
  | .error _ => .refused .unknownOpcode

/-- A fetched instruction: the fetch's own stop first, then the prefixes, then the instruction (R78, R233 step 4). -/
def runFetched (f : Fetched) (s : State) : Result :=
  match f.body with
  | .error .short => complete s (.error f.stop)
  | _ =>
    match runPrefixes f.prefixes s with
    | .next t => runBody f.body t
    | .fault e => .fault e
    | .refused r => .refused r

/-- Step 4 of R233: past the segment end the fetch raises #13 with a free saved IP (R45, D24). -/
def runInstruction (s : State) : Result :=
  if s.pastEnd then deliverEvent 13#8 s.begin
  else runFetched (fetch s.begin) s.begin

/-- An external interrupt that may be recognised now (R226, D18). -/
def State.intrDue (s : State) : Option Byte := if getFlag .intf s.flags then s.intrPending else none

/-- R233 after the events of the boundary have happened. -/
def atBoundary (s : State) : Result :=
  if s.ssShadow then runInstruction s
  else if s.stepDue then takeSingleStep s
  else if s.nmiPending && !s.nmiMasked then takeNmi s
  else
    match s.intrDue with
    | some v => takeIntr v s
    | none => runInstruction s

end Sys2Proof.Machine
end

