-- ==== Sys2Proof/Safety.lean ====
section
/-! DEFINITION. What claims mean by a well-kept state and a safe run. -/

namespace Sys2Proof.Machine
open Sys2Proof

/-- FLAGS as the register holds it: bits 15, 5 and 3 are 0 and bit 1 is 1 (R16, R17, D23). -/
abbrev FlagsFixed (fl : Word) : Prop := fixedFlags fl = fl

/-- The written addresses are strictly rising. -/
abbrev DirtyWf (l : List Nat) : Prop := l.Pairwise (fun a b => a < b)

/-- What holds of a state between two steps: memory and the written addresses in canonical form, the fixed flag bits
as the spec has them, no prefix half read, no coprocessor error without a coprocessor (R22). -/
structure State.Inv (s : State) : Prop where
  mem : s.mem.Wf
  dirty : DirtyWf s.dirty
  flags : FlagsFixed s.flags
  pfx : s.pfx = Prefixes.empty
  cop : s.copErrorPending = true → s.cfg.hasCoprocessor = true

/-! ### Premises on operands and the stack -/

/-- MemMap populates the byte (R49). -/
abbrev PresentByte (s : State) (a : Nat) : Prop := (memKind s.cfg.memMap a).isSome = true

/-- The processor may write the byte (R49, D3). -/
abbrev RamByte (s : State) (a : Nat) : Prop := memKind s.cfg.memMap a = some .ram

/-- A memory operand of `n` bytes that crosses no segment extreme (R43) and is populated. -/
abbrev MemReadable (m : Mem) (n : Nat) (s : State) : Prop :=
  crosses (effectiveOffset s m) n = false ∧ ∀ k < n, PresentByte s (operandAddr s m + k)

/-- A memory operand of `n` bytes that crosses no segment extreme (R43) and can be written. -/
abbrev MemWritable (m : Mem) (n : Nat) (s : State) : Prop :=
  crosses (effectiveOffset s m) n = false ∧ ∀ k < n, RamByte s (operandAddr s m + k)

/-- An `r/m` operand of `n` bytes that can be read. -/
abbrev RmReadable {ρ : Type} (d : RM ρ) (n : Nat) (s : State) : Prop :=
  match d with
  | .reg _ => True
  | .mem m => MemReadable m n s

/-- An `r/m` operand of `n` bytes that can be read and written. -/
abbrev RmWritable {ρ : Type} (d : RM ρ) (n : Nat) (s : State) : Prop :=
  match d with
  | .reg _ => True
  | .mem m => MemWritable m n s

/-- A LOCK prefix stands only before a memory destination (R151). -/
abbrev LockLegal {ρ : Type} (d : RM ρ) (s : State) : Prop := s.pfx.lock = true → d.isMem = true

/-- The word at `SP + k` can be read through SS (R184). -/
abbrev StackReadable (k : Word) (s : State) : Prop :=
  crosses (s.regs.sp + k) 2 = false ∧ PresentByte s (s.lin .ss (s.regs.sp + k)) ∧
    PresentByte s (s.lin .ss (s.regs.sp + k) + 1)

/-- A word can be written through SS at `SP - k` (R110). -/
abbrev PushRoom (k : Word) (s : State) : Prop :=
  crosses (s.regs.sp - k) 2 = false ∧ RamByte s (s.lin .ss (s.regs.sp - k)) ∧ RamByte s (s.lin .ss (s.regs.sp - k) + 1)

/-! ### What a claim says of the next state -/

/-- The word at a linear address (R46). -/
def wordAt (s : State) (a : Nat) : Word := wordOf (s.mem.read a) (s.mem.read (a + 1))

/-- The value of an 8-bit `r/m` operand. -/
def valueRm8 (d : RM8) (s : State) : Byte :=
  match d with
  | .reg r => s.reg8 r
  | .mem m => s.mem.read (operandAddr s m)

/-- The value of a 16-bit `r/m` operand. -/
def valueRm16 (d : RM16) (s : State) : Word :=
  match d with
  | .reg r => s.reg16 r
  | .mem m => wordAt s (operandAddr s m)

/-- Every byte of memory reads as before, and no byte more counts as written. -/
def SameMemory (s t : State) : Prop := (∀ a, t.mem.read a = s.mem.read a) ∧ t.dirty = s.dirty

/-- `n` bytes from `a` on were stored; every other byte of memory reads as before. -/
def StoredAt (a n : Nat) (s t : State) : Prop :=
  (∀ x, x < a ∨ a + n ≤ x → t.mem.read x = s.mem.read x) ∧ ∀ x, x ∈ t.dirty ↔ (a ≤ x ∧ x < a + n) ∨ x ∈ s.dirty

/-- An 8-bit `r/m` operand took the value `v`; every other register and byte of memory is as before. -/
def Stored8 (d : RM8) (v : Byte) (s t : State) : Prop :=
  match d with
  | .reg r => t.regs = s.regs.set8 r v ∧ SameMemory s t
  | .mem m => t.regs = s.regs ∧ t.mem.read (operandAddr s m) = v ∧ StoredAt (operandAddr s m) 1 s t

/-- A 16-bit `r/m` operand took the value `v`; every other register and byte of memory is as before. -/
def Stored16 (d : RM16) (v : Word) (s t : State) : Prop :=
  match d with
  | .reg r => t.regs = s.regs.set r v ∧ SameMemory s t
  | .mem m => t.regs = s.regs ∧ wordAt t (operandAddr s m) = v ∧ StoredAt (operandAddr s m) 2 s t

/-- The upper register halves, IDTR, MSW, DR6, the pending events, the environment and the parameters are as before. -/
structure SameSystem (s t : State) : Prop where
  upper : t.upper = s.upper
  idtrLimit : t.idtrLimit = s.idtrLimit
  idtrBase : t.idtrBase = s.idtrBase
  msw : t.msw = s.msw
  dr6 : t.dr6 = s.dr6
  nmiMasked : t.nmiMasked = s.nmiMasked
  nmiPending : t.nmiPending = s.nmiPending
  intrPending : t.intrPending = s.intrPending
  copErrorPending : t.copErrorPending = s.copErrorPending
  stepDue : t.stepDue = s.stepDue
  ssShadow : t.ssShadow = s.ssShadow
  env : t.env = s.env
  cfg : t.cfg = s.cfg

/-- An instruction of `n` bytes after its prefixes ended without a control transfer: IP is the offset of the byte after
it (R13), beyond the segment where that is past 65,535 (R45); the selectors, and all that `SameSystem` names, are as
before; `locked` says whether LOCK was asserted (R23). -/
structure Retired (locked : Bool) (n : Nat) (s t : State) : Prop where
  ip : t.ip = s.ip + BitVec.ofNat 16 (s.pfx.count + n)
  pastEnd : t.pastEnd = decide (0xFFFF < s.ip.toNat + (s.pfx.count + n))
  pfx : t.pfx = Prefixes.empty
  lockSignal : t.lockSignal = locked
  segs : t.segs = s.segs
  system : SameSystem s t

/-- Control went to an offset in the code segment `cs`: fetch sees every store again (R53); the other selectors, and
all that `SameSystem` names, are as before. -/
structure Jumped (cs ip : Word) (s t : State) : Prop where
  ip : t.ip = ip
  segs : t.segs = s.segs.set .cs cs
  pastEnd : t.pastEnd = false
  pfx : t.pfx = Prefixes.empty
  lockSignal : t.lockSignal = false
  dirty : t.dirty = []
  system : SameSystem s t

/-- Exactly the listed flags may differ. -/
def OnlyFlags (fs : List Flag) (old new : Word) : Prop := ∀ j, (∀ f ∈ fs, Flag.bit f ≠ j) → new.getLsbD j = old.getLsbD j

/-- The six arithmetic flags. -/
def arithFlags : List Flag := [.cf, .pf, .af, .zf, .sf, .ovf]

/-- ZF, SF and PF say what R169 says of the result. -/
structure ResultFlags {w : Nat} (r : BitVec w) (new : Word) : Prop where
  zf : getFlag .zf new = decide (r = 0#w)
  sf : getFlag .sf new = r.msb
  pf : getFlag .pf new = evenParity r

/-- One word was pushed: SP moved down by 2 and no other register, the word at SS:SP is `v`, every other byte of memory
reads as before (R110). -/
structure Pushed1 (v : Word) (s t : State) : Prop where
  regs : t.regs = s.regs.set .sp (s.regs.sp - 2#16)
  top : wordAt t (s.lin .ss (s.regs.sp - 2#16)) = v
  rest : ∀ x, x < s.lin .ss (s.regs.sp - 2#16) ∨ s.lin .ss (s.regs.sp - 2#16) + 2 ≤ x → t.mem.read x = s.mem.read x

/-- A byte of one of the `n` words below SP, through SS. -/
def InPushed (n : Nat) (s : State) (x : Nat) : Prop :=
  ∃ i, 1 ≤ i ∧ i ≤ n ∧ (x = s.lin .ss (s.regs.sp - BitVec.ofNat 16 (2 * i)) ∨
    x = s.lin .ss (s.regs.sp - BitVec.ofNat 16 (2 * i)) + 1)

/-- Two words were pushed, `v` first (R185). -/
structure Pushed2 (v w : Word) (s t : State) : Prop where
  regs : t.regs = s.regs.set .sp (s.regs.sp - 4#16)
  first : wordAt t (s.lin .ss (s.regs.sp - 2#16)) = v
  second : wordAt t (s.lin .ss (s.regs.sp - 4#16)) = w
  rest : ∀ x, ¬ InPushed 2 s x → t.mem.read x = s.mem.read x

/-- Three words were pushed, `v` first: the frame of R229. -/
structure Pushed3 (v w u : Word) (s t : State) : Prop where
  regs : t.regs = s.regs.set .sp (s.regs.sp - 6#16)
  first : wordAt t (s.lin .ss (s.regs.sp - 2#16)) = v
  second : wordAt t (s.lin .ss (s.regs.sp - 4#16)) = w
  third : wordAt t (s.lin .ss (s.regs.sp - 6#16)) = u
  rest : ∀ x, ¬ InPushed 3 s x → t.mem.read x = s.mem.read x

/-- The conditions under which vector `v` is delivered (R229, R231): its entry is within IDTR.limit and readable, and
the three words fit below SP. -/
structure Deliverable (v : Byte) (s : State) : Prop where
  limit : 4 * v.toNat + 3 ≤ s.idtrLimit.toNat
  entry : ∀ k < 4, PresentByte s (s.idtrBase.toNat + 4 * v.toNat + k)
  room : PushRoom 2#16 s ∧ PushRoom 4#16 s ∧ PushRoom 6#16 s

/-- The state after the entry of vector `v` with saved IP `ret` (R229, R230): the three words of the frame, CS:IP from
the table entry read before the pushes, IF and TF clear and no other flag changed. -/
structure Entered (v : Byte) (ret : Word) (s t : State) : Prop where
  frame : Pushed3 (flagsImage s.flags) (s.sel .cs) ret s t
  jump : Jumped (wordAt s (s.idtrBase.toNat + 4 * v.toNat + 2)) (wordAt s (s.idtrBase.toNat + 4 * v.toNat)) s t
  intf : getFlag .intf t.flags = false
  tf : getFlag .tf t.flags = false
  flags : OnlyFlags [.intf, .tf] s.flags t.flags

/-! ### Classes of the opcode table -/

/-- The eleven prefix rows (R77, R81, R150). -/
def isPrefix : Instr → Bool
  | .lockPrefix | .esPrefix | .csPrefix | .ssPrefix | .dsPrefix | .fsPrefix | .gsPrefix | .repnePrefix | .repPrefix
  | .operandSizePrefix | .addressSizePrefix => true
  | _ => false

/-- The forms a LOCK prefix is legal before: the rows whose `lockable` field is `mod != 11`, with a memory destination
(R151, R84). Any other form raises #6 (R152). -/
def lockLegal : Instr → Bool
  | .addRm8R8 d _ | .orRm8R8 d _ | .adcRm8R8 d _ | .sbbRm8R8 d _ | .andRm8R8 d _ | .subRm8R8 d _ | .xorRm8R8 d _
  | .addRm8Imm8 d _ | .orRm8Imm8 d _ | .adcRm8Imm8 d _ | .sbbRm8Imm8 d _ | .andRm8Imm8 d _ | .subRm8Imm8 d _
  | .xorRm8Imm8 d _ | .xchgRm8R8 d _ | .incRm8 d | .decRm8 d | .notRm8 d | .negRm8 d => d.isMem
  | .addRm16R16 d _ | .orRm16R16 d _ | .adcRm16R16 d _ | .sbbRm16R16 d _ | .andRm16R16 d _ | .subRm16R16 d _
  | .xorRm16R16 d _ | .addRm16Imm16 d _ | .orRm16Imm16 d _ | .adcRm16Imm16 d _ | .sbbRm16Imm16 d _
  | .andRm16Imm16 d _ | .subRm16Imm16 d _ | .xorRm16Imm16 d _ | .addRm16Imm8 d _ | .orRm16Imm8 d _
  | .adcRm16Imm8 d _ | .sbbRm16Imm8 d _ | .andRm16Imm8 d _ | .subRm16Imm8 d _ | .xorRm16Imm8 d _
  | .xchgRm16R16 d _ | .incRm16 d | .decRm16 d | .notRm16 d | .negRm16 d | .btsRm16R16 d _ | .btsRm16Imm8 d _
  | .btrRm16R16 d _ | .btrRm16Imm8 d _ | .btcRm16R16 d _ | .btcRm16Imm8 d _ => d.isMem
  | _ => false

/-- The bytes of the forms the rules call undefined (R72): 8C with segment number 6 or 7, 8E with 6, 7 or CS (R75,
R114), and the register forms of BOUND, CALL m16:16 and LIDT (R183, R185, R186). -/
def UndefinedForm (bs : List Byte) : Prop :=
  (∃ (y : BitVec 3) (d : RM16) (rest : List Byte), d.wellFormed = true ∧ 6 ≤ y.toNat ∧ bs = 0x8C :: (encodeRm16 y d ++ rest)) ∨
  (∃ (y : BitVec 3) (d : RM16) (rest : List Byte), d.wellFormed = true ∧ (y.toNat = 1 ∨ 6 ≤ y.toNat) ∧
    bs = 0x8E :: (encodeRm16 y d ++ rest)) ∨
  (∃ (y r : BitVec 3) (rest : List Byte), bs = 0x62 :: modRm 3 y r :: rest) ∨
  (∃ (r : BitVec 3) (rest : List Byte), bs = 0xFF :: modRm 3 3 r :: rest) ∨
  ∃ (r : BitVec 3) (rest : List Byte), bs = 0x0F :: 0x01 :: modRm 3 3 r :: rest

/-- The bytes begin with bytes that a pattern admits, one pair (match, mask) a byte (R84). -/
def Admits (p : Pattern) (bs : List Byte) : Prop :=
  ∃ pre rest, bs = pre ++ rest ∧ List.Forall₂ (fun (q : Byte × Byte) b => b &&& q.2 = q.1) p pre

/-- One of the bytes is not as the pattern has it, so that no bytes after them can make it one the pattern admits (R84). -/
def Rejects (p : Pattern) (bs : List Byte) : Prop :=
  ∃ (k : Nat) (q : Byte × Byte) (b : Byte), p[k]? = some q ∧ bs[k]? = some b ∧ b &&& q.2 ≠ q.1

/-! ### What the rules say of a computation, as relations

`a` is the destination before, `b` the source, `old` and `new` are FLAGS before and after, `r` is the result. A flag the
rules leave as a `draw` is not mentioned: any value of it satisfies the relation. -/

/-- Result and flags of ADD and ADC (R169). -/
structure Sum {w : Nat} (cin : Bool) (a b r : BitVec w) (new : Word) : Prop where
  result : r.toNat = (a.toNat + b.toNat + cin.toNat) % 2 ^ w
  ovf : getFlag .ovf new = (a.msb == b.msb && r.msb != a.msb)
  af : getFlag .af new = (a ^^^ b ^^^ r).getLsbD 4
  flags : ResultFlags r new

/-- Result and flags of SUB and SBB (R169). -/
structure Difference {w : Nat} (bin : Bool) (a b r : BitVec w) (new : Word) : Prop where
  result : (r.toNat : Int) = ((a.toNat : Int) - b.toNat - bin.toNat) % 2 ^ w
  ovf : getFlag .ovf new = (a.msb != b.msb && r.msb != a.msb)
  af : getFlag .af new = (a ^^^ b ^^^ r).getLsbD 4
  flags : ResultFlags r new

/-- A two-operand operation: `a`, `b`, old FLAGS, result, new FLAGS. -/
abbrev Binary (w : Nat) := BitVec w → BitVec w → Word → BitVec w → Word → Prop

/-- A carry out of `w` bits (R169). -/
def CarryOut (w n : Nat) (new : Word) : Prop := getFlag .cf new = decide (2 ^ w ≤ n)

/-- ADD (R158, R169). -/
def IsAdd {w : Nat} : Binary w := fun a b old r new =>
  Sum false a b r new ∧ CarryOut w (a.toNat + b.toNat) new ∧ OnlyFlags arithFlags old new

/-- ADC (R159, R169). -/
def IsAdc {w : Nat} : Binary w := fun a b old r new =>
  Sum (getFlag .cf old) a b r new ∧ CarryOut w (a.toNat + b.toNat + (getFlag .cf old).toNat) new ∧
    OnlyFlags arithFlags old new

/-- SUB (R160, R169). -/
def IsSub {w : Nat} : Binary w := fun a b old r new =>
  Difference false a b r new ∧ getFlag .cf new = decide (a.toNat < b.toNat) ∧ OnlyFlags arithFlags old new

/-- SBB (R161, R169). -/
def IsSbb {w : Nat} : Binary w := fun a b old r new =>
  Difference (getFlag .cf old) a b r new ∧ getFlag .cf new = decide (a.toNat < b.toNat + (getFlag .cf old).toNat) ∧
    OnlyFlags arithFlags old new

/-- Flags of the logic operations: CF and OF clear, AF free (R169). -/
def LogicFlags {w : Nat} (r : BitVec w) (old new : Word) : Prop :=
  getFlag .cf new = false ∧ getFlag .ovf new = false ∧ ResultFlags r new ∧ OnlyFlags arithFlags old new

/-- AND (R164). -/
def IsAnd {w : Nat} : Binary w := fun a b old r new =>
  (∀ i < w, r.getLsbD i = (a.getLsbD i && b.getLsbD i)) ∧ LogicFlags r old new
/-- OR (R165). -/
def IsOr {w : Nat} : Binary w := fun a b old r new =>
  (∀ i < w, r.getLsbD i = (a.getLsbD i || b.getLsbD i)) ∧ LogicFlags r old new
/-- XOR (R166). -/
def IsXor {w : Nat} : Binary w := fun a b old r new =>
  (∀ i < w, r.getLsbD i = (a.getLsbD i ^^ b.getLsbD i)) ∧ LogicFlags r old new

/-- A one-operand operation: `a`, old FLAGS, result, new FLAGS. -/
abbrev Unary (w : Nat) := BitVec w → Word → BitVec w → Word → Prop

/-- The arithmetic flags without CF. -/
def arithFlagsButCf : List Flag := [.pf, .af, .zf, .sf, .ovf]

/-- INC (R162): CF unchanged. -/
def IsInc {w : Nat} : Unary w := fun a old r new => Sum false a 1#w r new ∧ OnlyFlags arithFlagsButCf old new
/-- DEC (R163): CF unchanged. -/
def IsDec {w : Nat} : Unary w := fun a old r new => Difference false a 1#w r new ∧ OnlyFlags arithFlagsButCf old new
/-- NOT (R167): no flag. -/
def IsNot {w : Nat} : Unary w := fun a old r new => r.toNat = 2 ^ w - 1 - a.toNat ∧ new = old
/-- NEG (R168): SUB with minuend 0. -/
def IsNeg {w : Nat} : Unary w := fun a old r new =>
  Difference false 0#w a r new ∧ getFlag .cf new = decide (a ≠ 0#w) ∧ OnlyFlags arithFlags old new

/-- A shift or rotate: `v`, the masked count, old FLAGS, result, new FLAGS. -/
abbrev Shift (w : Nat) := BitVec w → Nat → Word → BitVec w → Word → Prop

/-- ROL (R131). -/
def IsRol {w : Nat} : Shift w := fun v c old r new =>
  (∀ i < w, r.getLsbD i = v.getLsbD ((i + (w - c % w)) % w)) ∧ getFlag .cf new = r.getLsbD 0 ∧
    (c = 1 → getFlag .ovf new = (r.msb ^^ getFlag .cf new)) ∧ OnlyFlags [.cf, .ovf] old new

/-- ROR (R132). -/
def IsRor {w : Nat} : Shift w := fun v c old r new =>
  (∀ i < w, r.getLsbD i = v.getLsbD ((i + c) % w)) ∧ getFlag .cf new = r.msb ∧
    (c = 1 → getFlag .ovf new = (r.getLsbD (w - 1) ^^ r.getLsbD (w - 2))) ∧ OnlyFlags [.cf, .ovf] old new

/-- RCL (R133): the rotated quantity is CF ++ v, of w + 1 bits. -/
def IsRcl {w : Nat} : Shift w := fun v c old r new =>
  (∀ i < w + 1, (BitVec.cons (getFlag .cf new) r).getLsbD i =
      (BitVec.cons (getFlag .cf old) v).getLsbD ((i + (w + 1 - c % (w + 1))) % (w + 1))) ∧
    (c = 1 → getFlag .ovf new = (r.msb ^^ getFlag .cf new)) ∧ OnlyFlags [.cf, .ovf] old new

/-- RCR (R134): OF from the values before. -/
def IsRcr {w : Nat} : Shift w := fun v c old r new =>
  (∀ i < w + 1, (BitVec.cons (getFlag .cf new) r).getLsbD i =
      (BitVec.cons (getFlag .cf old) v).getLsbD ((i + c) % (w + 1))) ∧
    (c = 1 → getFlag .ovf new = (v.msb ^^ getFlag .cf old)) ∧ OnlyFlags [.cf, .ovf] old new

/-- SHL (R135): CF is free from the width on. -/
def IsShl {w : Nat} : Shift w := fun v c old r new =>
  r.toNat = v.toNat * 2 ^ c % 2 ^ w ∧ (c < w → getFlag .cf new = v.getLsbD (w - c)) ∧
    (c = 1 → getFlag .ovf new = (r.msb ^^ getFlag .cf new)) ∧ ResultFlags r new ∧ OnlyFlags arithFlags old new

/-- SHR (R136): CF is free from the width on. -/
def IsShr {w : Nat} : Shift w := fun v c old r new =>
  r.toNat = v.toNat / 2 ^ c ∧ (c < w → getFlag .cf new = v.getLsbD (c - 1)) ∧
    (c = 1 → getFlag .ovf new = v.msb) ∧ ResultFlags r new ∧ OnlyFlags arithFlags old new

/-- SAR (R137): sign fill, CF the sign from the width on. -/
def IsSar {w : Nat} : Shift w := fun v c old r new =>
  r.toInt = v.toInt / 2 ^ c ∧ getFlag .cf new = (if c < w then v.getLsbD (c - 1) else v.msb) ∧
    (c = 1 → getFlag .ovf new = false) ∧ ResultFlags r new ∧ OnlyFlags arithFlags old new

/-- SHLD (R138): above 16 the result and the arithmetic flags are free. -/
def IsShld (v x : Word) (c : Nat) (old r new : Word) : Prop :=
  OnlyFlags arithFlags old new ∧
    (c ≤ 16 → (∀ i < 16, r.getLsbD i = if i < c then x.getLsbD (16 - c + i) else v.getLsbD (i - c)) ∧
      getFlag .cf new = v.getLsbD (16 - c) ∧ (c = 1 → getFlag .ovf new = (r.msb ^^ v.msb)) ∧ ResultFlags r new)

/-- SHRD (R139): above 16 the result and the arithmetic flags are free. -/
def IsShrd (v x : Word) (c : Nat) (old r new : Word) : Prop :=
  OnlyFlags arithFlags old new ∧
    (c ≤ 16 → (∀ i < 16, r.getLsbD i = if i + c < 16 then v.getLsbD (i + c) else x.getLsbD (i + c - 16)) ∧
      getFlag .cf new = v.getLsbD (c - 1) ∧ (c = 1 → getFlag .ovf new = (r.msb ^^ v.msb)) ∧ ResultFlags r new)

/-- A bit test (R155 to R157): CF is bit `n` before, bit `n` becomes `f` of it, no other bit changes; OF, SF, ZF, AF, PF
are free (U28). -/
def IsBitTest (f : Bool → Bool) (n : Nat) (v r old new : Word) : Prop :=
  (∀ i < 16, r.getLsbD i = if i = n then f (v.getLsbD i) else v.getLsbD i) ∧ getFlag .cf new = v.getLsbD n ∧
    OnlyFlags arithFlags old new

/-! ### Instruction boundaries -/

/-- The bytes lie at CS:IP and can be fetched (R78). -/
abbrev Fetchable (bs : List Byte) (s : State) : Prop := ∀ k, (h : k < bs.length) → fetchByte s k = .ok bs[k]

/-- No event is recognised before the next instruction (R233 steps 0 to 3). -/
def NoEvent (s : State) : Prop :=
  s.ssShadow = true ∨ s.stepDue = false ∧ (s.nmiPending = true → s.nmiMasked = true) ∧
    (getFlag .intf s.flags = true → s.intrPending = none)

/-- What an event of the environment does, and that it does nothing else: an NMI is pending after it unless it arrived
masked and is not remembered (R24, R225, D22); a request is pending with its vector (R226); a coprocessor error needs a
coprocessor (R22); another bus master writes a byte where there is RAM (R51). -/
def EventEffect (s t : State) : EnvEvent → Prop
  | .nmi => t = { s with nmiPending := t.nmiPending } ∧
      (t.nmiPending = true ↔ s.nmiPending = true ∨ s.nmiMasked = false ∨ s.cfg.nmiLatchedWhileMasked = true)
  | .intr v => t = { s with intrPending := some v }
  | .intrWithdrawn => t = { s with intrPending := none }
  | .copError b => t = { s with copErrorPending := t.copErrorPending } ∧
      (t.copErrorPending = true ↔ b = true ∧ s.cfg.hasCoprocessor = true)
  | .busWrite a b => t = { s with mem := t.mem } ∧ (s.mem.Wf → RamByte s a.toNat → t.mem.read a.toNat = b) ∧
      ∀ x, x ≠ a.toNat ∨ ¬ RamByte s x → t.mem.read x = s.mem.read x

/-- `k` steps from `s` neither fault nor are refused. -/
def SafeFor (k : Nat) (s : State) : Prop := ∃ t, Host.Core.run Sys2Proof.core k s = .next t

end Sys2Proof.Machine
end

