-- ==== Sys2Proof/Certificates/Slice0/Obligations.lean ====
section
/-! DEFINITION. The statements for the provers. OBLIGATIONS.json gives each its title and the rules it rests on. A list
of pairs names the instructions of one shape a statement is about, each with what the spec says of it. -/

open Sys2Proof Sys2Proof.Machine

/-! ### Encoding -/

/-- Words written out from 30_encoding.md section 6, one or more of every family, decode to the instruction they stand
for (R75 to R77, R84). -/
def Obligations.DecodesWrittenOutBytes : Prop :=
  -- DIV BL; IDIV BX
  decode [0xF6, 0xF3] = .ok (.divRm8 (.reg .bl), []) ∧
  decode [0xF7, 0xFB] = .ok (.idivRm16 (.reg .bx), []) ∧
  -- PUSH AX; PUSH SP in its two forms; PUSHF
  decode [0x50] = .ok (.pushR16 .ax, []) ∧
  decode [0x54] = .ok (.pushSp, []) ∧
  decode [0xFF, 0xF4] = .ok (.pushRm16 (.reg .sp), []) ∧
  decode [0x9C] = .ok (.pushf, []) ∧
  -- MOV [0200H], AX; MOV [BP-1], AX; MOV DS, AX; XCHG BP, [BP]
  decode [0xA3, 0x00, 0x02] = .ok (.movMoffs16Ax 0x0200, []) ∧
  decode [0x89, 0x46, 0xFF] = .ok (.movRm16R16 (.mem (.disp8 .bp 0xFF)) .ax, []) ∧
  decode [0x8E, 0xD8] = .ok (.movSregRm16 .ds (.reg .ax), []) ∧
  decode [0x87, 0x6E, 0x00] = .ok (.xchgRm16R16 (.mem (.disp8 .bp 0x00)) .bp, []) ∧
  -- SHL AX, CL; SHLD AX, BX, 2
  decode [0xD3, 0xE0] = .ok (.shlRm16Cl (.reg .ax), []) ∧
  decode [0x0F, 0xA4, 0xD8, 0x02] = .ok (.shldRm16R16Imm8 (.reg .ax) .bx 2, []) ∧
  -- LOCK; BTS word [0100H], 3; ADD [BX], AX; INC byte [SI]
  decode [0xF0] = .ok (.lockPrefix, []) ∧
  decode [0x0F, 0xBA, 0x2E, 0x00, 0x01, 0x03] = .ok (.btsRm16Imm8 (.mem (.direct 0x0100)) 3, []) ∧
  decode [0x01, 0x07] = .ok (.addRm16R16 (.mem (.base .bx)) .ax, []) ∧
  decode [0xFE, 0x04] = .ok (.incRm8 (.mem (.base .si)), []) ∧
  -- INT 21H; BOUND AX, [0200H]; IRET; CALL rel16; LIDT [0300H]; an ESC; WAIT
  decode [0xCD, 0x21] = .ok (.intN 0x21, []) ∧
  decode [0x62, 0x06, 0x00, 0x02] = .ok (.boundR16M .ax (.direct 0x0200), []) ∧
  decode [0xCF] = .ok (.iret, []) ∧
  decode [0xE8, 0x10, 0x00] = .ok (.callRel16 0x0010, []) ∧
  decode [0x0F, 0x01, 0x1E, 0x00, 0x03] = .ok (.lidtM (.direct 0x0300), []) ∧
  decode [0xD9, 0x07] = .ok (.esc 1 0 (.mem (.base .bx)), []) ∧
  decode [0x9B] = .ok (.wait, [])

/-- Every well-formed instruction, with every operand at every value, decodes from its encoding, whatever follows it
(R75, R76, R84). -/
def Obligations.DecodeOfEncode : Prop :=
  ∀ (i : Instr) (rest : List Byte), i.wellFormed = true → decode (encode i ++ rest) = .ok (i, rest)

/-- What decodes is well formed, and its bytes are its encoding: no two byte sequences stand for one instruction but by
their own rows, and no bit of an encoding is ignored (R75, R76, R84). -/
def Obligations.DecodedBytesAreTheEncoding : Prop :=
  ∀ (bs : List Byte) (i : Instr) (rest : List Byte), decode bs = .ok (i, rest) →
    i.wellFormed = true ∧ bs = encode i ++ rest

/-- Any number of prefixes before an instruction are split off, in order, from the instruction's own bytes (R71, R77,
R78). -/
def Obligations.PrefixesAreSplitOff : Prop :=
  ∀ (ps : List Instr) (i : Instr) (rest : List Byte), (∀ p ∈ ps, isPrefix p = true) → isPrefix i = false →
    i.wellFormed = true → splitPrefixes (ps.flatMap encode ++ encode i ++ rest) = (ps, encode i ++ rest)

/-! ### Addresses and memory -/

/-- R41: selector times 16 plus offset, never truncated: FFFFH:FFFFH is 10FFEFH, the highest address. -/
def Obligations.LinearAddressIsNotWrapped : Prop :=
  ∀ (s : State) (g : Seg) (off : Word), s.lin g off = (s.sel g).toNat * 16 + off.toNat ∧ s.lin g off ≤ 0x10FFEF ∧
    (s.sel g = 0xFFFF → off = 0xFFFF → s.lin g off = 0x10FFEF)

/-- R43: an operand of `n` bytes crosses when `off + n - 1 > 65,535`; then the exception is 12 through SS, 13 through any
other segment register; else it is performed from `Lin(s, off)` on. A byte never crosses, a word exactly at 65,535; a
push crosses at SP = 1 and not at SP = 0 or 2. Decisions of the spec: that nothing is read or written at a crossing (D15,
log 24), and that four bytes, and the six of LIDT in the layout of R186, are one operand (R48, D29, log 32). -/
def Obligations.OperandCrossingASegmentExtreme : Prop :=
  ∀ (s : State) (g : Seg) (off : Word),
    (0xFFFF < off.toNat + 2 - 1 → segRead16 g off s = .error (.exception (if g = .ss then 12 else 13)) ∧
      ∀ v, segWrite16 g off v s = .error (.exception (if g = .ss then 12 else 13))) ∧
    (0xFFFF < off.toNat + 4 - 1 → segReadPair g off s = .error (.exception (if g = .ss then 12 else 13))) ∧
    (0xFFFF < off.toNat + 6 - 1 → segReadIdt g off s = .error (.exception (if g = .ss then 12 else 13))) ∧
    segRead8 g off s = loadByte s (s.lin g off) ∧
    (∀ v, segWrite8 g off v s = storeByte (s.lin g off) v s) ∧
    (off.toNat + 2 - 1 ≤ 0xFFFF → segRead16 g off s = loadWord s (s.lin g off) ∧
      ∀ v, segWrite16 g off v s = storeWord (s.lin g off) v s) ∧
    (off.toNat + 4 - 1 ≤ 0xFFFF → ∀ p, segReadPair g off s = .ok p →
      loadWord s (s.lin g off) = .ok p.1 ∧ loadWord s (s.lin g off + 2) = .ok p.2) ∧
    (off.toNat + 6 - 1 ≤ 0xFFFF → ∀ p, segReadIdt g off s = .ok p → loadWord s (s.lin g off) = .ok p.1 ∧
      ∃ lo hi, loadWord s (s.lin g off + 2) = .ok lo ∧ loadWord s (s.lin g off + 4) = .ok hi ∧
        p.2 = (hi.extractLsb' 0 8 ++ lo).setWidth 32) ∧
    (0xFFFF < off.toNat + 2 - 1 ↔ off = 0xFFFF) ∧
    (∀ v, s.regs.sp = 1 → push16 v s = .error (.exception 12)) ∧
    (∀ v, s.regs.sp = 0 ∨ s.regs.sp = 2 → ∀ e, push16 v s ≠ .error (.exception e))

/-- Memory reads back what was written, every other byte is untouched, the canonical form is kept (R51). Choices: that a word
lies low byte first is presumed (R46, D1, log 1), and that a misaligned word is its bytes at consecutive addresses is the
spec's decision (R47, D2, log 2). -/
def Obligations.MemoryReadsBackWrites : Prop :=
  (∀ (m : Memory) (x : Nat) (v : Byte), m.Wf → (m.write x v).Wf ∧ (m.write x v).read x = v ∧
    ∀ y, y ≠ x → (m.write x v).read y = m.read y) ∧
  ∀ (s t : State) (a : Nat) (v : Word), s.mem.Wf → storeWord a v s = .ok t →
    t.mem.read a = v.extractLsb' 0 8 ∧ t.mem.read (a + 1) = v.extractLsb' 8 8 ∧ loadWord t a = .ok v ∧
      ∀ x, x < a ∨ a + 2 ≤ x → t.mem.read x = s.mem.read x

/-- Every instruction with a word in memory as operand raises the exception of R43 when the word crosses, through the
segment register that an override or the default chooses (R43, R77); so do BOUND and CALL m16:16 for four bytes and LIDT
for six (R48, R183, R185, R186). Decisions of the spec: that those bytes are one operand (D29, log 32), and that the
exception is raised from the state in which the instruction started, nothing done (R232, D15, log 24). -/
def Obligations.CrossingOperandRaises : Prop :=
  ∀ (m : Mem) (r : Reg16) (g : Seg) (v : Word) (b : Byte) (s : State),
    (∀ i ∈ [Instr.divRm16 (.mem m), .idivRm16 (.mem m), .pushRm16 (.mem m), .movRm16R16 (.mem m) r,
        .movR16Rm16 r (.mem m), .movRm16Sreg (.mem m) g, .movRm16Imm16 (.mem m) v, .xchgRm16R16 (.mem m) r,
        .rolRm16One (.mem m), .rolRm16Cl (.mem m), .rolRm16Imm8 (.mem m) b, .rorRm16One (.mem m), .rorRm16Cl (.mem m),
        .rorRm16Imm8 (.mem m) b, .rclRm16One (.mem m), .rclRm16Cl (.mem m), .rclRm16Imm8 (.mem m) b,
        .rcrRm16One (.mem m), .rcrRm16Cl (.mem m), .rcrRm16Imm8 (.mem m) b, .shlRm16One (.mem m), .shlRm16Cl (.mem m),
        .shlRm16Imm8 (.mem m) b, .shrRm16One (.mem m), .shrRm16Cl (.mem m), .shrRm16Imm8 (.mem m) b,
        .sarRm16One (.mem m), .sarRm16Cl (.mem m), .sarRm16Imm8 (.mem m) b, .shldRm16R16Imm8 (.mem m) r b,
        .shldRm16R16Cl (.mem m) r, .shrdRm16R16Imm8 (.mem m) r b, .shrdRm16R16Cl (.mem m) r, .btsRm16Imm8 (.mem m) b,
        .btrRm16Imm8 (.mem m) b, .btcRm16Imm8 (.mem m) b, .addRm16R16 (.mem m) r, .addR16Rm16 r (.mem m),
        .addRm16Imm16 (.mem m) v, .addRm16Imm8 (.mem m) b, .orRm16R16 (.mem m) r, .orR16Rm16 r (.mem m),
        .orRm16Imm16 (.mem m) v, .orRm16Imm8 (.mem m) b, .adcRm16R16 (.mem m) r, .adcR16Rm16 r (.mem m),
        .adcRm16Imm16 (.mem m) v, .adcRm16Imm8 (.mem m) b, .sbbRm16R16 (.mem m) r, .sbbR16Rm16 r (.mem m),
        .sbbRm16Imm16 (.mem m) v, .sbbRm16Imm8 (.mem m) b, .andRm16R16 (.mem m) r, .andR16Rm16 r (.mem m),
        .andRm16Imm16 (.mem m) v, .andRm16Imm8 (.mem m) b, .subRm16R16 (.mem m) r, .subR16Rm16 r (.mem m),
        .subRm16Imm16 (.mem m) v, .subRm16Imm8 (.mem m) b, .xorRm16R16 (.mem m) r, .xorR16Rm16 r (.mem m),
        .xorRm16Imm16 (.mem m) v, .xorRm16Imm8 (.mem m) b, .incRm16 (.mem m), .decRm16 (.mem m), .notRm16 (.mem m),
        .negRm16 (.mem m), .callRm16 (.mem m)],
      (s.pfx.lock = true → lockLegal i = true) → 0xFFFF < (effectiveOffset s m).toNat + 2 - 1 →
        exec i s = raise (if operandSeg s m = .ss then 12 else 13) s) ∧
    (s.pfx.lock = false → g ≠ .cs → 0xFFFF < (effectiveOffset s m).toNat + 2 - 1 →
      exec (.movSregRm16 g (.mem m)) s = raise (if operandSeg s m = .ss then 12 else 13) s) ∧
    (s.pfx.lock = false → 0xFFFF < v.toNat + 2 - 1 → ∀ i ∈ [Instr.movAxMoffs16 v, .movMoffs16Ax v],
      exec i s = raise (if s.pfx.seg.getD .ds = .ss then 12 else 13) s) ∧
    (0xFFFF < (bitWordOffset s m (s.reg16 r)).toNat + 2 - 1 →
      ∀ i ∈ [Instr.btsRm16R16 (.mem m) r, .btrRm16R16 (.mem m) r, .btcRm16R16 (.mem m) r],
      exec i s = raise (if operandSeg s m = .ss then 12 else 13) s) ∧
    (s.pfx.lock = false → 0xFFFF < (effectiveOffset s m).toNat + 4 - 1 →
      ∀ i ∈ [Instr.boundR16M r m, .callM16 m], exec i s = raise (if operandSeg s m = .ss then 12 else 13) s) ∧
    (s.pfx.lock = false → 0xFFFF < (effectiveOffset s m).toNat + 6 - 1 →
      exec (.lidtM m) s = raise (if operandSeg s m = .ss then 12 else 13) s)

/-! ### Arithmetic and logic -/

/-- The seven two-operand operations, r/m8 and r8: result, flags, frame, LOCK (R158 to R161, R164 to R166, R169). -/
def Obligations.AluRm8R8 : Prop :=
  ∀ p ∈ ([(.addRm8R8, IsAdd), (.orRm8R8, IsOr), (.adcRm8R8, IsAdc), (.sbbRm8R8, IsSbb), (.andRm8R8, IsAnd),
      (.subRm8R8, IsSub), (.xorRm8R8, IsXor)] : List ((RM8 → Reg8 → Instr) × Binary 8)),
    ∀ (d : RM8) (r : Reg8) (s : State), s.mem.Wf → RmWritable d 1 s → LockLegal d s →
      ∃ t v, exec (p.1 d r) s = .next t ∧ p.2 (valueRm8 d s) (s.reg8 r) s.flags v t.flags ∧ Stored8 d v s t ∧
        Retired s.pfx.lock (1 + d.size) s t

/-- The same, r/m16 and r16. -/
def Obligations.AluRm16R16 : Prop :=
  ∀ p ∈ ([(.addRm16R16, IsAdd), (.orRm16R16, IsOr), (.adcRm16R16, IsAdc), (.sbbRm16R16, IsSbb), (.andRm16R16, IsAnd),
      (.subRm16R16, IsSub), (.xorRm16R16, IsXor)] : List ((RM16 → Reg16 → Instr) × Binary 16)),
    ∀ (d : RM16) (r : Reg16) (s : State), s.mem.Wf → RmWritable d 2 s → LockLegal d s →
      ∃ t v, exec (p.1 d r) s = .next t ∧ p.2 (valueRm16 d s) (s.reg16 r) s.flags v t.flags ∧ Stored16 d v s t ∧
        Retired s.pfx.lock (1 + d.size) s t

/-- The same with a register destination, r8 and r/m8, r16 and r/m16: memory is only read, and LOCK is never legal. -/
def Obligations.AluRegisterDestination : Prop :=
  (∀ p ∈ ([(.addR8Rm8, IsAdd), (.orR8Rm8, IsOr), (.adcR8Rm8, IsAdc), (.sbbR8Rm8, IsSbb), (.andR8Rm8, IsAnd),
      (.subR8Rm8, IsSub), (.xorR8Rm8, IsXor)] : List ((Reg8 → RM8 → Instr) × Binary 8)),
    ∀ (d : RM8) (r : Reg8) (s : State), RmReadable d 1 s → s.pfx.lock = false →
      ∃ t v, exec (p.1 r d) s = .next t ∧ p.2 (s.reg8 r) (valueRm8 d s) s.flags v t.flags ∧ Stored8 (.reg r) v s t ∧
        Retired false (1 + d.size) s t) ∧
  ∀ p ∈ ([(.addR16Rm16, IsAdd), (.orR16Rm16, IsOr), (.adcR16Rm16, IsAdc), (.sbbR16Rm16, IsSbb), (.andR16Rm16, IsAnd),
      (.subR16Rm16, IsSub), (.xorR16Rm16, IsXor)] : List ((Reg16 → RM16 → Instr) × Binary 16)),
    ∀ (d : RM16) (r : Reg16) (s : State), RmReadable d 2 s → s.pfx.lock = false →
      ∃ t v, exec (p.1 r d) s = .next t ∧ p.2 (s.reg16 r) (valueRm16 d s) s.flags v t.flags ∧ Stored16 (.reg r) v s t ∧
        Retired false (1 + d.size) s t

/-- The same with an immediate byte, for AL and for r/m8. -/
def Obligations.AluImm8 : Prop :=
  ∀ p ∈ ([(.addAlImm8, .addRm8Imm8, IsAdd), (.orAlImm8, .orRm8Imm8, IsOr), (.adcAlImm8, .adcRm8Imm8, IsAdc),
      (.sbbAlImm8, .sbbRm8Imm8, IsSbb), (.andAlImm8, .andRm8Imm8, IsAnd), (.subAlImm8, .subRm8Imm8, IsSub),
      (.xorAlImm8, .xorRm8Imm8, IsXor)] : List ((Byte → Instr) × (RM8 → Byte → Instr) × Binary 8)),
    ∀ (d : RM8) (b : Byte) (s : State),
      (s.pfx.lock = false →
        ∃ t v, exec (p.1 b) s = .next t ∧ p.2.2 (s.reg8 .al) b s.flags v t.flags ∧ Stored8 (.reg .al) v s t ∧
          Retired false 2 s t) ∧
      (s.mem.Wf → RmWritable d 1 s → LockLegal d s →
        ∃ t v, exec (p.2.1 d b) s = .next t ∧ p.2.2 (valueRm8 d s) b s.flags v t.flags ∧ Stored8 d v s t ∧
          Retired s.pfx.lock (2 + d.size) s t)

/-- The same at 16 bits, for AX, for r/m16 with an immediate word, and for r/m16 with a sign-extended byte (R76). -/
def Obligations.AluImm16 : Prop :=
  ∀ p ∈ ([(.addAxImm16, .addRm16Imm16, .addRm16Imm8, IsAdd), (.orAxImm16, .orRm16Imm16, .orRm16Imm8, IsOr),
      (.adcAxImm16, .adcRm16Imm16, .adcRm16Imm8, IsAdc), (.sbbAxImm16, .sbbRm16Imm16, .sbbRm16Imm8, IsSbb),
      (.andAxImm16, .andRm16Imm16, .andRm16Imm8, IsAnd), (.subAxImm16, .subRm16Imm16, .subRm16Imm8, IsSub),
      (.xorAxImm16, .xorRm16Imm16, .xorRm16Imm8, IsXor)] :
      List ((Word → Instr) × (RM16 → Word → Instr) × (RM16 → Byte → Instr) × Binary 16)),
    ∀ (d : RM16) (w : Word) (b : Byte) (s : State),
      (s.pfx.lock = false →
        ∃ t v, exec (p.1 w) s = .next t ∧ p.2.2.2 (s.reg16 .ax) w s.flags v t.flags ∧ Stored16 (.reg .ax) v s t ∧
          Retired false 3 s t) ∧
      (s.mem.Wf → RmWritable d 2 s → LockLegal d s →
        (∃ t v, exec (p.2.1 d w) s = .next t ∧ p.2.2.2 (valueRm16 d s) w s.flags v t.flags ∧ Stored16 d v s t ∧
          Retired s.pfx.lock (3 + d.size) s t) ∧
        ∃ t v, exec (p.2.2.1 d b) s = .next t ∧ p.2.2.2 (valueRm16 d s) (b.signExtend 16) s.flags v t.flags ∧
          Stored16 d v s t ∧ Retired s.pfx.lock (2 + d.size) s t)

/-- INC, DEC, NOT, NEG of a byte (R162, R163, R167, R168). -/
def Obligations.UnaryRm8 : Prop :=
  ∀ p ∈ ([(.incRm8, IsInc), (.decRm8, IsDec), (.notRm8, IsNot), (.negRm8, IsNeg)] : List ((RM8 → Instr) × Unary 8)),
    ∀ (d : RM8) (s : State), s.mem.Wf → RmWritable d 1 s → LockLegal d s →
      ∃ t v, exec (p.1 d) s = .next t ∧ p.2 (valueRm8 d s) s.flags v t.flags ∧ Stored8 d v s t ∧
        Retired s.pfx.lock (1 + d.size) s t

/-- INC, DEC, NOT, NEG of a word, and the one-byte INC and DEC of a register. -/
def Obligations.UnaryRm16 : Prop :=
  (∀ p ∈ ([(.incRm16, IsInc), (.decRm16, IsDec), (.notRm16, IsNot), (.negRm16, IsNeg)] :
      List ((RM16 → Instr) × Unary 16)),
    ∀ (d : RM16) (s : State), s.mem.Wf → RmWritable d 2 s → LockLegal d s →
      ∃ t v, exec (p.1 d) s = .next t ∧ p.2 (valueRm16 d s) s.flags v t.flags ∧ Stored16 d v s t ∧
        Retired s.pfx.lock (1 + d.size) s t) ∧
  ∀ p ∈ ([(.incR16, IsInc), (.decR16, IsDec)] : List ((Reg16 → Instr) × Unary 16)),
    ∀ (r : Reg16) (s : State), s.pfx.lock = false →
      ∃ t v, exec (p.1 r) s = .next t ∧ p.2 (s.reg16 r) s.flags v t.flags ∧ Stored16 (.reg r) v s t ∧
        Retired false 1 s t

/-! ### Divides -/

/-- DIV completes when the divisor is not 0 and the quotient fits: quotient and remainder, every other register, memory
and every flag but the six arithmetic ones as before (R101). -/
def Obligations.DivQuotientAndRemainder : Prop :=
  (∀ (d : RM8) (s : State), s.pfx.lock = false → RmReadable d 1 s → (valueRm8 d s).toNat ≠ 0 →
    s.regs.ax.toNat / (valueRm8 d s).toNat ≤ 0xFF →
    ∃ t, exec (.divRm8 d) s = .next t ∧ (t.reg8 .al).toNat = s.regs.ax.toNat / (valueRm8 d s).toNat ∧
      (t.reg8 .ah).toNat = s.regs.ax.toNat % (valueRm8 d s).toNat ∧ (∀ r, r ≠ .ax → t.reg16 r = s.reg16 r) ∧
      OnlyFlags arithFlags s.flags t.flags ∧ SameMemory s t ∧ Retired false (1 + d.size) s t) ∧
  ∀ (d : RM16) (s : State), s.pfx.lock = false → RmReadable d 2 s → (valueRm16 d s).toNat ≠ 0 →
    (s.regs.dx ++ s.regs.ax).toNat / (valueRm16 d s).toNat ≤ 0xFFFF →
    ∃ t, exec (.divRm16 d) s = .next t ∧ t.regs.ax.toNat = (s.regs.dx ++ s.regs.ax).toNat / (valueRm16 d s).toNat ∧
      t.regs.dx.toNat = (s.regs.dx ++ s.regs.ax).toNat % (valueRm16 d s).toNat ∧
      (∀ r, r ≠ .ax → r ≠ .dx → t.reg16 r = s.reg16 r) ∧
      OnlyFlags arithFlags s.flags t.flags ∧ SameMemory s t ∧ Retired false (1 + d.size) s t

/-- R103: IDIV accepts the largest negative quotient, -128 or -32768. That the ranges are -128 to 127 and -32768 to 32767 is
the spec's inference, and the rounding, the remainder and the flags are general knowledge (R102, log 38). -/
def Obligations.IdivAcceptsTheLargestNegativeQuotient : Prop :=
  (∀ (d : RM8) (s : State), s.pfx.lock = false → RmReadable d 1 s → (valueRm8 d s).toInt ≠ 0 →
    -128 ≤ s.regs.ax.toInt.tdiv (valueRm8 d s).toInt → s.regs.ax.toInt.tdiv (valueRm8 d s).toInt ≤ 127 →
    ∃ t, exec (.idivRm8 d) s = .next t ∧ (t.reg8 .al).toInt = s.regs.ax.toInt.tdiv (valueRm8 d s).toInt ∧
      (t.reg8 .ah).toInt = s.regs.ax.toInt.tmod (valueRm8 d s).toInt ∧ (∀ r, r ≠ .ax → t.reg16 r = s.reg16 r) ∧
      (s.regs.ax.toInt.tdiv (valueRm8 d s).toInt = -128 → t.reg8 .al = 0x80) ∧
      OnlyFlags arithFlags s.flags t.flags ∧ SameMemory s t ∧ Retired false (1 + d.size) s t) ∧
  ∀ (d : RM16) (s : State), s.pfx.lock = false → RmReadable d 2 s → (valueRm16 d s).toInt ≠ 0 →
    -32768 ≤ (s.regs.dx ++ s.regs.ax).toInt.tdiv (valueRm16 d s).toInt →
    (s.regs.dx ++ s.regs.ax).toInt.tdiv (valueRm16 d s).toInt ≤ 32767 →
    ∃ t, exec (.idivRm16 d) s = .next t ∧ t.regs.ax.toInt = (s.regs.dx ++ s.regs.ax).toInt.tdiv (valueRm16 d s).toInt ∧
      t.regs.dx.toInt = (s.regs.dx ++ s.regs.ax).toInt.tmod (valueRm16 d s).toInt ∧
      (∀ r, r ≠ .ax → r ≠ .dx → t.reg16 r = s.reg16 r) ∧
      ((s.regs.dx ++ s.regs.ax).toInt.tdiv (valueRm16 d s).toInt = -32768 → t.regs.ax = 0x8000) ∧
      OnlyFlags arithFlags s.flags t.flags ∧ SameMemory s t ∧ Retired false (1 + d.size) s t

/-- A divide by 0, or one whose quotient does not fit (R101, R102), raises 0 with the saved CS:IP at the divide (R100).
Decisions of the spec, which R100 marks: that this is the first byte, prefixes included (D16), and that the divide changes
nothing before (D15; log 24). -/
def Obligations.DivideErrorPointsAtTheDivide : Prop :=
  ∀ (i : Instr) (s : State), s.pfx.lock = false → s.mem.Wf → Deliverable 0 s →
    ((∃ d, i = .divRm8 d ∧ RmReadable d 1 s ∧
        ((valueRm8 d s).toNat = 0 ∨ 0xFF < s.regs.ax.toNat / (valueRm8 d s).toNat)) ∨
      (∃ d, i = .divRm16 d ∧ RmReadable d 2 s ∧
        ((valueRm16 d s).toNat = 0 ∨ 0xFFFF < (s.regs.dx ++ s.regs.ax).toNat / (valueRm16 d s).toNat)) ∨
      (∃ d, i = .idivRm8 d ∧ RmReadable d 1 s ∧
        ((valueRm8 d s).toInt = 0 ∨ s.regs.ax.toInt.tdiv (valueRm8 d s).toInt < -128 ∨
          127 < s.regs.ax.toInt.tdiv (valueRm8 d s).toInt)) ∨
      ∃ d, i = .idivRm16 d ∧ RmReadable d 2 s ∧
        ((valueRm16 d s).toInt = 0 ∨ (s.regs.dx ++ s.regs.ax).toInt.tdiv (valueRm16 d s).toInt < -32768 ∨
          32767 < (s.regs.dx ++ s.regs.ax).toInt.tdiv (valueRm16 d s).toInt)) →
    ∃ t, exec i s = .next t ∧ Entered 0 s.ip s t

/-! ### The stack -/

/-- PUSH of a register, an immediate or a segment register: the word, SP, and nothing else, and the two bytes count as
written (R53); segment overrides do not apply. PUSH r/m16 reads its operand before SP changes (R110, R76, R77). -/
def Obligations.PushStoresBelowSp : Prop :=
  (∀ (r : Reg16) (w : Word) (b : Byte) (s : State), s.mem.Wf → s.pfx.lock = false → PushRoom 2 s →
    ∀ p ∈ [(Instr.pushR16 r, s.reg16 r, 1), (.pushImm16 w, w, 3), (.pushImm8 b, b.signExtend 16, 2),
        (.pushEs, s.sel .es, 1), (.pushCs, s.sel .cs, 1), (.pushSs, s.sel .ss, 1), (.pushDs, s.sel .ds, 1),
        (.pushFs, s.sel .fs, 2), (.pushGs, s.sel .gs, 2)],
      ∃ t, exec p.1 s = .next t ∧ Pushed1 p.2.1 s t ∧ StoredAt (s.lin .ss (s.regs.sp - 2)) 2 s t ∧ t.flags = s.flags ∧
        Retired false p.2.2 s t) ∧
  ∀ (d : RM16) (s : State), s.mem.Wf → s.pfx.lock = false → RmReadable d 2 s → PushRoom 2 s →
    ∃ t, exec (.pushRm16 d) s = .next t ∧ Pushed1 (valueRm16 d s) s t ∧ StoredAt (s.lin .ss (s.regs.sp - 2)) 2 s t ∧
      t.flags = s.flags ∧ Retired false (1 + d.size) s t

/-- R111: PUSH SP, in both encodings, pushes the value SP had before; the word at SS:SP is then SP + 2; #12 when SP = 1,
#6 with LOCK. -/
def Obligations.PushSpPushesTheOldValue : Prop :=
  decode [0x54] = .ok (.pushSp, []) ∧ decode [0xFF, 0xF4] = .ok (.pushRm16 (.reg .sp), []) ∧
  ∀ (s : State), ∀ p ∈ [(Instr.pushSp, 1), (.pushRm16 (.reg .sp), 2)],
    (s.mem.Wf → s.pfx.lock = false → PushRoom 2 s →
      ∃ t, exec p.1 s = .next t ∧ Pushed1 s.regs.sp s t ∧ StoredAt (s.lin .ss (s.regs.sp - 2)) 2 s t ∧
        wordAt t (t.lin .ss t.regs.sp) = t.regs.sp + 2 ∧ t.flags = s.flags ∧ Retired false p.2 s t) ∧
    (s.pfx.lock = false → s.regs.sp = 1 → push16 s.regs.sp s = .error (.exception 12) ∧ exec p.1 s = raise 12 s) ∧
    (s.pfx.lock = true → exec p.1 s = raise 6 s)

/-- R112: PUSHF pushes bit 15 as 0, bits 14 to 12 as last loaded, bits 11 to 0 as they are; #12 when SP = 1, #6 with
LOCK. -/
def Obligations.PushfImage : Prop :=
  ∀ (s : State),
    (s.mem.Wf → FlagsFixed s.flags → s.pfx.lock = false → PushRoom 2 s →
      ∃ t, exec .pushf s = .next t ∧ Pushed1 (0#1 ++ s.flags.extractLsb' 12 3 ++ s.flags.extractLsb' 0 12) s t ∧
        StoredAt (s.lin .ss (s.regs.sp - 2)) 2 s t ∧ t.flags = s.flags ∧ Retired false 1 s t) ∧
    (s.pfx.lock = false → s.regs.sp = 1 →
      push16 (flagsImage s.flags) s = .error (.exception 12) ∧ exec .pushf s = raise 12 s) ∧
    (s.pfx.lock = true → exec .pushf s = raise 6 s)

/-- A push at SP = 1 crosses offset 0 of the stack segment and raises 12: every PUSH and CALL; a far CALL also at SP = 3,
whatever memory the first word meets (R43, R110, R185; by decision both are checked before a store, D15 and D29, logs 24 and
32). The three pushes of that 12 cross there too, so that the machine stops (R237; the spec's decision D11,
log 21). -/
def Obligations.PushAtSpOneRaises12 : Prop :=
  (∀ (v : Word) (s : State), s.regs.sp = 1 → push16 v s = .error (.exception 12)) ∧
  (∀ (o c : Word) (n : Nat) (s : State), s.regs.sp = 1 ∨ s.regs.sp = 3 →
    callFarOp o c n s = .error (.exception 12)) ∧
  (∀ (s : State), s.regs.sp = 1 ∨ s.regs.sp = 3 → raise 12 s = .fault .deliveryFault) ∧
  ∀ (r : Reg16) (w c : Word) (b : Byte) (d : RM16) (m : Mem) (s : State), s.pfx.lock = false →
    (s.regs.sp = 1 → ∀ i ∈ [Instr.pushR16 r, .pushSp, .pushImm16 w, .pushImm8 b, .pushEs, .pushCs, .pushSs, .pushDs,
        .pushFs, .pushGs, .pushf, .callRel16 w], exec i s = raise 12 s) ∧
    (s.regs.sp = 1 → RmReadable d 2 s → ∀ i ∈ [Instr.pushRm16 d, .callRm16 d], exec i s = raise 12 s) ∧
    (s.regs.sp = 1 ∨ s.regs.sp = 3 → exec (.callPtr16 w c) s = raise 12 s) ∧
    (s.regs.sp = 1 ∨ s.regs.sp = 3 → MemReadable m 4 s → exec (.callM16 m) s = raise 12 s)

/-! ### MOV and XCHG -/

/-- MOV of a byte into a register or memory (R113); a `moffs` is a direct offset (R76). -/
def Obligations.MovStoresByte : Prop :=
  ∀ (d : RM8) (r : Reg8) (o : Word) (b : Byte) (s : State), s.mem.Wf → s.pfx.lock = false →
    (RmWritable d 1 s →
      (∃ t, exec (.movRm8R8 d r) s = .next t ∧ Stored8 d (s.reg8 r) s t ∧ t.flags = s.flags ∧
        Retired false (1 + d.size) s t) ∧
      ∃ t, exec (.movRm8Imm8 d b) s = .next t ∧ Stored8 d b s t ∧ t.flags = s.flags ∧
        Retired false (2 + d.size) s t) ∧
    (∃ t, exec (.movR8Imm8 r b) s = .next t ∧ Stored8 (.reg r) b s t ∧ t.flags = s.flags ∧ Retired false 2 s t) ∧
    (MemWritable (.direct o) 1 s →
      ∃ t, exec (.movMoffs8Al o) s = .next t ∧ Stored8 (.mem (.direct o)) (s.reg8 .al) s t ∧ t.flags = s.flags ∧
        Retired false 3 s t)

/-- MOV of a word into a register or memory, from a register, an immediate or a segment register (R113, R114). -/
def Obligations.MovStoresWord : Prop :=
  ∀ (d : RM16) (r : Reg16) (g : Seg) (o w : Word) (s : State), s.mem.Wf → s.pfx.lock = false →
    (RmWritable d 2 s →
      (∃ t, exec (.movRm16R16 d r) s = .next t ∧ Stored16 d (s.reg16 r) s t ∧ t.flags = s.flags ∧
        Retired false (1 + d.size) s t) ∧
      (∃ t, exec (.movRm16Sreg d g) s = .next t ∧ Stored16 d (s.sel g) s t ∧ t.flags = s.flags ∧
        Retired false (1 + d.size) s t) ∧
      ∃ t, exec (.movRm16Imm16 d w) s = .next t ∧ Stored16 d w s t ∧ t.flags = s.flags ∧
        Retired false (3 + d.size) s t) ∧
    (∃ t, exec (.movR16Imm16 r w) s = .next t ∧ Stored16 (.reg r) w s t ∧ t.flags = s.flags ∧ Retired false 3 s t) ∧
    (MemWritable (.direct o) 2 s →
      ∃ t, exec (.movMoffs16Ax o) s = .next t ∧ Stored16 (.mem (.direct o)) (s.reg16 .ax) s t ∧ t.flags = s.flags ∧
        Retired false 3 s t)

/-- MOV from memory or a register into a register: memory and every other register as before (R113). -/
def Obligations.MovLoads : Prop :=
  ∀ (d : RM8) (e : RM16) (r : Reg8) (q : Reg16) (o : Word) (s : State), s.pfx.lock = false →
    (RmReadable d 1 s → ∃ t, exec (.movR8Rm8 r d) s = .next t ∧ Stored8 (.reg r) (valueRm8 d s) s t ∧
      t.flags = s.flags ∧ Retired false (1 + d.size) s t) ∧
    (RmReadable e 2 s → ∃ t, exec (.movR16Rm16 q e) s = .next t ∧ Stored16 (.reg q) (valueRm16 e s) s t ∧
      t.flags = s.flags ∧ Retired false (1 + e.size) s t) ∧
    (MemReadable (.direct o) 1 s → ∃ t, exec (.movAlMoffs8 o) s = .next t ∧
      Stored8 (.reg .al) (valueRm8 (.mem (.direct o)) s) s t ∧ t.flags = s.flags ∧ Retired false 3 s t) ∧
    (MemReadable (.direct o) 2 s → ∃ t, exec (.movAxMoffs16 o) s = .next t ∧
      Stored16 (.reg .ax) (valueRm16 (.mem (.direct o)) s) s t ∧ t.flags = s.flags ∧ Retired false 3 s t)

/-- MOV to a segment register loads any selector; after SS the next boundary recognises nothing; CS raises 6 (R114). -/
def Obligations.MovLoadsSegmentRegister : Prop :=
  ∀ (g : Seg) (d : RM16) (s : State),
    (g ≠ .cs → s.pfx.lock = false → RmReadable d 2 s →
      ∃ t, exec (.movSregRm16 g d) s = .next t ∧ t.segs = s.segs.set g (valueRm16 d s) ∧
        t.ssShadow = (s.ssShadow || decide (g = .ss)) ∧ t.regs = s.regs ∧ t.flags = s.flags ∧ SameMemory s t ∧
        Retired false (1 + d.size) s { t with segs := s.segs, ssShadow := s.ssShadow }) ∧
    exec (.movSregRm16 .cs d) s = raise 6 s

/-- XCHG of bytes (R115). -/
def Obligations.XchgBytes : Prop :=
  ∀ (d : RM8) (r : Reg8) (s : State), s.mem.Wf → RmWritable d 1 s → LockLegal d s →
    ∃ t, exec (.xchgRm8R8 d r) s = .next t ∧ t.flags = s.flags ∧ Retired d.isMem (1 + d.size) s t ∧
      match d with
      | .reg q => t.regs = (s.regs.set8 q (s.reg8 r)).set8 r (s.reg8 q) ∧ SameMemory s t
      | .mem m => t.regs = s.regs.set8 r (s.mem.read (operandAddr s m)) ∧
          t.mem.read (operandAddr s m) = s.reg8 r ∧ StoredAt (operandAddr s m) 1 s t

/-- XCHG of words, and XCHG AX, r16, whose opcode 90 changes nothing (R115, R83). -/
def Obligations.XchgWords : Prop :=
  (∀ (d : RM16) (r : Reg16) (s : State), s.mem.Wf → RmWritable d 2 s → LockLegal d s →
    ∃ t, exec (.xchgRm16R16 d r) s = .next t ∧ t.flags = s.flags ∧ Retired d.isMem (1 + d.size) s t ∧
      match d with
      | .reg q => t.regs = (s.regs.set q (s.reg16 r)).set r (s.reg16 q) ∧ SameMemory s t
      | .mem m => t.regs = s.regs.set r (wordAt s (operandAddr s m)) ∧
          wordAt t (operandAddr s m) = s.reg16 r ∧ StoredAt (operandAddr s m) 2 s t) ∧
  ∀ (r : Reg16) (s : State), s.pfx.lock = false →
    ∃ t, exec (.xchgAxR16 r) s = .next t ∧ t.regs = (s.regs.set .ax (s.reg16 r)).set r (s.reg16 .ax) ∧
      (r = .ax → t.regs = s.regs) ∧ t.flags = s.flags ∧ SameMemory s t ∧ Retired false 1 s t

/-- R153: XCHG with memory asserts LOCK with the prefix or without it, and the prefix changes nothing else; XCHG of two
registers asserts nothing, and with the prefix raises 6. -/
def Obligations.XchgWithMemoryIsLocked : Prop :=
  ∀ (m : Mem) (q r : Reg8) (p w : Reg16) (s : State),
    (∀ i ∈ [Instr.xchgRm8R8 (.mem m) r, .xchgRm16R16 (.mem m) w],
      (MemWritable m 2 s → ∃ t, exec i s = .next t ∧ t.lockSignal = true) ∧
      exec i { s with pfx := { s.pfx with lock := true } } = exec i { s with pfx := { s.pfx with lock := false } }) ∧
    ∀ i ∈ [Instr.xchgRm8R8 (.reg q) r, .xchgRm16R16 (.reg p) w, .xchgAxR16 w],
      (s.pfx.lock = false → ∃ t, exec i s = .next t ∧ t.lockSignal = false) ∧
      (s.pfx.lock = true → exec i s = raise 6 s)

/-! ### Shifts and rotates -/

/-- The seven shifts and rotates of a byte, by 1, by CL and by an immediate, for a count that is not 0 modulo 32 (R130
to R137, R140). -/
def Obligations.ShiftsRm8 : Prop :=
  ∀ p ∈ ([(.rolRm8One, .rolRm8Cl, .rolRm8Imm8, IsRol), (.rorRm8One, .rorRm8Cl, .rorRm8Imm8, IsRor),
      (.rclRm8One, .rclRm8Cl, .rclRm8Imm8, IsRcl), (.rcrRm8One, .rcrRm8Cl, .rcrRm8Imm8, IsRcr),
      (.shlRm8One, .shlRm8Cl, .shlRm8Imm8, IsShl), (.shrRm8One, .shrRm8Cl, .shrRm8Imm8, IsShr),
      (.sarRm8One, .sarRm8Cl, .sarRm8Imm8, IsSar)] :
      List ((RM8 → Instr) × (RM8 → Instr) × (RM8 → Byte → Instr) × Shift 8)),
    ∀ (d : RM8) (b : Byte) (s : State), s.mem.Wf → RmWritable d 1 s → s.pfx.lock = false →
      (∃ t v, exec (p.1 d) s = .next t ∧ p.2.2.2 (valueRm8 d s) 1 s.flags v t.flags ∧ Stored8 d v s t ∧
        Retired false (1 + d.size) s t) ∧
      ((s.reg8 .cl).toNat % 32 ≠ 0 →
        ∃ t v, exec (p.2.1 d) s = .next t ∧
          p.2.2.2 (valueRm8 d s) ((s.reg8 .cl).toNat % 32) s.flags v t.flags ∧ Stored8 d v s t ∧
          Retired false (1 + d.size) s t) ∧
      (b.toNat % 32 ≠ 0 →
        ∃ t v, exec (p.2.2.1 d b) s = .next t ∧ p.2.2.2 (valueRm8 d s) (b.toNat % 32) s.flags v t.flags ∧
          Stored8 d v s t ∧ Retired false (2 + d.size) s t)

/-- The same of a word. -/
def Obligations.ShiftsRm16 : Prop :=
  ∀ p ∈ ([(.rolRm16One, .rolRm16Cl, .rolRm16Imm8, IsRol), (.rorRm16One, .rorRm16Cl, .rorRm16Imm8, IsRor),
      (.rclRm16One, .rclRm16Cl, .rclRm16Imm8, IsRcl), (.rcrRm16One, .rcrRm16Cl, .rcrRm16Imm8, IsRcr),
      (.shlRm16One, .shlRm16Cl, .shlRm16Imm8, IsShl), (.shrRm16One, .shrRm16Cl, .shrRm16Imm8, IsShr),
      (.sarRm16One, .sarRm16Cl, .sarRm16Imm8, IsSar)] :
      List ((RM16 → Instr) × (RM16 → Instr) × (RM16 → Byte → Instr) × Shift 16)),
    ∀ (d : RM16) (b : Byte) (s : State), s.mem.Wf → RmWritable d 2 s → s.pfx.lock = false →
      (∃ t v, exec (p.1 d) s = .next t ∧ p.2.2.2 (valueRm16 d s) 1 s.flags v t.flags ∧ Stored16 d v s t ∧
        Retired false (1 + d.size) s t) ∧
      ((s.reg8 .cl).toNat % 32 ≠ 0 →
        ∃ t v, exec (p.2.1 d) s = .next t ∧
          p.2.2.2 (valueRm16 d s) ((s.reg8 .cl).toNat % 32) s.flags v t.flags ∧ Stored16 d v s t ∧
          Retired false (1 + d.size) s t) ∧
      (b.toNat % 32 ≠ 0 →
        ∃ t v, exec (p.2.2.1 d b) s = .next t ∧ p.2.2.2 (valueRm16 d s) (b.toNat % 32) s.flags v t.flags ∧
          Stored16 d v s t ∧ Retired false (2 + d.size) s t)

/-- SHLD and SHRD, by an immediate and by CL, for a count that is not 0 modulo 32 (R138, R139); the register `r` is not
written. -/
def Obligations.DoubleShifts : Prop :=
  ∀ p ∈ ([(.shldRm16R16Imm8, .shldRm16R16Cl, IsShld), (.shrdRm16R16Imm8, .shrdRm16R16Cl, IsShrd)] :
      List ((RM16 → Reg16 → Byte → Instr) × (RM16 → Reg16 → Instr) × (Word → Word → Nat → Word → Word → Word → Prop))),
    ∀ (d : RM16) (r : Reg16) (b : Byte) (s : State), s.mem.Wf → RmWritable d 2 s → s.pfx.lock = false →
      (b.toNat % 32 ≠ 0 →
        ∃ t v, exec (p.1 d r b) s = .next t ∧
          p.2.2 (valueRm16 d s) (s.reg16 r) (b.toNat % 32) s.flags v t.flags ∧ Stored16 d v s t ∧
          Retired false (3 + d.size) s t) ∧
      ((s.reg8 .cl).toNat % 32 ≠ 0 →
        ∃ t v, exec (p.2.1 d r) s = .next t ∧
          p.2.2 (valueRm16 d s) (s.reg16 r) ((s.reg8 .cl).toNat % 32) s.flags v t.flags ∧ Stored16 d v s t ∧
          Retired false (2 + d.size) s t)

/-- A count that is 0 modulo 32 changes no flag, no register and no byte, in every shift and rotate (R130, R140). -/
def Obligations.ShiftByZeroChangesNothing : Prop :=
  ∀ (d : RM8) (e : RM16) (r : Reg16) (b : Byte) (s : State), s.pfx.lock = false →
    (RmWritable d 1 s → b.toNat % 32 = 0 →
      ∀ i ∈ [Instr.rolRm8Imm8 d b, .rorRm8Imm8 d b, .rclRm8Imm8 d b, .rcrRm8Imm8 d b, .shlRm8Imm8 d b, .shrRm8Imm8 d b,
        .sarRm8Imm8 d b], ∃ t, exec i s = .next t ∧ t.flags = s.flags ∧ t.regs = s.regs ∧ t.mem = s.mem ∧
          Retired false (2 + d.size) s t) ∧
    (RmWritable d 1 s → (s.reg8 .cl).toNat % 32 = 0 →
      ∀ i ∈ [Instr.rolRm8Cl d, .rorRm8Cl d, .rclRm8Cl d, .rcrRm8Cl d, .shlRm8Cl d, .shrRm8Cl d, .sarRm8Cl d],
        ∃ t, exec i s = .next t ∧ t.flags = s.flags ∧ t.regs = s.regs ∧ t.mem = s.mem ∧
          Retired false (1 + d.size) s t) ∧
    (RmWritable e 2 s → b.toNat % 32 = 0 →
      ∀ p ∈ [(Instr.rolRm16Imm8 e b, 2), (.rorRm16Imm8 e b, 2), (.rclRm16Imm8 e b, 2), (.rcrRm16Imm8 e b, 2),
        (.shlRm16Imm8 e b, 2), (.shrRm16Imm8 e b, 2), (.sarRm16Imm8 e b, 2), (.shldRm16R16Imm8 e r b, 3),
        (.shrdRm16R16Imm8 e r b, 3)], ∃ t, exec p.1 s = .next t ∧ t.flags = s.flags ∧ t.regs = s.regs ∧
          t.mem = s.mem ∧ Retired false (p.2 + e.size) s t) ∧
    (RmWritable e 2 s → (s.reg8 .cl).toNat % 32 = 0 →
      ∀ p ∈ [(Instr.rolRm16Cl e, 1), (.rorRm16Cl e, 1), (.rclRm16Cl e, 1), (.rcrRm16Cl e, 1), (.shlRm16Cl e, 1),
        (.shrRm16Cl e, 1), (.sarRm16Cl e, 1), (.shldRm16R16Cl e r, 2), (.shrdRm16R16Cl e r, 2)],
        ∃ t, exec p.1 s = .next t ∧ t.flags = s.flags ∧ t.regs = s.regs ∧ t.mem = s.mem ∧
          Retired false (p.2 + e.size) s t)

/-- R130: the count is its low-order five bits: a shift by an immediate is the shift by that immediate modulo 32, for
bytes and words alike. -/
def Obligations.ShiftCountIsMaskedToFiveBits : Prop :=
  (∀ i ∈ [Instr.rolRm8Imm8, .rorRm8Imm8, .rclRm8Imm8, .rcrRm8Imm8, .shlRm8Imm8, .shrRm8Imm8, .sarRm8Imm8],
    ∀ (d : RM8) (b : Byte) (s : State), exec (i d b) s = exec (i d (b &&& 0x1F)) s) ∧
  (∀ i ∈ [Instr.rolRm16Imm8, .rorRm16Imm8, .rclRm16Imm8, .rcrRm16Imm8, .shlRm16Imm8, .shrRm16Imm8, .sarRm16Imm8],
    ∀ (d : RM16) (b : Byte) (s : State), exec (i d b) s = exec (i d (b &&& 0x1F)) s) ∧
  ∀ i ∈ [Instr.shldRm16R16Imm8, .shrdRm16R16Imm8],
    ∀ (d : RM16) (r : Reg16) (b : Byte) (s : State), exec (i d r b) s = exec (i d r (b &&& 0x1F)) s

/-! ### Bit tests -/

/-- BTS, BTR, BTC of a register: the bit offset modulo 16, from a register or an immediate (R155 to R157). -/
def Obligations.BitTestOfRegister : Prop :=
  ∀ p ∈ ([(.btsRm16R16, .btsRm16Imm8, fun _ => true), (.btrRm16R16, .btrRm16Imm8, fun _ => false),
      (.btcRm16R16, .btcRm16Imm8, fun x => !x)] :
      List ((RM16 → Reg16 → Instr) × (RM16 → Byte → Instr) × (Bool → Bool))),
    ∀ (q r : Reg16) (b : Byte) (s : State), s.pfx.lock = false →
      (∃ t v, exec (p.1 (.reg q) r) s = .next t ∧
        IsBitTest p.2.2 ((s.reg16 r).toNat % 16) (s.reg16 q) v s.flags t.flags ∧ Stored16 (.reg q) v s t ∧
        Retired false 3 s t) ∧
      ∃ t v, exec (p.2.1 (.reg q) b) s = .next t ∧ IsBitTest p.2.2 (b.toNat % 16) (s.reg16 q) v s.flags t.flags ∧
        Stored16 (.reg q) v s t ∧ Retired false 4 s t

/-- BTS, BTR, BTC of memory: an immediate offset selects in the word at EA; a register offset is signed and selects in
the word at EA + 2 * floor(k / 16), modulo 65,536 (R155 to R157). -/
def Obligations.BitTestOfMemory : Prop :=
  ∀ p ∈ ([(.btsRm16R16, .btsRm16Imm8, fun _ => true), (.btrRm16R16, .btrRm16Imm8, fun _ => false),
      (.btcRm16R16, .btcRm16Imm8, fun x => !x)] :
      List ((RM16 → Reg16 → Instr) × (RM16 → Byte → Instr) × (Bool → Bool))),
    ∀ (m : Mem) (r : Reg16) (b : Byte) (s : State), s.mem.Wf →
      (MemWritable m 2 s →
        ∃ t v, exec (p.2.1 (.mem m) b) s = .next t ∧
          IsBitTest p.2.2 (b.toNat % 16) (wordAt s (operandAddr s m)) v s.flags t.flags ∧ Stored16 (.mem m) v s t ∧
          Retired s.pfx.lock (3 + m.size) s t) ∧
      bitWordOffset s m (s.reg16 r) = BitVec.ofInt 16 ((effectiveOffset s m).toNat + 2 * ((s.reg16 r).toInt / 16)) ∧
      ∀ a, a = s.lin (operandSeg s m) (bitWordOffset s m (s.reg16 r)) →
        crosses (bitWordOffset s m (s.reg16 r)) 2 = false → RamByte s a → RamByte s (a + 1) →
        ∃ t v, exec (p.1 (.mem m) r) s = .next t ∧
          IsBitTest p.2.2 ((s.reg16 r).toInt % 16).toNat (wordAt s a) v s.flags t.flags ∧ t.regs = s.regs ∧
          wordAt t a = v ∧ StoredAt a 2 s t ∧ Retired s.pfx.lock (2 + m.size) s t

/-! ### LOCK and the prefixes -/

/-- LOCK before any form but the lockable ones raises 6, with the saved CS:IP at the first byte of the instruction,
prefixes included (R152; D16, log 24). So does, in a step, an undefined form: segment number 6 or 7 (R75), a load of CS
(R114), the register forms of BOUND, CALL m16:16 and LIDT (R183, R185, R186), and what a pattern of UNDEFINED_OPCODES admits
outside the opcode table (R72). The decoder finds exactly these. Bytes that begin no row of the table and that every pattern
rejects are refused in a step, after LOCK too: the spec's decision D14 (log 19), a choice that R152 sets against the chip's
6. That a group opcode whose `reg` field has no row (FF /7, FE /2, C6 /1) ends at its ModR/M byte, so that its 6 or its
refusal comes before a 13 of the bytes after it, is the model's own choice (log 52). That the instruction has changed
nothing before the entry is the spec's decision D15 (log 24). -/
def Obligations.LockElsewhereRaises6 : Prop :=
  (∀ (i : Instr) (s : State), isPrefix i = false → lockLegal i = false → s.pfx.lock = true → exec i s = raise 6 s) ∧
  (∀ (s : State), s.mem.Wf → Deliverable 6 s → ∃ t, raise 6 s = .next t ∧ Entered 6 s.ip s t) ∧
  (∀ (bs : List Byte), decodeOp bs = .error .undefinedForm ↔ UndefinedForm bs) ∧
  (∀ (pats : List Pattern) (bs : List Byte), decodeWith pats bs = .error .undefinedForm ↔
    UndefinedForm bs ∨ decodeOp bs = .error .unknownOpcode ∧ ∃ p ∈ pats, Admits p bs) ∧
  (∀ (s u : State) (ps : List Instr) (bs : List Byte), NoEvent (arrive s) → (arrive s).pastEnd = false →
    (arrive s).begin = u → splitPrefixes (fetchWindow u).1 = (ps, bs) → .operandSizePrefix ∉ ps →
    .addressSizePrefix ∉ ps → decodeWith u.cfg.undefinedOpcodes bs = .error .undefinedForm → u.mem.Wf →
    Deliverable 6 u → ∃ t, step s = .next t ∧ Entered 6 u.ip u t) ∧
  (∀ (bs : List Byte), decodeOp bs = .error .unknownOpcode → ∀ (more rest : List Byte) (i : Instr),
    i.wellFormed = true → isPrefix i = false → bs ++ more ≠ encode i ++ rest) ∧
  (∀ (pats : List Pattern) (bs : List Byte), decodeWith pats bs = .error .unknownOpcode ↔
    decodeOp bs = .error .unknownOpcode ∧ ∀ p ∈ pats, Rejects p bs) ∧
  (∀ (s u : State) (ps : List Instr) (bs : List Byte), NoEvent (arrive s) → (arrive s).pastEnd = false →
    (arrive s).begin = u → splitPrefixes (fetchWindow u).1 = (ps, bs) → .operandSizePrefix ∉ ps →
    .addressSizePrefix ∉ ps → decodeWith u.cfg.undefinedOpcodes bs = .error .unknownOpcode →
    step s = .refused .unknownOpcode) ∧
  ∀ (s : State), runBody (.error .undefinedForm) s = raise 6 s ∧
    runBody (.error .unknownOpcode) s = .refused .unknownOpcode

/-- The model's own way to run a prefix (log 16): it is recorded and changes nothing else; the last segment override
wins, a repeated LOCK is one lock, REP has no effect (R71, R77). An instruction that carries 66 or 67, wherever among its
prefixes, is refused by the step that fetches it, whatever follows them, if its bytes are all there: the spec's decision
(R81, D10, log 17). -/
def Obligations.PrefixesAreRecordedOrRefused : Prop :=
  (∀ p ∈ ([(.lockPrefix, true, none), (.esPrefix, false, some .es), (.csPrefix, false, some .cs),
      (.ssPrefix, false, some .ss), (.dsPrefix, false, some .ds), (.fsPrefix, false, some .fs),
      (.gsPrefix, false, some .gs), (.repnePrefix, false, none), (.repPrefix, false, none)] :
      List (Instr × Bool × Option Seg)),
    ∀ (s : State), exec p.1 s = .next { s with pfx :=
      { count := s.pfx.count + 1, lock := s.pfx.lock || p.2.1, seg := p.2.2.elim s.pfx.seg some } }) ∧
  (∀ (s : State), exec .operandSizePrefix s = .refused .operandSizePrefix ∧
    exec .addressSizePrefix s = .refused .addressSizePrefix) ∧
  (∀ (ps : List Instr) (s : State), (∀ p ∈ ps, isPrefix p = true) →
    (.operandSizePrefix ∈ ps ∨ .addressSizePrefix ∈ ps) →
    runPrefixes ps s = .refused .operandSizePrefix ∨ runPrefixes ps s = .refused .addressSizePrefix) ∧
  ∀ (s u : State) (ps : List Instr) (bs : List Byte), NoEvent (arrive s) → (arrive s).pastEnd = false →
    (arrive s).begin = u → splitPrefixes (fetchWindow u).1 = (ps, bs) →
    (.operandSizePrefix ∈ ps ∨ .addressSizePrefix ∈ ps) → decodeWith u.cfg.undefinedOpcodes bs ≠ .error .short →
    step s = .refused .operandSizePrefix ∨ step s = .refused .addressSizePrefix

/-! ### Interrupts, control transfers, system and coprocessor instructions -/

/-- INT 3 and INT n: the entry of R229 with the next instruction as return address. INTO: interrupt 4 when OF is 1, else
nothing but IP (R180 to R182). A vector beyond the limit is replaced by 8 with the INT as return address (R231), and where
entry 8 is beyond it too the machine stops; for INT 3 and INTO it always is, since entries 3 and 4 lie below entry 8. The
comparison (D19, log 22) and the stop (D11, log 21) are the spec's decisions. -/
def Obligations.SoftwareInterrupts : Prop :=
  ∀ (v : Byte) (s : State), s.pfx.lock = false →
    (s.mem.Wf → Deliverable 3 s →
      ∃ t, exec .int3 s = .next t ∧ Entered 3 (s.ip + BitVec.ofNat 16 (s.pfx.count + 1)) s t) ∧
    (s.mem.Wf → Deliverable v s →
      ∃ t, exec (.intN v) s = .next t ∧ Entered v (s.ip + BitVec.ofNat 16 (s.pfx.count + 2)) s t) ∧
    (s.mem.Wf → s.idtrLimit.toNat < 4 * v.toNat + 3 → Deliverable 8 s →
      ∃ t, exec (.intN v) s = .next t ∧ Entered 8 s.ip s t) ∧
    (s.idtrLimit.toNat < 4 * v.toNat + 3 → s.idtrLimit.toNat < 4 * 8 + 3 → exec (.intN v) s = .fault .deliveryFault) ∧
    (s.idtrLimit.toNat < 4 * 3 + 3 → exec .int3 s = .fault .deliveryFault) ∧
    (getFlag .ovf s.flags = true → s.idtrLimit.toNat < 4 * 4 + 3 → exec .into s = .fault .deliveryFault) ∧
    (getFlag .ovf s.flags = true → s.mem.Wf → Deliverable 4 s →
      ∃ t, exec .into s = .next t ∧ Entered 4 (s.ip + BitVec.ofNat 16 (s.pfx.count + 1)) s t) ∧
    (getFlag .ovf s.flags = false →
      ∃ t, exec .into s = .next t ∧ t.regs = s.regs ∧ t.flags = s.flags ∧ SameMemory s t ∧ Retired false 1 s t)

/-- BOUND: a register within the signed limits, either limit included, passes; outside it raises 5 (R183). -/
def Obligations.BoundChecksSignedLimits : Prop :=
  ∀ (r : Reg16) (m : Mem) (s : State), s.pfx.lock = false → MemReadable m 4 s →
    ((wordAt s (operandAddr s m)).toInt ≤ (s.reg16 r).toInt → (s.reg16 r).toInt ≤ (wordAt s (operandAddr s m + 2)).toInt →
      ∃ t, exec (.boundR16M r m) s = .next t ∧ t.regs = s.regs ∧ t.flags = s.flags ∧ SameMemory s t ∧
        Retired false (1 + m.size) s t) ∧
    ((s.reg16 r).toInt < (wordAt s (operandAddr s m)).toInt ∨ (wordAt s (operandAddr s m + 2)).toInt < (s.reg16 r).toInt →
      exec (.boundR16M r m) s = raise 5 s)

/-- IRET pops IP, CS and FLAGS, restores every flag bit but the fixed ones, and ends NMI masking; a crossing raises 12
(R184, R236). Decisions of the spec: that each popped word is checked by itself, SP wrapping between them (D29, log 32),
that nothing is changed where one crosses (D15, log 24), and the values of bits 1, 3 and 5 (D23, log 34). That bits 14 to 12
are loaded as popped is the model's inference (log 35), and that a crossing of a later word comes before the refusal of an
earlier one outside MemMap is its choice (log 51). -/
def Obligations.IretRestores : Prop :=
  ∀ (s : State), s.pfx.lock = false →
    (StackReadable 0 s → StackReadable 2 s → StackReadable 4 s →
      ∃ t, exec .iret s = .next t ∧ t.regs = s.regs.set .sp (s.regs.sp + 6) ∧
        Jumped (wordAt s (s.lin .ss (s.regs.sp + 2))) (wordAt s (s.lin .ss s.regs.sp)) s { t with nmiMasked := s.nmiMasked } ∧
        t.nmiMasked = false ∧ t.mem = s.mem ∧
        ∀ j < 16, t.flags.getLsbD j = if j = 1 then true else if j = 3 ∨ j = 5 ∨ j = 15 then false
          else (wordAt s (s.lin .ss (s.regs.sp + 4))).getLsbD j) ∧
    (s.regs.sp = 0xFFFF ∨ s.regs.sp = 0xFFFD ∨ s.regs.sp = 0xFFFB → exec .iret s = raise 12 s)

/-- A near CALL pushes the offset after it and goes to its target, which an operand gives before the push (R185). -/
def Obligations.CallNear : Prop :=
  ∀ (v : Word) (d : RM16) (s : State), s.mem.Wf → s.pfx.lock = false → PushRoom 2 s →
    (∃ t, exec (.callRel16 v) s = .next t ∧ Pushed1 (s.ip + BitVec.ofNat 16 (s.pfx.count + 3)) s t ∧
      Jumped (s.sel .cs) (s.ip + BitVec.ofNat 16 (s.pfx.count + 3) + v) s t ∧ t.flags = s.flags) ∧
    (RmReadable d 2 s →
      ∃ t, exec (.callRm16 d) s = .next t ∧ Pushed1 (s.ip + BitVec.ofNat 16 (s.pfx.count + (1 + d.size))) s t ∧
        Jumped (s.sel .cs) (valueRm16 d s) s t ∧ t.flags = s.flags)

/-- A far CALL pushes CS and the offset after it, and goes to the pointer, which memory gives before the pushes (R185). -/
def Obligations.CallFar : Prop :=
  ∀ (o c : Word) (m : Mem) (s : State), s.mem.Wf → s.pfx.lock = false → PushRoom 2 s → PushRoom 4 s →
    (∃ t, exec (.callPtr16 o c) s = .next t ∧ Pushed2 (s.sel .cs) (s.ip + BitVec.ofNat 16 (s.pfx.count + 5)) s t ∧
      Jumped c o s t ∧ t.flags = s.flags) ∧
    (MemReadable m 4 s →
      ∃ t, exec (.callM16 m) s = .next t ∧
        Pushed2 (s.sel .cs) (s.ip + BitVec.ofNat 16 (s.pfx.count + (1 + m.size))) s t ∧
        Jumped (wordAt s (operandAddr s m + 2)) (wordAt s (operandAddr s m)) s t ∧ t.flags = s.flags)

/-- LIDT loads the limit and the low 24 bits of the base from its six bytes, and changes nothing else (R186, R18). -/
def Obligations.LidtLoads : Prop :=
  ∀ (m : Mem) (s : State), s.pfx.lock = false → MemReadable m 6 s →
    ∃ t, exec (.lidtM m) s = .next t ∧ t.idtrLimit = wordAt s (operandAddr s m) ∧
      t.idtrBase.toNat = (wordAt s (operandAddr s m + 2)).toNat + 65536 * (s.mem.read (operandAddr s m + 4)).toNat ∧
      t.regs = s.regs ∧ t.flags = s.flags ∧ SameMemory s t ∧
      Retired false (2 + m.size) s { t with idtrLimit := s.idtrLimit, idtrBase := s.idtrBase }

/-- WAIT: 7 for TS, then 16 for a pending coprocessor error, else it ends at once (R188). ESC: 7 for EM or TS, then 16
for a pending error, each with the saved CS:IP at the prefixes, then 12 or 13 for a memory operand that crosses, of a width
that is free (log 46); else it is refused (R187, R235). Choices: TS alone for WAIT (D21, log 30), that WAIT ends at once and
that an ESC past its checks is refused (D13, log 29), and that no check asks whether a coprocessor is present (log 50). -/
def Obligations.WaitAndEsc : Prop :=
  (∀ (s : State), s.pfx.lock = false →
    (s.msw.getLsbD 3 = true → exec .wait s = raise 7 s) ∧
    (s.msw.getLsbD 3 = false → s.copErrorPending = true → exec .wait s = raise 16 s) ∧
    (s.msw.getLsbD 3 = false → s.copErrorPending = false →
      ∃ t, exec .wait s = .next t ∧ t.regs = s.regs ∧ t.flags = s.flags ∧ SameMemory s t ∧ Retired false 1 s t)) ∧
  ∀ (x y : BitVec 3) (d : RM16) (s : State), s.pfx.lock = false →
    (s.msw.getLsbD 2 = true ∨ s.msw.getLsbD 3 = true →
      exec (.esc x y d) s = raise 7 s ∧
      (s.mem.Wf → Deliverable 7 s → ∃ t, exec (.esc x y d) s = .next t ∧ Entered 7 s.ip s t)) ∧
    (s.msw.getLsbD 2 = false → s.msw.getLsbD 3 = false → s.copErrorPending = true →
      exec (.esc x y d) s = raise 16 s ∧
      (s.mem.Wf → Deliverable 16 s → ∃ t, exec (.esc x y d) s = .next t ∧ Entered 16 s.ip s t)) ∧
    (s.msw.getLsbD 2 = false → s.msw.getLsbD 3 = false → s.copErrorPending = false →
      (∀ r, d = .reg r → exec (.esc x y d) s = .refused .coprocessorOperation) ∧
      ∀ m, d = .mem m → exec (.esc x y d) s =
        if 0xFFFF < (effectiveOffset s m).toNat + Config.escWidth x y - 1 then
          raise (if operandSeg s m = .ss then 12 else 13) s
        else .refused .coprocessorOperation)

/-! ### Taking an exception -/

/-- A delivery whose entry is within the limit and whose frame fits enters the handler: FLAGS, CS and the return offset
on the stack, IF and TF clear, CS:IP from the table, nothing else changed (R229, R230, R54). Choices, which the spec takes
from general knowledge (D6, D7, log 22): the order of the three words, the clearing of IF and TF, the layout of the entry. -/
def Obligations.DeliveryEntersTheHandler : Prop :=
  ∀ (software : Bool) (v : Byte) (ret start : Word) (s : State), s.mem.Wf → Deliverable v s →
    ∃ t, deliver software v ret start s = .next t ∧ Entered v ret s t

/-- R231: a vector is beyond the limit when 4v + 3 > IDTR.limit; none is with the default limit; then 8 is raised in its
place, returning to the current instruction (R218), and where entry 8 is beyond the limit too the machine stops. The
comparison (D19, log 22) and the stop (D11, log 21) are the spec's decisions. -/
def Obligations.VectorBeyondTheLimitRaises8 : Prop :=
  ∀ (software : Bool) (v : Byte) (ret start : Word) (s : State), s.mem.Wf →
    (s.idtrLimit.toNat < 4 * v.toNat + 3 →
      (Deliverable 8 s → ∃ t, deliver software v ret start s = .next t ∧ Entered 8 start s t) ∧
      (s.idtrLimit.toNat < 4 * 8 + 3 → deliver software v ret start s = .fault .deliveryFault)) ∧
    (s.idtrLimit = 0x3FF → ¬ s.idtrLimit.toNat < 4 * v.toNat + 3)

/-- A delivery whose own pushes cross the stack segment's extreme, at SP = 1, 3 or 5, stops the machine, whatever raised
it: the spec's decision D11 (log 21), in place of what a chip does there (R229, R237). -/
def Obligations.UndeliverableFrameStops : Prop :=
  ∀ (software : Bool) (v : Byte) (ret start : Word) (s : State), s.regs.sp = 1 ∨ s.regs.sp = 3 ∨ s.regs.sp = 5 →
    deliver software v ret start s = .fault .deliveryFault

/-! ### Steps -/

/-- When no event is recognised and the bytes at CS:IP are prefixes and then an instruction, the step records the
prefixes and runs the instruction (R78, R233 step 4). -/
def Obligations.StepRunsTheDecodedInstruction : Prop :=
  ∀ (s t : State) (ps : List Instr) (bs rest : List Byte) (i : Instr), NoEvent (arrive s) →
    (arrive s).pastEnd = false → splitPrefixes (fetchWindow (arrive s).begin).1 = (ps, bs) → decode bs = .ok (i, rest) →
    runPrefixes ps (arrive s).begin = .next t → step s = exec i t

/-- The events of a boundary, the first list of `env` and no other (log 28), happen in order before anything else, each with
its own effect and no other (R22, R24, R51, R225, R226; choices: D22 and logs 26, 48, 49). Then single-step comes first, then
an unmasked NMI, then an external interrupt that IF admits; each enters its vector with the next instruction's CS:IP saved,
and the events that wait stay pending (R225, R226, R228, R233). Past offset 65,535 no rule fixes the saved offset (D24, log
12). Only single-step before an external interrupt is the source's own order: the places of the NMI are the spec's decision
D12 (log 23). That NMI is vector 2 whatever IF is, and that an external interrupt needs IF, are choices from general
knowledge (D17, D18, log 25). That a delivered request is no longer pending is the model's inference (log 27). -/
def Obligations.EventsAreTakenInOrder : Prop :=
  (∀ (s : State), (arrive s).env = s.env.tail ∧ (s.env = [] → arrive s = s) ∧
    ∀ es rest, s.env = es :: rest → arrive s = es.foldl applyEvent { s with env := rest }) ∧
  (∀ (s : State) (e : EnvEvent), EventEffect s (applyEvent s e) e) ∧
  ∀ (s u : State), arrive s = u → u.mem.Wf → u.ssShadow = false →
    ∃ ret : Word, (u.pastEnd = false → ret = u.ip) ∧
      (u.stepDue = true → Deliverable 1 u →
        ∃ t, step s = .next t ∧ t.dr6.getLsbD 14 = true ∧ Entered 1 ret { u with dr6 := t.dr6, stepDue := false } t) ∧
      (u.stepDue = false → u.nmiPending = true → u.nmiMasked = false → Deliverable 2 u →
        ∃ t, step s = .next t ∧ Entered 2 ret { u with nmiMasked := true, nmiPending := false } t) ∧
      (∀ v, u.stepDue = false → (u.nmiPending = true → u.nmiMasked = true) → getFlag .intf u.flags = true →
        u.intrPending = some v → Deliverable v u →
        ∃ t, step s = .next t ∧ Entered v ret { u with intrPending := none } t)

/-- After a MOV to SS no event is recognised at the next boundary: the next instruction runs, a pending NMI and a pending
external interrupt stay pending over it, and single-step stays due over it, which is the model's inference (log 39). It is
so at no other boundary: an instruction that completes leaves events held off only if it is itself a MOV to SS (R114, R233
step 0). -/
def Obligations.MovToSsHoldsEventsOff : Prop :=
  (∀ (s : State), (arrive s).ssShadow = true →
    step s = runInstruction (arrive s) ∧
    ∀ t, step s = .next t → ((arrive s).stepDue = true → t.stepDue = true) ∧ t.nmiPending = (arrive s).nmiPending ∧
      t.intrPending = (arrive s).intrPending) ∧
  ∀ (s t : State), step s = .next t → t.ssShadow = true →
    NoEvent (arrive s) ∧ (arrive s).pastEnd = false ∧ ∃ d, (fetch (arrive s).begin).body = .ok (.movSregRm16 .ss d)

/-- R245: whatever an instruction that began with TF = 1 did, an INT or an exception included, single-step is due at the
boundary after it; the trap saves the offset where execution stands, the handler's first instruction. After an instruction
that began with TF = 0 it is not due (R24, R233 step 1, R236), but where a MOV to SS held it off, the model's inference
(log 39). That the trap comes before an NMI which waits unmasked, as after an IRET, is the spec's decision D12 (log 23). -/
def Obligations.HandlersAreSingleStepped : Prop :=
  ∀ (s t : State), NoEvent (arrive s) → step s = .next t →
    (t.stepDue = true ↔ getFlag .tf (arrive s).flags = true ∨ (arrive s).ssShadow = true ∧ (arrive s).stepDue = true) ∧
    (t.stepDue = true → t.env = [] → t.ssShadow = false → t.pastEnd = false → t.mem.Wf → Deliverable 1 t →
      ∃ u, step t = .next u ∧ u.dr6.getLsbD 14 = true ∧ Entered 1 t.ip { t with dr6 := u.dr6, stepDue := false } u)

/-- R70: prefixes and an instruction of at most fifteen bytes together, lying at CS:IP, run; of more than fifteen, of
which the first fifteen can be fetched, they raise 13 with the saved CS:IP at the first byte, and no part executes; so do
any fifteen bytes that hold no complete instruction: a sixteenth byte is never read. Among these are an opcode with no row
whose pattern of UNDEFINED_OPCODES needs a sixteenth byte: that 13 is raised there is the model's own choice (log 47). That this 13 comes before the 6 of a LOCK
that is not legal is the spec's decision D12 (log 23), and before the refusal of 66 and 67 its decision D10
in the order of R78 (log 17). -/
def Obligations.FifteenByteLimit : Prop :=
  ∀ (s u : State), NoEvent (arrive s) → (arrive s).pastEnd = false → (arrive s).begin = u →
    (∀ (ps : List Instr) (i : Instr), (∀ p ∈ ps, isPrefix p = true) → isPrefix i = false → i.wellFormed = true →
      ((ps.flatMap encode ++ encode i).length ≤ 15 → Fetchable (ps.flatMap encode ++ encode i) u →
        ∀ t, runPrefixes ps u = .next t → step s = exec i t) ∧
      (15 < (ps.flatMap encode ++ encode i).length → Fetchable ((ps.flatMap encode ++ encode i).take 15) u → u.mem.Wf →
        Deliverable 13 u → ∃ t, step s = .next t ∧ Entered 13 u.ip u t)) ∧
    ∀ (bs : List Byte), bs.length = 15 → Fetchable bs u →
      decodeWith u.cfg.undefinedOpcodes (splitPrefixes bs).2 = .error .short → u.mem.Wf → Deliverable 13 u →
      ∃ t, step s = .next t ∧ Entered 13 u.ip u t

/-- R45: an instruction with a byte past offset 65,535 raises 13 with the saved IP at its first byte; after an
instruction that ended at 65,535 (the bit `pastEnd`, log 13) the next fetch raises 13 with a saved IP that no rule fixes
(D24, log 12). An opcode with no row whose pattern of UNDEFINED_OPCODES needs a byte past 65,535 counts as such an
instruction: that 13 is raised there is the model's own choice (log 47). That this 13 comes before the 6 of a LOCK that is not
legal is the spec's decision D12 (log 23), and before the refusal of 66 and 67 its decision D10
in the order of R78 (log 17). That a byte is
missing is what the decoder answers of the bytes up to 65,535 (`short`). -/
def Obligations.ExecutionPastTheSegmentEndRaises13 : Prop :=
  ∀ (s u : State), NoEvent (arrive s) → (arrive s).begin = u → u.mem.Wf → Deliverable 13 u →
    (u.pastEnd = false → u.ip.toNat + (fetchWindow u).1.length = 65536 → (fetch u).body = .error .short →
      ∃ t, step s = .next t ∧ Entered 13 u.ip u t) ∧
    (u.pastEnd = true → ∃ t ret, step s = .next t ∧ Entered 13 ret u t)

/-- A fetch reads memory through CS, raises 13 past offset 65,535, and is refused for a byte the program wrote since the
last control transfer, the spec's decision D9 (log 20) (R13, R45, R53, R78). The bytes fetched for an instruction are the
bytes at CS:IP in order, up to the first that cannot be fetched, which says what stops the fetch, and at most fifteen
(R70). -/
def Obligations.FetchRefusesWrittenBytes : Prop :=
  (∀ (s : State) (k : Nat), 0xFFFF < s.ip.toNat + k → fetchByte s k = .error (.exception 13)) ∧
  (∀ (s : State), (fetchWindow s).1.length ≤ 15 ∧ Fetchable (fetchWindow s).1 s ∧
    ((fetchWindow s).1.length < 15 → fetchByte s (fetchWindow s).1.length = .error (fetchWindow s).2) ∧
    ((fetchWindow s).1.length = 15 → (fetchWindow s).2 = .exception 13)) ∧
  ∀ (s : State) (k : Nat), s.ip.toNat + k ≤ 0xFFFF →
    ((s.sel .cs).toNat * 16 + (s.ip.toNat + k) ∈ s.dirty → fetchByte s k = .error (.refuse .staleFetch)) ∧
    ((s.sel .cs).toNat * 16 + (s.ip.toNat + k) ∉ s.dirty → PresentByte s ((s.sel .cs).toNat * 16 + (s.ip.toNat + k)) →
      fetchByte s k = .ok (s.mem.read ((s.sel .cs).toNat * 16 + (s.ip.toNat + k))))

/-! ### What holds of every step -/

/-- Every step keeps the invariant: memory and the written addresses in canonical form, the fixed bits of FLAGS, no
prefix left over, no coprocessor error without a coprocessor (R16, R17, R22, R78). -/
def Obligations.StepKeepsTheInvariant : Prop :=
  ∀ (s t : State), s.Inv → step s = .next t → t.Inv

/-- The state after reset satisfies the invariant; and at any launch IDTR.limit is 3FFH and bit 15 of FLAGS is 0, as the
spec gives for reset (R26, R261), no NMI is masked and no coprocessor error is outstanding, by its decision D5 (log 7).
`State.reset` takes every other value from logs 4 to 7, which are the model's own. -/
def Obligations.ResetHasTheInvariant : Prop :=
  State.reset.Inv ∧
  ∀ (p : Launch), (State.launch p).idtrLimit = 0x3FF ∧ (State.launch p).flags.getLsbD 15 = false ∧
    (State.launch p).nmiMasked = false ∧ (State.launch p).copErrorPending = false

/-- R261: IDTR.limit is 3FFH until an LIDT changes it: no step but one that executes LIDT changes IDTR, and with 3FFH no
vector is beyond the limit. -/
def Obligations.OnlyLidtChangesIdtr : Prop :=
  (∀ (p : Launch), (State.launch p).idtrLimit = 0x3FF ∧ (State.launch p).idtrBase = p.idtrBase) ∧
  (∀ (s t : State), step s = .next t → (t.idtrLimit ≠ s.idtrLimit ∨ t.idtrBase ≠ s.idtrBase) →
    NoEvent (arrive s) ∧ (arrive s).pastEnd = false ∧ ∃ m, (fetch (arrive s).begin).body = .ok (.lidtM m)) ∧
  ∀ (s : State) (v : Byte), s.idtrLimit = 0x3FF → s.beyondLimit v = false

/-- While NMI is masked it is not recognised: with no other event the next instruction runs, and a pending NMI stays
pending over whatever the step does; only the execution of an IRET ends the masking (R21, R225). -/
def Obligations.NmiStaysMaskedUntilIret : Prop :=
  ∀ (s : State), s.nmiMasked = true →
    ((arrive s).stepDue = false → (getFlag .intf (arrive s).flags = true → (arrive s).intrPending = none) →
      step s = runInstruction (arrive s)) ∧
    ∀ t, step s = .next t → t.nmiPending = (arrive s).nmiPending ∧
      (t.nmiMasked = false →
        NoEvent (arrive s) ∧ (arrive s).pastEnd = false ∧ (fetch (arrive s).begin).body = .ok .iret)

/-- No step changes the parameters, the MSW, or bits 31:16 of a general register: no instruction in scope writes them
(R4, R11, R19). -/
def Obligations.NoStepWritesTheseFields : Prop :=
  ∀ (s t : State), step s = .next t → t.cfg = s.cfg ∧ t.msw = s.msw ∧ t.upper = s.upper
end

