-- ==== Sys2Proof/Laws/State.lean ====
section
/-! SUPPORT. What each update of the state leaves in each field. -/

namespace Sys2Proof.Machine
open Sys2Proof

variable (s : State)

/-- Two bytes stored, low byte first (R46). -/
def State.setWord (s : State) (a : Nat) (v : Word) : State := (s.setByte a (lowByte v)).setByte (a + 1) (highByte v)

/-! ### setReg16 -/

@[simp] theorem State.setReg16_regs (r : Reg16) (v : Word) : (s.setReg16 r v).regs = s.regs.set r v := rfl
@[simp] theorem State.setReg16_upper (r : Reg16) (v : Word) : (s.setReg16 r v).upper = s.upper := rfl
@[simp] theorem State.setReg16_segs (r : Reg16) (v : Word) : (s.setReg16 r v).segs = s.segs := rfl
@[simp] theorem State.setReg16_ip (r : Reg16) (v : Word) : (s.setReg16 r v).ip = s.ip := rfl
@[simp] theorem State.setReg16_pastEnd (r : Reg16) (v : Word) : (s.setReg16 r v).pastEnd = s.pastEnd := rfl
@[simp] theorem State.setReg16_flags (r : Reg16) (v : Word) : (s.setReg16 r v).flags = s.flags := rfl
@[simp] theorem State.setReg16_idtrLimit (r : Reg16) (v : Word) : (s.setReg16 r v).idtrLimit = s.idtrLimit := rfl
@[simp] theorem State.setReg16_idtrBase (r : Reg16) (v : Word) : (s.setReg16 r v).idtrBase = s.idtrBase := rfl
@[simp] theorem State.setReg16_msw (r : Reg16) (v : Word) : (s.setReg16 r v).msw = s.msw := rfl
@[simp] theorem State.setReg16_dr6 (r : Reg16) (v : Word) : (s.setReg16 r v).dr6 = s.dr6 := rfl
@[simp] theorem State.setReg16_nmiMasked (r : Reg16) (v : Word) : (s.setReg16 r v).nmiMasked = s.nmiMasked := rfl
@[simp] theorem State.setReg16_nmiPending (r : Reg16) (v : Word) : (s.setReg16 r v).nmiPending = s.nmiPending := rfl
@[simp] theorem State.setReg16_intrPending (r : Reg16) (v : Word) : (s.setReg16 r v).intrPending = s.intrPending := rfl
@[simp] theorem State.setReg16_copErrorPending (r : Reg16) (v : Word) : (s.setReg16 r v).copErrorPending = s.copErrorPending := rfl
@[simp] theorem State.setReg16_lockSignal (r : Reg16) (v : Word) : (s.setReg16 r v).lockSignal = s.lockSignal := rfl
@[simp] theorem State.setReg16_stepDue (r : Reg16) (v : Word) : (s.setReg16 r v).stepDue = s.stepDue := rfl
@[simp] theorem State.setReg16_ssShadow (r : Reg16) (v : Word) : (s.setReg16 r v).ssShadow = s.ssShadow := rfl
@[simp] theorem State.setReg16_mem (r : Reg16) (v : Word) : (s.setReg16 r v).mem = s.mem := rfl
@[simp] theorem State.setReg16_dirty (r : Reg16) (v : Word) : (s.setReg16 r v).dirty = s.dirty := rfl
@[simp] theorem State.setReg16_pfx (r : Reg16) (v : Word) : (s.setReg16 r v).pfx = s.pfx := rfl
@[simp] theorem State.setReg16_draws (r : Reg16) (v : Word) : (s.setReg16 r v).draws = s.draws := rfl
@[simp] theorem State.setReg16_env (r : Reg16) (v : Word) : (s.setReg16 r v).env = s.env := rfl
@[simp] theorem State.setReg16_cfg (r : Reg16) (v : Word) : (s.setReg16 r v).cfg = s.cfg := rfl

/-! ### setReg8 -/

@[simp] theorem State.setReg8_regs (r : Reg8) (v : Byte) : (s.setReg8 r v).regs = s.regs.set8 r v := rfl
@[simp] theorem State.setReg8_upper (r : Reg8) (v : Byte) : (s.setReg8 r v).upper = s.upper := rfl
@[simp] theorem State.setReg8_segs (r : Reg8) (v : Byte) : (s.setReg8 r v).segs = s.segs := rfl
@[simp] theorem State.setReg8_ip (r : Reg8) (v : Byte) : (s.setReg8 r v).ip = s.ip := rfl
@[simp] theorem State.setReg8_pastEnd (r : Reg8) (v : Byte) : (s.setReg8 r v).pastEnd = s.pastEnd := rfl
@[simp] theorem State.setReg8_flags (r : Reg8) (v : Byte) : (s.setReg8 r v).flags = s.flags := rfl
@[simp] theorem State.setReg8_idtrLimit (r : Reg8) (v : Byte) : (s.setReg8 r v).idtrLimit = s.idtrLimit := rfl
@[simp] theorem State.setReg8_idtrBase (r : Reg8) (v : Byte) : (s.setReg8 r v).idtrBase = s.idtrBase := rfl
@[simp] theorem State.setReg8_msw (r : Reg8) (v : Byte) : (s.setReg8 r v).msw = s.msw := rfl
@[simp] theorem State.setReg8_dr6 (r : Reg8) (v : Byte) : (s.setReg8 r v).dr6 = s.dr6 := rfl
@[simp] theorem State.setReg8_nmiMasked (r : Reg8) (v : Byte) : (s.setReg8 r v).nmiMasked = s.nmiMasked := rfl
@[simp] theorem State.setReg8_nmiPending (r : Reg8) (v : Byte) : (s.setReg8 r v).nmiPending = s.nmiPending := rfl
@[simp] theorem State.setReg8_intrPending (r : Reg8) (v : Byte) : (s.setReg8 r v).intrPending = s.intrPending := rfl
@[simp] theorem State.setReg8_copErrorPending (r : Reg8) (v : Byte) : (s.setReg8 r v).copErrorPending = s.copErrorPending := rfl
@[simp] theorem State.setReg8_lockSignal (r : Reg8) (v : Byte) : (s.setReg8 r v).lockSignal = s.lockSignal := rfl
@[simp] theorem State.setReg8_stepDue (r : Reg8) (v : Byte) : (s.setReg8 r v).stepDue = s.stepDue := rfl
@[simp] theorem State.setReg8_ssShadow (r : Reg8) (v : Byte) : (s.setReg8 r v).ssShadow = s.ssShadow := rfl
@[simp] theorem State.setReg8_mem (r : Reg8) (v : Byte) : (s.setReg8 r v).mem = s.mem := rfl
@[simp] theorem State.setReg8_dirty (r : Reg8) (v : Byte) : (s.setReg8 r v).dirty = s.dirty := rfl
@[simp] theorem State.setReg8_pfx (r : Reg8) (v : Byte) : (s.setReg8 r v).pfx = s.pfx := rfl
@[simp] theorem State.setReg8_draws (r : Reg8) (v : Byte) : (s.setReg8 r v).draws = s.draws := rfl
@[simp] theorem State.setReg8_env (r : Reg8) (v : Byte) : (s.setReg8 r v).env = s.env := rfl
@[simp] theorem State.setReg8_cfg (r : Reg8) (v : Byte) : (s.setReg8 r v).cfg = s.cfg := rfl

/-! ### setSel -/

@[simp] theorem State.setSel_regs (g : Seg) (v : Word) : (s.setSel g v).regs = s.regs := rfl
@[simp] theorem State.setSel_upper (g : Seg) (v : Word) : (s.setSel g v).upper = s.upper := rfl
@[simp] theorem State.setSel_segs (g : Seg) (v : Word) : (s.setSel g v).segs = s.segs.set g v := rfl
@[simp] theorem State.setSel_ip (g : Seg) (v : Word) : (s.setSel g v).ip = s.ip := rfl
@[simp] theorem State.setSel_pastEnd (g : Seg) (v : Word) : (s.setSel g v).pastEnd = s.pastEnd := rfl
@[simp] theorem State.setSel_flags (g : Seg) (v : Word) : (s.setSel g v).flags = s.flags := rfl
@[simp] theorem State.setSel_idtrLimit (g : Seg) (v : Word) : (s.setSel g v).idtrLimit = s.idtrLimit := rfl
@[simp] theorem State.setSel_idtrBase (g : Seg) (v : Word) : (s.setSel g v).idtrBase = s.idtrBase := rfl
@[simp] theorem State.setSel_msw (g : Seg) (v : Word) : (s.setSel g v).msw = s.msw := rfl
@[simp] theorem State.setSel_dr6 (g : Seg) (v : Word) : (s.setSel g v).dr6 = s.dr6 := rfl
@[simp] theorem State.setSel_nmiMasked (g : Seg) (v : Word) : (s.setSel g v).nmiMasked = s.nmiMasked := rfl
@[simp] theorem State.setSel_nmiPending (g : Seg) (v : Word) : (s.setSel g v).nmiPending = s.nmiPending := rfl
@[simp] theorem State.setSel_intrPending (g : Seg) (v : Word) : (s.setSel g v).intrPending = s.intrPending := rfl
@[simp] theorem State.setSel_copErrorPending (g : Seg) (v : Word) : (s.setSel g v).copErrorPending = s.copErrorPending := rfl
@[simp] theorem State.setSel_lockSignal (g : Seg) (v : Word) : (s.setSel g v).lockSignal = s.lockSignal := rfl
@[simp] theorem State.setSel_stepDue (g : Seg) (v : Word) : (s.setSel g v).stepDue = s.stepDue := rfl
@[simp] theorem State.setSel_ssShadow (g : Seg) (v : Word) : (s.setSel g v).ssShadow = s.ssShadow := rfl
@[simp] theorem State.setSel_mem (g : Seg) (v : Word) : (s.setSel g v).mem = s.mem := rfl
@[simp] theorem State.setSel_dirty (g : Seg) (v : Word) : (s.setSel g v).dirty = s.dirty := rfl
@[simp] theorem State.setSel_pfx (g : Seg) (v : Word) : (s.setSel g v).pfx = s.pfx := rfl
@[simp] theorem State.setSel_draws (g : Seg) (v : Word) : (s.setSel g v).draws = s.draws := rfl
@[simp] theorem State.setSel_env (g : Seg) (v : Word) : (s.setSel g v).env = s.env := rfl
@[simp] theorem State.setSel_cfg (g : Seg) (v : Word) : (s.setSel g v).cfg = s.cfg := rfl

/-! ### setFlags -/

@[simp] theorem State.setFlags_regs (v : Word) : (s.setFlags v).regs = s.regs := rfl
@[simp] theorem State.setFlags_upper (v : Word) : (s.setFlags v).upper = s.upper := rfl
@[simp] theorem State.setFlags_segs (v : Word) : (s.setFlags v).segs = s.segs := rfl
@[simp] theorem State.setFlags_ip (v : Word) : (s.setFlags v).ip = s.ip := rfl
@[simp] theorem State.setFlags_pastEnd (v : Word) : (s.setFlags v).pastEnd = s.pastEnd := rfl
@[simp] theorem State.setFlags_flags (v : Word) : (s.setFlags v).flags = v := rfl
@[simp] theorem State.setFlags_idtrLimit (v : Word) : (s.setFlags v).idtrLimit = s.idtrLimit := rfl
@[simp] theorem State.setFlags_idtrBase (v : Word) : (s.setFlags v).idtrBase = s.idtrBase := rfl
@[simp] theorem State.setFlags_msw (v : Word) : (s.setFlags v).msw = s.msw := rfl
@[simp] theorem State.setFlags_dr6 (v : Word) : (s.setFlags v).dr6 = s.dr6 := rfl
@[simp] theorem State.setFlags_nmiMasked (v : Word) : (s.setFlags v).nmiMasked = s.nmiMasked := rfl
@[simp] theorem State.setFlags_nmiPending (v : Word) : (s.setFlags v).nmiPending = s.nmiPending := rfl
@[simp] theorem State.setFlags_intrPending (v : Word) : (s.setFlags v).intrPending = s.intrPending := rfl
@[simp] theorem State.setFlags_copErrorPending (v : Word) : (s.setFlags v).copErrorPending = s.copErrorPending := rfl
@[simp] theorem State.setFlags_lockSignal (v : Word) : (s.setFlags v).lockSignal = s.lockSignal := rfl
@[simp] theorem State.setFlags_stepDue (v : Word) : (s.setFlags v).stepDue = s.stepDue := rfl
@[simp] theorem State.setFlags_ssShadow (v : Word) : (s.setFlags v).ssShadow = s.ssShadow := rfl
@[simp] theorem State.setFlags_mem (v : Word) : (s.setFlags v).mem = s.mem := rfl
@[simp] theorem State.setFlags_dirty (v : Word) : (s.setFlags v).dirty = s.dirty := rfl
@[simp] theorem State.setFlags_pfx (v : Word) : (s.setFlags v).pfx = s.pfx := rfl
@[simp] theorem State.setFlags_draws (v : Word) : (s.setFlags v).draws = s.draws := rfl
@[simp] theorem State.setFlags_env (v : Word) : (s.setFlags v).env = s.env := rfl
@[simp] theorem State.setFlags_cfg (v : Word) : (s.setFlags v).cfg = s.cfg := rfl

/-! ### setByte -/

@[simp] theorem State.setByte_regs (a : Nat) (v : Byte) : (s.setByte a v).regs = s.regs := rfl
@[simp] theorem State.setByte_upper (a : Nat) (v : Byte) : (s.setByte a v).upper = s.upper := rfl
@[simp] theorem State.setByte_segs (a : Nat) (v : Byte) : (s.setByte a v).segs = s.segs := rfl
@[simp] theorem State.setByte_ip (a : Nat) (v : Byte) : (s.setByte a v).ip = s.ip := rfl
@[simp] theorem State.setByte_pastEnd (a : Nat) (v : Byte) : (s.setByte a v).pastEnd = s.pastEnd := rfl
@[simp] theorem State.setByte_flags (a : Nat) (v : Byte) : (s.setByte a v).flags = s.flags := rfl
@[simp] theorem State.setByte_idtrLimit (a : Nat) (v : Byte) : (s.setByte a v).idtrLimit = s.idtrLimit := rfl
@[simp] theorem State.setByte_idtrBase (a : Nat) (v : Byte) : (s.setByte a v).idtrBase = s.idtrBase := rfl
@[simp] theorem State.setByte_msw (a : Nat) (v : Byte) : (s.setByte a v).msw = s.msw := rfl
@[simp] theorem State.setByte_dr6 (a : Nat) (v : Byte) : (s.setByte a v).dr6 = s.dr6 := rfl
@[simp] theorem State.setByte_nmiMasked (a : Nat) (v : Byte) : (s.setByte a v).nmiMasked = s.nmiMasked := rfl
@[simp] theorem State.setByte_nmiPending (a : Nat) (v : Byte) : (s.setByte a v).nmiPending = s.nmiPending := rfl
@[simp] theorem State.setByte_intrPending (a : Nat) (v : Byte) : (s.setByte a v).intrPending = s.intrPending := rfl
@[simp] theorem State.setByte_copErrorPending (a : Nat) (v : Byte) : (s.setByte a v).copErrorPending = s.copErrorPending := rfl
@[simp] theorem State.setByte_lockSignal (a : Nat) (v : Byte) : (s.setByte a v).lockSignal = s.lockSignal := rfl
@[simp] theorem State.setByte_stepDue (a : Nat) (v : Byte) : (s.setByte a v).stepDue = s.stepDue := rfl
@[simp] theorem State.setByte_ssShadow (a : Nat) (v : Byte) : (s.setByte a v).ssShadow = s.ssShadow := rfl
@[simp] theorem State.setByte_mem (a : Nat) (v : Byte) : (s.setByte a v).mem = s.mem.write a v := rfl
@[simp] theorem State.setByte_dirty (a : Nat) (v : Byte) : (s.setByte a v).dirty = insertAddr s.dirty a := rfl
@[simp] theorem State.setByte_pfx (a : Nat) (v : Byte) : (s.setByte a v).pfx = s.pfx := rfl
@[simp] theorem State.setByte_draws (a : Nat) (v : Byte) : (s.setByte a v).draws = s.draws := rfl
@[simp] theorem State.setByte_env (a : Nat) (v : Byte) : (s.setByte a v).env = s.env := rfl
@[simp] theorem State.setByte_cfg (a : Nat) (v : Byte) : (s.setByte a v).cfg = s.cfg := rfl

/-! ### setWord -/

@[simp] theorem State.setWord_regs (a : Nat) (v : Word) : (s.setWord a v).regs = s.regs := rfl
@[simp] theorem State.setWord_upper (a : Nat) (v : Word) : (s.setWord a v).upper = s.upper := rfl
@[simp] theorem State.setWord_segs (a : Nat) (v : Word) : (s.setWord a v).segs = s.segs := rfl
@[simp] theorem State.setWord_ip (a : Nat) (v : Word) : (s.setWord a v).ip = s.ip := rfl
@[simp] theorem State.setWord_pastEnd (a : Nat) (v : Word) : (s.setWord a v).pastEnd = s.pastEnd := rfl
@[simp] theorem State.setWord_flags (a : Nat) (v : Word) : (s.setWord a v).flags = s.flags := rfl
@[simp] theorem State.setWord_idtrLimit (a : Nat) (v : Word) : (s.setWord a v).idtrLimit = s.idtrLimit := rfl
@[simp] theorem State.setWord_idtrBase (a : Nat) (v : Word) : (s.setWord a v).idtrBase = s.idtrBase := rfl
@[simp] theorem State.setWord_msw (a : Nat) (v : Word) : (s.setWord a v).msw = s.msw := rfl
@[simp] theorem State.setWord_dr6 (a : Nat) (v : Word) : (s.setWord a v).dr6 = s.dr6 := rfl
@[simp] theorem State.setWord_nmiMasked (a : Nat) (v : Word) : (s.setWord a v).nmiMasked = s.nmiMasked := rfl
@[simp] theorem State.setWord_nmiPending (a : Nat) (v : Word) : (s.setWord a v).nmiPending = s.nmiPending := rfl
@[simp] theorem State.setWord_intrPending (a : Nat) (v : Word) : (s.setWord a v).intrPending = s.intrPending := rfl
@[simp] theorem State.setWord_copErrorPending (a : Nat) (v : Word) : (s.setWord a v).copErrorPending = s.copErrorPending := rfl
@[simp] theorem State.setWord_lockSignal (a : Nat) (v : Word) : (s.setWord a v).lockSignal = s.lockSignal := rfl
@[simp] theorem State.setWord_stepDue (a : Nat) (v : Word) : (s.setWord a v).stepDue = s.stepDue := rfl
@[simp] theorem State.setWord_ssShadow (a : Nat) (v : Word) : (s.setWord a v).ssShadow = s.ssShadow := rfl
@[simp] theorem State.setWord_mem (a : Nat) (v : Word) : (s.setWord a v).mem = (s.mem.write a (lowByte v)).write (a + 1) (highByte v) := rfl
@[simp] theorem State.setWord_dirty (a : Nat) (v : Word) : (s.setWord a v).dirty = insertAddr (insertAddr s.dirty a) (a + 1) := rfl
@[simp] theorem State.setWord_pfx (a : Nat) (v : Word) : (s.setWord a v).pfx = s.pfx := rfl
@[simp] theorem State.setWord_draws (a : Nat) (v : Word) : (s.setWord a v).draws = s.draws := rfl
@[simp] theorem State.setWord_env (a : Nat) (v : Word) : (s.setWord a v).env = s.env := rfl
@[simp] theorem State.setWord_cfg (a : Nat) (v : Word) : (s.setWord a v).cfg = s.cfg := rfl

/-! ### recordPrefix -/

@[simp] theorem State.recordPrefix_regs (l : Bool) (g : Option Seg) : (State.recordPrefix l g s).regs = s.regs := rfl
@[simp] theorem State.recordPrefix_upper (l : Bool) (g : Option Seg) : (State.recordPrefix l g s).upper = s.upper := rfl
@[simp] theorem State.recordPrefix_segs (l : Bool) (g : Option Seg) : (State.recordPrefix l g s).segs = s.segs := rfl
@[simp] theorem State.recordPrefix_ip (l : Bool) (g : Option Seg) : (State.recordPrefix l g s).ip = s.ip := rfl
@[simp] theorem State.recordPrefix_pastEnd (l : Bool) (g : Option Seg) : (State.recordPrefix l g s).pastEnd = s.pastEnd := rfl
@[simp] theorem State.recordPrefix_flags (l : Bool) (g : Option Seg) : (State.recordPrefix l g s).flags = s.flags := rfl
@[simp] theorem State.recordPrefix_idtrLimit (l : Bool) (g : Option Seg) : (State.recordPrefix l g s).idtrLimit = s.idtrLimit := rfl
@[simp] theorem State.recordPrefix_idtrBase (l : Bool) (g : Option Seg) : (State.recordPrefix l g s).idtrBase = s.idtrBase := rfl
@[simp] theorem State.recordPrefix_msw (l : Bool) (g : Option Seg) : (State.recordPrefix l g s).msw = s.msw := rfl
@[simp] theorem State.recordPrefix_dr6 (l : Bool) (g : Option Seg) : (State.recordPrefix l g s).dr6 = s.dr6 := rfl
@[simp] theorem State.recordPrefix_nmiMasked (l : Bool) (g : Option Seg) : (State.recordPrefix l g s).nmiMasked = s.nmiMasked := rfl
@[simp] theorem State.recordPrefix_nmiPending (l : Bool) (g : Option Seg) : (State.recordPrefix l g s).nmiPending = s.nmiPending := rfl
@[simp] theorem State.recordPrefix_intrPending (l : Bool) (g : Option Seg) : (State.recordPrefix l g s).intrPending = s.intrPending := rfl
@[simp] theorem State.recordPrefix_copErrorPending (l : Bool) (g : Option Seg) : (State.recordPrefix l g s).copErrorPending = s.copErrorPending := rfl
@[simp] theorem State.recordPrefix_lockSignal (l : Bool) (g : Option Seg) : (State.recordPrefix l g s).lockSignal = s.lockSignal := rfl
@[simp] theorem State.recordPrefix_stepDue (l : Bool) (g : Option Seg) : (State.recordPrefix l g s).stepDue = s.stepDue := rfl
@[simp] theorem State.recordPrefix_ssShadow (l : Bool) (g : Option Seg) : (State.recordPrefix l g s).ssShadow = s.ssShadow := rfl
@[simp] theorem State.recordPrefix_mem (l : Bool) (g : Option Seg) : (State.recordPrefix l g s).mem = s.mem := rfl
@[simp] theorem State.recordPrefix_dirty (l : Bool) (g : Option Seg) : (State.recordPrefix l g s).dirty = s.dirty := rfl
@[simp] theorem State.recordPrefix_pfx (l : Bool) (g : Option Seg) : (State.recordPrefix l g s).pfx = { count := s.pfx.count + 1, lock := s.pfx.lock || l, seg := g.or s.pfx.seg } := rfl
@[simp] theorem State.recordPrefix_draws (l : Bool) (g : Option Seg) : (State.recordPrefix l g s).draws = s.draws := rfl
@[simp] theorem State.recordPrefix_env (l : Bool) (g : Option Seg) : (State.recordPrefix l g s).env = s.env := rfl
@[simp] theorem State.recordPrefix_cfg (l : Bool) (g : Option Seg) : (State.recordPrefix l g s).cfg = s.cfg := rfl

/-! ### retire -/

@[simp] theorem State.retire_regs (l : Bool) (n : Nat) : (State.retire l n s).regs = s.regs := rfl
@[simp] theorem State.retire_upper (l : Bool) (n : Nat) : (State.retire l n s).upper = s.upper := rfl
@[simp] theorem State.retire_segs (l : Bool) (n : Nat) : (State.retire l n s).segs = s.segs := rfl
@[simp] theorem State.retire_ip (l : Bool) (n : Nat) : (State.retire l n s).ip = s.nextIp n := rfl
@[simp] theorem State.retire_pastEnd (l : Bool) (n : Nat) : (State.retire l n s).pastEnd = decide (0xFFFF < s.ip.toNat + (s.pfx.count + n)) := rfl
@[simp] theorem State.retire_flags (l : Bool) (n : Nat) : (State.retire l n s).flags = s.flags := rfl
@[simp] theorem State.retire_idtrLimit (l : Bool) (n : Nat) : (State.retire l n s).idtrLimit = s.idtrLimit := rfl
@[simp] theorem State.retire_idtrBase (l : Bool) (n : Nat) : (State.retire l n s).idtrBase = s.idtrBase := rfl
@[simp] theorem State.retire_msw (l : Bool) (n : Nat) : (State.retire l n s).msw = s.msw := rfl
@[simp] theorem State.retire_dr6 (l : Bool) (n : Nat) : (State.retire l n s).dr6 = s.dr6 := rfl
@[simp] theorem State.retire_nmiMasked (l : Bool) (n : Nat) : (State.retire l n s).nmiMasked = s.nmiMasked := rfl
@[simp] theorem State.retire_nmiPending (l : Bool) (n : Nat) : (State.retire l n s).nmiPending = s.nmiPending := rfl
@[simp] theorem State.retire_intrPending (l : Bool) (n : Nat) : (State.retire l n s).intrPending = s.intrPending := rfl
@[simp] theorem State.retire_copErrorPending (l : Bool) (n : Nat) : (State.retire l n s).copErrorPending = s.copErrorPending := rfl
@[simp] theorem State.retire_lockSignal (l : Bool) (n : Nat) : (State.retire l n s).lockSignal = l := rfl
@[simp] theorem State.retire_stepDue (l : Bool) (n : Nat) : (State.retire l n s).stepDue = s.stepDue := rfl
@[simp] theorem State.retire_ssShadow (l : Bool) (n : Nat) : (State.retire l n s).ssShadow = s.ssShadow := rfl
@[simp] theorem State.retire_mem (l : Bool) (n : Nat) : (State.retire l n s).mem = s.mem := rfl
@[simp] theorem State.retire_dirty (l : Bool) (n : Nat) : (State.retire l n s).dirty = s.dirty := rfl
@[simp] theorem State.retire_pfx (l : Bool) (n : Nat) : (State.retire l n s).pfx = Prefixes.empty := rfl
@[simp] theorem State.retire_draws (l : Bool) (n : Nat) : (State.retire l n s).draws = s.draws + 1 := rfl
@[simp] theorem State.retire_env (l : Bool) (n : Nat) : (State.retire l n s).env = s.env := rfl
@[simp] theorem State.retire_cfg (l : Bool) (n : Nat) : (State.retire l n s).cfg = s.cfg := rfl

/-! ### jump -/

@[simp] theorem State.jump_regs (o : Word) : (State.jump o s).regs = s.regs := rfl
@[simp] theorem State.jump_upper (o : Word) : (State.jump o s).upper = s.upper := rfl
@[simp] theorem State.jump_segs (o : Word) : (State.jump o s).segs = s.segs := rfl
@[simp] theorem State.jump_ip (o : Word) : (State.jump o s).ip = o := rfl
@[simp] theorem State.jump_pastEnd (o : Word) : (State.jump o s).pastEnd = false := rfl
@[simp] theorem State.jump_flags (o : Word) : (State.jump o s).flags = s.flags := rfl
@[simp] theorem State.jump_idtrLimit (o : Word) : (State.jump o s).idtrLimit = s.idtrLimit := rfl
@[simp] theorem State.jump_idtrBase (o : Word) : (State.jump o s).idtrBase = s.idtrBase := rfl
@[simp] theorem State.jump_msw (o : Word) : (State.jump o s).msw = s.msw := rfl
@[simp] theorem State.jump_dr6 (o : Word) : (State.jump o s).dr6 = s.dr6 := rfl
@[simp] theorem State.jump_nmiMasked (o : Word) : (State.jump o s).nmiMasked = s.nmiMasked := rfl
@[simp] theorem State.jump_nmiPending (o : Word) : (State.jump o s).nmiPending = s.nmiPending := rfl
@[simp] theorem State.jump_intrPending (o : Word) : (State.jump o s).intrPending = s.intrPending := rfl
@[simp] theorem State.jump_copErrorPending (o : Word) : (State.jump o s).copErrorPending = s.copErrorPending := rfl
@[simp] theorem State.jump_lockSignal (o : Word) : (State.jump o s).lockSignal = false := rfl
@[simp] theorem State.jump_stepDue (o : Word) : (State.jump o s).stepDue = s.stepDue := rfl
@[simp] theorem State.jump_ssShadow (o : Word) : (State.jump o s).ssShadow = s.ssShadow := rfl
@[simp] theorem State.jump_mem (o : Word) : (State.jump o s).mem = s.mem := rfl
@[simp] theorem State.jump_dirty (o : Word) : (State.jump o s).dirty = [] := rfl
@[simp] theorem State.jump_pfx (o : Word) : (State.jump o s).pfx = Prefixes.empty := rfl
@[simp] theorem State.jump_draws (o : Word) : (State.jump o s).draws = s.draws + 1 := rfl
@[simp] theorem State.jump_env (o : Word) : (State.jump o s).env = s.env := rfl
@[simp] theorem State.jump_cfg (o : Word) : (State.jump o s).cfg = s.cfg := rfl

/-! ### begin -/

@[simp] theorem State.begin_regs  : (s.begin).regs = s.regs := rfl
@[simp] theorem State.begin_upper  : (s.begin).upper = s.upper := rfl
@[simp] theorem State.begin_segs  : (s.begin).segs = s.segs := rfl
@[simp] theorem State.begin_ip  : (s.begin).ip = s.ip := rfl
@[simp] theorem State.begin_pastEnd  : (s.begin).pastEnd = s.pastEnd := rfl
@[simp] theorem State.begin_flags  : (s.begin).flags = s.flags := rfl
@[simp] theorem State.begin_idtrLimit  : (s.begin).idtrLimit = s.idtrLimit := rfl
@[simp] theorem State.begin_idtrBase  : (s.begin).idtrBase = s.idtrBase := rfl
@[simp] theorem State.begin_msw  : (s.begin).msw = s.msw := rfl
@[simp] theorem State.begin_dr6  : (s.begin).dr6 = s.dr6 := rfl
@[simp] theorem State.begin_nmiMasked  : (s.begin).nmiMasked = s.nmiMasked := rfl
@[simp] theorem State.begin_nmiPending  : (s.begin).nmiPending = s.nmiPending := rfl
@[simp] theorem State.begin_intrPending  : (s.begin).intrPending = s.intrPending := rfl
@[simp] theorem State.begin_copErrorPending  : (s.begin).copErrorPending = s.copErrorPending := rfl
@[simp] theorem State.begin_lockSignal  : (s.begin).lockSignal = s.lockSignal := rfl
@[simp] theorem State.begin_stepDue  : (s.begin).stepDue = (getFlag .tf s.flags || (s.ssShadow && s.stepDue)) := rfl
@[simp] theorem State.begin_ssShadow  : (s.begin).ssShadow = false := rfl
@[simp] theorem State.begin_mem  : (s.begin).mem = s.mem := rfl
@[simp] theorem State.begin_dirty  : (s.begin).dirty = s.dirty := rfl
@[simp] theorem State.begin_pfx  : (s.begin).pfx = Prefixes.empty := rfl
@[simp] theorem State.begin_draws  : (s.begin).draws = s.draws := rfl
@[simp] theorem State.begin_env  : (s.begin).env = s.env := rfl
@[simp] theorem State.begin_cfg  : (s.begin).cfg = s.cfg := rfl

end Sys2Proof.Machine
end

