-- ==== Sys2Proof/Laws/Memory.lean ====
section
/-! SUPPORT. Memory: what is read after a write, and that every operation keeps the canonical form. -/

namespace Sys2Proof.Machine
open Sys2Proof

/-- A write leaves every other address alone. -/
theorem Memory.read_write_other (m : Memory) {x y : Nat} (v : Byte) (h : y ≠ x) :
    (m.write x v).read y = m.read y := by
  induction m with
  | nil => simp only [Memory.write]; split <;> simp [Memory.read, Ne.symm h]
  | cons c m ih =>
    obtain ⟨a, b⟩ := c
    simp only [Memory.write]
    split
    · split
      · rfl
      · simp [Memory.read, Ne.symm h]
    · split
      · next hx => subst hx; split <;> simp [Memory.read, Ne.symm h]
      · simp only [Memory.read, ih]

/-- An address below every listed one reads as the background. -/
theorem Memory.read_of_lt (m : Memory) (x : Nat) (h : ∀ c ∈ m, x < c.1) : m.read x = Memory.background := by
  induction m with
  | nil => rfl
  | cons c m ih =>
    obtain ⟨a, b⟩ := c
    have := h (a, b) (by simp)
    simp only [Memory.read]
    rw [if_neg (by simp at this; omega)]
    exact ih fun d hd => h d (by simp [hd])

/-- In canonical memory a write is read back. -/
theorem Memory.read_write_same {m : Memory} (hm : m.Wf) (x : Nat) (v : Byte) : (m.write x v).read x = v := by
  induction m with
  | nil => simp only [Memory.write]; split <;> simp [Memory.read, *]
  | cons c m ih =>
    obtain ⟨a, b⟩ := c
    obtain ⟨hs, hb⟩ := hm
    rw [List.pairwise_cons] at hs
    have ih := ih ⟨hs.2, fun d hd => hb d (by simp [hd])⟩
    simp only [Memory.write]
    split
    · next hx =>
      split
      · next hv =>
        rw [hv]
        refine Memory.read_of_lt _ _ fun d hd => ?_
        rcases List.mem_cons.1 hd with rfl | hd
        · exact hx
        · exact Nat.lt_trans hx (hs.1 d hd)
      · simp [Memory.read]
    · split
      · next hx =>
        subst hx
        split
        · next hv => rw [hv]; exact Memory.read_of_lt _ _ fun d hd => hs.1 d hd
        · simp [Memory.read]
      · next hx => simp [Memory.read, Ne.symm hx, ih]

/-- A listed address of a written memory was listed, or is the one written. -/
theorem Memory.mem_write {m : Memory} {x : Nat} {v : Byte} {c : Host.Cell} (h : c ∈ m.write x v) :
    c = (x, v) ∧ v ≠ Memory.background ∨ c ∈ m := by
  induction m with
  | nil =>
    simp only [Memory.write] at h
    split at h
    · simp at h
    · next hv => exact .inl ⟨by simpa using h, hv⟩
  | cons d m ih =>
    obtain ⟨a, b⟩ := d
    simp only [Memory.write] at h
    split at h
    · split at h
      · exact .inr h
      · next hv =>
        rcases List.mem_cons.1 h with h | h
        · exact .inl ⟨h, hv⟩
        · exact .inr h
    · split at h
      · split at h
        · exact .inr (by simp [h])
        · next hv =>
          rcases List.mem_cons.1 h with h | h
          · exact .inl ⟨h, hv⟩
          · exact .inr (by simp [h])
      · rcases List.mem_cons.1 h with h | h
        · exact .inr (by simp [h])
        · rcases ih h with h | h
          · exact .inl h
          · exact .inr (by simp [h])

/-- A write keeps the canonical form. -/
theorem Memory.write_wf {m : Memory} (hm : m.Wf) (x : Nat) (v : Byte) : (m.write x v).Wf := by
  refine ⟨?_, fun c hc => ?_⟩
  · obtain ⟨hs, -⟩ := hm
    induction m with
    | nil => simp only [Memory.write]; split <;> simp
    | cons d m ih =>
      obtain ⟨a, b⟩ := d
      simp only [Memory.write]
      have hs' := List.pairwise_cons.1 hs
      split
      · next hx =>
        split
        · exact hs
        · refine List.pairwise_cons.2 ⟨fun c hc => ?_, hs⟩
          rcases List.mem_cons.1 hc with rfl | hc
          · exact hx
          · exact Nat.lt_trans hx (hs'.1 c hc)
      · split
        · next hx =>
          subst hx
          split
          · exact hs'.2
          · exact List.pairwise_cons.2 ⟨fun c hc => hs'.1 c hc, hs'.2⟩
        · refine List.pairwise_cons.2 ⟨fun c hc => ?_, ih hs'.2⟩
          rcases Memory.mem_write hc with ⟨rfl, -⟩ | hc
          · simp only; omega
          · exact hs'.1 c hc
  · rcases Memory.mem_write hc with ⟨rfl, hv⟩ | hc
    · exact hv
    · exact hm.2 c hc

/-- The written addresses after one more. -/
@[simp] theorem mem_insertAddr {l : List Nat} {x y : Nat} : y ∈ insertAddr l x ↔ y = x ∨ y ∈ l := by
  induction l with
  | nil => simp [insertAddr]
  | cons a l ih =>
    simp only [insertAddr]
    split
    · simp
    · split
      · next h => subst h; simp
      · simp only [List.mem_cons, ih]; tauto

/-- The list of written addresses stays strictly rising. -/
theorem insertAddr_rising {l : List Nat} (h : l.Pairwise (· < ·)) (x : Nat) : (insertAddr l x).Pairwise (· < ·) := by
  induction l with
  | nil => simp [insertAddr]
  | cons a l ih =>
    obtain ⟨ha, hl⟩ := List.pairwise_cons.1 h
    simp only [insertAddr]
    split
    · next hx =>
      refine List.pairwise_cons.2 ⟨fun b hb => ?_, h⟩
      rcases List.mem_cons.1 hb with rfl | hb
      · exact hx
      · exact Nat.lt_trans hx (ha b hb)
    · split
      · exact h
      · refine List.pairwise_cons.2 ⟨fun b hb => ?_, ih hl⟩
        rcases mem_insertAddr.1 hb with rfl | hb
        · omega
        · exact ha b hb

end Sys2Proof.Machine
end

