-- ==== Sys2Proof/Laws/Registers.lean ====
section
/-! SUPPORT. The register file (R11): what a write of one name leaves in every other. -/

namespace Sys2Proof.Machine
open Sys2Proof

@[simp] theorem Regs.get_set_same (g : Regs) (r : Reg16) (v : Word) : (g.set r v).get r = v := by cases r <;> rfl

theorem Regs.get_set_other (g : Regs) {r q : Reg16} (v : Word) (h : q ≠ r) : (g.set r v).get q = g.get q := by
  cases r <;> cases q <;> first | rfl | exact absurd rfl h

@[simp] theorem SegRegs.get_set_same (g : SegRegs) (r : Seg) (v : Word) : (g.set r v).get r = v := by cases r <;> rfl

theorem SegRegs.get_set_other (g : SegRegs) {r q : Seg} (v : Word) (h : q ≠ r) : (g.set r v).get q = g.get q := by
  cases r <;> cases q <;> first | rfl | exact absurd rfl h

/-- One bit of a word of two bytes. -/
theorem getLsbD_wordOf (lo hi : Byte) (i : Nat) :
    (wordOf lo hi).getLsbD i = if i < 8 then lo.getLsbD i else hi.getLsbD (i - 8) := BitVec.getLsbD_append

@[simp] theorem lowByte_wordOf (lo hi : Byte) : lowByte (wordOf lo hi) = lo := by
  refine BitVec.eq_of_getLsbD_eq fun i hi' => ?_
  simp [lowByte, hi', getLsbD_wordOf]

@[simp] theorem highByte_wordOf (lo hi : Byte) : highByte (wordOf lo hi) = hi := by
  refine BitVec.eq_of_getLsbD_eq fun i hi' => ?_
  simp [highByte, hi', getLsbD_wordOf]

@[simp] theorem wordOf_lowByte_highByte (v : Word) : wordOf (lowByte v) (highByte v) = v := by
  refine BitVec.eq_of_getLsbD_eq fun i hi => ?_
  rw [getLsbD_wordOf]
  split
  · simp [lowByte, *]
  · have : i - 8 < 8 ∧ 8 + (i - 8) = i := by omega
    simp [highByte, this]

@[simp] theorem Regs.get8_set8_same (g : Regs) (r : Reg8) (v : Byte) : (g.set8 r v).get8 r = v := by
  cases r <;> simp [Regs.get8, Regs.set8, Reg8.isHigh, Reg8.home]

/-- A byte write leaves the seven other byte registers alone. -/
theorem Regs.get8_set8_other (g : Regs) {r q : Reg8} (v : Byte) (h : q ≠ r) : (g.set8 r v).get8 q = g.get8 q := by
  cases r <;> cases q <;>
    first
    | exact absurd rfl h
    | simp [Regs.get8, Regs.set8, Reg8.isHigh, Reg8.home, Regs.get, Regs.set]

/-- A byte write leaves every 16-bit register but its own alone. -/
theorem Regs.get_set8_other (g : Regs) {r : Reg8} {q : Reg16} (v : Byte) (h : q ≠ Reg8.home r) :
    (g.set8 r v).get q = g.get q := Regs.get_set_other g _ h

@[simp] theorem Regs.sp_eq_get (g : Regs) : g.get .sp = g.sp := rfl

end Sys2Proof.Machine
end

