-- ==== Sys2Proof/Laws/Flags.lean ====
section
/-! SUPPORT. FLAGS bit by bit. -/

namespace Sys2Proof.Machine
open Sys2Proof

/-- One bit of a word after one bit is made `b`. -/
theorem getLsbD_setBit {w : Nat} (v : BitVec w) (i j : Nat) (b : Bool) :
    (setBit v i b).getLsbD j = if i = j ∧ j < w then b else v.getLsbD j := by
  unfold setBit
  by_cases hj : j < w
  · by_cases h : i = j
    · cases b <;> simp [h, hj]
    · cases b <;> simp [h, hj, Ne.symm h]
  · have : v.getLsbD j = false := BitVec.getLsbD_of_ge _ _ (by omega)
    cases b <;> simp [hj, this, BitVec.getLsbD_twoPow]
    omega

/-- One bit of FLAGS after a flag is written. -/
theorem getLsbD_setFlag (f : Flag) (b : Bool) (fl : Word) (j : Nat) :
    (setFlag f b fl).getLsbD j = if f.bit = j then b else fl.getLsbD j := by
  rw [setFlag, getLsbD_setBit]
  by_cases h : f.bit = j
  · have : j < 16 := by subst h; cases f <;> decide
    simp [h, this]
  · simp [h]

theorem Flag.bit_injective {f g : Flag} (h : f.bit = g.bit) : f = g := by
  cases f <;> cases g <;> first | rfl | exact absurd h (by decide)

@[simp] theorem getFlag_setFlag_same (f : Flag) (b : Bool) (fl : Word) : getFlag f (setFlag f b fl) = b := by
  simp [getFlag, getLsbD_setFlag]

theorem getFlag_setFlag (f g : Flag) (b : Bool) (fl : Word) :
    getFlag g (setFlag f b fl) = if f = g then b else getFlag g fl := by
  simp only [getFlag, getLsbD_setFlag]
  by_cases h : f = g
  · simp [h]
  · rw [if_neg h, if_neg fun e => h (Flag.bit_injective e)]

/-- Writing a flag its own value changes nothing. -/
theorem setFlag_getFlag (f : Flag) (fl : Word) : setFlag f (getFlag f fl) fl = fl := by
  refine BitVec.eq_of_getLsbD_eq fun j hj => ?_
  rw [getLsbD_setFlag]
  split
  · next h => rw [← h, getFlag]
  · rfl

/-- The bits of the flags register as it holds them (R16, R17). -/
theorem getLsbD_fixedFlags (v : Word) (j : Nat) :
    (fixedFlags v).getLsbD j =
      if j = 1 then true else if j = 3 ∨ j = 5 ∨ 15 ≤ j then false else v.getLsbD j := by
  by_cases hj : j < 16
  · have h1 : (fixedFlags v).getLsbD j = (v.getLsbD j && (0x7FD7#16).getLsbD j || (0x0002#16).getLsbD j) := by
      simp [fixedFlags]
    rw [h1]
    have hc : j = 0 ∨ j = 1 ∨ j = 2 ∨ j = 3 ∨ j = 4 ∨ j = 5 ∨ j = 6 ∨ j = 7 ∨ j = 8 ∨ j = 9 ∨ j = 10 ∨ j = 11 ∨ j = 12 ∨
        j = 13 ∨ j = 14 ∨ j = 15 := by omega
    rcases hc with h | h | h | h | h | h | h | h | h | h | h | h | h | h | h | h <;> subst h <;> simp
  · have : (fixedFlags v).getLsbD j = false := BitVec.getLsbD_of_ge _ _ (by omega)
    rw [this, if_neg (by omega), if_pos (by omega)]

@[simp] theorem fixedFlags_fixedFlags (v : Word) : fixedFlags (fixedFlags v) = fixedFlags v := by
  refine BitVec.eq_of_getLsbD_eq fun j hj => ?_
  simp only [getLsbD_fixedFlags]
  split
  · rfl
  · split <;> rfl

/-- A named flag is not one of the fixed bits. -/
theorem fixedFlags_setFlag (f : Flag) (b : Bool) (fl : Word) : fixedFlags (setFlag f b fl) = setFlag f b (fixedFlags fl) := by
  refine BitVec.eq_of_getLsbD_eq fun j hj => ?_
  simp only [getLsbD_fixedFlags, getLsbD_setFlag]
  have : f.bit ≠ 1 ∧ f.bit ≠ 3 ∧ f.bit ≠ 5 ∧ f.bit < 15 := by cases f <;> decide
  by_cases h : f.bit = j
  · subst h; simp [this]
  · simp [h]

/-- Writing a named flag keeps the fixed bits. -/
theorem setFlag_fixed {f : Flag} {b : Bool} {fl : Word} (h : fixedFlags fl = fl) : fixedFlags (setFlag f b fl) = setFlag f b fl := by
  rw [fixedFlags_setFlag, h]

theorem getFlag_fixedFlags (f : Flag) (v : Word) : getFlag f (fixedFlags v) = getFlag f v := by
  simp only [getFlag, getLsbD_fixedFlags]
  cases f <;> simp [Flag.bit]

end Sys2Proof.Machine
end

