-- ==== Sys2Proof/Laws/Alu.lean ====
section
/-! SUPPORT. What the arithmetic and logic operations compute, as the relations claims use (43_lock.md R158 to R169). -/

namespace Sys2Proof.Machine
open Sys2Proof

/-- ZF, SF and PF as R169 says. -/
theorem resultFlags_spec {w} (r : BitVec w) (fl : Word) :
    ResultFlags r (resultFlags r fl) := by
  constructor <;> simp [resultFlags, getFlag_setFlag]

/-- Nothing changed. -/
theorem onlyFlags_refl (fs) (a : Word) : OnlyFlags fs a a := fun _ _ => rfl
/-- A listed flag written. -/
theorem OnlyFlags.of_setFlag {fs : List Flag} {a b : Word} (f : Flag) (v : Bool) (hf : f ∈ fs) (h : OnlyFlags fs a b) :
    OnlyFlags fs a (setFlag f v b) := by
  intro j hj
  rw [getLsbD_setFlag, if_neg (hj f hf), h j hj]

/-- A write of another flag keeps ZF, SF and PF. -/
theorem ResultFlags.of_setFlag {w} {r : BitVec w} {fl : Word} (f : Flag) (v : Bool) (hf : f ≠ .zf ∧ f ≠ .sf ∧ f ≠ .pf) (h : ResultFlags r fl) :
    ResultFlags r (setFlag f v fl) := by
  constructor <;> simp [getFlag_setFlag, hf, h.zf, h.sf, h.pf]

theorem onlyFlags_result {w} {fs : List Flag} (r : BitVec w) (fl : Word) (h1 : .zf ∈ fs) (h2 : .sf ∈ fs) (h3 : .pf ∈ fs) :
    OnlyFlags fs fl (resultFlags r fl) :=
  OnlyFlags.of_setFlag _ _ h1 (OnlyFlags.of_setFlag _ _ h2 (OnlyFlags.of_setFlag _ _ h3 (onlyFlags_refl _ _)))

/-- ADD and ADC at any width (R169). -/
theorem addWith_sum {w} (c : Bool) (a b : BitVec w) (fl : Word) :
    Sum c a b (addWith c a b fl).1 (addWith c a b fl).2 ∧ CarryOut w (a.toNat + b.toNat + c.toNat) (addWith c a b fl).2 ∧
      OnlyFlags arithFlags fl (addWith c a b fl).2 := by
  refine ⟨⟨?_, ?_, ?_, ?_⟩, ?_, ?_⟩
  · simp [addWith]
  · simp [addWith, getFlag_setFlag]
  · simp [addWith, getFlag_setFlag, auxCarry]
  · exact ResultFlags.of_setFlag _ _ (by simp) (ResultFlags.of_setFlag _ _ (by simp) (ResultFlags.of_setFlag _ _ (by simp) (resultFlags_spec _ _)))
  · simp [addWith, CarryOut]
  · refine OnlyFlags.of_setFlag _ _ (by simp [arithFlags]) (OnlyFlags.of_setFlag _ _ (by simp [arithFlags]) (OnlyFlags.of_setFlag _ _ (by simp [arithFlags]) (onlyFlags_result _ _ ?_ ?_ ?_))) <;> simp [arithFlags]

/-- The result of a subtraction with borrow. -/
theorem toNat_subWith {w} (c : Bool) (a b : BitVec w) :
    ((a - b - BitVec.ofNat w c.toNat).toNat : Int) = ((a.toNat : Int) - b.toNat - c.toNat) % 2 ^ w := by
  have ha := a.isLt; have hb := b.isLt
  rw [BitVec.toNat_sub, BitVec.toNat_sub, BitVec.toNat_ofNat]
  have hc : c.toNat % 2^w ≤ 2 ^ w := (Nat.mod_lt _ (Nat.two_pow_pos w)).le
  push_cast [Nat.cast_sub ha.le, Nat.cast_sub hb.le, Nat.cast_sub hc]
  apply Int.ModEq.eq
  have h1 : ((c.toNat : Int) % 2 ^ w) ≡ c.toNat [ZMOD 2 ^ w] := Int.mod_modEq _ _
  have h2 : (((2:Int) ^ w - b.toNat + a.toNat) % 2 ^ w) ≡ (2 ^ w - b.toNat + a.toNat) [ZMOD 2 ^ w] := Int.mod_modEq _ _
  have h3 : ((2:Int) ^ w - (c.toNat % 2^w) + ((2 ^ w - b.toNat + a.toNat) % 2 ^ w)) ≡ (2 ^ w - c.toNat + (2 ^ w - b.toNat + a.toNat)) [ZMOD 2 ^ w] :=
    ((Int.ModEq.refl _).sub h1).add h2
  refine h3.trans ?_
  apply (Int.modEq_iff_dvd).2
  exact ⟨-2, by ring⟩

/-- SUB and SBB at any width (R169). -/
theorem subWith_difference {w} (c : Bool) (a b : BitVec w) (fl : Word) :
    Difference c a b (subWith c a b fl).1 (subWith c a b fl).2 ∧ getFlag .cf (subWith c a b fl).2 = decide (a.toNat < b.toNat + c.toNat) ∧
      OnlyFlags arithFlags fl (subWith c a b fl).2 := by
  refine ⟨⟨?_, ?_, ?_, ?_⟩, ?_, ?_⟩
  · exact toNat_subWith c a b
  · simp [subWith, getFlag_setFlag]
  · simp [subWith, getFlag_setFlag, auxCarry]
  · exact ResultFlags.of_setFlag _ _ (by simp) (ResultFlags.of_setFlag _ _ (by simp) (ResultFlags.of_setFlag _ _ (by simp) (resultFlags_spec _ _)))
  · simp [subWith]
  · refine OnlyFlags.of_setFlag _ _ (by simp [arithFlags]) (OnlyFlags.of_setFlag _ _ (by simp [arithFlags]) (OnlyFlags.of_setFlag _ _ (by simp [arithFlags]) (onlyFlags_result _ _ ?_ ?_ ?_))) <;> simp [arithFlags]

/-- AND, OR and XOR leave these flags (R169). -/
theorem logicFlags_spec {w} (r : BitVec w) (fl free : Word) : LogicFlags r fl (logicFlags r fl free) := by
  refine ⟨?_, ?_, ?_, ?_⟩
  · simp [logicFlags]
  · simp [logicFlags, getFlag_setFlag]
  · exact ResultFlags.of_setFlag _ _ (by simp) (ResultFlags.of_setFlag _ _ (by simp) (ResultFlags.of_setFlag _ _ (by simp) (resultFlags_spec _ _)))
  · refine OnlyFlags.of_setFlag _ _ (by simp [arithFlags]) (OnlyFlags.of_setFlag _ _ (by simp [arithFlags]) (OnlyFlags.of_setFlag _ _ (by simp [arithFlags]) (onlyFlags_result _ _ ?_ ?_ ?_))) <;> simp [arithFlags]

theorem aluAdd_isAdd {w} (a b : BitVec w) (fl free) :
    IsAdd a b fl (aluAdd a b fl free).1 (aluAdd a b fl free).2 := addWith_sum false a b fl
theorem aluAdc_isAdc {w} (a b : BitVec w) (fl free) :
    IsAdc a b fl (aluAdc a b fl free).1 (aluAdc a b fl free).2 := addWith_sum _ a b fl
theorem aluSub_isSub {w} (a b : BitVec w) (fl free) :
    IsSub a b fl (aluSub a b fl free).1 (aluSub a b fl free).2 := subWith_difference false a b fl
theorem aluSbb_isSbb {w} (a b : BitVec w) (fl free) :
    IsSbb a b fl (aluSbb a b fl free).1 (aluSbb a b fl free).2 := subWith_difference _ a b fl
theorem aluAnd_isAnd {w} (a b : BitVec w) (fl free) :
    IsAnd a b fl (aluAnd a b fl free).1 (aluAnd a b fl free).2 :=
  ⟨fun i _ => by simp [aluAnd], logicFlags_spec _ _ _⟩
theorem aluOr_isOr {w} (a b : BitVec w) (fl free) :
    IsOr a b fl (aluOr a b fl free).1 (aluOr a b fl free).2 := ⟨fun i _ => by simp [aluOr], logicFlags_spec _ _ _⟩
theorem aluXor_isXor {w} (a b : BitVec w) (fl free) :
    IsXor a b fl (aluXor a b fl free).1 (aluXor a b fl free).2 :=
  ⟨fun i _ => by simp [aluXor], logicFlags_spec _ _ _⟩

/-- CF put back. -/
theorem onlyFlags_keepCf {a b : Word} (h : OnlyFlags arithFlags a b) :
    OnlyFlags arithFlagsButCf a (setFlag .cf (getFlag .cf a) b) := by
  intro j hj
  rw [getLsbD_setFlag]
  split
  · next h => rw [← h]; rfl
  · next hc =>
    apply h
    intro f hf
    simp only [arithFlags, List.mem_cons, List.not_mem_nil, or_false] at hf
    rcases hf with rfl | h
    · exact hc
    · exact hj f (by simpa [arithFlagsButCf] using h)

theorem aluInc_isInc {w} (a : BitVec w) (fl free) : IsInc a fl (aluInc a fl free).1 (aluInc a fl free).2 := by
  obtain ⟨⟨h1, h2, h3, h4⟩, -, h5⟩ := addWith_sum false a 1#w fl
  exact ⟨⟨h1, by simp [aluInc, getFlag_setFlag, h2], by simp [aluInc, getFlag_setFlag, h3], ResultFlags.of_setFlag _ _ (by simp) h4⟩, onlyFlags_keepCf h5⟩
theorem aluDec_isDec {w} (a : BitVec w) (fl free) : IsDec a fl (aluDec a fl free).1 (aluDec a fl free).2 := by
  obtain ⟨⟨h1, h2, h3, h4⟩, -, h5⟩ := subWith_difference false a 1#w fl
  exact ⟨⟨h1, by simp [aluDec, getFlag_setFlag, h2], by simp [aluDec, getFlag_setFlag, h3], ResultFlags.of_setFlag _ _ (by simp) h4⟩, onlyFlags_keepCf h5⟩
theorem aluNot_isNot {w} (a : BitVec w) (fl free) :
    IsNot a fl (aluNot a fl free).1 (aluNot a fl free).2 := ⟨by simp [aluNot, BitVec.toNat_not], rfl⟩
theorem aluNeg_isNeg {w} (a : BitVec w) (fl free) : IsNeg a fl (aluNeg a fl free).1 (aluNeg a fl free).2 := by
  obtain ⟨h1, h2, h3⟩ := subWith_difference false 0#w a fl
  refine ⟨h1, h2.trans ?_, h3⟩
  simp [Nat.pos_iff_ne_zero, BitVec.toNat_eq]

end Sys2Proof.Machine
end

