-- ==== Sys2Proof/Laws/Decode.lean ====
section
/-! SUPPORT. The operand of an encoding, read and written (30_encoding.md R75, R76). -/

namespace Sys2Proof
open Sys2Proof.Machine

/-- The fields of a ModR/M byte. -/
theorem modRm_fields :
    ∀ m : BitVec 2, ∀ y r : BitVec 3, modField (modRm m y r) = m ∧ regField (modRm m y r) = y ∧ rmField (modRm m y r) = r :=
  by decide
/-- A ModR/M byte from its fields. -/
theorem modRm_of_fields : ∀ b : Byte, modRm (modField b) (regField b) (rmField b) = b := by decide
@[simp] theorem modField_modRm (m y r) : modField (modRm m y r) = m := (modRm_fields m y r).1
@[simp] theorem regField_modRm (m y r) : regField (modRm m y r) = y := (modRm_fields m y r).2.1
@[simp] theorem rmField_modRm (m y r) : rmField (modRm m y r) = r := (modRm_fields m y r).2.2
@[simp] theorem Reg16.ofCode_code (r : Reg16) : Reg16.ofCode r.code = r := by cases r <;> rfl
@[simp] theorem Reg8.ofCode_code (r : Reg8) : Reg8.ofCode r.code = r := by cases r <;> rfl
@[simp] theorem Seg.ofCode_code (r : Seg) : Seg.ofCode r.code = some r := by cases r <;> rfl
@[simp] theorem Base.ofCode_code (r : Base) : Base.ofCode r.code = r := by cases r <;> rfl
theorem Reg16.code_ofCode : ∀ n, (Reg16.ofCode n).code = n := by decide
theorem Reg8.code_ofCode : ∀ n, (Reg8.ofCode n).code = n := by decide
theorem Base.code_ofCode : ∀ n, (Base.ofCode n).code = n := by decide
theorem Seg.code_ofCode : ∀ n g, Seg.ofCode n = some g → g.code = n := by decide
theorem wordOf_bytes (v : Word) : wordOf (v.extractLsb' 0 8) (v.extractLsb' 8 8) = v := wordOf_lowByte_highByte v
theorem encodeWord_wordOf (a b : Byte) : encodeWord (wordOf a b) = [a, b] := by
  unfold encodeWord; rw [show BitVec.extractLsb' 0 8 (wordOf a b) = a from lowByte_wordOf a b, show BitVec.extractLsb' 8 8 (wordOf a b) = b from highByte_wordOf a b]
@[simp] theorem takeWord_encodeWord (v : Word) (rest) : takeWord (encodeWord v ++ rest) = .ok (v, rest) := by
  show Except.ok (wordOf _ _, rest) = _; rw [wordOf_bytes]

theorem Base.code_ne_six {b : Base} (h : (b != .bp) = true) : ¬ b.code.toNat = 6 := by revert h; cases b <;> decide

/-- A memory operand is parsed back from its bytes. -/
theorem takeModRm_mem {y m rest} (h : Mem.wellFormed m = true) :
    takeModRm (encodeMem y m ++ rest) = .ok ((y, .mem m), rest) := by
  cases m with
  | base b =>
    show takeModRm (modRm 0 y b.code :: rest) = _
    unfold takeModRm takeOperand
    simp only [modField_modRm, rmField_modRm, regField_modRm, Base.ofCode_code]
    rw [show (0 : BitVec 2).toNat = 0 from rfl]; simp only [if_neg (Base.code_ne_six h)]
  | direct o =>
    show takeModRm (modRm 0 y 6 :: (encodeWord o ++ rest)) = _
    unfold takeModRm takeOperand
    simp only [modField_modRm, rmField_modRm, regField_modRm]
    rw [show (0 : BitVec 2).toNat = 0 from rfl, show (6 : BitVec 3).toNat = 6 from rfl]; simp
  | disp8 b o =>
    show takeModRm (modRm 1 y b.code :: o :: rest) = _
    unfold takeModRm takeOperand
    simp only [modField_modRm, rmField_modRm, regField_modRm, Base.ofCode_code]
    rw [show (1 : BitVec 2).toNat = 1 from rfl]; simp [takeByte]
  | disp16 b o =>
    show takeModRm (modRm 2 y b.code :: (encodeWord o ++ rest)) = _
    unfold takeModRm takeOperand
    simp only [modField_modRm, rmField_modRm, regField_modRm, Base.ofCode_code]
    rw [show (2 : BitVec 2).toNat = 2 from rfl]; simp

/-- An 8-bit `r/m` operand is parsed back from its bytes. -/
theorem takeModRm_rm8 {y} {d : RM8} {rest} (h : d.wellFormed = true) :
    ∃ e, takeModRm (encodeRm8 y d ++ rest) = .ok ((y, e), rest) ∧ toRm8 e = d := by
  cases d with
  | reg r =>
    refine ⟨.reg r.code, ?_, by simp [toRm8, RM.map]⟩
    show takeModRm (modRm 3 y r.code :: rest) = _
    unfold takeModRm takeOperand
    simp only [modField_modRm, rmField_modRm, regField_modRm]
    rw [show (3 : BitVec 2).toNat = 3 from rfl]; rfl
  | mem m => exact ⟨.mem m, takeModRm_mem h, rfl⟩
/-- A 16-bit `r/m` operand is parsed back from its bytes. -/
theorem takeModRm_rm16 {y} {d : RM16} {rest} (h : d.wellFormed = true) :
    ∃ e, takeModRm (encodeRm16 y d ++ rest) = .ok ((y, e), rest) ∧ toRm16 e = d := by
  cases d with
  | reg r =>
    refine ⟨.reg r.code, ?_, by simp [toRm16, RM.map]⟩
    show takeModRm (modRm 3 y r.code :: rest) = _
    unfold takeModRm takeOperand
    simp only [modField_modRm, rmField_modRm, regField_modRm]
    rw [show (3 : BitVec 2).toNat = 3 from rfl]; rfl
  | mem m => exact ⟨.mem m, takeModRm_mem h, rfl⟩

theorem mod_cases : ∀ m : BitVec 2, m = 0 ∨ m = 1 ∨ m = 2 ∨ m = 3 := by decide
theorem takeWord_inv {bs v rest} (h : takeWord bs = .ok (v, rest)) : bs = encodeWord v ++ rest := by
  unfold takeWord at h; split at h <;> cases h
  rw [encodeWord_wordOf]; rfl
theorem takeByte_inv {bs v rest} (h : takeByte bs = .ok (v, rest)) : bs = v :: rest := by
  unfold takeByte at h; split at h <;> cases h; rfl

/-- The bytes of an operand whose register is still a number. -/
def encodeOperand (y : BitVec 3) : RM (BitVec 3) → List Byte
  | .reg r => [modRm 3 y r]
  | .mem m => encodeMem y m

/-- What a parsed operand says of the bytes. -/
theorem takeModRm_inv {bs y e rest} (h : takeModRm bs = .ok ((y, e), rest)) :
    bs = encodeOperand y e ++ rest ∧ e.wellFormed = true := by
  unfold takeModRm at h
  split at h
  · cases h
  · next b bs =>
    split at h
    · next d r hd =>
      cases h
      have hb := modRm_of_fields b
      unfold takeOperand at hd
      rcases mod_cases (modField b) with hm | hm | hm | hm <;> rw [hm] at hd hb
      · rw [show (0 : BitVec 2).toNat = 0 from rfl] at hd; simp only at hd
        split at hd
        · next h6 =>
          split at hd <;> cases hd
          next o ho =>
          have h6 : rmField b = 6 := BitVec.eq_of_toNat_eq h6
          rw [h6] at hb
          exact ⟨by rw [takeWord_inv ho]; show _ = modRm 0 (regField b) 6 :: _; rw [hb]; rfl, rfl⟩
        · next h6 =>
          cases hd
          refine ⟨?_, ?_⟩
          · show _ = modRm 0 (regField b) (Base.ofCode (rmField b)).code :: _; rw [Base.code_ofCode, hb]; rfl
          · show (Base.ofCode (rmField b) != Base.bp) = true
            revert h6; generalize rmField b = r; revert r; decide
      · rw [show (1 : BitVec 2).toNat = 1 from rfl] at hd; simp only at hd
        split at hd <;> cases hd
        next o ho =>
        exact ⟨by rw [takeByte_inv ho]; show _ = modRm 1 (regField b) (Base.ofCode (rmField b)).code :: _; rw [Base.code_ofCode, hb]; rfl, rfl⟩
      · rw [show (2 : BitVec 2).toNat = 2 from rfl] at hd; simp only at hd
        split at hd <;> cases hd
        next o ho =>
        exact ⟨by rw [takeWord_inv ho]; show _ = modRm 2 (regField b) (Base.ofCode (rmField b)).code :: _; rw [Base.code_ofCode, hb]; rfl, rfl⟩
      · rw [show (3 : BitVec 2).toNat = 3 from rfl] at hd; simp only at hd
        cases hd
        exact ⟨by show _ = modRm 3 (regField b) (rmField b) :: _; rw [hb]; rfl, rfl⟩
    · cases h
theorem encodeOperand_rm8 (y e) : encodeOperand y e = encodeRm8 y (toRm8 e) := by
  cases e with
  | reg r => show [modRm 3 y r] = [modRm 3 y (Reg8.ofCode r).code]; rw [Reg8.code_ofCode]
  | mem m => rfl
theorem encodeOperand_rm16 (y e) : encodeOperand y e = encodeRm16 y (toRm16 e) := by
  cases e with
  | reg r => show [modRm 3 y r] = [modRm 3 y (Reg16.ofCode r).code]; rw [Reg16.code_ofCode]
  | mem m => rfl
theorem toRm8_wellFormed (e : RM (BitVec 3)) : (toRm8 e).wellFormed = e.wellFormed := by cases e <;> rfl
theorem toRm16_wellFormed (e : RM (BitVec 3)) : (toRm16 e).wellFormed = e.wellFormed := by cases e <;> rfl

end Sys2Proof
end

