-- ==== Sys2Proof/Laws/Ops.lean ====
section
/-! SUPPORT. The shared operations: for each, what it answers under the premises claims use, and what it can do when it
answers a state. -/

namespace Sys2Proof.Machine
open Sys2Proof

variable {s t : State}

/-! ### The monad of an instruction's parts -/

/-- A part that goes on has both its parts going on. -/
theorem bind_ok {α β : Type} {p : Op α} {f : α → Op β} {b : β} (h : p >>= f = .ok b) : ∃ a, p = .ok a ∧ f a = .ok b := by
  cases p with
  | error e => cases h
  | ok a => exact ⟨a, rfl, h⟩

@[simp] theorem ok_bind {α β : Type} (a : α) (f : α → Op β) : ((Except.ok a : Op α) >>= f) = f a := rfl
@[simp] theorem error_bind {α β : Type} (e : Stop) (f : α → Op β) : ((Except.error e : Op α) >>= f) = .error e := rfl
@[simp] theorem pure_eq_ok {α : Type} (a : α) : (pure a : Op α) = .ok a := rfl

@[simp] theorem complete_ok (s t : State) : complete s (.ok t) = .next t := rfl
@[simp] theorem complete_exception (s : State) (v : Byte) : complete s (.error (.exception v)) = raise v s := rfl
@[simp] theorem complete_refuse (s : State) (r : Refusal) : complete s (.error (.refuse r)) = .refused r := rfl

/-- An instruction that answers a next state completed, or took an exception from the state it started in (R232). -/
theorem complete_next {r : Op State} (h : complete s r = .next t) :
    r = .ok t ∨ ∃ v, r = .error (.exception v) ∧ raise v s = .next t := by
  match r, h with
  | .ok u, h => exact .inl (by cases h; rfl)
  | .error (.exception v), h => exact .inr ⟨v, rfl, h⟩
  | .error (.refuse _), h => cases h

/-! ### Bytes and words -/

@[simp] theorem crosses_one (off : Word) : crosses off 1 = false := by
  have := off.isLt
  simp only [crosses, decide_eq_false_iff_not]; omega

/-- A word crosses exactly at offset 65,535 (R43). -/
theorem crosses_two (off : Word) : crosses off 2 = decide (off = 0xFFFF#16) := by
  have := off.isLt
  simp only [crosses, decide_eq_decide]
  constructor
  · intro h; apply BitVec.eq_of_toNat_eq; simp; omega
  · intro h; subst h; decide

theorem crosses_mono {off : Word} {m n : Nat} (h : crosses off n = false) (hmn : m ≤ n) : crosses off m = false := by
  simp only [crosses, decide_eq_false_iff_not] at *; omega

theorem loadByte_present {a : Nat} (h : PresentByte s a) : loadByte s a = .ok (s.mem.read a) := by
  unfold loadByte; unfold PresentByte at h
  split
  · rfl
  · next hn => rw [hn] at h; cases h

theorem RamByte.present {a : Nat} (h : RamByte s a) : PresentByte s a := by
  unfold PresentByte; rw [show memKind s.cfg.memMap a = some .ram from h]; rfl

theorem loadWord_present {a : Nat} (h : PresentByte s a) (h' : PresentByte s (a + 1)) : loadWord s a = .ok (wordAt s a) := by
  simp [loadWord, loadByte_present h, loadByte_present h', wordAt]

theorem checkWritable_ram {a : Nat} (h : RamByte s a) : checkWritable s a = .ok () := by
  unfold checkWritable; rw [show memKind s.cfg.memMap a = some .ram from h]

theorem storeByte_ram {a : Nat} {v : Byte} (h : RamByte s a) : storeByte a v s = .ok (s.setByte a v) := by
  simp [storeByte, checkWritable_ram h]

/-- A store that answers a state stored to RAM. -/
theorem storeByte_ok {a : Nat} {v : Byte} (h : storeByte a v s = .ok t) : t = s.setByte a v ∧ RamByte s a := by
  unfold storeByte checkWritable at h
  split at h
  · next hk =>
    refine ⟨by cases h; rfl, ?_⟩
    unfold RamByte; revert hk; split <;> simp_all
  · cases h

theorem storeWord_ram {a : Nat} {v : Word} (h : RamByte s a) (h' : RamByte s (a + 1)) :
    storeWord a v s = .ok (s.setWord a v) := by
  have h2 : RamByte (s.setByte a (lowByte v)) (a + 1) := h'
  simp [storeWord, storeByte_ram h, storeByte_ram h2, State.setWord]

/-- A word store that answers a state stored both bytes to RAM. -/
theorem storeWord_ok {a : Nat} {v : Word} (h : storeWord a v s = .ok t) :
    t = s.setWord a v ∧ RamByte s a ∧ RamByte s (a + 1) := by
  obtain ⟨u, hu, ht⟩ := bind_ok h
  obtain ⟨rfl, h1⟩ := storeByte_ok hu
  obtain ⟨rfl, h2⟩ := storeByte_ok ht
  exact ⟨rfl, h1, h2⟩

/-! ### What memory holds after a store -/

/-- A stored byte is read back. -/
theorem setByte_read {a : Nat} {v : Byte} (hm : s.mem.Wf) : (s.setByte a v).mem.read a = v := Memory.read_write_same hm a v

/-- One byte stored and nothing else. -/
theorem storedAt_setByte (s : State) (a : Nat) (v : Byte) : StoredAt a 1 s (s.setByte a v) := by
  refine ⟨fun x hx => Memory.read_write_other _ _ (by omega), fun x => ?_⟩
  simp only [State.setByte_dirty, mem_insertAddr]
  constructor
  · rintro (rfl | h)
    · exact .inl ⟨Nat.le_refl _, by omega⟩
    · exact .inr h
  · rintro (h | h)
    · exact .inl (by omega)
    · exact .inr h

theorem setByte_wf {a : Nat} {v : Byte} (hm : s.mem.Wf) : (s.setByte a v).mem.Wf := Memory.write_wf hm a v

theorem setWord_wf {a : Nat} {v : Word} (hm : s.mem.Wf) : (s.setWord a v).mem.Wf := setByte_wf (setByte_wf hm)

/-- A stored word is read back (R46). -/
theorem setWord_wordAt {a : Nat} {v : Word} (hm : s.mem.Wf) : wordAt (s.setWord a v) a = v := by
  have h1 : (s.setWord a v).mem.read a = lowByte v := by
    rw [State.setWord_mem, Memory.read_write_other _ _ (by omega), Memory.read_write_same hm]
  have h2 : (s.setWord a v).mem.read (a + 1) = highByte v := by
    rw [State.setWord_mem, Memory.read_write_same (Memory.write_wf hm _ _)]
  rw [wordAt, h1, h2, wordOf_lowByte_highByte]

/-- A word store leaves every byte outside it alone. -/
theorem setWord_read_other {a x : Nat} (v : Word) (h : x < a ∨ a + 2 ≤ x) : (s.setWord a v).mem.read x = s.mem.read x := by
  rw [State.setWord_mem, Memory.read_write_other _ _ (by omega), Memory.read_write_other _ _ (by omega)]

/-- Two bytes stored and nothing else. -/
theorem storedAt_setWord (s : State) (a : Nat) (v : Word) : StoredAt a 2 s (s.setWord a v) := by
  refine ⟨fun x hx => setWord_read_other v hx, fun x => ?_⟩
  simp only [State.setWord_dirty, mem_insertAddr]
  constructor
  · rintro (rfl | rfl | h)
    · exact .inl (by omega)
    · exact .inl (by omega)
    · exact .inr h
  · rintro (h | h)
    · have : x = a + 1 ∨ x = a := by omega
      rcases this with h | h
      · exact .inl h
      · exact .inr (.inl h)
    · exact .inr (.inr h)

/-! ### Accesses through a segment register -/

theorem checkExtreme_ok {g : Seg} {off : Word} {n : Nat} (h : crosses off n = false) : checkExtreme g off n = .ok () := by
  simp [checkExtreme, h]

theorem checkExtreme_cross {g : Seg} {off : Word} {n : Nat} (h : crosses off n = true) :
    checkExtreme g off n = .error (.exception (crossVector g)) := by simp [checkExtreme, h]

theorem segRead8_present {g : Seg} {off : Word} (h : PresentByte s (s.lin g off)) :
    segRead8 g off s = .ok (s.mem.read (s.lin g off)) := by
  simp [segRead8, checkExtreme_ok, loadByte_present h]

theorem segRead16_present {g : Seg} {off : Word} (hc : crosses off 2 = false) (h : PresentByte s (s.lin g off))
    (h' : PresentByte s (s.lin g off + 1)) : segRead16 g off s = .ok (wordAt s (s.lin g off)) := by
  simp [segRead16, checkExtreme_ok hc, loadWord_present h h']

theorem segReadPair_present {g : Seg} {off : Word} (hc : crosses off 4 = false)
    (h : ∀ k < 4, PresentByte s (s.lin g off + k)) :
    segReadPair g off s = .ok (wordAt s (s.lin g off), wordAt s (s.lin g off + 2)) := by
  have h0 : PresentByte s (s.lin g off) := h 0 (by omega)
  have h1 := h 1 (by omega); have h2 := h 2 (by omega); have h3 := h 3 (by omega)
  simp [segReadPair, checkExtreme_ok hc, loadWord_present h0 h1, loadWord_present h2 h3]

theorem segWrite8_ram {g : Seg} {off : Word} {v : Byte} (h : RamByte s (s.lin g off)) :
    segWrite8 g off v s = .ok (s.setByte (s.lin g off) v) := by
  simp [segWrite8, checkExtreme_ok, storeByte_ram h]

theorem segWrite16_ram {g : Seg} {off : Word} {v : Word} (hc : crosses off 2 = false) (h : RamByte s (s.lin g off))
    (h' : RamByte s (s.lin g off + 1)) : segWrite16 g off v s = .ok (s.setWord (s.lin g off) v) := by
  simp [segWrite16, checkExtreme_ok hc, storeWord_ram h h']

/-- A check that goes on found no crossing. -/
theorem checkExtreme_inv {g : Seg} {off : Word} {n : Nat} {u : Unit} (h : checkExtreme g off n = .ok u) :
    crosses off n = false := by
  unfold checkExtreme at h; split at h
  · cases h
  · next hc => simpa using hc

/-- Words of the stack that do not cross pass their checks. -/
theorem checkStackWords_ok {offs : List Word} (h : ∀ off ∈ offs, crosses off 2 = false) : checkStackWords offs = .ok () := by
  induction offs with
  | nil => rfl
  | cons off offs ih =>
    rw [checkStackWords, checkExtreme_ok (h off List.mem_cons_self)]
    exact ih fun o ho => h o (List.mem_cons_of_mem _ ho)

/-- One word of the stack that crosses raises 12, whichever it is. -/
theorem checkStackWords_cross {offs : List Word} {off : Word} (hm : off ∈ offs) (h : crosses off 2 = true) :
    checkStackWords offs = .error (.exception 12#8) := by
  induction offs with
  | nil => cases hm
  | cons o offs ih =>
    rw [checkStackWords]
    cases hc : crosses o 2 with
    | true => rw [checkExtreme_cross hc]; rfl
    | false =>
      rw [checkExtreme_ok hc]
      rcases List.mem_cons.1 hm with rfl | hm
      · rw [h] at hc; cases hc
      · exact ih hm

/-- A byte write that answers a state changed one byte of memory. -/
theorem segWrite8_ok {g : Seg} {off : Word} {v : Byte} (h : segWrite8 g off v s = .ok t) :
    t = s.setByte (s.lin g off) v ∧ RamByte s (s.lin g off) := by
  obtain ⟨_, -, h⟩ := bind_ok h
  exact storeByte_ok h

/-- A word write that answers a state changed one word of memory. -/
theorem segWrite16_ok {g : Seg} {off : Word} {v : Word} (h : segWrite16 g off v s = .ok t) :
    t = s.setWord (s.lin g off) v ∧ crosses off 2 = false := by
  obtain ⟨_, hc, h⟩ := bind_ok h
  exact ⟨(storeWord_ok h).1, checkExtreme_inv hc⟩

/-! ### The stack -/

/-- The state after one push (R110). -/
def State.pushed (s : State) (v : Word) : State := (s.setWord (s.lin .ss (s.regs.sp - 2#16)) v).setReg16 .sp (s.regs.sp - 2#16)

theorem push16_room {v : Word} (h : PushRoom 2#16 s) : push16 v s = .ok (s.pushed v) := by
  obtain ⟨hc, h0, h1⟩ := h
  simp [push16, segWrite16_ram hc h0 h1, State.pushed]

/-- A push that answers a state is the push of R110. -/
theorem push16_ok {v : Word} (h : push16 v s = .ok t) : t = s.pushed v := by
  obtain ⟨u, hu, ht⟩ := bind_ok h
  obtain ⟨rfl, -⟩ := segWrite16_ok hu
  simpa [State.pushed] using ht.symm

/-- A push whose word crosses offset 0 raises #12 (R43, R110). -/
theorem push16_cross {v : Word} (h : crosses (s.regs.sp - 2#16) 2 = true) : push16 v s = .error (.exception 12#8) := by
  simp [push16, segWrite16, checkExtreme_cross h, crossVector]

/-! ### The LOCK check -/

@[simp] theorem checkLock_legal {b : Bool} (h : s.pfx.lock = true → b = true) : checkLock b s = .ok () := by
  unfold checkLock
  cases hl : s.pfx.lock
  · rfl
  · simp [h hl]

@[simp] theorem checkLock_illegal (h : s.pfx.lock = true) : checkLock false s = .error (.exception 6#8) := by
  simp [checkLock, h]

/-! ### Deliveries -/

/-- A delivery whose entry is within the limit and whose frame fits is the entry (R229). -/
theorem deliver_enter {b : Bool} {v : Byte} {ret start : Word} (h1 : s.beyondLimit v = false) (h2 : s.frameCrosses = false) :
    deliver b v ret start s = enter v ret s := by simp [deliver, h1, h2]

/-- An entry that answers a next state is `enterOp`'s. -/
theorem enter_next {v : Byte} {ret : Word} (h : enter v ret s = .next t) : enterOp v ret s = .ok t := by
  unfold enter at h
  split at h <;> cases h
  assumption

/-- A delivery that answers a next state entered one of three vectors: the one delivered, 8 or 12 (R229). -/
theorem deliver_next {b : Bool} {v : Byte} {ret start : Word} (h : deliver b v ret start s = .next t) :
    enterOp v ret s = .ok t ∨ enterOp 8#8 start s = .ok t ∨ enterOp 12#8 start s = .ok t := by
  have h8 : ∀ {t}, deliverTable start s = .next t → enterOp 8#8 start s = .ok t := by
    intro t h
    unfold deliverTable at h
    split at h
    · cases h
    · split at h
      · cases h
      · exact enter_next h
  unfold deliver at h
  split at h
  · exact .inr (.inl (h8 h))
  · split at h
    · split at h
      · unfold deliverStack at h
        split at h
        · exact .inr (.inl (h8 h))
        · cases h
      · cases h
    · exact .inl (enter_next h)

/-- The state an entry answers (R229). -/
def State.entered (s : State) (v : Byte) (ret : Word) : State :=
  let a := s.idtrBase.toNat + 4 * v.toNat
  let t := s.pushed (flagsImage s.flags)
  let t := (t.setFlags (setFlag .intf false (setFlag .tf false t.flags))).pushed (s.sel .cs)
  ((t.pushed ret).setSel .cs (wordAt s (a + 2))).jump (wordAt s a)

/-- An entry that answers a state answers that one. -/
theorem enterOp_ok {v : Byte} {ret : Word} (h : enterOp v ret s = .ok t) : t = s.entered v ret := by
  obtain ⟨ip, hip, h⟩ := bind_ok h
  obtain ⟨cs, hcs, h⟩ := bind_ok h
  obtain ⟨u, hu, h⟩ := bind_ok h
  obtain ⟨u2, hu2, h⟩ := bind_ok h
  obtain ⟨u3, hu3, h⟩ := bind_ok h
  have hw : ∀ {a w}, loadWord s a = .ok w → w = wordAt s a := by
    intro a w hw
    obtain ⟨lo, hlo, hw⟩ := bind_ok hw
    obtain ⟨hi, hhi, hw⟩ := bind_ok hw
    have hb : ∀ {a b}, loadByte s a = .ok b → b = s.mem.read a := by
      intro a b hb; unfold loadByte at hb; split at hb <;> cases hb; rfl
    rw [wordAt, ← hb hlo, ← hb hhi]
    simpa using hw.symm
  rw [hw hip, hw hcs, push16_ok hu3, push16_ok hu2, push16_ok hu] at h
  simpa [State.entered] using h.symm

end Sys2Proof.Machine
end

