-- ==== Sys2Proof/Laws/Operands.lean ====
section
/-! SUPPORT. The `r/m` operand: what reading and writing it answers, and what a write leaves alone. -/

namespace Sys2Proof.Machine
open Sys2Proof

variable {s t : State}

/-- The state after an 8-bit `r/m` operand takes a value. -/
def State.putRm8 (s : State) (d : RM8) (v : Byte) : State :=
  match d with
  | .reg r => s.setReg8 r v
  | .mem m => s.setByte (operandAddr s m) v

/-- The state after a 16-bit `r/m` operand takes a value. -/
def State.putRm16 (s : State) (d : RM16) (v : Word) : State :=
  match d with
  | .reg r => s.setReg16 r v
  | .mem m => s.setWord (operandAddr s m) v

theorem readRm8_readable {d : RM8} (h : RmReadable d 1 s) : readRm8 d s = .ok (valueRm8 d s) := by
  cases d with
  | reg r => rfl
  | mem m => exact segRead8_present (h.2 0 (by omega))

theorem readRm16_readable {d : RM16} (h : RmReadable d 2 s) : readRm16 d s = .ok (valueRm16 d s) := by
  cases d with
  | reg r => rfl
  | mem m => exact segRead16_present h.1 (h.2 0 (by omega)) (h.2 1 (by omega))

theorem writeRm8_writable {d : RM8} {v : Byte} (h : RmWritable d 1 s) : writeRm8 d v s = .ok (s.putRm8 d v) := by
  cases d with
  | reg r => rfl
  | mem m => exact segWrite8_ram (h.2 0 (by omega))

theorem writeRm16_writable {d : RM16} {v : Word} (h : RmWritable d 2 s) : writeRm16 d v s = .ok (s.putRm16 d v) := by
  cases d with
  | reg r => rfl
  | mem m => exact segWrite16_ram h.1 (h.2 0 (by omega)) (h.2 1 (by omega))

theorem RmWritable.readable {ρ : Type} {d : RM ρ} {n : Nat} (h : RmWritable d n s) : RmReadable d n s := by
  cases d with
  | reg r => trivial
  | mem m => exact ⟨h.1, fun k hk => RamByte.present (h.2 k hk)⟩

/-- An 8-bit write that answers a state put the value. -/
theorem writeRm8_ok {d : RM8} {v : Byte} (h : writeRm8 d v s = .ok t) : t = s.putRm8 d v := by
  cases d with
  | reg r => cases h; rfl
  | mem m => exact (segWrite8_ok h).1

/-- A 16-bit write that answers a state put the value. -/
theorem writeRm16_ok {d : RM16} {v : Word} (h : writeRm16 d v s = .ok t) : t = s.putRm16 d v := by
  cases d with
  | reg r => cases h; rfl
  | mem m => exact (segWrite16_ok h).1

/-- A word operand at offset 65,535 raises 12 through SS and 13 otherwise when read (R43). -/
theorem readRm16_cross {m : Mem} (h : crosses (effectiveOffset s m) 2 = true) :
    readRm16 (.mem m) s = .error (.exception (crossVector (operandSeg s m))) := by
  simp [readRm16, segRead16, checkExtreme_cross h]

/-- The same when written. -/
theorem writeRm16_cross {m : Mem} {v : Word} (h : crosses (effectiveOffset s m) 2 = true) :
    writeRm16 (.mem m) v s = .error (.exception (crossVector (operandSeg s m))) := by
  simp [writeRm16, segWrite16, checkExtreme_cross h]

/-! ### What the put operands hold -/

theorem putRm8_stored (hm : s.mem.Wf) (d : RM8) (v : Byte) : Stored8 d v s (s.putRm8 d v) := by
  cases d with
  | reg r => exact ⟨rfl, fun _ => rfl, rfl⟩
  | mem m => exact ⟨rfl, setByte_read hm, storedAt_setByte _ _ _⟩

theorem putRm16_stored (hm : s.mem.Wf) (d : RM16) (v : Word) : Stored16 d v s (s.putRm16 d v) := by
  cases d with
  | reg r => exact ⟨rfl, fun _ => rfl, rfl⟩
  | mem m => exact ⟨rfl, setWord_wordAt hm, storedAt_setWord _ _ _⟩

/-- `Stored8` looks at registers, memory and written addresses only. -/
theorem Stored8.congr {d : RM8} {v : Byte} {u : State} (h : Stored8 d v s t) (h1 : u.regs = t.regs) (h2 : u.mem = t.mem)
    (h3 : u.dirty = t.dirty) : Stored8 d v s u := by
  cases d <;> simpa only [Stored8, SameMemory, StoredAt, h1, h2, h3] using h

/-- `Stored16` looks at registers, memory and written addresses only. -/
theorem Stored16.congr {d : RM16} {v : Word} {u : State} (h : Stored16 d v s t) (h1 : u.regs = t.regs) (h2 : u.mem = t.mem)
    (h3 : u.dirty = t.dirty) : Stored16 d v s u := by
  cases d <;> simpa only [Stored16, SameMemory, StoredAt, wordAt, h1, h2, h3] using h

/-- Two states that agree on what `SameSystem` names and on what the end of an instruction reads. -/
structure Beside (s t : State) : Prop where
  ip : t.ip = s.ip
  pfx : t.pfx = s.pfx
  segs : t.segs = s.segs
  system : SameSystem s t

theorem SameSystem.refl (s : State) : SameSystem s s :=
  ⟨rfl, rfl, rfl, rfl, rfl, rfl, rfl, rfl, rfl, rfl, rfl, rfl, rfl⟩

theorem Beside.refl (s : State) : Beside s s := ⟨rfl, rfl, rfl, SameSystem.refl s⟩

theorem beside_setFlags (s : State) (v : Word) : Beside s (s.setFlags v) :=
  ⟨rfl, rfl, rfl, ⟨rfl, rfl, rfl, rfl, rfl, rfl, rfl, rfl, rfl, rfl, rfl, rfl, rfl⟩⟩
theorem beside_setReg16 (s : State) (r : Reg16) (v : Word) : Beside s (s.setReg16 r v) :=
  ⟨rfl, rfl, rfl, ⟨rfl, rfl, rfl, rfl, rfl, rfl, rfl, rfl, rfl, rfl, rfl, rfl, rfl⟩⟩
theorem beside_setReg8 (s : State) (r : Reg8) (v : Byte) : Beside s (s.setReg8 r v) :=
  ⟨rfl, rfl, rfl, ⟨rfl, rfl, rfl, rfl, rfl, rfl, rfl, rfl, rfl, rfl, rfl, rfl, rfl⟩⟩
theorem beside_setByte (s : State) (a : Nat) (v : Byte) : Beside s (s.setByte a v) :=
  ⟨rfl, rfl, rfl, ⟨rfl, rfl, rfl, rfl, rfl, rfl, rfl, rfl, rfl, rfl, rfl, rfl, rfl⟩⟩
theorem beside_setWord (s : State) (a : Nat) (v : Word) : Beside s (s.setWord a v) :=
  ⟨rfl, rfl, rfl, ⟨rfl, rfl, rfl, rfl, rfl, rfl, rfl, rfl, rfl, rfl, rfl, rfl, rfl⟩⟩
theorem beside_pushed (s : State) (v : Word) : Beside s (s.pushed v) :=
  ⟨rfl, rfl, rfl, ⟨rfl, rfl, rfl, rfl, rfl, rfl, rfl, rfl, rfl, rfl, rfl, rfl, rfl⟩⟩

theorem SameSystem.trans {u : State} (h : SameSystem s t) (k : SameSystem t u) : SameSystem s u :=
  ⟨k.1.trans h.1, k.2.trans h.2, k.3.trans h.3, k.4.trans h.4, k.5.trans h.5, k.6.trans h.6, k.7.trans h.7, k.8.trans h.8,
    k.9.trans h.9, k.10.trans h.10, k.11.trans h.11, k.12.trans h.12, k.13.trans h.13⟩

theorem Beside.trans {u : State} (h : Beside s t) (k : Beside t u) : Beside s u :=
  ⟨k.1.trans h.1, k.2.trans h.2, k.3.trans h.3, h.4.trans k.4⟩

theorem beside_putRm8 (s : State) (d : RM8) (v : Byte) : Beside s (s.putRm8 d v) := by
  cases d
  · exact beside_setReg8 _ _ _
  · exact beside_setByte _ _ _

theorem beside_putRm16 (s : State) (d : RM16) (v : Word) : Beside s (s.putRm16 d v) := by
  cases d
  · exact beside_setReg16 _ _ _
  · exact beside_setWord _ _ _

/-- The end of an instruction (R13, R45). -/
theorem retired_retire (h : Beside s t) (l : Bool) (n : Nat) : Retired l n s (t.retire l n) := by
  refine ⟨?_, ?_, rfl, rfl, h.segs, h.system.trans ⟨rfl, rfl, rfl, rfl, rfl, rfl, rfl, rfl, rfl, rfl, rfl, rfl, rfl⟩⟩
  · rw [State.retire_ip, State.nextIp, h.ip, h.pfx]
  · rw [State.retire_pastEnd, h.ip, h.pfx]

/-- The end of a control transfer (R53). -/
theorem jumped_jump (h : Beside s t) (cs ip : Word) : Jumped cs ip s ((t.setSel .cs cs).jump ip) := by
  refine ⟨rfl, ?_, rfl, rfl, rfl, rfl, h.system.trans ⟨rfl, rfl, rfl, rfl, rfl, rfl, rfl, rfl, rfl, rfl, rfl, rfl, rfl⟩⟩
  rw [State.jump_segs, State.setSel_segs, h.segs]

end Sys2Proof.Machine
end

