-- ==== Sys2Proof/Laws/Shapes.lean ====
section
/-! SUPPORT. The shapes the meanings are made of: for each, the next state it answers under the premises claims use
(`_next`), and everything it can do when it answers one (`_inv`). -/

namespace Sys2Proof.Machine
open Sys2Proof

variable {s t : State}

/-- An exception was taken from `s` (R232). -/
def Raised (s t : State) : Prop := ∃ v, raise v s = .next t

/-- What `complete` can answer, with the part's success opened. -/
theorem complete_inv {r : Op State} (h : complete s r = .next t) : r = .ok t ∨ Raised s t := by
  rcases complete_next h with h | ⟨v, -, h⟩
  · exact .inl h
  · exact .inr ⟨v, h⟩

/-- A delivery that answers a next state is an entry of some vector with some saved IP (R229). -/
theorem deliver_inv {b : Bool} {v : Byte} {ret start : Word} (h : deliver b v ret start s = .next t) :
    ∃ v' ret', t = s.entered v' ret' := by
  rcases deliver_next h with h | h | h <;> exact ⟨_, _, enterOp_ok h⟩

theorem Raised.entered (h : Raised s t) : ∃ v ret, t = s.entered v ret := by
  obtain ⟨v, h⟩ := h
  exact deliver_inv h

theorem lockLegal_check {ρ : Type} {d : RM ρ} (h : LockLegal d s) : checkLock d.isMem s = .ok () := checkLock_legal h

theorem noLock_check (b : Bool) (h : s.pfx.lock = false) : checkLock b s = .ok () :=
  checkLock_legal fun h' => by rw [h] at h'; cases h'

/-! ### Read, modify, write -/

theorem modifyRm8_next {d : RM8} {f : Byte → Word → Word → Byte × Word} {n : Nat} (hw : RmWritable d 1 s)
    (hl : LockLegal d s) :
    modifyRm8 d f n s = .next (((s.putRm8 d (f (valueRm8 d s) s.flags s.freeFlags).1).setFlags
      (f (valueRm8 d s) s.flags s.freeFlags).2).retire s.pfx.lock n) := by
  simp [modifyRm8, lockLegal_check hl, readRm8_readable hw.readable, writeRm8_writable hw]

theorem modifyRm16_next {d : RM16} {f : Word → Word → Word → Word × Word} {n : Nat} (hw : RmWritable d 2 s)
    (hl : LockLegal d s) :
    modifyRm16 d f n s = .next (((s.putRm16 d (f (valueRm16 d s) s.flags s.freeFlags).1).setFlags
      (f (valueRm16 d s) s.flags s.freeFlags).2).retire s.pfx.lock n) := by
  simp [modifyRm16, lockLegal_check hl, readRm16_readable hw.readable, writeRm16_writable hw]

theorem modifyRm8_inv {d : RM8} {f : Byte → Word → Word → Byte × Word} {n : Nat} (h : modifyRm8 d f n s = .next t) :
    (∃ a, t = ((s.putRm8 d (f a s.flags s.freeFlags).1).setFlags (f a s.flags s.freeFlags).2).retire s.pfx.lock n) ∨
      Raised s t := by
  rcases complete_inv h with h | h
  · obtain ⟨_, -, h⟩ := bind_ok h
    obtain ⟨a, -, h⟩ := bind_ok h
    obtain ⟨u, hu, h⟩ := bind_ok h
    cases h
    exact .inl ⟨a, by rw [writeRm8_ok hu]⟩
  · exact .inr h

theorem modifyRm16_inv {d : RM16} {f : Word → Word → Word → Word × Word} {n : Nat} (h : modifyRm16 d f n s = .next t) :
    (∃ a, t = ((s.putRm16 d (f a s.flags s.freeFlags).1).setFlags (f a s.flags s.freeFlags).2).retire s.pfx.lock n) ∨
      Raised s t := by
  rcases complete_inv h with h | h
  · obtain ⟨_, -, h⟩ := bind_ok h
    obtain ⟨a, -, h⟩ := bind_ok h
    obtain ⟨u, hu, h⟩ := bind_ok h
    cases h
    exact .inl ⟨a, by rw [writeRm16_ok hu]⟩
  · exact .inr h

theorem combineReg8_next {r : Reg8} {d : RM8} {f : Byte → Byte → Word → Word → Byte × Word} {n : Nat}
    (hr : RmReadable d 1 s) (hl : s.pfx.lock = false) :
    combineReg8 r d f n s = .next (((s.setReg8 r (f (s.reg8 r) (valueRm8 d s) s.flags s.freeFlags).1).setFlags
      (f (s.reg8 r) (valueRm8 d s) s.flags s.freeFlags).2).retire false n) := by
  simp [combineReg8, noLock_check _ hl, readRm8_readable hr]

theorem combineReg16_next {r : Reg16} {d : RM16} {f : Word → Word → Word → Word → Word × Word} {n : Nat}
    (hr : RmReadable d 2 s) (hl : s.pfx.lock = false) :
    combineReg16 r d f n s = .next (((s.setReg16 r (f (s.reg16 r) (valueRm16 d s) s.flags s.freeFlags).1).setFlags
      (f (s.reg16 r) (valueRm16 d s) s.flags s.freeFlags).2).retire false n) := by
  simp [combineReg16, noLock_check _ hl, readRm16_readable hr]

theorem combineReg8_inv {r : Reg8} {d : RM8} {f : Byte → Byte → Word → Word → Byte × Word} {n : Nat}
    (h : combineReg8 r d f n s = .next t) :
    (∃ b, t = ((s.setReg8 r (f (s.reg8 r) b s.flags s.freeFlags).1).setFlags
      (f (s.reg8 r) b s.flags s.freeFlags).2).retire false n) ∨ Raised s t := by
  rcases complete_inv h with h | h
  · obtain ⟨_, -, h⟩ := bind_ok h
    obtain ⟨b, -, h⟩ := bind_ok h
    cases h
    exact .inl ⟨b, rfl⟩
  · exact .inr h

theorem combineReg16_inv {r : Reg16} {d : RM16} {f : Word → Word → Word → Word → Word × Word} {n : Nat}
    (h : combineReg16 r d f n s = .next t) :
    (∃ b, t = ((s.setReg16 r (f (s.reg16 r) b s.flags s.freeFlags).1).setFlags
      (f (s.reg16 r) b s.flags s.freeFlags).2).retire false n) ∨ Raised s t := by
  rcases complete_inv h with h | h
  · obtain ⟨_, -, h⟩ := bind_ok h
    obtain ⟨b, -, h⟩ := bind_ok h
    cases h
    exact .inl ⟨b, rfl⟩
  · exact .inr h

/-! ### Divides -/

theorem divideByte_next {f : Word → Byte → Option (Byte × Byte)} {d : RM8} {q r : Byte} (hr : RmReadable d 1 s)
    (hl : s.pfx.lock = false) (hf : f s.regs.ax (valueRm8 d s) = some (q, r)) :
    divideByte f d s = .next (((s.setReg16 .ax (wordOf q r)).setFlags (drawArith s.freeFlags s.flags)).retire false (1 + d.size)) := by
  simp [divideByte, noLock_check _ hl, readRm8_readable hr, hf]

theorem divideByte_error {f : Word → Byte → Option (Byte × Byte)} {d : RM8} (hr : RmReadable d 1 s)
    (hl : s.pfx.lock = false) (hf : f s.regs.ax (valueRm8 d s) = none) : divideByte f d s = raise 0#8 s := by
  simp [divideByte, noLock_check _ hl, readRm8_readable hr, hf]

theorem divideWord_next {f : Dword → Word → Option (Word × Word)} {d : RM16} {q r : Word} (hr : RmReadable d 2 s)
    (hl : s.pfx.lock = false) (hf : f (s.regs.dx ++ s.regs.ax) (valueRm16 d s) = some (q, r)) :
    divideWord f d s =
      .next ((((s.setReg16 .ax q).setReg16 .dx r).setFlags (drawArith s.freeFlags s.flags)).retire false (1 + d.size)) := by
  simp [divideWord, noLock_check _ hl, readRm16_readable hr, hf]

theorem divideWord_error {f : Dword → Word → Option (Word × Word)} {d : RM16} (hr : RmReadable d 2 s)
    (hl : s.pfx.lock = false) (hf : f (s.regs.dx ++ s.regs.ax) (valueRm16 d s) = none) : divideWord f d s = raise 0#8 s := by
  simp [divideWord, noLock_check _ hl, readRm16_readable hr, hf]

theorem divideByte_inv {f : Word → Byte → Option (Byte × Byte)} {d : RM8} (h : divideByte f d s = .next t) :
    (∃ v, t = ((s.setReg16 .ax v).setFlags (drawArith s.freeFlags s.flags)).retire false (1 + d.size)) ∨ Raised s t := by
  rcases complete_inv h with h | h
  · obtain ⟨_, -, h⟩ := bind_ok h
    obtain ⟨v, -, h⟩ := bind_ok h
    split at h <;> cases h
    exact .inl ⟨_, rfl⟩
  · exact .inr h

theorem divideWord_inv {f : Dword → Word → Option (Word × Word)} {d : RM16} (h : divideWord f d s = .next t) :
    (∃ q r, t = (((s.setReg16 .ax q).setReg16 .dx r).setFlags (drawArith s.freeFlags s.flags)).retire false (1 + d.size)) ∨
      Raised s t := by
  rcases complete_inv h with h | h
  · obtain ⟨_, -, h⟩ := bind_ok h
    obtain ⟨v, -, h⟩ := bind_ok h
    split at h <;> cases h
    exact .inl ⟨_, _, rfl⟩
  · exact .inr h

/-! ### Pushes and moves -/

theorem pushValue_next {v : Word} {n : Nat} (hp : PushRoom 2#16 s) (hl : s.pfx.lock = false) :
    pushValue v n s = .next ((s.pushed v).retire false n) := by simp [pushValue, noLock_check _ hl, push16_room hp]

theorem pushOperand_next {d : RM16} {n : Nat} (hr : RmReadable d 2 s) (hp : PushRoom 2#16 s) (hl : s.pfx.lock = false) :
    pushOperand d n s = .next ((s.pushed (valueRm16 d s)).retire false n) := by
  simp [pushOperand, noLock_check _ hl, push16_room hp, readRm16_readable hr]

theorem pushValue_inv {v : Word} {n : Nat} (h : pushValue v n s = .next t) :
    t = (s.pushed v).retire false n ∨ Raised s t := by
  rcases complete_inv h with h | h
  · obtain ⟨_, -, h⟩ := bind_ok h
    obtain ⟨u, hu, h⟩ := bind_ok h
    cases h
    exact .inl (by rw [push16_ok hu])
  · exact .inr h

theorem pushOperand_inv {d : RM16} {n : Nat} (h : pushOperand d n s = .next t) :
    (∃ v, t = (s.pushed v).retire false n) ∨ Raised s t := by
  rcases complete_inv h with h | h
  · obtain ⟨_, -, h⟩ := bind_ok h
    obtain ⟨v, -, h⟩ := bind_ok h
    obtain ⟨u, hu, h⟩ := bind_ok h
    cases h
    exact .inl ⟨v, by rw [push16_ok hu]⟩
  · exact .inr h

theorem storeRm8_next {d : RM8} {v : Byte} {n : Nat} (hw : RmWritable d 1 s) (hl : s.pfx.lock = false) :
    storeRm8 d v n s = .next ((s.putRm8 d v).retire false n) := by
  simp [storeRm8, noLock_check _ hl, writeRm8_writable hw]

theorem storeRm16_next {d : RM16} {v : Word} {n : Nat} (hw : RmWritable d 2 s) (hl : s.pfx.lock = false) :
    storeRm16 d v n s = .next ((s.putRm16 d v).retire false n) := by
  simp [storeRm16, noLock_check _ hl, writeRm16_writable hw]

theorem storeRm8_inv {d : RM8} {v : Byte} {n : Nat} (h : storeRm8 d v n s = .next t) :
    t = (s.putRm8 d v).retire false n ∨ Raised s t := by
  rcases complete_inv h with h | h
  · obtain ⟨_, -, h⟩ := bind_ok h
    obtain ⟨u, hu, h⟩ := bind_ok h
    cases h
    exact .inl (by rw [writeRm8_ok hu])
  · exact .inr h

theorem storeRm16_inv {d : RM16} {v : Word} {n : Nat} (h : storeRm16 d v n s = .next t) :
    t = (s.putRm16 d v).retire false n ∨ Raised s t := by
  rcases complete_inv h with h | h
  · obtain ⟨_, -, h⟩ := bind_ok h
    obtain ⟨u, hu, h⟩ := bind_ok h
    cases h
    exact .inl (by rw [writeRm16_ok hu])
  · exact .inr h

theorem loadReg8_next {r : Reg8} {d : RM8} {n : Nat} (hr : RmReadable d 1 s) (hl : s.pfx.lock = false) :
    loadReg8 r d n s = .next ((s.setReg8 r (valueRm8 d s)).retire false n) := by
  simp [loadReg8, noLock_check _ hl, readRm8_readable hr]

theorem loadReg16_next {r : Reg16} {d : RM16} {n : Nat} (hr : RmReadable d 2 s) (hl : s.pfx.lock = false) :
    loadReg16 r d n s = .next ((s.setReg16 r (valueRm16 d s)).retire false n) := by
  simp [loadReg16, noLock_check _ hl, readRm16_readable hr]

theorem loadReg8_inv {r : Reg8} {d : RM8} {n : Nat} (h : loadReg8 r d n s = .next t) :
    (∃ v, t = (s.setReg8 r v).retire false n) ∨ Raised s t := by
  rcases complete_inv h with h | h
  · obtain ⟨_, -, h⟩ := bind_ok h
    obtain ⟨v, -, h⟩ := bind_ok h
    cases h
    exact .inl ⟨v, rfl⟩
  · exact .inr h

theorem loadReg16_inv {r : Reg16} {d : RM16} {n : Nat} (h : loadReg16 r d n s = .next t) :
    (∃ v, t = (s.setReg16 r v).retire false n) ∨ Raised s t := by
  rcases complete_inv h with h | h
  · obtain ⟨_, -, h⟩ := bind_ok h
    obtain ⟨v, -, h⟩ := bind_ok h
    cases h
    exact .inl ⟨v, rfl⟩
  · exact .inr h

theorem loadSeg_next {g : Seg} {d : RM16} {n : Nat} (hg : g ≠ .cs) (hr : RmReadable d 2 s) (hl : s.pfx.lock = false) :
    loadSeg g d n s =
      .next { (s.setSel g (valueRm16 d s)).retire false n with ssShadow := s.ssShadow || g == .ss } := by
  simp [loadSeg, noLock_check _ hl, readRm16_readable hr, hg]

theorem loadSeg_inv {g : Seg} {d : RM16} {n : Nat} (h : loadSeg g d n s = .next t) :
    (∃ v, t = { (s.setSel g v).retire false n with ssShadow := s.ssShadow || g == .ss }) ∨ Raised s t := by
  rcases complete_inv h with h | h
  · obtain ⟨_, -, h⟩ := bind_ok h
    split at h
    · cases h
    · obtain ⟨v, -, h⟩ := bind_ok h
      cases h
      exact .inl ⟨v, rfl⟩
  · exact .inr h

theorem exchange8_next {d : RM8} {r : Reg8} {n : Nat} (hw : RmWritable d 1 s) (hl : LockLegal d s) :
    exchange8 d r n s = .next (((s.putRm8 d (s.reg8 r)).setReg8 r (valueRm8 d s)).retire d.isMem n) := by
  simp [exchange8, lockLegal_check hl, readRm8_readable hw.readable, writeRm8_writable hw]

theorem exchange16_next {d : RM16} {r : Reg16} {n : Nat} (hw : RmWritable d 2 s) (hl : LockLegal d s) :
    exchange16 d r n s = .next (((s.putRm16 d (s.reg16 r)).setReg16 r (valueRm16 d s)).retire d.isMem n) := by
  simp [exchange16, lockLegal_check hl, readRm16_readable hw.readable, writeRm16_writable hw]

theorem exchange8_inv {d : RM8} {r : Reg8} {n : Nat} (h : exchange8 d r n s = .next t) :
    (∃ v, t = ((s.putRm8 d (s.reg8 r)).setReg8 r v).retire d.isMem n) ∨ Raised s t := by
  rcases complete_inv h with h | h
  · obtain ⟨_, -, h⟩ := bind_ok h
    obtain ⟨v, -, h⟩ := bind_ok h
    obtain ⟨u, hu, h⟩ := bind_ok h
    cases h
    exact .inl ⟨v, by rw [writeRm8_ok hu]⟩
  · exact .inr h

theorem exchange16_inv {d : RM16} {r : Reg16} {n : Nat} (h : exchange16 d r n s = .next t) :
    (∃ v, t = ((s.putRm16 d (s.reg16 r)).setReg16 r v).retire d.isMem n) ∨ Raised s t := by
  rcases complete_inv h with h | h
  · obtain ⟨_, -, h⟩ := bind_ok h
    obtain ⟨v, -, h⟩ := bind_ok h
    obtain ⟨u, hu, h⟩ := bind_ok h
    cases h
    exact .inl ⟨v, by rw [writeRm16_ok hu]⟩
  · exact .inr h

/-! ### Shifts -/

/-- Only the list of written addresses can differ, and it stays rising. -/
def Rewritten (s t : State) : Prop := ∃ l, t = { s with dirty := l } ∧ (DirtyWf s.dirty → DirtyWf l)

theorem touchBytes_ram {as : List Nat} (h : ∀ a ∈ as, RamByte s a) : ∃ t, touchBytes as s = .ok t ∧ Rewritten s t := by
  induction as generalizing s with
  | nil => exact ⟨s, rfl, s.dirty, rfl, id⟩
  | cons a as ih =>
    obtain ⟨t, ht, l, rfl, hl⟩ := ih (s := { s with dirty := insertAddr s.dirty a }) fun b hb => h b (by simp [hb])
    exact ⟨_, by simp [touchBytes, checkWritable_ram (h a (by simp)), ht], l, rfl, fun hd => hl (insertAddr_rising hd a)⟩

theorem touchBytes_ok {as : List Nat} (h : touchBytes as s = .ok t) : Rewritten s t := by
  induction as generalizing s with
  | nil => cases h; exact ⟨_, rfl, id⟩
  | cons a as ih =>
    obtain ⟨_, -, h⟩ := bind_ok h
    obtain ⟨l, rfl, hl⟩ := ih h
    exact ⟨l, rfl, fun hd => hl (insertAddr_rising hd a)⟩

theorem rewriteBytes_ok {as : List Nat} (h : rewriteBytes as s = .ok t) : Rewritten s t := by
  unfold rewriteBytes at h
  split at h
  · next u hu =>
    obtain ⟨l, rfl, hl⟩ := touchBytes_ok hu
    cases h
    refine ⟨_, rfl, fun hd => ?_⟩
    split
    · exact hl hd
    · exact hd
  · split at h <;> cases h
    exact ⟨s.dirty, rfl, id⟩

theorem rewriteBytes_ram {as : List Nat} (h : ∀ a ∈ as, RamByte s a) : ∃ t, rewriteBytes as s = .ok t ∧ Rewritten s t := by
  obtain ⟨t, ht, -⟩ := touchBytes_ram h
  have : ∃ u, rewriteBytes as s = .ok u := by simp [rewriteBytes, ht]
  obtain ⟨u, hu⟩ := this
  exact ⟨u, hu, rewriteBytes_ok hu⟩

theorem rewriteRm8_ok {d : RM8} (h : rewriteRm8 d s = .ok t) : Rewritten s t := by
  cases d with
  | reg r => cases h; exact ⟨s.dirty, rfl, id⟩
  | mem m => exact rewriteBytes_ok h

theorem rewriteRm16_ok {d : RM16} (h : rewriteRm16 d s = .ok t) : Rewritten s t := by
  cases d with
  | reg r => cases h; exact ⟨s.dirty, rfl, id⟩
  | mem m => exact rewriteBytes_ok h

theorem rewriteRm8_writable {d : RM8} (h : RmWritable d 1 s) : ∃ t, rewriteRm8 d s = .ok t ∧ Rewritten s t := by
  cases d with
  | reg r => exact ⟨s, rfl, s.dirty, rfl, id⟩
  | mem m => exact rewriteBytes_ram (by simpa using h.2 0 (by omega))

theorem rewriteRm16_writable {d : RM16} (h : RmWritable d 2 s) : ∃ t, rewriteRm16 d s = .ok t ∧ Rewritten s t := by
  cases d with
  | reg r => exact ⟨s, rfl, s.dirty, rfl, id⟩
  | mem m =>
    refine rewriteBytes_ram fun a ha => ?_
    rcases List.mem_cons.1 ha with rfl | ha
    · exact h.2 0 (by omega)
    · rw [List.mem_singleton.1 ha]; exact h.2 1 (by omega)

theorem shiftRm8_next {f : Byte → Nat → Word → Word → Byte × Word} {d : RM8} {count : Byte} {n : Nat}
    (hw : RmWritable d 1 s) (hl : s.pfx.lock = false) (hc : maskedCount count ≠ 0) :
    shiftRm8 f d count n s =
      .next (((s.putRm8 d (f (valueRm8 d s) (maskedCount count) s.flags s.freeFlags).1).setFlags
        (f (valueRm8 d s) (maskedCount count) s.flags s.freeFlags).2).retire false n) := by
  simp [shiftRm8, noLock_check _ hl, readRm8_readable hw.readable, writeRm8_writable hw, hc]

theorem shiftRm16_next {f : Word → Nat → Word → Word → Word × Word} {d : RM16} {count : Byte} {n : Nat}
    (hw : RmWritable d 2 s) (hl : s.pfx.lock = false) (hc : maskedCount count ≠ 0) :
    shiftRm16 f d count n s =
      .next (((s.putRm16 d (f (valueRm16 d s) (maskedCount count) s.flags s.freeFlags).1).setFlags
        (f (valueRm16 d s) (maskedCount count) s.flags s.freeFlags).2).retire false n) := by
  simp [shiftRm16, noLock_check _ hl, readRm16_readable hw.readable, writeRm16_writable hw, hc]

theorem shiftRm8_zero {f : Byte → Nat → Word → Word → Byte × Word} {d : RM8} {count : Byte} {n : Nat}
    (hw : RmWritable d 1 s) (hl : s.pfx.lock = false) (hc : maskedCount count = 0) :
    ∃ t, shiftRm8 f d count n s = .next (t.retire false n) ∧ Rewritten s t := by
  obtain ⟨t, ht, h⟩ := rewriteRm8_writable hw
  exact ⟨t, by simp [shiftRm8, noLock_check _ hl, readRm8_readable hw.readable, hc, ht], h⟩

theorem shiftRm16_zero {f : Word → Nat → Word → Word → Word × Word} {d : RM16} {count : Byte} {n : Nat}
    (hw : RmWritable d 2 s) (hl : s.pfx.lock = false) (hc : maskedCount count = 0) :
    ∃ t, shiftRm16 f d count n s = .next (t.retire false n) ∧ Rewritten s t := by
  obtain ⟨t, ht, h⟩ := rewriteRm16_writable hw
  exact ⟨t, by simp [shiftRm16, noLock_check _ hl, readRm16_readable hw.readable, hc, ht], h⟩

theorem shiftRm8_inv {f : Byte → Nat → Word → Word → Byte × Word} {d : RM8} {count : Byte} {n : Nat}
    (h : shiftRm8 f d count n s = .next t) :
    (∃ u, Rewritten s u ∧ t = u.retire false n) ∨
      (∃ v, t = ((s.putRm8 d (f v (maskedCount count) s.flags s.freeFlags).1).setFlags
        (f v (maskedCount count) s.flags s.freeFlags).2).retire false n) ∨ Raised s t := by
  rcases complete_inv h with h | h
  · obtain ⟨_, -, h⟩ := bind_ok h
    obtain ⟨v, -, h⟩ := bind_ok h
    split at h
    · obtain ⟨u, hu, h⟩ := bind_ok h
      cases h
      exact .inl ⟨u, rewriteRm8_ok hu, rfl⟩
    · obtain ⟨u, hu, h⟩ := bind_ok h
      cases h
      exact .inr (.inl ⟨v, by rw [writeRm8_ok hu]⟩)
  · exact .inr (.inr h)

theorem shiftRm16_inv {f : Word → Nat → Word → Word → Word × Word} {d : RM16} {count : Byte} {n : Nat}
    (h : shiftRm16 f d count n s = .next t) :
    (∃ u, Rewritten s u ∧ t = u.retire false n) ∨
      (∃ v, t = ((s.putRm16 d (f v (maskedCount count) s.flags s.freeFlags).1).setFlags
        (f v (maskedCount count) s.flags s.freeFlags).2).retire false n) ∨ Raised s t := by
  rcases complete_inv h with h | h
  · obtain ⟨_, -, h⟩ := bind_ok h
    obtain ⟨v, -, h⟩ := bind_ok h
    split at h
    · obtain ⟨u, hu, h⟩ := bind_ok h
      cases h
      exact .inl ⟨u, rewriteRm16_ok hu, rfl⟩
    · obtain ⟨u, hu, h⟩ := bind_ok h
      cases h
      exact .inr (.inl ⟨v, by rw [writeRm16_ok hu]⟩)
  · exact .inr (.inr h)

/-! ### Bit tests -/

theorem bitTestAt_ok {f : Word → Nat → Word} {g : Seg} {off : Word} {n len : Nat} (h : bitTestAt f g off n len s = .ok t) :
    ∃ v, t = ((s.setWord (s.lin g off) (f v n)).setFlags (bitFlags (v.getLsbD n) s.flags s.freeFlags)).retire s.pfx.lock len := by
  obtain ⟨v, -, h⟩ := bind_ok h
  obtain ⟨u, hu, h⟩ := bind_ok h
  cases h
  exact ⟨v, by rw [(segWrite16_ok hu).1]⟩

theorem bitTestAt_ram {f : Word → Nat → Word} {g : Seg} {off : Word} {n len : Nat} (hc : crosses off 2 = false)
    (h : RamByte s (s.lin g off)) (h' : RamByte s (s.lin g off + 1)) :
    bitTestAt f g off n len s =
      .ok (((s.setWord (s.lin g off) (f (wordAt s (s.lin g off)) n)).setFlags
        (bitFlags ((wordAt s (s.lin g off)).getLsbD n) s.flags s.freeFlags)).retire s.pfx.lock len) := by
  simp [bitTestAt, segRead16_present hc (RamByte.present h) (RamByte.present h'), segWrite16_ram hc h h']

/-- The two shapes of a bit test's next state: a register changed, or a word of memory (R155). -/
theorem bitTest_inv {f : Word → Nat → Word} {d : RM16} {n len : Nat} {off : Mem → Word}
    (h : complete s (do
      checkLock d.isMem s
      match d with
      | .reg r => return bitTestIn f r n len s
      | .mem m => bitTestAt f (operandSeg s m) (off m) n len s) = .next t) :
    (∃ r, t = bitTestIn f r n len s) ∨
      (∃ a v fl, t = ((s.setWord a v).setFlags (bitFlags fl s.flags s.freeFlags)).retire s.pfx.lock len) ∨ Raised s t := by
  rcases complete_inv h with h | h
  · obtain ⟨_, -, h⟩ := bind_ok h
    cases d with
    | reg r => cases h; exact .inl ⟨r, rfl⟩
    | mem m =>
      obtain ⟨v, h⟩ := bitTestAt_ok h
      exact .inr (.inl ⟨_, _, _, h⟩)
  · exact .inr (.inr h)

/-! ### Control transfers and the system instructions -/

theorem callNear_next {target : Word} {n : Nat} (hp : PushRoom 2#16 s) (hl : s.pfx.lock = false) :
    callNear target n s = .next ((s.pushed (s.nextIp n)).jump target) := by
  simp [callNear, noLock_check _ hl, push16_room hp]

theorem callNear_inv {target : Word} {n : Nat} (h : callNear target n s = .next t) :
    t = (s.pushed (s.nextIp n)).jump target ∨ Raised s t := by
  rcases complete_inv h with h | h
  · obtain ⟨_, -, h⟩ := bind_ok h
    obtain ⟨u, hu, h⟩ := bind_ok h
    cases h
    exact .inl (by rw [push16_ok hu])
  · exact .inr h

theorem callNearIndirect_next {d : RM16} {n : Nat} (hr : RmReadable d 2 s) (hp : PushRoom 2#16 s) (hl : s.pfx.lock = false) :
    callNearIndirect d n s = .next ((s.pushed (s.nextIp n)).jump (valueRm16 d s)) := by
  simp [callNearIndirect, noLock_check _ hl, push16_room hp, readRm16_readable hr]

theorem callNearIndirect_inv {d : RM16} {n : Nat} (h : callNearIndirect d n s = .next t) :
    (∃ target, t = (s.pushed (s.nextIp n)).jump target) ∨ Raised s t := by
  rcases complete_inv h with h | h
  · obtain ⟨_, -, h⟩ := bind_ok h
    obtain ⟨target, -, h⟩ := bind_ok h
    obtain ⟨u, hu, h⟩ := bind_ok h
    cases h
    exact .inl ⟨target, by rw [push16_ok hu]⟩
  · exact .inr h

/-- The state after a far CALL (R185). -/
def State.calledFar (s : State) (off sel : Word) (n : Nat) : State :=
  (((s.pushed (s.sel .cs)).pushed (s.nextIp n)).setSel .cs sel).jump off

theorem callFarOp_ok {off sel : Word} {n : Nat} (h : callFarOp off sel n s = .ok t) : t = s.calledFar off sel n := by
  obtain ⟨_, -, h⟩ := bind_ok h
  obtain ⟨u, hu, h⟩ := bind_ok h
  obtain ⟨u2, hu2, h⟩ := bind_ok h
  cases h
  rw [push16_ok hu2, push16_ok hu]; rfl

theorem callFar_inv {off sel : Word} {n : Nat} (h : callFar off sel n s = .next t) :
    t = s.calledFar off sel n ∨ Raised s t := by
  rcases complete_inv h with h | h
  · obtain ⟨_, -, h⟩ := bind_ok h
    exact .inl (callFarOp_ok h)
  · exact .inr h

theorem callFarIndirect_inv {m : Mem} {n : Nat} (h : callFarIndirect m n s = .next t) :
    (∃ off sel, t = s.calledFar off sel n) ∨ Raised s t := by
  rcases complete_inv h with h | h
  · obtain ⟨_, -, h⟩ := bind_ok h
    obtain ⟨p, -, h⟩ := bind_ok h
    exact .inl ⟨_, _, callFarOp_ok h⟩
  · exact .inr h

theorem softwareInterrupt_inv {v : Byte} {n : Nat} (h : softwareInterrupt v n s = .next t) :
    ∃ v' ret, t = s.entered v' ret := by
  unfold softwareInterrupt at h
  split at h <;> exact deliver_inv h

theorem interruptOnOverflow_inv {n : Nat} (h : interruptOnOverflow n s = .next t) :
    t = s.retire false n ∨ ∃ v' ret, t = s.entered v' ret := by
  unfold interruptOnOverflow at h
  split at h
  · exact .inr (deliver_inv h)
  · split at h
    · exact .inr (deliver_inv h)
    · cases h; exact .inl rfl

theorem checkBounds_inv {r : Reg16} {m : Mem} {n : Nat} (h : checkBounds r m n s = .next t) :
    t = s.retire false n ∨ Raised s t := by
  rcases complete_inv h with h | h
  · obtain ⟨_, -, h⟩ := bind_ok h
    obtain ⟨p, -, h⟩ := bind_ok h
    split at h <;> cases h
    exact .inl rfl
  · exact .inr h

/-- The state after IRET pops three words (R184). -/
def State.returned (s : State) (ip cs img : Word) : State :=
  ({ (s.setReg16 .sp (s.regs.sp + 6#16)).setFlags (loadFlags img) with nmiMasked := false }.setSel .cs cs).jump ip

theorem returnOp_ok (h : returnOp s = .ok t) : ∃ ip cs img, t = s.returned ip cs img := by
  obtain ⟨_, -, h⟩ := bind_ok h
  obtain ⟨ip, -, h⟩ := bind_ok h
  obtain ⟨cs, -, h⟩ := bind_ok h
  obtain ⟨img, -, h⟩ := bind_ok h
  cases h
  exact ⟨ip, cs, img, rfl⟩

theorem interruptReturn_inv (h : interruptReturn s = .next t) : (∃ ip cs img, t = s.returned ip cs img) ∨ Raised s t := by
  rcases complete_inv h with h | h
  · obtain ⟨_, -, h⟩ := bind_ok h
    exact .inl (returnOp_ok h)
  · exact .inr h

theorem interruptReturn_next (h0 : StackReadable 0#16 s) (h2 : StackReadable 2#16 s) (h4 : StackReadable 4#16 s)
    (hl : s.pfx.lock = false) :
    interruptReturn s = .next (s.returned (wordAt s (s.lin .ss s.regs.sp)) (wordAt s (s.lin .ss (s.regs.sp + 2#16)))
      (wordAt s (s.lin .ss (s.regs.sp + 4#16)))) := by
  have h0' : segRead16 .ss s.regs.sp s = .ok (wordAt s (s.lin .ss s.regs.sp)) := by
    simpa using segRead16_present h0.1 h0.2.1 h0.2.2
  have hc : checkStackWords [s.regs.sp, s.regs.sp + 2#16, s.regs.sp + 4#16] = .ok () := checkStackWords_ok (by
    have c0 := h0.1
    rw [BitVec.add_zero] at c0
    simp only [List.mem_cons, List.not_mem_nil, or_false, forall_eq_or_imp, forall_eq]
    exact ⟨c0, h2.1, h4.1⟩)
  simp [interruptReturn, noLock_check _ hl, returnOp, hc, h0', segRead16_present h2.1 h2.2.1 h2.2.2,
    segRead16_present h4.1 h4.2.1 h4.2.2, State.returned]

theorem loadIdtr_inv {m : Mem} {n : Nat} (h : loadIdtr m n s = .next t) :
    (∃ l b, t = { s with idtrLimit := l, idtrBase := b }.retire false n) ∨ Raised s t := by
  rcases complete_inv h with h | h
  · obtain ⟨_, -, h⟩ := bind_ok h
    obtain ⟨p, -, h⟩ := bind_ok h
    cases h
    exact .inl ⟨_, _, rfl⟩
  · exact .inr h

/-- The crossing check of an ESC's memory operand, in the words of R43. -/
theorem checkEscOperand_mem {x y : BitVec 3} {m : Mem} :
    checkEscOperand x y (.mem m) s =
      if 0xFFFF < (effectiveOffset s m).toNat + Config.escWidth x y - 1 then
        .error (.exception (crossVector (operandSeg s m))) else .ok () := by
  simp [checkEscOperand, checkExtreme, crosses]

/-- Past #7 and #16 an ESC raises the crossing of its operand, or is refused. -/
theorem coprocessorEscape_checked {x y : BitVec 3} {d : RM16} (hl : s.pfx.lock = false) (he : s.msw.getLsbD 2 = false)
    (ht : s.msw.getLsbD 3 = false) (hc : s.copErrorPending = false) :
    coprocessorEscape x y d s =
      complete s (checkEscOperand x y d s >>= fun _ => .error (.refuse .coprocessorOperation)) := by
  simp only [coprocessorEscape, noLock_check _ hl, State.mswEm, State.mswTs, he, ht, hc, ok_bind, Bool.false_eq_true,
    if_false]

theorem coprocessorEscape_inv {x y : BitVec 3} {d : RM16} (h : coprocessorEscape x y d s = .next t) : Raised s t := by
  rcases complete_inv h with h | h
  · obtain ⟨_, -, h⟩ := bind_ok h
    split at h
    · cases h
    · split at h
      · cases h
      · split at h
        · cases h
        · obtain ⟨_, -, h⟩ := bind_ok h
          cases h
  · exact h

theorem waitCoprocessor_inv (h : waitCoprocessor s = .next t) : t = s.retire false 1 ∨ Raised s t := by
  rcases complete_inv h with h | h
  · obtain ⟨_, -, h⟩ := bind_ok h
    split at h
    · cases h
    · split at h <;> cases h
      exact .inl rfl
  · exact .inr h

end Sys2Proof.Machine
end

