-- ==== Sys2Proof/Laws/Delivery.lean ====
section
/-! SUPPORT. Pushes and the entry of an exception or interrupt (60_exceptions.md R229, R230). -/

namespace Sys2Proof.Machine
open Sys2Proof

variable {s t : State}

/-- One push (R110). -/
theorem pushed_pushed1 (hm : s.mem.Wf) (v : Word) : Pushed1 v s (s.pushed v) :=
  ⟨rfl, setWord_wordAt hm, fun _ hx => setWord_read_other v hx⟩
/-- `Pushed1` looks at registers and memory only. -/
theorem Pushed1.congr {v : Word} {u : State} (h : Pushed1 v s t) (h1 : u.regs = t.regs) (h2 : u.mem = t.mem) :
    Pushed1 v s u := by
  obtain ⟨a, b, c⟩ := h
  exact ⟨h1.trans a, by unfold wordAt at *; rw [h2]; exact b, fun x hx => by rw [h2]; exact c x hx⟩

/-- The room below an earlier push. -/
theorem PushRoom.after_push {k j : Word} {v} (h : PushRoom k s) (hk : (s.pushed v).regs.sp - j = s.regs.sp - k) :
    PushRoom j (s.pushed v) := by
  obtain ⟨a, b, c⟩ := h
  have e : (s.pushed v).lin .ss ((s.pushed v).regs.sp - j) = s.lin .ss (s.regs.sp - k) := by rw [hk]; rfl
  exact ⟨by rw [hk]; exact a, by rw [e]; exact b, by rw [e]; exact c⟩

/-- SP after a push, less `j`. -/
theorem pushed_sp_sub (v : Word) (j : Word) : (s.pushed v).regs.sp - j = s.regs.sp - (2#16 + j) := by
  show s.regs.sp - 2#16 - j = _; rw [BitVec.sub_sub]

/-- A deliverable entry is made (R229). -/
theorem enterOp_room {v : Byte} {ret : Word} (hd : Deliverable v s) : enterOp v ret s = .ok (s.entered v ret) := by
  obtain ⟨-, he, h2, h4, h6⟩ := hd
  have e0 := he 0 (by omega); have e1 := he 1 (by omega); have e2 := he 2 (by omega); have e3 := he 3 (by omega)
  have p1 : push16 (flagsImage s.flags) s = .ok (s.pushed (flagsImage s.flags)) := push16_room h2
  set u := s.pushed (flagsImage s.flags) with hu
  set u' := u.setFlags (setFlag .intf false (setFlag .tf false u.flags)) with hu'
  have r1 : PushRoom 2#16 u := PushRoom.after_push h4 (by rw [pushed_sp_sub]; rfl)
  have r1' : PushRoom 2#16 u' := r1
  have r2 : PushRoom 4#16 u := PushRoom.after_push h6 (by rw [pushed_sp_sub]; rfl)
  have r3 : PushRoom 2#16 (u'.pushed (s.sel .cs)) := PushRoom.after_push (show PushRoom 4#16 u' from r2) (by rw [pushed_sp_sub]; rfl)
  have l0 : loadWord s (s.idtrBase.toNat + 4 * v.toNat) = .ok (wordAt s (s.idtrBase.toNat + 4 * v.toNat)) := loadWord_present e0 e1
  have l2 : loadWord s (s.idtrBase.toNat + 4 * v.toNat + 2) = .ok (wordAt s (s.idtrBase.toNat + 4 * v.toNat + 2)) := loadWord_present e2 e3
  simp only [enterOp, l0, l2, ok_bind, p1, ← hu', push16_room r1', push16_room r3]
  rfl

/-- The checks a deliverable entry passes (R229, R231). -/
theorem deliverable_checks {v : Byte} (hd : Deliverable v s) : s.beyondLimit v = false ∧ s.frameCrosses = false := by
  obtain ⟨h, -, h2, h4, h6⟩ := hd
  refine ⟨by simp [State.beyondLimit]; omega, ?_⟩
  simp only [State.frameCrosses]; rw [h2.1, h4.1, h6.1]; rfl

/-- A push keeps the canonical form. -/
theorem pushed_wf {v} (hm : s.mem.Wf) : (s.pushed v).mem.Wf := setWord_wf hm

/-- The three words of a frame do not overlap. -/
theorem frame_disjoint (hc : ∀ k ∈ [2#16,4#16,6#16], crosses (s.regs.sp - k) 2 = false) {i j : Word} (hi : i ∈ [2#16,4#16,6#16]) (hj : j ∈ [2#16,4#16,6#16]) (h : i ≠ j) :
   s.lin .ss (s.regs.sp - i) + 2 ≤ s.lin .ss (s.regs.sp - j) ∨ s.lin .ss (s.regs.sp - j) + 2 ≤ s.lin .ss (s.regs.sp - i) := by
  have a := hc i hi; have b := hc j hj
  simp only [crosses, decide_eq_false_iff_not] at a b
  simp only [State.lin]
  have : (s.regs.sp - i).toNat + 2 ≤ (s.regs.sp - j).toNat ∨ (s.regs.sp - j).toNat + 2 ≤ (s.regs.sp - i).toNat := by
    simp only [List.mem_cons, List.not_mem_nil, or_false] at hi hj
    rcases hi with rfl | rfl | rfl <;> rcases hj with rfl | rfl | rfl <;> first | exact absurd rfl h | bv_omega
  omega

/-- What an entry leaves (R229, R230). -/
theorem entered_spec {v : Byte} {ret : Word} (hm : s.mem.Wf) (hd : Deliverable v s) :
    Entered v ret s (s.entered v ret) := by
  have hc : ∀ k ∈ [2#16,4#16,6#16], crosses (s.regs.sp - k) 2 = false := by
    intro k hk; simp only [List.mem_cons, List.not_mem_nil, or_false] at hk
    rcases hk with rfl | rfl | rfl
    exacts [hd.room.1.1, hd.room.2.1.1, hd.room.2.2.1]
  have hsp4 : ∀ x : State, x.regs.sp = s.regs.sp - 2#16 → x.regs.sp - 2#16 = s.regs.sp - 4#16 := fun x h => by rw [h, BitVec.sub_sub]; rfl
  have hsp6 : ∀ x : State, x.regs.sp = s.regs.sp - 4#16 → x.regs.sp - 2#16 = s.regs.sp - 6#16 := fun x h => by rw [h, BitVec.sub_sub]; rfl
  set a2 := s.lin .ss (s.regs.sp - 2#16) with ha2
  set a4 := s.lin .ss (s.regs.sp - 4#16) with ha4
  set a6 := s.lin .ss (s.regs.sp - 6#16) with ha6
  have d24 := frame_disjoint hc (i := 2#16) (j := 4#16) (by simp) (by simp) (by decide)
  have d26 := frame_disjoint hc (i := 2#16) (j := 6#16) (by simp) (by simp) (by decide)
  have d46 := frame_disjoint hc (i := 4#16) (j := 6#16) (by simp) (by simp) (by decide)
  have hmem : (s.entered v ret).mem = (((s.setWord a2 (flagsImage s.flags)).setWord a4 (s.sel .cs)).setWord a6 ret).mem := by
    simp only [State.entered, State.pushed, State.lin, ha2, ha4, ha6, State.sel]
    have e4 := hsp4 (s.pushed (flagsImage s.flags)) rfl
    have e6 : s.regs.sp - 2#16 - 2#16 - 2#16 = s.regs.sp - 6#16 := by rw [BitVec.sub_sub, BitVec.sub_sub]; rfl
    have e4' : s.regs.sp - 2#16 - 2#16 = s.regs.sp - 4#16 := by rw [BitVec.sub_sub]; rfl
    rw [← e4', ← e6]
    simp [State.setWord, State.setByte, State.setReg16, State.setFlags, Regs.set, State.setSel, State.jump]
  have w1 : (s.setWord a2 (flagsImage s.flags)).mem.Wf := setWord_wf hm
  have w2 : ((s.setWord a2 (flagsImage s.flags)).setWord a4 (s.sel .cs)).mem.Wf := setWord_wf w1
  have wa : ∀ x a, x.mem = (((s.setWord a2 (flagsImage s.flags)).setWord a4 (s.sel .cs)).setWord a6 ret).mem → wordAt x a = wordAt (((s.setWord a2 (flagsImage s.flags)).setWord a4 (s.sel .cs)).setWord a6 ret) a := by
    intro x a h; unfold wordAt; rw [h]
  have wo : ∀ (x : State) (a b : Nat) (v : Word), a + 2 ≤ b ∨ b + 2 ≤ a → wordAt (x.setWord a v) b = wordAt x b := by
    intro x a b v h; unfold wordAt; rw [setWord_read_other _ (by omega), setWord_read_other _ (by omega)]
  refine ⟨⟨?_, ?_, ?_, ?_, ?_⟩, ?_, ?_, ?_, ?_⟩
  · show ((s.regs.set .sp (s.regs.sp - 2#16)).set .sp (s.regs.sp - 2#16 - 2#16)).set .sp (s.regs.sp - 2#16 - 2#16 - 2#16) = _
    rw [BitVec.sub_sub, BitVec.sub_sub]; rfl
  · rw [wa _ _ hmem, wo _ _ _ _ (by omega), wo _ _ _ _ (by omega), setWord_wordAt hm]
  · rw [wa _ _ hmem, wo _ _ _ _ (by omega), setWord_wordAt w1]
  · rw [wa _ _ hmem, setWord_wordAt w2]
  · intro x hx
    rw [hmem]
    have n2 : x < a2 ∨ a2 + 2 ≤ x := by
      by_contra hcon
      exact hx ⟨1, by omega, by omega, by show x = a2 ∨ x = a2 + 1; omega⟩
    have n4 : x < a4 ∨ a4 + 2 ≤ x := by
      by_contra hcon
      exact hx ⟨2, by omega, by omega, by show x = a4 ∨ x = a4 + 1; omega⟩
    have n6 : x < a6 ∨ a6 + 2 ≤ x := by
      by_contra hcon
      exact hx ⟨3, by omega, by omega, by show x = a6 ∨ x = a6 + 1; omega⟩
    rw [setWord_read_other _ n6, setWord_read_other _ n4, setWord_read_other _ n2]
  · exact jumped_jump ((((beside_pushed _ _).trans (beside_setFlags _ _)).trans (beside_pushed _ _)).trans (beside_pushed _ _)) _ _
  · show getFlag .intf (setFlag .intf false (setFlag .tf false s.flags)) = false; simp
  · show getFlag .tf (setFlag .intf false (setFlag .tf false s.flags)) = false; simp [getFlag_setFlag]
  · show OnlyFlags _ s.flags (setFlag .intf false (setFlag .tf false s.flags))
    exact OnlyFlags.of_setFlag _ _ (by simp) (OnlyFlags.of_setFlag _ _ (by simp) (onlyFlags_refl _ _))

end Sys2Proof.Machine
end

