-- ==== Sys2Proof/Laws/Fetch.lean ====
section
/-! SUPPORT. The bytes fetched for an instruction (30_encoding.md R78), and what they say of a fetch and decode. -/

namespace Sys2Proof.Machine
open Sys2Proof

variable {s : State}

/-- Everything a window says of the bytes from `j` on: they are fetched in order, at most `n`, and the first that cannot
be fetched, or #13 when there are `n`, is what stops it. -/
theorem window_spec (s : State) : ∀ n j, (window s n j).1.length ≤ n ∧
    (∀ k, (h : k < (window s n j).1.length) → fetchByte s (j + k) = .ok (window s n j).1[k]) ∧
    ((window s n j).1.length < n → fetchByte s (j + (window s n j).1.length) = .error (window s n j).2) ∧
    ((window s n j).1.length = n → (window s n j).2 = .exception 13#8) := by
  intro n
  induction n with
  | zero => intro j; exact ⟨le_refl _, fun k h => absurd h (by simp [window]), fun h => absurd h (by simp), fun _ => rfl⟩
  | succ n ih =>
    intro j
    cases hb : fetchByte s j with
    | ok b =>
      have e : window s (n + 1) j = (b :: (window s n (j + 1)).1, (window s n (j + 1)).2) := by
        rw [window, hb]
      rw [e]
      obtain ⟨h1, h2, h3, h4⟩ := ih (j + 1)
      refine ⟨by simpa using h1, fun k h => ?_, fun h => ?_, fun h => h4 (by simpa using h)⟩
      · cases k with
        | zero => exact hb
        | succ k =>
          have := h2 k (by simpa using h)
          rw [show j + 1 + k = j + (k + 1) by omega] at this; exact this
      · have := h3 (by simpa using h)
        rw [show j + 1 + (window s n (j + 1)).1.length = j + (b :: (window s n (j + 1)).1).length by
          simp only [List.length_cons]; omega] at this
        exact this
    | error x =>
      have e : window s (n + 1) j = ([], x) := by rw [window, hb]
      rw [e]
      exact ⟨by simp, fun k h => absurd h (by simp), fun _ => hb, fun h => absurd h (by simp)⟩

/-- Bytes that can be fetched begin the window. -/
theorem window_append : ∀ (bs : List Byte) (n j : Nat), bs.length ≤ n →
    (∀ k, (h : k < bs.length) → fetchByte s (j + k) = .ok bs[k]) → ∃ more, (window s n j).1 = bs ++ more := by
  intro bs
  induction bs with
  | nil => intro n j _ _; exact ⟨_, rfl⟩
  | cons b bs ih =>
    intro n j hn h
    cases n with
    | zero => simp at hn
    | succ n =>
      obtain ⟨more, hm⟩ := ih n (j + 1) (by simpa using hn) (fun k hk => by
        have := h (k + 1) (by simpa using hk)
        rw [show j + (k + 1) = j + 1 + k by omega] at this; exact this)
      have h0 : fetchByte s j = .ok b := h 0 (by simp)
      refine ⟨more, ?_⟩
      unfold window
      rw [h0]
      show b :: (window s n (j + 1)).1 = _
      rw [hm]; rfl

/-- At most fifteen bytes that can be fetched begin the bytes of the instruction. -/
theorem fetchWindow_append {bs : List Byte} (hl : bs.length ≤ 15) (h : Fetchable bs s) :
    ∃ more, (fetchWindow s).1 = bs ++ more :=
  window_append bs 15 0 hl fun k hk => by rw [Nat.zero_add]; exact h k hk

/-- Fifteen bytes that can be fetched are the bytes of the instruction, and a sixteenth raises 13 (R70). -/
theorem fetchWindow_fifteen {bs : List Byte} (hl : bs.length = 15) (h : Fetchable bs s) :
    fetchWindow s = (bs, .exception 13#8) := by
  obtain ⟨more, hm⟩ := fetchWindow_append (le_of_eq hl) h
  obtain ⟨h1, -, -, h4⟩ := window_spec s 15 0
  have e : (window s 15 0).1 = bs ++ more := hm
  have : more = [] := by
    rw [e] at h1
    simp only [List.length_append] at h1
    exact List.eq_nil_of_length_eq_zero (by omega)
  subst this
  have h5 := h4 (by rw [e, List.append_nil]; exact hl)
  have e2 : (fetchWindow s).2 = .exception 13#8 := h5
  rw [List.append_nil] at hm
  exact Prod.ext hm e2

/-- A fetch of the bytes `w`: what is read after the prefixes. -/
theorem fetch_body {w : List Byte} {e : Stop} {ps : List Instr} {bs : List Byte} (hw : fetchWindow s = (w, e))
    (hp : splitPrefixes w = (ps, bs)) : (fetch s).prefixes = ps ∧ (fetch s).stop = e ∧
      (∀ i rest, decodeWith s.cfg.undefinedOpcodes bs = .ok (i, rest) → (fetch s).body = .ok i) ∧
      ∀ x, decodeWith s.cfg.undefinedOpcodes bs = .error x → (fetch s).body = .error x := by
  unfold fetch
  simp only [hw, hp]
  exact ⟨trivial, trivial, fun i rest h => by simp only [h], fun x h => by simp only [h]⟩

end Sys2Proof.Machine
end

