-- ==== Sys2Proof/Laws/PerInstr.lean ====
section
/-! SUPPORT. Families of statements made instruction by instruction. -/

namespace Sys2Proof.Laws.EncodedLength
open Sys2Proof

/-- An encoding without its prefixes takes 1 to 7 bytes (30_encoding.md R79). -/
def Statement (i : Instr) : Prop := 1 ≤ (encode i).length ∧ (encode i).length ≤ 7

/-- A ModR/M byte and its displacement take 1 to 3 bytes (R75). -/
theorem mem_bounds (y : BitVec 3) (m : Mem) : 1 ≤ (encodeMem y m).length ∧ (encodeMem y m).length ≤ 3 := by
  cases m <;> exact ⟨Nat.le_of_ble_eq_true rfl, Nat.le_of_ble_eq_true rfl⟩

theorem rm8_bounds (y : BitVec 3) (d : RM8) : 1 ≤ (encodeRm8 y d).length ∧ (encodeRm8 y d).length ≤ 3 := by
  cases d with
  | reg r => exact ⟨Nat.le_of_ble_eq_true rfl, Nat.le_of_ble_eq_true rfl⟩
  | mem m => exact mem_bounds y m

theorem rm16_bounds (y : BitVec 3) (d : RM16) : 1 ≤ (encodeRm16 y d).length ∧ (encodeRm16 y d).length ≤ 3 := by
  cases d with
  | reg r => exact ⟨Nat.le_of_ble_eq_true rfl, Nat.le_of_ble_eq_true rfl⟩
  | mem m => exact mem_bounds y m

/-- At most four bytes before and after an operand of 1 to 3. -/
theorem around {pre mid post : List Byte} (h : 1 ≤ mid.length ∧ mid.length ≤ 3) (hp : pre.length + post.length ≤ 4) :
    1 ≤ (pre ++ (mid ++ post)).length ∧ (pre ++ (mid ++ post)).length ≤ 7 := by
  simp only [List.length_append]; omega

theorem lockPrefix : Statement .lockPrefix := ⟨Nat.le_of_ble_eq_true rfl, Nat.le_of_ble_eq_true rfl⟩
theorem esPrefix : Statement .esPrefix := ⟨Nat.le_of_ble_eq_true rfl, Nat.le_of_ble_eq_true rfl⟩
theorem csPrefix : Statement .csPrefix := ⟨Nat.le_of_ble_eq_true rfl, Nat.le_of_ble_eq_true rfl⟩
theorem ssPrefix : Statement .ssPrefix := ⟨Nat.le_of_ble_eq_true rfl, Nat.le_of_ble_eq_true rfl⟩
theorem dsPrefix : Statement .dsPrefix := ⟨Nat.le_of_ble_eq_true rfl, Nat.le_of_ble_eq_true rfl⟩
theorem fsPrefix : Statement .fsPrefix := ⟨Nat.le_of_ble_eq_true rfl, Nat.le_of_ble_eq_true rfl⟩
theorem gsPrefix : Statement .gsPrefix := ⟨Nat.le_of_ble_eq_true rfl, Nat.le_of_ble_eq_true rfl⟩
theorem repnePrefix : Statement .repnePrefix := ⟨Nat.le_of_ble_eq_true rfl, Nat.le_of_ble_eq_true rfl⟩
theorem repPrefix : Statement .repPrefix := ⟨Nat.le_of_ble_eq_true rfl, Nat.le_of_ble_eq_true rfl⟩
theorem operandSizePrefix : Statement .operandSizePrefix := ⟨Nat.le_of_ble_eq_true rfl, Nat.le_of_ble_eq_true rfl⟩
theorem addressSizePrefix : Statement .addressSizePrefix := ⟨Nat.le_of_ble_eq_true rfl, Nat.le_of_ble_eq_true rfl⟩
theorem divRm8 (d : RM8) : Statement (.divRm8 d) := by
  have h := rm8_bounds 6 d; unfold Statement encode; simp only [List.length_cons]; omega
theorem divRm16 (d : RM16) : Statement (.divRm16 d) := by
  have h := rm16_bounds 6 d; unfold Statement encode; simp only [List.length_cons]; omega
theorem idivRm8 (d : RM8) : Statement (.idivRm8 d) := by
  have h := rm8_bounds 7 d; unfold Statement encode; simp only [List.length_cons]; omega
theorem idivRm16 (d : RM16) : Statement (.idivRm16 d) := by
  have h := rm16_bounds 7 d; unfold Statement encode; simp only [List.length_cons]; omega
theorem pushR16 (r : Reg16) : Statement (.pushR16 r) := ⟨Nat.le_of_ble_eq_true rfl, Nat.le_of_ble_eq_true rfl⟩
theorem pushSp : Statement .pushSp := ⟨Nat.le_of_ble_eq_true rfl, Nat.le_of_ble_eq_true rfl⟩
theorem pushRm16 (d : RM16) : Statement (.pushRm16 d) := by
  have h := rm16_bounds 6 d; unfold Statement encode; simp only [List.length_cons]; omega
theorem pushImm16 (v : Word) : Statement (.pushImm16 v) := ⟨Nat.le_of_ble_eq_true rfl, Nat.le_of_ble_eq_true rfl⟩
theorem pushImm8 (v : Byte) : Statement (.pushImm8 v) := ⟨Nat.le_of_ble_eq_true rfl, Nat.le_of_ble_eq_true rfl⟩
theorem pushEs : Statement .pushEs := ⟨Nat.le_of_ble_eq_true rfl, Nat.le_of_ble_eq_true rfl⟩
theorem pushCs : Statement .pushCs := ⟨Nat.le_of_ble_eq_true rfl, Nat.le_of_ble_eq_true rfl⟩
theorem pushSs : Statement .pushSs := ⟨Nat.le_of_ble_eq_true rfl, Nat.le_of_ble_eq_true rfl⟩
theorem pushDs : Statement .pushDs := ⟨Nat.le_of_ble_eq_true rfl, Nat.le_of_ble_eq_true rfl⟩
theorem pushFs : Statement .pushFs := ⟨Nat.le_of_ble_eq_true rfl, Nat.le_of_ble_eq_true rfl⟩
theorem pushGs : Statement .pushGs := ⟨Nat.le_of_ble_eq_true rfl, Nat.le_of_ble_eq_true rfl⟩
theorem pushf : Statement .pushf := ⟨Nat.le_of_ble_eq_true rfl, Nat.le_of_ble_eq_true rfl⟩
theorem movRm8R8 (d : RM8) (r : Reg8) : Statement (.movRm8R8 d r) := by
  have h := rm8_bounds r.code d; unfold Statement encode; simp only [List.length_cons]; omega
theorem movRm16R16 (d : RM16) (r : Reg16) : Statement (.movRm16R16 d r) := by
  have h := rm16_bounds r.code d; unfold Statement encode; simp only [List.length_cons]; omega
theorem movR8Rm8 (r : Reg8) (d : RM8) : Statement (.movR8Rm8 r d) := by
  have h := rm8_bounds r.code d; unfold Statement encode; simp only [List.length_cons]; omega
theorem movR16Rm16 (r : Reg16) (d : RM16) : Statement (.movR16Rm16 r d) := by
  have h := rm16_bounds r.code d; unfold Statement encode; simp only [List.length_cons]; omega
theorem movRm16Sreg (d : RM16) (g : Seg) : Statement (.movRm16Sreg d g) := by
  have h := rm16_bounds g.code d; unfold Statement encode; simp only [List.length_cons]; omega
theorem movSregRm16 (g : Seg) (d : RM16) : Statement (.movSregRm16 g d) := by
  have h := rm16_bounds g.code d; unfold Statement encode; simp only [List.length_cons]; omega
theorem movAlMoffs8 (o : Word) : Statement (.movAlMoffs8 o) := ⟨Nat.le_of_ble_eq_true rfl, Nat.le_of_ble_eq_true rfl⟩
theorem movAxMoffs16 (o : Word) : Statement (.movAxMoffs16 o) := ⟨Nat.le_of_ble_eq_true rfl, Nat.le_of_ble_eq_true rfl⟩
theorem movMoffs8Al (o : Word) : Statement (.movMoffs8Al o) := ⟨Nat.le_of_ble_eq_true rfl, Nat.le_of_ble_eq_true rfl⟩
theorem movMoffs16Ax (o : Word) : Statement (.movMoffs16Ax o) := ⟨Nat.le_of_ble_eq_true rfl, Nat.le_of_ble_eq_true rfl⟩
theorem movR8Imm8 (r : Reg8) (v : Byte) : Statement (.movR8Imm8 r v) := ⟨Nat.le_of_ble_eq_true rfl, Nat.le_of_ble_eq_true rfl⟩
theorem movR16Imm16 (r : Reg16) (v : Word) : Statement (.movR16Imm16 r v) := ⟨Nat.le_of_ble_eq_true rfl, Nat.le_of_ble_eq_true rfl⟩
theorem movRm8Imm8 (d : RM8) (v : Byte) : Statement (.movRm8Imm8 d v) := around (pre := [_]) (post := [v]) (rm8_bounds 0 d) (Nat.le_of_ble_eq_true rfl)
theorem movRm16Imm16 (d : RM16) (v : Word) : Statement (.movRm16Imm16 d v) := around (pre := [_]) (post := encodeWord v) (rm16_bounds 0 d) (Nat.le_of_ble_eq_true rfl)
theorem xchgRm8R8 (d : RM8) (r : Reg8) : Statement (.xchgRm8R8 d r) := by
  have h := rm8_bounds r.code d; unfold Statement encode; simp only [List.length_cons]; omega
theorem xchgRm16R16 (d : RM16) (r : Reg16) : Statement (.xchgRm16R16 d r) := by
  have h := rm16_bounds r.code d; unfold Statement encode; simp only [List.length_cons]; omega
theorem xchgAxR16 (r : Reg16) : Statement (.xchgAxR16 r) := ⟨Nat.le_of_ble_eq_true rfl, Nat.le_of_ble_eq_true rfl⟩
theorem rolRm8One (d : RM8) : Statement (.rolRm8One d) := by
  have h := rm8_bounds 0 d; unfold Statement encode; simp only [List.length_cons]; omega
theorem rolRm16One (d : RM16) : Statement (.rolRm16One d) := by
  have h := rm16_bounds 0 d; unfold Statement encode; simp only [List.length_cons]; omega
theorem rolRm8Cl (d : RM8) : Statement (.rolRm8Cl d) := by
  have h := rm8_bounds 0 d; unfold Statement encode; simp only [List.length_cons]; omega
theorem rolRm16Cl (d : RM16) : Statement (.rolRm16Cl d) := by
  have h := rm16_bounds 0 d; unfold Statement encode; simp only [List.length_cons]; omega
theorem rolRm8Imm8 (d : RM8) (v : Byte) : Statement (.rolRm8Imm8 d v) := around (pre := [_]) (post := [v]) (rm8_bounds 0 d) (Nat.le_of_ble_eq_true rfl)
theorem rolRm16Imm8 (d : RM16) (v : Byte) : Statement (.rolRm16Imm8 d v) := around (pre := [_]) (post := [v]) (rm16_bounds 0 d) (Nat.le_of_ble_eq_true rfl)
theorem rorRm8One (d : RM8) : Statement (.rorRm8One d) := by
  have h := rm8_bounds 1 d; unfold Statement encode; simp only [List.length_cons]; omega
theorem rorRm16One (d : RM16) : Statement (.rorRm16One d) := by
  have h := rm16_bounds 1 d; unfold Statement encode; simp only [List.length_cons]; omega
theorem rorRm8Cl (d : RM8) : Statement (.rorRm8Cl d) := by
  have h := rm8_bounds 1 d; unfold Statement encode; simp only [List.length_cons]; omega
theorem rorRm16Cl (d : RM16) : Statement (.rorRm16Cl d) := by
  have h := rm16_bounds 1 d; unfold Statement encode; simp only [List.length_cons]; omega
theorem rorRm8Imm8 (d : RM8) (v : Byte) : Statement (.rorRm8Imm8 d v) := around (pre := [_]) (post := [v]) (rm8_bounds 1 d) (Nat.le_of_ble_eq_true rfl)
theorem rorRm16Imm8 (d : RM16) (v : Byte) : Statement (.rorRm16Imm8 d v) := around (pre := [_]) (post := [v]) (rm16_bounds 1 d) (Nat.le_of_ble_eq_true rfl)
theorem rclRm8One (d : RM8) : Statement (.rclRm8One d) := by
  have h := rm8_bounds 2 d; unfold Statement encode; simp only [List.length_cons]; omega
theorem rclRm16One (d : RM16) : Statement (.rclRm16One d) := by
  have h := rm16_bounds 2 d; unfold Statement encode; simp only [List.length_cons]; omega
theorem rclRm8Cl (d : RM8) : Statement (.rclRm8Cl d) := by
  have h := rm8_bounds 2 d; unfold Statement encode; simp only [List.length_cons]; omega
theorem rclRm16Cl (d : RM16) : Statement (.rclRm16Cl d) := by
  have h := rm16_bounds 2 d; unfold Statement encode; simp only [List.length_cons]; omega
theorem rclRm8Imm8 (d : RM8) (v : Byte) : Statement (.rclRm8Imm8 d v) := around (pre := [_]) (post := [v]) (rm8_bounds 2 d) (Nat.le_of_ble_eq_true rfl)
theorem rclRm16Imm8 (d : RM16) (v : Byte) : Statement (.rclRm16Imm8 d v) := around (pre := [_]) (post := [v]) (rm16_bounds 2 d) (Nat.le_of_ble_eq_true rfl)
theorem rcrRm8One (d : RM8) : Statement (.rcrRm8One d) := by
  have h := rm8_bounds 3 d; unfold Statement encode; simp only [List.length_cons]; omega
theorem rcrRm16One (d : RM16) : Statement (.rcrRm16One d) := by
  have h := rm16_bounds 3 d; unfold Statement encode; simp only [List.length_cons]; omega
theorem rcrRm8Cl (d : RM8) : Statement (.rcrRm8Cl d) := by
  have h := rm8_bounds 3 d; unfold Statement encode; simp only [List.length_cons]; omega
theorem rcrRm16Cl (d : RM16) : Statement (.rcrRm16Cl d) := by
  have h := rm16_bounds 3 d; unfold Statement encode; simp only [List.length_cons]; omega
theorem rcrRm8Imm8 (d : RM8) (v : Byte) : Statement (.rcrRm8Imm8 d v) := around (pre := [_]) (post := [v]) (rm8_bounds 3 d) (Nat.le_of_ble_eq_true rfl)
theorem rcrRm16Imm8 (d : RM16) (v : Byte) : Statement (.rcrRm16Imm8 d v) := around (pre := [_]) (post := [v]) (rm16_bounds 3 d) (Nat.le_of_ble_eq_true rfl)
theorem shlRm8One (d : RM8) : Statement (.shlRm8One d) := by
  have h := rm8_bounds 4 d; unfold Statement encode; simp only [List.length_cons]; omega
theorem shlRm16One (d : RM16) : Statement (.shlRm16One d) := by
  have h := rm16_bounds 4 d; unfold Statement encode; simp only [List.length_cons]; omega
theorem shlRm8Cl (d : RM8) : Statement (.shlRm8Cl d) := by
  have h := rm8_bounds 4 d; unfold Statement encode; simp only [List.length_cons]; omega
theorem shlRm16Cl (d : RM16) : Statement (.shlRm16Cl d) := by
  have h := rm16_bounds 4 d; unfold Statement encode; simp only [List.length_cons]; omega
theorem shlRm8Imm8 (d : RM8) (v : Byte) : Statement (.shlRm8Imm8 d v) := around (pre := [_]) (post := [v]) (rm8_bounds 4 d) (Nat.le_of_ble_eq_true rfl)
theorem shlRm16Imm8 (d : RM16) (v : Byte) : Statement (.shlRm16Imm8 d v) := around (pre := [_]) (post := [v]) (rm16_bounds 4 d) (Nat.le_of_ble_eq_true rfl)
theorem shrRm8One (d : RM8) : Statement (.shrRm8One d) := by
  have h := rm8_bounds 5 d; unfold Statement encode; simp only [List.length_cons]; omega
theorem shrRm16One (d : RM16) : Statement (.shrRm16One d) := by
  have h := rm16_bounds 5 d; unfold Statement encode; simp only [List.length_cons]; omega
theorem shrRm8Cl (d : RM8) : Statement (.shrRm8Cl d) := by
  have h := rm8_bounds 5 d; unfold Statement encode; simp only [List.length_cons]; omega
theorem shrRm16Cl (d : RM16) : Statement (.shrRm16Cl d) := by
  have h := rm16_bounds 5 d; unfold Statement encode; simp only [List.length_cons]; omega
theorem shrRm8Imm8 (d : RM8) (v : Byte) : Statement (.shrRm8Imm8 d v) := around (pre := [_]) (post := [v]) (rm8_bounds 5 d) (Nat.le_of_ble_eq_true rfl)
theorem shrRm16Imm8 (d : RM16) (v : Byte) : Statement (.shrRm16Imm8 d v) := around (pre := [_]) (post := [v]) (rm16_bounds 5 d) (Nat.le_of_ble_eq_true rfl)
theorem sarRm8One (d : RM8) : Statement (.sarRm8One d) := by
  have h := rm8_bounds 7 d; unfold Statement encode; simp only [List.length_cons]; omega
theorem sarRm16One (d : RM16) : Statement (.sarRm16One d) := by
  have h := rm16_bounds 7 d; unfold Statement encode; simp only [List.length_cons]; omega
theorem sarRm8Cl (d : RM8) : Statement (.sarRm8Cl d) := by
  have h := rm8_bounds 7 d; unfold Statement encode; simp only [List.length_cons]; omega
theorem sarRm16Cl (d : RM16) : Statement (.sarRm16Cl d) := by
  have h := rm16_bounds 7 d; unfold Statement encode; simp only [List.length_cons]; omega
theorem sarRm8Imm8 (d : RM8) (v : Byte) : Statement (.sarRm8Imm8 d v) := around (pre := [_]) (post := [v]) (rm8_bounds 7 d) (Nat.le_of_ble_eq_true rfl)
theorem sarRm16Imm8 (d : RM16) (v : Byte) : Statement (.sarRm16Imm8 d v) := around (pre := [_]) (post := [v]) (rm16_bounds 7 d) (Nat.le_of_ble_eq_true rfl)
theorem shldRm16R16Imm8 (d : RM16) (r : Reg16) (v : Byte) : Statement (.shldRm16R16Imm8 d r v) := around (pre := [_, _]) (post := [v]) (rm16_bounds r.code d) (Nat.le_of_ble_eq_true rfl)
theorem shldRm16R16Cl (d : RM16) (r : Reg16) : Statement (.shldRm16R16Cl d r) := by
  have h := rm16_bounds r.code d; unfold Statement encode; simp only [List.length_cons]; omega
theorem shrdRm16R16Imm8 (d : RM16) (r : Reg16) (v : Byte) : Statement (.shrdRm16R16Imm8 d r v) := around (pre := [_, _]) (post := [v]) (rm16_bounds r.code d) (Nat.le_of_ble_eq_true rfl)
theorem shrdRm16R16Cl (d : RM16) (r : Reg16) : Statement (.shrdRm16R16Cl d r) := by
  have h := rm16_bounds r.code d; unfold Statement encode; simp only [List.length_cons]; omega
theorem btsRm16R16 (d : RM16) (r : Reg16) : Statement (.btsRm16R16 d r) := by
  have h := rm16_bounds r.code d; unfold Statement encode; simp only [List.length_cons]; omega
theorem btsRm16Imm8 (d : RM16) (v : Byte) : Statement (.btsRm16Imm8 d v) := around (pre := [_, _]) (post := [v]) (rm16_bounds 5 d) (Nat.le_of_ble_eq_true rfl)
theorem btrRm16R16 (d : RM16) (r : Reg16) : Statement (.btrRm16R16 d r) := by
  have h := rm16_bounds r.code d; unfold Statement encode; simp only [List.length_cons]; omega
theorem btrRm16Imm8 (d : RM16) (v : Byte) : Statement (.btrRm16Imm8 d v) := around (pre := [_, _]) (post := [v]) (rm16_bounds 6 d) (Nat.le_of_ble_eq_true rfl)
theorem btcRm16R16 (d : RM16) (r : Reg16) : Statement (.btcRm16R16 d r) := by
  have h := rm16_bounds r.code d; unfold Statement encode; simp only [List.length_cons]; omega
theorem btcRm16Imm8 (d : RM16) (v : Byte) : Statement (.btcRm16Imm8 d v) := around (pre := [_, _]) (post := [v]) (rm16_bounds 7 d) (Nat.le_of_ble_eq_true rfl)
theorem addRm8R8 (d : RM8) (r : Reg8) : Statement (.addRm8R8 d r) := by
  have h := rm8_bounds r.code d; unfold Statement encode; simp only [List.length_cons]; omega
theorem addRm16R16 (d : RM16) (r : Reg16) : Statement (.addRm16R16 d r) := by
  have h := rm16_bounds r.code d; unfold Statement encode; simp only [List.length_cons]; omega
theorem addR8Rm8 (r : Reg8) (d : RM8) : Statement (.addR8Rm8 r d) := by
  have h := rm8_bounds r.code d; unfold Statement encode; simp only [List.length_cons]; omega
theorem addR16Rm16 (r : Reg16) (d : RM16) : Statement (.addR16Rm16 r d) := by
  have h := rm16_bounds r.code d; unfold Statement encode; simp only [List.length_cons]; omega
theorem addAlImm8 (v : Byte) : Statement (.addAlImm8 v) := ⟨Nat.le_of_ble_eq_true rfl, Nat.le_of_ble_eq_true rfl⟩
theorem addAxImm16 (v : Word) : Statement (.addAxImm16 v) := ⟨Nat.le_of_ble_eq_true rfl, Nat.le_of_ble_eq_true rfl⟩
theorem addRm8Imm8 (d : RM8) (v : Byte) : Statement (.addRm8Imm8 d v) := around (pre := [_]) (post := [v]) (rm8_bounds 0 d) (Nat.le_of_ble_eq_true rfl)
theorem addRm16Imm16 (d : RM16) (v : Word) : Statement (.addRm16Imm16 d v) := around (pre := [_]) (post := encodeWord v) (rm16_bounds 0 d) (Nat.le_of_ble_eq_true rfl)
theorem addRm16Imm8 (d : RM16) (v : Byte) : Statement (.addRm16Imm8 d v) := around (pre := [_]) (post := [v]) (rm16_bounds 0 d) (Nat.le_of_ble_eq_true rfl)
theorem orRm8R8 (d : RM8) (r : Reg8) : Statement (.orRm8R8 d r) := by
  have h := rm8_bounds r.code d; unfold Statement encode; simp only [List.length_cons]; omega
theorem orRm16R16 (d : RM16) (r : Reg16) : Statement (.orRm16R16 d r) := by
  have h := rm16_bounds r.code d; unfold Statement encode; simp only [List.length_cons]; omega
theorem orR8Rm8 (r : Reg8) (d : RM8) : Statement (.orR8Rm8 r d) := by
  have h := rm8_bounds r.code d; unfold Statement encode; simp only [List.length_cons]; omega
theorem orR16Rm16 (r : Reg16) (d : RM16) : Statement (.orR16Rm16 r d) := by
  have h := rm16_bounds r.code d; unfold Statement encode; simp only [List.length_cons]; omega
theorem orAlImm8 (v : Byte) : Statement (.orAlImm8 v) := ⟨Nat.le_of_ble_eq_true rfl, Nat.le_of_ble_eq_true rfl⟩
theorem orAxImm16 (v : Word) : Statement (.orAxImm16 v) := ⟨Nat.le_of_ble_eq_true rfl, Nat.le_of_ble_eq_true rfl⟩
theorem orRm8Imm8 (d : RM8) (v : Byte) : Statement (.orRm8Imm8 d v) := around (pre := [_]) (post := [v]) (rm8_bounds 1 d) (Nat.le_of_ble_eq_true rfl)
theorem orRm16Imm16 (d : RM16) (v : Word) : Statement (.orRm16Imm16 d v) := around (pre := [_]) (post := encodeWord v) (rm16_bounds 1 d) (Nat.le_of_ble_eq_true rfl)
theorem orRm16Imm8 (d : RM16) (v : Byte) : Statement (.orRm16Imm8 d v) := around (pre := [_]) (post := [v]) (rm16_bounds 1 d) (Nat.le_of_ble_eq_true rfl)
theorem adcRm8R8 (d : RM8) (r : Reg8) : Statement (.adcRm8R8 d r) := by
  have h := rm8_bounds r.code d; unfold Statement encode; simp only [List.length_cons]; omega
theorem adcRm16R16 (d : RM16) (r : Reg16) : Statement (.adcRm16R16 d r) := by
  have h := rm16_bounds r.code d; unfold Statement encode; simp only [List.length_cons]; omega
theorem adcR8Rm8 (r : Reg8) (d : RM8) : Statement (.adcR8Rm8 r d) := by
  have h := rm8_bounds r.code d; unfold Statement encode; simp only [List.length_cons]; omega
theorem adcR16Rm16 (r : Reg16) (d : RM16) : Statement (.adcR16Rm16 r d) := by
  have h := rm16_bounds r.code d; unfold Statement encode; simp only [List.length_cons]; omega
theorem adcAlImm8 (v : Byte) : Statement (.adcAlImm8 v) := ⟨Nat.le_of_ble_eq_true rfl, Nat.le_of_ble_eq_true rfl⟩
theorem adcAxImm16 (v : Word) : Statement (.adcAxImm16 v) := ⟨Nat.le_of_ble_eq_true rfl, Nat.le_of_ble_eq_true rfl⟩
theorem adcRm8Imm8 (d : RM8) (v : Byte) : Statement (.adcRm8Imm8 d v) := around (pre := [_]) (post := [v]) (rm8_bounds 2 d) (Nat.le_of_ble_eq_true rfl)
theorem adcRm16Imm16 (d : RM16) (v : Word) : Statement (.adcRm16Imm16 d v) := around (pre := [_]) (post := encodeWord v) (rm16_bounds 2 d) (Nat.le_of_ble_eq_true rfl)
theorem adcRm16Imm8 (d : RM16) (v : Byte) : Statement (.adcRm16Imm8 d v) := around (pre := [_]) (post := [v]) (rm16_bounds 2 d) (Nat.le_of_ble_eq_true rfl)
theorem sbbRm8R8 (d : RM8) (r : Reg8) : Statement (.sbbRm8R8 d r) := by
  have h := rm8_bounds r.code d; unfold Statement encode; simp only [List.length_cons]; omega
theorem sbbRm16R16 (d : RM16) (r : Reg16) : Statement (.sbbRm16R16 d r) := by
  have h := rm16_bounds r.code d; unfold Statement encode; simp only [List.length_cons]; omega
theorem sbbR8Rm8 (r : Reg8) (d : RM8) : Statement (.sbbR8Rm8 r d) := by
  have h := rm8_bounds r.code d; unfold Statement encode; simp only [List.length_cons]; omega
theorem sbbR16Rm16 (r : Reg16) (d : RM16) : Statement (.sbbR16Rm16 r d) := by
  have h := rm16_bounds r.code d; unfold Statement encode; simp only [List.length_cons]; omega
theorem sbbAlImm8 (v : Byte) : Statement (.sbbAlImm8 v) := ⟨Nat.le_of_ble_eq_true rfl, Nat.le_of_ble_eq_true rfl⟩
theorem sbbAxImm16 (v : Word) : Statement (.sbbAxImm16 v) := ⟨Nat.le_of_ble_eq_true rfl, Nat.le_of_ble_eq_true rfl⟩
theorem sbbRm8Imm8 (d : RM8) (v : Byte) : Statement (.sbbRm8Imm8 d v) := around (pre := [_]) (post := [v]) (rm8_bounds 3 d) (Nat.le_of_ble_eq_true rfl)
theorem sbbRm16Imm16 (d : RM16) (v : Word) : Statement (.sbbRm16Imm16 d v) := around (pre := [_]) (post := encodeWord v) (rm16_bounds 3 d) (Nat.le_of_ble_eq_true rfl)
theorem sbbRm16Imm8 (d : RM16) (v : Byte) : Statement (.sbbRm16Imm8 d v) := around (pre := [_]) (post := [v]) (rm16_bounds 3 d) (Nat.le_of_ble_eq_true rfl)
theorem andRm8R8 (d : RM8) (r : Reg8) : Statement (.andRm8R8 d r) := by
  have h := rm8_bounds r.code d; unfold Statement encode; simp only [List.length_cons]; omega
theorem andRm16R16 (d : RM16) (r : Reg16) : Statement (.andRm16R16 d r) := by
  have h := rm16_bounds r.code d; unfold Statement encode; simp only [List.length_cons]; omega
theorem andR8Rm8 (r : Reg8) (d : RM8) : Statement (.andR8Rm8 r d) := by
  have h := rm8_bounds r.code d; unfold Statement encode; simp only [List.length_cons]; omega
theorem andR16Rm16 (r : Reg16) (d : RM16) : Statement (.andR16Rm16 r d) := by
  have h := rm16_bounds r.code d; unfold Statement encode; simp only [List.length_cons]; omega
theorem andAlImm8 (v : Byte) : Statement (.andAlImm8 v) := ⟨Nat.le_of_ble_eq_true rfl, Nat.le_of_ble_eq_true rfl⟩
theorem andAxImm16 (v : Word) : Statement (.andAxImm16 v) := ⟨Nat.le_of_ble_eq_true rfl, Nat.le_of_ble_eq_true rfl⟩
theorem andRm8Imm8 (d : RM8) (v : Byte) : Statement (.andRm8Imm8 d v) := around (pre := [_]) (post := [v]) (rm8_bounds 4 d) (Nat.le_of_ble_eq_true rfl)
theorem andRm16Imm16 (d : RM16) (v : Word) : Statement (.andRm16Imm16 d v) := around (pre := [_]) (post := encodeWord v) (rm16_bounds 4 d) (Nat.le_of_ble_eq_true rfl)
theorem andRm16Imm8 (d : RM16) (v : Byte) : Statement (.andRm16Imm8 d v) := around (pre := [_]) (post := [v]) (rm16_bounds 4 d) (Nat.le_of_ble_eq_true rfl)
theorem subRm8R8 (d : RM8) (r : Reg8) : Statement (.subRm8R8 d r) := by
  have h := rm8_bounds r.code d; unfold Statement encode; simp only [List.length_cons]; omega
theorem subRm16R16 (d : RM16) (r : Reg16) : Statement (.subRm16R16 d r) := by
  have h := rm16_bounds r.code d; unfold Statement encode; simp only [List.length_cons]; omega
theorem subR8Rm8 (r : Reg8) (d : RM8) : Statement (.subR8Rm8 r d) := by
  have h := rm8_bounds r.code d; unfold Statement encode; simp only [List.length_cons]; omega
theorem subR16Rm16 (r : Reg16) (d : RM16) : Statement (.subR16Rm16 r d) := by
  have h := rm16_bounds r.code d; unfold Statement encode; simp only [List.length_cons]; omega
theorem subAlImm8 (v : Byte) : Statement (.subAlImm8 v) := ⟨Nat.le_of_ble_eq_true rfl, Nat.le_of_ble_eq_true rfl⟩
theorem subAxImm16 (v : Word) : Statement (.subAxImm16 v) := ⟨Nat.le_of_ble_eq_true rfl, Nat.le_of_ble_eq_true rfl⟩
theorem subRm8Imm8 (d : RM8) (v : Byte) : Statement (.subRm8Imm8 d v) := around (pre := [_]) (post := [v]) (rm8_bounds 5 d) (Nat.le_of_ble_eq_true rfl)
theorem subRm16Imm16 (d : RM16) (v : Word) : Statement (.subRm16Imm16 d v) := around (pre := [_]) (post := encodeWord v) (rm16_bounds 5 d) (Nat.le_of_ble_eq_true rfl)
theorem subRm16Imm8 (d : RM16) (v : Byte) : Statement (.subRm16Imm8 d v) := around (pre := [_]) (post := [v]) (rm16_bounds 5 d) (Nat.le_of_ble_eq_true rfl)
theorem xorRm8R8 (d : RM8) (r : Reg8) : Statement (.xorRm8R8 d r) := by
  have h := rm8_bounds r.code d; unfold Statement encode; simp only [List.length_cons]; omega
theorem xorRm16R16 (d : RM16) (r : Reg16) : Statement (.xorRm16R16 d r) := by
  have h := rm16_bounds r.code d; unfold Statement encode; simp only [List.length_cons]; omega
theorem xorR8Rm8 (r : Reg8) (d : RM8) : Statement (.xorR8Rm8 r d) := by
  have h := rm8_bounds r.code d; unfold Statement encode; simp only [List.length_cons]; omega
theorem xorR16Rm16 (r : Reg16) (d : RM16) : Statement (.xorR16Rm16 r d) := by
  have h := rm16_bounds r.code d; unfold Statement encode; simp only [List.length_cons]; omega
theorem xorAlImm8 (v : Byte) : Statement (.xorAlImm8 v) := ⟨Nat.le_of_ble_eq_true rfl, Nat.le_of_ble_eq_true rfl⟩
theorem xorAxImm16 (v : Word) : Statement (.xorAxImm16 v) := ⟨Nat.le_of_ble_eq_true rfl, Nat.le_of_ble_eq_true rfl⟩
theorem xorRm8Imm8 (d : RM8) (v : Byte) : Statement (.xorRm8Imm8 d v) := around (pre := [_]) (post := [v]) (rm8_bounds 6 d) (Nat.le_of_ble_eq_true rfl)
theorem xorRm16Imm16 (d : RM16) (v : Word) : Statement (.xorRm16Imm16 d v) := around (pre := [_]) (post := encodeWord v) (rm16_bounds 6 d) (Nat.le_of_ble_eq_true rfl)
theorem xorRm16Imm8 (d : RM16) (v : Byte) : Statement (.xorRm16Imm8 d v) := around (pre := [_]) (post := [v]) (rm16_bounds 6 d) (Nat.le_of_ble_eq_true rfl)
theorem incRm8 (d : RM8) : Statement (.incRm8 d) := by
  have h := rm8_bounds 0 d; unfold Statement encode; simp only [List.length_cons]; omega
theorem incRm16 (d : RM16) : Statement (.incRm16 d) := by
  have h := rm16_bounds 0 d; unfold Statement encode; simp only [List.length_cons]; omega
theorem incR16 (r : Reg16) : Statement (.incR16 r) := ⟨Nat.le_of_ble_eq_true rfl, Nat.le_of_ble_eq_true rfl⟩
theorem decRm8 (d : RM8) : Statement (.decRm8 d) := by
  have h := rm8_bounds 1 d; unfold Statement encode; simp only [List.length_cons]; omega
theorem decRm16 (d : RM16) : Statement (.decRm16 d) := by
  have h := rm16_bounds 1 d; unfold Statement encode; simp only [List.length_cons]; omega
theorem decR16 (r : Reg16) : Statement (.decR16 r) := ⟨Nat.le_of_ble_eq_true rfl, Nat.le_of_ble_eq_true rfl⟩
theorem notRm8 (d : RM8) : Statement (.notRm8 d) := by
  have h := rm8_bounds 2 d; unfold Statement encode; simp only [List.length_cons]; omega
theorem notRm16 (d : RM16) : Statement (.notRm16 d) := by
  have h := rm16_bounds 2 d; unfold Statement encode; simp only [List.length_cons]; omega
theorem negRm8 (d : RM8) : Statement (.negRm8 d) := by
  have h := rm8_bounds 3 d; unfold Statement encode; simp only [List.length_cons]; omega
theorem negRm16 (d : RM16) : Statement (.negRm16 d) := by
  have h := rm16_bounds 3 d; unfold Statement encode; simp only [List.length_cons]; omega
theorem int3 : Statement .int3 := ⟨Nat.le_of_ble_eq_true rfl, Nat.le_of_ble_eq_true rfl⟩
theorem intN (v : Byte) : Statement (.intN v) := ⟨Nat.le_of_ble_eq_true rfl, Nat.le_of_ble_eq_true rfl⟩
theorem into : Statement .into := ⟨Nat.le_of_ble_eq_true rfl, Nat.le_of_ble_eq_true rfl⟩
theorem boundR16M (r : Reg16) (m : Mem) : Statement (.boundR16M r m) := by
  have h := mem_bounds r.code m; unfold Statement encode; simp only [List.length_cons]; omega
theorem iret : Statement .iret := ⟨Nat.le_of_ble_eq_true rfl, Nat.le_of_ble_eq_true rfl⟩
theorem callRel16 (v : Word) : Statement (.callRel16 v) := ⟨Nat.le_of_ble_eq_true rfl, Nat.le_of_ble_eq_true rfl⟩
theorem callRm16 (d : RM16) : Statement (.callRm16 d) := by
  have h := rm16_bounds 2 d; unfold Statement encode; simp only [List.length_cons]; omega
theorem callPtr16 (o : Word) (c : Word) : Statement (.callPtr16 o c) := ⟨Nat.le_of_ble_eq_true rfl, Nat.le_of_ble_eq_true rfl⟩
theorem callM16 (m : Mem) : Statement (.callM16 m) := by
  have h := mem_bounds 3 m; unfold Statement encode; simp only [List.length_cons]; omega
theorem lidtM (m : Mem) : Statement (.lidtM m) := by
  have h := mem_bounds 3 m; unfold Statement encode; simp only [List.length_cons]; omega
theorem esc (x : BitVec 3) (y : BitVec 3) (d : RM16) : Statement (.esc x y d) := by
  have h := rm16_bounds y d; unfold Statement encode; simp only [List.length_cons]; omega
theorem wait : Statement .wait := ⟨Nat.le_of_ble_eq_true rfl, Nat.le_of_ble_eq_true rfl⟩

end Sys2Proof.Laws.EncodedLength
end

