-- ==== Sys2Proof/Laws/Rotate.lean ====
section
/-! SUPPORT. What the shifts and rotates compute, as the relations claims use (42_shift_rotate.md). -/

namespace Sys2Proof.Machine
open Sys2Proof

/-- The low five bits are the count modulo 32 (R130). -/
theorem maskedCount_eq (b : Byte) : maskedCount b = b.toNat % 32 := by
  unfold maskedCount
  rw [BitVec.toNat_and]
  exact Nat.and_two_pow_sub_one_eq_mod b.toNat 5

theorem OnlyFlags.of_shiftOf {fs : List Flag} {a b : Word} (c v free) (hf : .ovf ∈ fs) (h : OnlyFlags fs a b) :
    OnlyFlags fs a (shiftOf c v free b) := by
  unfold shiftOf drawFlag; split <;> exact OnlyFlags.of_setFlag _ _ hf h
theorem getFlag_shiftOf_ne {f : Flag} (hf : f ≠ .ovf) (c v free b) : getFlag f (shiftOf c v free b) = getFlag f b := by
  unfold shiftOf drawFlag; split <;> rw [getFlag_setFlag, if_neg hf.symm]
theorem getFlag_shiftOf_one {c} (h : c = 1) (v free b) : getFlag .ovf (shiftOf c v free b) = v := by
  simp [shiftOf, h]
theorem ResultFlags.of_shiftOf {w} {r : BitVec w} {fl} (c v free) (h : ResultFlags r fl) :
    ResultFlags r (shiftOf c v free fl) := by
  unfold shiftOf drawFlag; split <;> exact ResultFlags.of_setFlag _ _ (by simp) h
theorem resultFlags_shiftFlags {w} (r : BitVec w) (free fl) : ResultFlags r (shiftFlags r free fl) :=
  ResultFlags.of_setFlag _ _ (by simp) (resultFlags_spec _ _)
theorem onlyFlags_shiftFlags {w} (r : BitVec w) (free fl) : OnlyFlags arithFlags fl (shiftFlags r free fl) :=
  OnlyFlags.of_setFlag _ _ (by simp [arithFlags]) (onlyFlags_result _ _ (by simp [arithFlags]) (by simp [arithFlags]) (by simp [arithFlags]))

theorem rotateLeft_isRol {w} (hw : 1 < w) (v : BitVec w) (c : Nat) (fl free) :
    IsRol v c fl (rotateLeft v c fl free).1 (rotateLeft v c fl free).2 := by
  have hr : c % w < w := Nat.mod_lt _ (by omega)
  refine ⟨?_, ?_, ?_, ?_⟩
  · intro i hi
    simp only [rotateLeft, BitVec.getLsbD_or, BitVec.getLsbD_shiftLeft, BitVec.getLsbD_ushiftRight]
    by_cases h : i < c % w
    · have e : (i + (w - c % w)) % w = w - c % w + i := by rw [Nat.mod_eq_of_lt (by omega)]; omega
      rw [e]; simp [h]
    · have e : (i + (w - c % w)) % w = i - c % w := by
        rw [show i + (w - c % w) = (i - c % w) + w by omega, Nat.add_mod_right, Nat.mod_eq_of_lt (by omega)]
      rw [e, BitVec.getLsbD_of_ge v (w - c % w + i) (by omega)]; simp [h, hi]
  · simp [rotateLeft, getFlag_shiftOf_ne]
  · intro h; simp only [rotateLeft]; rw [getFlag_shiftOf_one h, getFlag_shiftOf_ne (by simp)]; simp
  · exact OnlyFlags.of_shiftOf _ _ _ (by simp) (OnlyFlags.of_setFlag _ _ (by simp) (onlyFlags_refl _ _))

theorem rotateRight_isRor {w} (hw : 1 < w) (v : BitVec w) (c : Nat) (fl free) :
    IsRor v c fl (rotateRight v c fl free).1 (rotateRight v c fl free).2 := by
  have hr : c % w < w := Nat.mod_lt _ (by omega)
  refine ⟨?_, ?_, ?_, ?_⟩
  · intro i hi
    have e0 : (i + c) % w = (i + c % w) % w := by simp
    simp only [rotateRight, BitVec.getLsbD_or, BitVec.getLsbD_shiftLeft, BitVec.getLsbD_ushiftRight]
    rw [e0]
    by_cases h : i + c % w < w
    · rw [Nat.mod_eq_of_lt h]; simp [show i < w - c % w by omega, Nat.add_comm]
    · have e : (i + c % w) % w = i - (w - c % w) := by
        rw [show i + c % w = (i - (w - c % w)) + w by omega, Nat.add_mod_right, Nat.mod_eq_of_lt (by omega)]
      rw [e, BitVec.getLsbD_of_ge v (c % w + i) (by omega)]; simp [hi, show ¬ i < w - c % w by omega]
  · simp [rotateRight, getFlag_shiftOf_ne]
  · intro h; simp only [rotateRight]; rw [getFlag_shiftOf_one h]
  · exact OnlyFlags.of_shiftOf _ _ _ (by simp) (OnlyFlags.of_setFlag _ _ (by simp) (onlyFlags_refl _ _))

/-- A bit of CF ++ v. -/
theorem cons_getLsbD {w} (b : Bool) (v : BitVec w) (i : Nat) :
    (BitVec.cons b v).getLsbD i = if i = w then b else v.getLsbD i := by
  rw [BitVec.getLsbD_cons]

/-- CF ++ v rotated left by n, of w + 1 bits (R133). -/
theorem rclSteps_spec {w} (hw : 0 < w) (n : Nat) (v : BitVec w) (c : Bool) (hn : n ≤ w + 1) :
    ∀ i < w + 1, (BitVec.cons (rclSteps n (v, c)).2 (rclSteps n (v, c)).1).getLsbD i =
      (BitVec.cons c v).getLsbD ((i + (w + 1 - n)) % (w + 1)) := by
  induction n generalizing v c with
  | zero => intro i hi; simp [rclSteps, Nat.mod_eq_of_lt hi]
  | succ n ih =>
    intro i hi
    rw [rclSteps, ih _ _ (by omega) i hi]
    set j := (i + (w + 1 - n)) % (w + 1) with hj
    have hjl : j < w + 1 := Nat.mod_lt _ (by omega)
    have hk : (i + (w + 1 - (n + 1))) % (w + 1) = if j = 0 then w else j - 1 := by
      have : i + (w + 1 - n) = (i + (w + 1 - (n+1))) + 1 := by omega
      rw [this] at hj
      have h2 := Nat.add_mod (i + (w + 1 - (n+1))) 1 (w + 1)
      have h3 : (i + (w + 1 - (n+1))) % (w + 1) < w + 1 := Nat.mod_lt _ (by omega)
      rw [Nat.mod_eq_of_lt (show 1 < w + 1 by omega)] at h2
      rw [h2] at hj
      generalize (i + (w + 1 - (n+1))) % (w + 1) = k at *
      by_cases hkw : k = w
      · subst hkw; simp at hj; simp [hj]
      · rw [Nat.mod_eq_of_lt (by omega)] at hj; simp [hj]
    rw [hk, cons_getLsbD, cons_getLsbD]
    by_cases h0 : j = 0
    · rw [h0]; simp [show ¬ 0 = w by omega, hw]
    · by_cases h1 : j = w
      · rw [h1]; simp [show ¬ w = 0 by omega, show ¬ w - 1 = w by omega, BitVec.msb_eq_getLsbD_last]
      · simp [h0, h1, show ¬ j - 1 = w by omega, show j < w by omega]
        rw [BitVec.getLsbD_eq_getElem]

/-- CF ++ v rotated right by n, of w + 1 bits (R134). -/
theorem rcrSteps_spec {w} (hw : 0 < w) (n : Nat) (v : BitVec w) (c : Bool) :
    ∀ i < w + 1, (BitVec.cons (rcrSteps n (v, c)).2 (rcrSteps n (v, c)).1).getLsbD i =
      (BitVec.cons c v).getLsbD ((i + n) % (w + 1)) := by
  induction n generalizing v c with
  | zero => intro i hi; simp [rcrSteps, Nat.mod_eq_of_lt hi]
  | succ n ih =>
    intro i hi
    rw [rcrSteps, ih _ _ i hi]
    set j := (i + n) % (w + 1) with hj
    have hjl : j < w + 1 := Nat.mod_lt _ (by omega)
    have hk : (i + (n + 1)) % (w + 1) = if j = w then 0 else j + 1 := by
      rw [← Nat.add_assoc, Nat.add_mod, ← hj, Nat.mod_eq_of_lt (show 1 < w + 1 by omega)]
      split
      · next h => rw [h]; simp
      · exact Nat.mod_eq_of_lt (by omega)
    rw [hk, cons_getLsbD, cons_getLsbD]
    by_cases h1 : j = w
    · simp [h1, show ¬ 0 = w by omega]
    · have hlt : j < w := by omega
      simp only [h1, if_false, BitVec.getLsbD_or, BitVec.getLsbD_ushiftRight, BitVec.getLsbD_shiftLeft, hlt, decide_true, Bool.true_and]
      by_cases h2 : j + 1 = w
      · simp [h2, show ¬ j < w - 1 by omega, show j - (w - 1) = 0 by omega, hw, BitVec.getLsbD_of_ge, show 1 + j = w by omega]
      · simp [h2, show j < w - 1 by omega, Nat.add_comm 1 j]

theorem rotateCarryLeft_isRcl {w} (hw : 0 < w) (v : BitVec w) (c : Nat) (fl free) :
    IsRcl v c fl (rotateCarryLeft v c fl free).1 (rotateCarryLeft v c fl free).2 := by
  have hr : c % (w + 1) < w + 1 := Nat.mod_lt _ (by omega)
  have hcf : getFlag .cf (rotateCarryLeft v c fl free).2 = (rclSteps (c % (w + 1)) (v, getFlag .cf fl)).2 := by
    simp [rotateCarryLeft, getFlag_shiftOf_ne]
  refine ⟨?_, ?_, ?_⟩
  · intro i hi
    rw [hcf]; exact rclSteps_spec hw _ v _ hr.le i hi
  · intro h; rw [hcf]; simp only [rotateCarryLeft]; rw [getFlag_shiftOf_one h]
  · exact OnlyFlags.of_shiftOf _ _ _ (by simp) (OnlyFlags.of_setFlag _ _ (by simp) (onlyFlags_refl _ _))

theorem rotateCarryRight_isRcr {w} (hw : 0 < w) (v : BitVec w) (c : Nat) (fl free) :
    IsRcr v c fl (rotateCarryRight v c fl free).1 (rotateCarryRight v c fl free).2 := by
  have hcf : getFlag .cf (rotateCarryRight v c fl free).2 = (rcrSteps (c % (w + 1)) (v, getFlag .cf fl)).2 := by
    simp [rotateCarryRight]
  refine ⟨?_, ?_, ?_⟩
  · intro i hi
    rw [hcf]
    exact (rcrSteps_spec hw _ v _ i hi).trans (by simp)
  · intro h; simp only [rotateCarryRight]; rw [getFlag_setFlag, if_neg (by simp), getFlag_shiftOf_one h]
  · exact OnlyFlags.of_setFlag _ _ (by simp) (OnlyFlags.of_shiftOf _ _ _ (by simp) (onlyFlags_refl _ _))

theorem shiftLeft_isShl {w} (_hw : 1 < w) (v : BitVec w) (c : Nat) (fl free) :
    IsShl v c fl (shiftLeft v c fl free).1 (shiftLeft v c fl free).2 := by
  refine ⟨?_, ?_, ?_, ?_, ?_⟩
  · simp [shiftLeft, BitVec.toNat_shiftLeft, Nat.shiftLeft_eq]
  · intro h; simp [shiftLeft, getFlag_shiftOf_ne, h]
  · intro h; simp only [shiftLeft]; rw [getFlag_shiftOf_one h, getFlag_shiftOf_ne (by simp)]; simp
  · exact ResultFlags.of_shiftOf _ _ _ (ResultFlags.of_setFlag _ _ (by simp) (resultFlags_shiftFlags _ _ _))
  · exact OnlyFlags.of_shiftOf _ _ _ (by simp [arithFlags]) (OnlyFlags.of_setFlag _ _ (by simp [arithFlags]) (onlyFlags_shiftFlags _ _ _))

theorem shiftRight_isShr {w} (hw : 1 < w) (v : BitVec w) (c : Nat) (fl free) :
    IsShr v c fl (shiftRight v c fl free).1 (shiftRight v c fl free).2 := by
  refine ⟨?_, ?_, ?_, ?_, ?_⟩
  · simp [shiftRight, Nat.shiftRight_eq_div_pow]
  · intro h; simp [shiftRight, getFlag_shiftOf_ne, show c ≤ w - 1 by omega]
  · intro h; simp only [shiftRight]; rw [getFlag_shiftOf_one h]
  · exact ResultFlags.of_shiftOf _ _ _ (ResultFlags.of_setFlag _ _ (by simp) (resultFlags_shiftFlags _ _ _))
  · exact OnlyFlags.of_shiftOf _ _ _ (by simp [arithFlags]) (OnlyFlags.of_setFlag _ _ (by simp [arithFlags]) (onlyFlags_shiftFlags _ _ _))

theorem shiftArith_isSar {w} (hw : 1 < w) (v : BitVec w) (c : Nat) (fl free) :
    IsSar v c fl (shiftArith v c fl free).1 (shiftArith v c fl free).2 := by
  refine ⟨?_, ?_, ?_, ?_, ?_⟩
  · simp [shiftArith, BitVec.toInt_sshiftRight, Int.shiftRight_eq_div_pow]
  · simp only [shiftArith]; rw [getFlag_shiftOf_ne (by simp)]; simp only [getFlag_setFlag_same]
    by_cases h : c < w
    · simp [h, show c ≤ w - 1 by omega]
    · simp [h, show ¬ c ≤ w - 1 by omega]
  · intro h; simp only [shiftArith]; rw [getFlag_shiftOf_one h]
  · exact ResultFlags.of_shiftOf _ _ _ (ResultFlags.of_setFlag _ _ (by simp) (resultFlags_shiftFlags _ _ _))
  · exact OnlyFlags.of_shiftOf _ _ _ (by simp [arithFlags]) (OnlyFlags.of_setFlag _ _ (by simp [arithFlags]) (onlyFlags_shiftFlags _ _ _))

theorem onlyFlags_drawArith (free fl : Word) : OnlyFlags arithFlags fl (drawArith free fl) := by
  refine OnlyFlags.of_setFlag _ _ ?_ (OnlyFlags.of_setFlag _ _ ?_ (OnlyFlags.of_setFlag _ _ ?_ (OnlyFlags.of_setFlag _ _ ?_ (OnlyFlags.of_setFlag _ _ ?_ (OnlyFlags.of_setFlag _ _ ?_ (onlyFlags_refl _ _)))))) <;> simp [arithFlags]

theorem doubleLeft_isShld (v x : Word) (c : Nat) (fl free fr) :
    IsShld v x c fl (doubleLeft v x c fl free fr).1 (doubleLeft v x c fl free fr).2 := by
  unfold doubleLeft
  split
  · exact ⟨onlyFlags_drawArith _ _, fun h => by omega⟩
  · next hc =>
    refine ⟨?_, fun h => ⟨?_, ?_, ?_, ?_⟩⟩
    · exact OnlyFlags.of_shiftOf _ _ _ (by simp [arithFlags]) (OnlyFlags.of_setFlag _ _ (by simp [arithFlags]) (onlyFlags_shiftFlags _ _ _))
    · intro i hi
      simp only [BitVec.getLsbD_or, BitVec.getLsbD_shiftLeft, BitVec.getLsbD_ushiftRight]
      by_cases h : i < c
      · simp [h]
      · simp [h, hi, BitVec.getLsbD_of_ge x (16 - c + i) (by omega)]
    · simp [getFlag_shiftOf_ne]
    · intro h; rw [getFlag_shiftOf_one h]
    · exact ResultFlags.of_shiftOf _ _ _ (ResultFlags.of_setFlag _ _ (by simp) (resultFlags_shiftFlags _ _ _))

theorem doubleRight_isShrd (v x : Word) (c : Nat) (fl free fr) :
    IsShrd v x c fl (doubleRight v x c fl free fr).1 (doubleRight v x c fl free fr).2 := by
  unfold doubleRight
  split
  · exact ⟨onlyFlags_drawArith _ _, fun h => by omega⟩
  · next hc =>
    refine ⟨?_, fun h => ⟨?_, ?_, ?_, ?_⟩⟩
    · exact OnlyFlags.of_shiftOf _ _ _ (by simp [arithFlags]) (OnlyFlags.of_setFlag _ _ (by simp [arithFlags]) (onlyFlags_shiftFlags _ _ _))
    · intro i hi
      simp only [BitVec.getLsbD_or, BitVec.getLsbD_shiftLeft, BitVec.getLsbD_ushiftRight]
      by_cases h : i + c < 16
      · simp [h, show i < 16 - c by omega, Nat.add_comm c i]
      · simp [h, hi, BitVec.getLsbD_of_ge v (c + i) (by omega), show ¬ i < 16 - c by omega, show i - (16 - c) = i + c - 16 by omega]
    · simp [getFlag_shiftOf_ne]
    · intro h; rw [getFlag_shiftOf_one h]
    · exact ResultFlags.of_shiftOf _ _ _ (ResultFlags.of_setFlag _ _ (by simp) (resultFlags_shiftFlags _ _ _))

end Sys2Proof.Machine
end

