-- ==== Sys2Proof/Laws/Stable.lean ====
section
/-! SUPPORT. More bytes after an instruction change nothing of what is read (30_encoding.md R78): a parser that does not
find the bytes too few answers the same when more follow. -/

namespace Sys2Proof
open Sys2Proof.Machine

/-- The same answer with more bytes left. -/
def grow {α : Type} (x : List Byte) : Parsed α → Parsed α
  | .ok (a, r) => .ok (a, r ++ x)
  | .error e => .error e

/-- More bytes do not change an answer other than `short`. -/
def Stable {α : Type} (p : List Byte → Parsed α) : Prop := ∀ bs x, p bs ≠ .error .short → p (bs ++ x) = grow x (p bs)

theorem Stable.andThen {α β : Type} {p : List Byte → Parsed α} {f : α → List Byte → Parsed β} (hp : Stable p)
    (hf : ∀ a, Stable (f a)) : Stable (fun bs => Sys2Proof.andThen (p bs) f) := by
  intro bs x h
  simp only at h ⊢
  cases e : p bs with
  | ok q =>
    obtain ⟨a, r⟩ := q
    rw [hp bs x (by rw [e]; exact fun h => by cases h), e]
    rw [e] at h
    exact hf a r x h
  | error e' =>
    rw [e] at h
    rw [hp bs x (by rw [e]; intro h'; cases h'; exact h rfl), e]
    rfl

theorem Stable.pure {α : Type} (a : α) : Stable (fun bs => (.ok (a, bs) : Parsed α)) := fun _ _ _ => rfl
theorem Stable.error {α : Type} (e : DecodeError) : Stable (fun _ => (.error e : Parsed α)) := fun _ _ _ => rfl

theorem stable_takeByte : Stable takeByte := by
  intro bs x h
  cases bs with
  | nil => exact absurd rfl h
  | cons b bs => rfl
theorem stable_takeWord : Stable takeWord := by
  intro bs x h
  match bs with
  | [] => exact absurd rfl h
  | [_] => exact absurd rfl h
  | _ :: _ :: _ => rfl
theorem stable_takeOperand (b : Byte) : Stable (takeOperand b) := by
  intro bs x h
  unfold takeOperand at h ⊢
  rcases mod_cases (modField b) with hm | hm | hm | hm <;> rw [hm] at h ⊢
  · rw [show (0 : BitVec 2).toNat = 0 from rfl] at h ⊢; simp only at h ⊢
    split
    · next h6 =>
      rw [if_pos h6] at h
      cases e : takeWord bs with
      | ok q => rw [stable_takeWord bs x (by rw [e]; exact fun h => by cases h), e]; rfl
      | error e' =>
        rw [e] at h
        rw [stable_takeWord bs x (by rw [e]; intro h'; cases h'; exact h rfl), e]; rfl
    · rfl
  · rw [show (1 : BitVec 2).toNat = 1 from rfl] at h ⊢; simp only at h ⊢
    cases e : takeByte bs with
    | ok q => rw [stable_takeByte bs x (by rw [e]; exact fun h => by cases h), e]; rfl
    | error e' =>
      rw [e] at h
      rw [stable_takeByte bs x (by rw [e]; intro h'; cases h'; exact h rfl), e]; rfl
  · rw [show (2 : BitVec 2).toNat = 2 from rfl] at h ⊢; simp only at h ⊢
    cases e : takeWord bs with
    | ok q => rw [stable_takeWord bs x (by rw [e]; exact fun h => by cases h), e]; rfl
    | error e' =>
      rw [e] at h
      rw [stable_takeWord bs x (by rw [e]; intro h'; cases h'; exact h rfl), e]; rfl
  · rfl
theorem stable_takeModRm : Stable takeModRm := by
  intro bs x h
  cases bs with
  | nil => exact absurd rfl h
  | cons b bs =>
    unfold takeModRm at h ⊢
    simp only [List.cons_append] at h ⊢
    cases e : takeOperand b bs with
    | ok q => rw [stable_takeOperand b bs x (by rw [e]; exact fun h => by cases h), e]; rfl
    | error e' =>
      rw [e] at h
      rw [stable_takeOperand b bs x (by rw [e]; intro h'; cases h'; exact h rfl), e]; rfl

/-! ### Every parser -/

theorem stable_parseByte (k) : Stable (parseByte k) := Stable.andThen stable_takeByte fun _ => Stable.pure _
theorem stable_parseWord (k) : Stable (parseWord k) := Stable.andThen stable_takeWord fun _ => Stable.pure _
theorem stable_parseWords (k) : Stable (parseWords k) := Stable.andThen stable_takeWord fun _ => stable_parseWord _
theorem stable_parseRm8 (k) : Stable (parseRm8 k) := Stable.andThen stable_takeModRm fun _ => Stable.pure _
theorem stable_parseRm16 (k) : Stable (parseRm16 k) := Stable.andThen stable_takeModRm fun _ => Stable.pure _
theorem stable_parseRm8R8 (k) : Stable (parseRm8R8 k) := Stable.andThen stable_takeModRm fun _ => Stable.pure _
theorem stable_parseRm16R16 (k) : Stable (parseRm16R16 k) := Stable.andThen stable_takeModRm fun _ => Stable.pure _
theorem stable_parseRm8Byte (k) : Stable (parseRm8Byte k) := Stable.andThen stable_takeModRm fun _ => stable_parseByte _
theorem stable_parseRm16Byte (k) : Stable (parseRm16Byte k) := Stable.andThen stable_takeModRm fun _ => stable_parseByte _
theorem stable_parseRm16Word (k) : Stable (parseRm16Word k) := Stable.andThen stable_takeModRm fun _ => stable_parseWord _
theorem stable_parseRm16R16Byte (k) : Stable (parseRm16R16Byte k) :=
  Stable.andThen stable_takeModRm fun _ => stable_parseByte _
theorem stable_parseEsc (x) : Stable (parseEsc x) := Stable.andThen stable_takeModRm fun _ => Stable.pure _
theorem stable_parseMem (k) : Stable (parseMem k) := Stable.andThen stable_takeModRm fun p => by
  cases h : p.2
  · exact Stable.error _
  · exact Stable.pure _
theorem stable_parseSeg (k) : Stable (parseSeg k) := Stable.andThen stable_takeModRm fun p => by
  cases h : Seg.ofCode p.1
  · exact Stable.error _
  · exact Stable.pure _
theorem stable_parseSegDest (k) : Stable (parseSegDest k) := Stable.andThen stable_takeModRm fun p => by
  cases h : Seg.ofCode p.1 with
  | none => exact Stable.error _
  | some g => cases g <;> first | exact Stable.error _ | exact Stable.pure _

/-- A group whose rows are stable. -/
theorem stable_parseGroup {rows : Rows} (hr : ∀ n p, rows n = some p → Stable p) :
    Stable (fun bs => parseGroup bs rows) := by
  intro bs x h
  cases bs with
  | nil => exact absurd rfl h
  | cons b bs =>
    simp only [parseGroup, List.cons_append] at h ⊢
    cases e : rows (regField b).toNat with
    | none => rfl
    | some p => rw [e] at h; exact hr _ _ e (b :: bs) x h

theorem stable_group80 : ∀ n p, group80 n = some p → Stable p := by
  intro n p h; unfold group80 at h; split at h <;> cases h <;> exact stable_parseRm8Byte _
theorem stable_group81 : ∀ n p, group81 n = some p → Stable p := by
  intro n p h; unfold group81 at h; split at h <;> cases h <;> exact stable_parseRm16Word _
theorem stable_group83 : ∀ n p, group83 n = some p → Stable p := by
  intro n p h; unfold group83 at h; split at h <;> cases h <;> exact stable_parseRm16Byte _
theorem stable_groupC0 : ∀ n p, groupC0 n = some p → Stable p := by
  intro n p h; unfold groupC0 at h; split at h <;> cases h <;> exact stable_parseRm8Byte _
theorem stable_groupC1 : ∀ n p, groupC1 n = some p → Stable p := by
  intro n p h; unfold groupC1 at h; split at h <;> cases h <;> exact stable_parseRm16Byte _
theorem stable_groupC6 : ∀ n p, groupC6 n = some p → Stable p := by
  intro n p h; unfold groupC6 at h; split at h <;> cases h; exact stable_parseRm8Byte _
theorem stable_groupC7 : ∀ n p, groupC7 n = some p → Stable p := by
  intro n p h; unfold groupC7 at h; split at h <;> cases h; exact stable_parseRm16Word _
theorem stable_groupD0 : ∀ n p, groupD0 n = some p → Stable p := by
  intro n p h; unfold groupD0 at h; split at h <;> cases h <;> exact stable_parseRm8 _
theorem stable_groupD1 : ∀ n p, groupD1 n = some p → Stable p := by
  intro n p h; unfold groupD1 at h; split at h <;> cases h <;> exact stable_parseRm16 _
theorem stable_groupD2 : ∀ n p, groupD2 n = some p → Stable p := by
  intro n p h; unfold groupD2 at h; split at h <;> cases h <;> exact stable_parseRm8 _
theorem stable_groupD3 : ∀ n p, groupD3 n = some p → Stable p := by
  intro n p h; unfold groupD3 at h; split at h <;> cases h <;> exact stable_parseRm16 _
theorem stable_groupF6 : ∀ n p, groupF6 n = some p → Stable p := by
  intro n p h; unfold groupF6 at h; split at h <;> cases h <;> exact stable_parseRm8 _
theorem stable_groupF7 : ∀ n p, groupF7 n = some p → Stable p := by
  intro n p h; unfold groupF7 at h; split at h <;> cases h <;> exact stable_parseRm16 _
theorem stable_groupFE : ∀ n p, groupFE n = some p → Stable p := by
  intro n p h; unfold groupFE at h; split at h <;> cases h <;> exact stable_parseRm8 _
theorem stable_groupFF : ∀ n p, groupFF n = some p → Stable p := by
  intro n p h; unfold groupFF at h; split at h <;> cases h <;> first | exact stable_parseRm16 _ | exact stable_parseMem _
theorem stable_group0F01 : ∀ n p, group0F01 n = some p → Stable p := by
  intro n p h; unfold group0F01 at h; split at h <;> cases h; exact stable_parseMem _
theorem stable_group0FBA : ∀ n p, group0FBA n = some p → Stable p := by
  intro n p h; unfold group0FBA at h; split at h <;> cases h <;> exact stable_parseRm16Byte _

/-! ### The decoder -/

theorem stable_decodePrimary (op : Nat) : Stable (decodePrimary op) := by
  unfold decodePrimary
  split
  all_goals first
    | exact Stable.pure _
    | exact Stable.error _
    | exact stable_parseRm8R8 _
    | exact stable_parseRm16R16 _
    | exact stable_parseByte _
    | exact stable_parseWord _
    | exact stable_parseWords _
    | exact stable_parseMem _
    | exact stable_parseSeg _
    | exact stable_parseSegDest _
    | exact stable_parseEsc _
    | exact stable_parseGroup stable_group80
    | exact stable_parseGroup stable_group81
    | exact stable_parseGroup stable_group83
    | exact stable_parseGroup stable_groupC0
    | exact stable_parseGroup stable_groupC1
    | exact stable_parseGroup stable_groupC6
    | exact stable_parseGroup stable_groupC7
    | exact stable_parseGroup stable_groupD0
    | exact stable_parseGroup stable_groupD1
    | exact stable_parseGroup stable_groupD2
    | exact stable_parseGroup stable_groupD3
    | exact stable_parseGroup stable_groupF6
    | exact stable_parseGroup stable_groupF7
    | exact stable_parseGroup stable_groupFE
    | exact stable_parseGroup stable_groupFF

theorem stable_decodeEscaped (op : Nat) : Stable (decodeEscaped op) := by
  unfold decodeEscaped
  split
  all_goals first
    | exact Stable.pure _
    | exact Stable.error _
    | exact stable_parseRm16R16 _
    | exact stable_parseRm16R16Byte _
    | exact stable_parseGroup stable_group0F01
    | exact stable_parseGroup stable_group0FBA

theorem stable_decodeOp : Stable decodeOp := by
  intro bs x h
  cases bs with
  | nil => exact absurd rfl h
  | cons b bs =>
    simp only [decodeOp, List.cons_append] at h ⊢
    split
    · next h0 =>
      rw [if_pos h0] at h
      cases bs with
      | nil => exact absurd rfl h
      | cons b2 rest => exact stable_decodeEscaped _ rest x h
    · next h0 => rw [if_neg h0] at h; exact stable_decodePrimary _ bs x h

theorem matchPattern_append {p : Pattern} {bs x : List Byte} {r : Bool} (h : matchPattern p bs = some r) :
    matchPattern p (bs ++ x) = some r := by
  induction p generalizing bs with
  | nil => exact h
  | cons q p ih =>
    cases bs with
    | nil => cases h
    | cons b bs =>
      unfold matchPattern at h ⊢
      simp only [List.cons_append] at h ⊢
      split
      · next hq => rw [if_pos hq] at h; exact ih h
      · next hq => rw [if_neg hq] at h; exact h

/-- A pattern matches exactly the bytes it admits. -/
theorem matchPattern_true {p : Pattern} {bs : List Byte} : matchPattern p bs = some true ↔ Admits p bs := by
  induction p generalizing bs with
  | nil => exact ⟨fun _ => ⟨[], bs, rfl, .nil⟩, fun _ => by cases bs <;> rfl⟩
  | cons q p ih =>
    cases bs with
    | nil =>
      constructor
      · intro h; cases h
      · rintro ⟨pre, rest, h, hf⟩
        cases hf; cases h
    | cons b bs =>
      unfold matchPattern
      constructor
      · intro h
        split at h
        · next hq =>
          obtain ⟨pre, rest, rfl, hf⟩ := ih.1 h
          exact ⟨b :: pre, rest, rfl, .cons hq hf⟩
        · cases h
      · rintro ⟨pre, rest, h, hf⟩
        cases hf with
        | cons hq hf =>
          cases h
          rw [if_pos hq]
          exact ih.2 ⟨_, _, rfl, hf⟩

/-- One of the patterns matches exactly where one of them admits the bytes. -/
theorem matchAny_true {l : List Pattern} {bs : List Byte} : matchAny l bs = some true ↔ ∃ p ∈ l, Admits p bs := by
  induction l with
  | nil => simp [matchAny]
  | cons p l ih =>
    simp only [List.mem_cons, exists_eq_or_imp]
    rw [← ih, ← matchPattern_true, matchAny]
    cases e : matchPattern p bs with
    | none =>
      simp only [reduceCtorEq, false_or]
      cases e2 : matchAny l bs with
      | none => simp
      | some r => cases r <;> simp
    | some r => cases r <;> simp

/-- A pattern is ruled out exactly where one of the bytes is not as it has it. -/
theorem matchPattern_false {p : Pattern} {bs : List Byte} : matchPattern p bs = some false ↔ Rejects p bs := by
  induction p generalizing bs with
  | nil =>
    constructor
    · intro h; cases bs <;> cases h
    · rintro ⟨k, q, b, h, -⟩; simp at h
  | cons q p ih =>
    cases bs with
    | nil =>
      constructor
      · intro h; cases h
      · rintro ⟨k, q, b, -, h, -⟩; simp at h
    | cons b bs =>
      unfold matchPattern
      by_cases hq : b &&& q.2 = q.1
      · rw [if_pos hq, ih]
        constructor
        · rintro ⟨k, q', b', h1, h2, h3⟩
          exact ⟨k + 1, q', b', by simpa using h1, by simpa using h2, h3⟩
        · rintro ⟨k, q', b', h1, h2, h3⟩
          cases k with
          | zero => simp at h1 h2; subst h1 h2; exact absurd hq h3
          | succ k => exact ⟨k, q', b', by simpa using h1, by simpa using h2, h3⟩
      · rw [if_neg hq]
        exact ⟨fun _ => ⟨0, q, b, rfl, rfl, hq⟩, fun _ => rfl⟩

/-- None of the patterns can match exactly where each of them rejects the bytes. -/
theorem matchAny_false {l : List Pattern} {bs : List Byte} : matchAny l bs = some false ↔ ∀ p ∈ l, Rejects p bs := by
  induction l with
  | nil => simp [matchAny]
  | cons p l ih =>
    simp only [List.mem_cons, forall_eq_or_imp]
    rw [← ih, ← matchPattern_false, matchAny]
    cases e : matchPattern p bs with
    | none =>
      simp only [reduceCtorEq, false_and, iff_false]
      cases e2 : matchAny l bs with
      | none => simp
      | some r => cases r <;> simp
    | some r => cases r <;> simp

theorem matchAny_append {l : List Pattern} {bs x : List Byte} {r : Bool} (h : matchAny l bs = some r) :
    matchAny l (bs ++ x) = some r := by
  induction l generalizing r with
  | nil => exact h
  | cons p l ih =>
    unfold matchAny at h ⊢
    cases e : matchPattern p bs with
    | none =>
      rw [e] at h; simp only at h
      have hl : matchAny l bs = some true ∧ r = true := by
        split at h
        · next h' => cases h; exact ⟨h', rfl⟩
        · cases h
      obtain ⟨h', rfl⟩ := hl
      have h2 := ih h'
      cases e2 : matchPattern p (bs ++ x) with
      | none => simp [h2]
      | some q => cases q <;> simp [h2]
    | some q =>
      rw [e] at h
      rw [matchPattern_append e]
      cases q
      · exact ih h
      · exact h

/-- What the decoder reads does not change when more bytes follow. -/
theorem stable_decodeWith (l : List Pattern) : Stable (decodeWith l) := by
  intro bs x h
  have hs : decodeOp bs ≠ .error .short := by
    intro e; unfold decodeWith at h; rw [e] at h; exact h rfl
  have ho := stable_decodeOp bs x hs
  unfold decodeWith at h ⊢
  rw [ho]
  cases e : decodeOp bs with
  | ok q => rfl
  | error e' =>
    cases e' with
    | short => exact absurd e hs
    | undefinedForm => rfl
    | unknownOpcode =>
      rw [e] at h
      simp only [grow] at h ⊢
      cases em : matchAny l bs with
      | none => rw [em] at h; exact absurd rfl h
      | some r => rw [matchAny_append em]; cases r <;> rfl

/-- The decoder with UNDEFINED_OPCODES calls a form undefined where the table does, or where a pattern of the set admits
bytes outside the table (R72). -/
theorem decodeWith_undefined {l : List Pattern} {bs : List Byte} : decodeWith l bs = .error .undefinedForm ↔
    decodeOp bs = .error .undefinedForm ∨ decodeOp bs = .error .unknownOpcode ∧ ∃ p ∈ l, Admits p bs := by
  rw [← matchAny_true]
  unfold decodeWith
  cases e : decodeOp bs with
  | ok q => simp
  | error e' =>
    cases e' with
    | short => simp
    | undefinedForm => simp
    | unknownOpcode =>
      cases em : matchAny l bs with
      | none => simp
      | some r => cases r <;> simp

end Sys2Proof
end

