-- ==== Sys2Proof/Tests/Slice0.lean ====
section
/-! SUPPORT. The model's own tests: ill-formed terms refused, every constructor's bytes decoded, vectors of
95_test_vectors.md stepped, and for every statement a state and operands that meet its hypotheses. -/

namespace Sys2Proof.Tests
open Sys2Proof Sys2Proof.Machine

/-! ### Well-formedness -/

/-- PUSH r16 of SP, MOV to CS, and a BP base without displacement have no encoding (R84, R114, R75). -/
theorem test_ill_formed_refused :
    (Instr.pushR16 .sp).wellFormed = false ∧ (Instr.movSregRm16 .cs (.reg .ax)).wellFormed = false ∧
      (Instr.addRm16R16 (.mem (.base .bp)) .ax).wellFormed = false ∧ (Instr.boundR16M .ax (.base .bp)).wellFormed = false ∧
      (Instr.incRm8 (.mem (.base .bp))).wellFormed = false := by decide

theorem test_well_formed_accepted :
    (Instr.pushR16 .bp).wellFormed = true ∧ (Instr.movSregRm16 .ss (.reg .ax)).wellFormed = true ∧
      (Instr.addRm16R16 (.mem (.disp8 .bp 0)) .ax).wellFormed = true := by decide

/-! ### Decoding: bytes from the `match` column of the opcode table and the ModR/M table of R75, operands by hand -/

/-- Each byte sequence decodes, whole, to the instruction beside it. -/
def reads (l : List (List Byte × Instr)) : Bool := l.all fun p => decide (decode p.1 = .ok (p.2, []))

theorem test_decode_prefixes : reads [
    ([0xF0], .lockPrefix),
    ([0x26], .esPrefix),
    ([0x2E], .csPrefix),
    ([0x36], .ssPrefix),
    ([0x3E], .dsPrefix),
    ([0x64], .fsPrefix),
    ([0x65], .gsPrefix),
    ([0xF2], .repnePrefix),
    ([0xF3], .repPrefix),
    ([0x66], .operandSizePrefix),
    ([0x67], .addressSizePrefix)] = true := by decide

theorem test_decode_divides : reads [
    ([0xF6, 0x76, 0xFF], .divRm8 (.mem (.disp8 .bp 0xFF))),
    ([0xF7, 0x36, 0x00, 0x02], .divRm16 (.mem (.direct 0x0200))),
    ([0xF6, 0xF9], .idivRm8 (.reg .cl)),
    ([0xF7, 0x38], .idivRm16 (.mem (.base .bxSi)))] = true := by decide

theorem test_decode_pushes : reads [
    ([0x56], .pushR16 .si),
    ([0x54], .pushSp),
    ([0xFF, 0x73, 0x10], .pushRm16 (.mem (.disp8 .bpDi 0x10))),
    ([0x68, 0xCD, 0xAB], .pushImm16 0xABCD),
    ([0x6A, 0x85], .pushImm8 0x85),
    ([0x06], .pushEs),
    ([0x0E], .pushCs),
    ([0x16], .pushSs),
    ([0x1E], .pushDs),
    ([0x0F, 0xA0], .pushFs),
    ([0x0F, 0xA8], .pushGs),
    ([0x9C], .pushf)] = true := by decide

theorem test_decode_moves : reads [
    ([0x88, 0xDA], .movRm8R8 (.reg .dl) .bl),
    ([0x89, 0x39], .movRm16R16 (.mem (.base .bxDi)) .di),
    ([0x8A, 0x65, 0x80], .movR8Rm8 .ah (.mem (.disp8 .di 0x80))),
    ([0x8B, 0xCB], .movR16Rm16 .cx (.reg .bx)),
    ([0x8C, 0x6E, 0xFF], .movRm16Sreg (.mem (.disp8 .bp 0xFF)) .gs),
    ([0x8E, 0x16, 0x00, 0x02], .movSregRm16 .ss (.mem (.direct 0x0200))),
    ([0xA0, 0xCD, 0xAB], .movAlMoffs8 0xABCD),
    ([0xA1, 0xCD, 0xAB], .movAxMoffs16 0xABCD),
    ([0xA2, 0xCD, 0xAB], .movMoffs8Al 0xABCD),
    ([0xA3, 0xCD, 0xAB], .movMoffs16Ax 0xABCD),
    ([0xB0, 0x85], .movR8Imm8 .al 0x85),
    ([0xBB, 0xCD, 0xAB], .movR16Imm16 .bx 0xABCD),
    ([0xC6, 0xC4, 0x85], .movRm8Imm8 (.reg .ah) 0x85),
    ([0xC7, 0x00, 0xCD, 0xAB], .movRm16Imm16 (.mem (.base .bxSi)) 0xABCD),
    ([0x86, 0x43, 0x10], .xchgRm8R8 (.mem (.disp8 .bpDi 0x10)) .al),
    ([0x87, 0xF5], .xchgRm16R16 (.reg .bp) .si),
    ([0x92], .xchgAxR16 .dx)] = true := by decide

theorem test_decode_rotates : reads [
    ([0xD0, 0x01], .rolRm8One (.mem (.base .bxDi))),
    ([0xD1, 0x45, 0x80], .rolRm16One (.mem (.disp8 .di 0x80))),
    ([0xD2, 0xC6], .rolRm8Cl (.reg .dh)),
    ([0xD3, 0x46, 0xFF], .rolRm16Cl (.mem (.disp8 .bp 0xFF))),
    ([0xC0, 0x06, 0x00, 0x02, 0x85], .rolRm8Imm8 (.mem (.direct 0x0200)) 0x85),
    ([0xC1, 0xC7, 0x85], .rolRm16Imm8 (.reg .di) 0x85),
    ([0xD0, 0x08], .rorRm8One (.mem (.base .bxSi))),
    ([0xD1, 0x4B, 0x10], .rorRm16One (.mem (.disp8 .bpDi 0x10))),
    ([0xD2, 0xC8], .rorRm8Cl (.reg .al)),
    ([0xD3, 0x09], .rorRm16Cl (.mem (.base .bxDi))),
    ([0xC0, 0x4D, 0x80, 0x85], .rorRm8Imm8 (.mem (.disp8 .di 0x80)) 0x85),
    ([0xC1, 0xC9, 0x85], .rorRm16Imm8 (.reg .cx) 0x85),
    ([0xD0, 0x56, 0xFF], .rclRm8One (.mem (.disp8 .bp 0xFF))),
    ([0xD1, 0x16, 0x00, 0x02], .rclRm16One (.mem (.direct 0x0200))),
    ([0xD2, 0xD2], .rclRm8Cl (.reg .dl)),
    ([0xD3, 0x10], .rclRm16Cl (.mem (.base .bxSi))),
    ([0xC0, 0x53, 0x10, 0x85], .rclRm8Imm8 (.mem (.disp8 .bpDi 0x10)) 0x85),
    ([0xC1, 0xD3, 0x85], .rclRm16Imm8 (.reg .bx) 0x85),
    ([0xD0, 0x19], .rcrRm8One (.mem (.base .bxDi))),
    ([0xD1, 0x5D, 0x80], .rcrRm16One (.mem (.disp8 .di 0x80))),
    ([0xD2, 0xDC], .rcrRm8Cl (.reg .ah)),
    ([0xD3, 0x5E, 0xFF], .rcrRm16Cl (.mem (.disp8 .bp 0xFF))),
    ([0xC0, 0x1E, 0x00, 0x02, 0x85], .rcrRm8Imm8 (.mem (.direct 0x0200)) 0x85),
    ([0xC1, 0xDD, 0x85], .rcrRm16Imm8 (.reg .bp) 0x85)] = true := by decide

theorem test_decode_shifts : reads [
    ([0xD0, 0x20], .shlRm8One (.mem (.base .bxSi))),
    ([0xD1, 0x63, 0x10], .shlRm16One (.mem (.disp8 .bpDi 0x10))),
    ([0xD2, 0xE6], .shlRm8Cl (.reg .dh)),
    ([0xD3, 0x21], .shlRm16Cl (.mem (.base .bxDi))),
    ([0xC0, 0x65, 0x80, 0x85], .shlRm8Imm8 (.mem (.disp8 .di 0x80)) 0x85),
    ([0xC1, 0xE7, 0x85], .shlRm16Imm8 (.reg .di) 0x85),
    ([0xD0, 0x6E, 0xFF], .shrRm8One (.mem (.disp8 .bp 0xFF))),
    ([0xD1, 0x2E, 0x00, 0x02], .shrRm16One (.mem (.direct 0x0200))),
    ([0xD2, 0xE8], .shrRm8Cl (.reg .al)),
    ([0xD3, 0x28], .shrRm16Cl (.mem (.base .bxSi))),
    ([0xC0, 0x6B, 0x10, 0x85], .shrRm8Imm8 (.mem (.disp8 .bpDi 0x10)) 0x85),
    ([0xC1, 0xE9, 0x85], .shrRm16Imm8 (.reg .cx) 0x85),
    ([0xD0, 0x39], .sarRm8One (.mem (.base .bxDi))),
    ([0xD1, 0x7D, 0x80], .sarRm16One (.mem (.disp8 .di 0x80))),
    ([0xD2, 0xFA], .sarRm8Cl (.reg .dl)),
    ([0xD3, 0x7E, 0xFF], .sarRm16Cl (.mem (.disp8 .bp 0xFF))),
    ([0xC0, 0x3E, 0x00, 0x02, 0x85], .sarRm8Imm8 (.mem (.direct 0x0200)) 0x85),
    ([0xC1, 0xFB, 0x85], .sarRm16Imm8 (.reg .bx) 0x85),
    ([0x0F, 0xA4, 0x08, 0x85], .shldRm16R16Imm8 (.mem (.base .bxSi)) .cx 0x85),
    ([0x0F, 0xA5, 0x73, 0x10], .shldRm16R16Cl (.mem (.disp8 .bpDi 0x10)) .si),
    ([0x0F, 0xAC, 0xDC, 0x85], .shrdRm16R16Imm8 (.reg .sp) .bx 0x85),
    ([0x0F, 0xAD, 0x01], .shrdRm16R16Cl (.mem (.base .bxDi)) .ax)] = true := by decide

theorem test_decode_bit_tests : reads [
    ([0x0F, 0xAB, 0x6D, 0x80], .btsRm16R16 (.mem (.disp8 .di 0x80)) .bp),
    ([0x0F, 0xBA, 0xED, 0x85], .btsRm16Imm8 (.reg .bp) 0x85),
    ([0x0F, 0xB3, 0x7E, 0xFF], .btrRm16R16 (.mem (.disp8 .bp 0xFF)) .di),
    ([0x0F, 0xBA, 0x36, 0x00, 0x02, 0x85], .btrRm16Imm8 (.mem (.direct 0x0200)) 0x85),
    ([0x0F, 0xBB, 0xCE], .btcRm16R16 (.reg .si) .cx),
    ([0x0F, 0xBA, 0x38, 0x85], .btcRm16Imm8 (.mem (.base .bxSi)) 0x85)] = true := by decide

theorem test_decode_add_adc : reads [
    ([0x00, 0x5B, 0x10], .addRm8R8 (.mem (.disp8 .bpDi 0x10)) .bl),
    ([0x01, 0xC7], .addRm16R16 (.reg .di) .ax),
    ([0x02, 0x29], .addR8Rm8 .ch (.mem (.base .bxDi))),
    ([0x03, 0x55, 0x80], .addR16Rm16 .dx (.mem (.disp8 .di 0x80))),
    ([0x04, 0x85], .addAlImm8 0x85),
    ([0x05, 0xCD, 0xAB], .addAxImm16 0xABCD),
    ([0x80, 0xC0, 0x85], .addRm8Imm8 (.reg .al) 0x85),
    ([0x81, 0x46, 0xFF, 0xCD, 0xAB], .addRm16Imm16 (.mem (.disp8 .bp 0xFF)) 0xABCD),
    ([0x83, 0x06, 0x00, 0x02, 0x85], .addRm16Imm8 (.mem (.direct 0x0200)) 0x85),
    ([0x10, 0x6E, 0xFF], .adcRm8R8 (.mem (.disp8 .bp 0xFF)) .ch),
    ([0x11, 0x16, 0x00, 0x02], .adcRm16R16 (.mem (.direct 0x0200)) .dx),
    ([0x12, 0xFC], .adcR8Rm8 .bh (.reg .ah)),
    ([0x13, 0x20], .adcR16Rm16 .sp (.mem (.base .bxSi))),
    ([0x14, 0x85], .adcAlImm8 0x85),
    ([0x15, 0xCD, 0xAB], .adcAxImm16 0xABCD),
    ([0x80, 0x53, 0x10, 0x85], .adcRm8Imm8 (.mem (.disp8 .bpDi 0x10)) 0x85),
    ([0x81, 0xD5, 0xCD, 0xAB], .adcRm16Imm16 (.reg .bp) 0xABCD),
    ([0x83, 0x11, 0x85], .adcRm16Imm8 (.mem (.base .bxDi)) 0x85)] = true := by decide

theorem test_decode_sub_sbb : reads [
    ([0x18, 0x55, 0x80], .sbbRm8R8 (.mem (.disp8 .di 0x80)) .dl),
    ([0x19, 0xFE], .sbbRm16R16 (.reg .si) .di),
    ([0x1A, 0x66, 0xFF], .sbbR8Rm8 .ah (.mem (.disp8 .bp 0xFF))),
    ([0x1B, 0x0E, 0x00, 0x02], .sbbR16Rm16 .cx (.mem (.direct 0x0200))),
    ([0x1C, 0x85], .sbbAlImm8 0x85),
    ([0x1D, 0xCD, 0xAB], .sbbAxImm16 0xABCD),
    ([0x80, 0xDF, 0x85], .sbbRm8Imm8 (.reg .bh) 0x85),
    ([0x81, 0x18, 0xCD, 0xAB], .sbbRm16Imm16 (.mem (.base .bxSi)) 0xABCD),
    ([0x83, 0x5B, 0x10, 0x85], .sbbRm16Imm8 (.mem (.disp8 .bpDi 0x10)) 0x85),
    ([0x28, 0x20], .subRm8R8 (.mem (.base .bxSi)) .ah),
    ([0x29, 0x4B, 0x10], .subRm16R16 (.mem (.disp8 .bpDi 0x10)) .cx),
    ([0x2A, 0xF3], .subR8Rm8 .dh (.reg .bl)),
    ([0x2B, 0x19], .subR16Rm16 .bx (.mem (.base .bxDi))),
    ([0x2C, 0x85], .subAlImm8 0x85),
    ([0x2D, 0xCD, 0xAB], .subAxImm16 0xABCD),
    ([0x80, 0x6D, 0x80, 0x85], .subRm8Imm8 (.mem (.disp8 .di 0x80)) 0x85),
    ([0x81, 0xEC, 0xCD, 0xAB], .subRm16Imm16 (.reg .sp) 0xABCD),
    ([0x83, 0x6E, 0xFF, 0x85], .subRm16Imm8 (.mem (.disp8 .bp 0xFF)) 0x85)] = true := by decide

theorem test_decode_logic_1 : reads [
    ([0x08, 0xC1], .orRm8R8 (.reg .cl) .al),
    ([0x09, 0x28], .orRm16R16 (.mem (.base .bxSi)) .bp),
    ([0x0A, 0x53, 0x10], .orR8Rm8 .dl (.mem (.disp8 .bpDi 0x10))),
    ([0x0B, 0xFA], .orR16Rm16 .di (.reg .dx)),
    ([0x0C, 0x85], .orAlImm8 0x85),
    ([0x0D, 0xCD, 0xAB], .orAxImm16 0xABCD),
    ([0x80, 0x09, 0x85], .orRm8Imm8 (.mem (.base .bxDi)) 0x85),
    ([0x81, 0x4D, 0x80, 0xCD, 0xAB], .orRm16Imm16 (.mem (.disp8 .di 0x80)) 0xABCD),
    ([0x83, 0xCB, 0x85], .orRm16Imm8 (.reg .bx) 0x85),
    ([0x20, 0xF8], .andRm8R8 (.reg .al) .bh),
    ([0x21, 0x21], .andRm16R16 (.mem (.base .bxDi)) .sp),
    ([0x22, 0x4D, 0x80], .andR8Rm8 .cl (.mem (.disp8 .di 0x80))),
    ([0x23, 0xF1], .andR16Rm16 .si (.reg .cx)),
    ([0x24, 0x85], .andAlImm8 0x85),
    ([0x25, 0xCD, 0xAB], .andAxImm16 0xABCD),
    ([0x80, 0x66, 0xFF, 0x85], .andRm8Imm8 (.mem (.disp8 .bp 0xFF)) 0x85),
    ([0x81, 0x26, 0x00, 0x02, 0xCD, 0xAB], .andRm16Imm16 (.mem (.direct 0x0200)) 0xABCD),
    ([0x83, 0xE2, 0x85], .andRm16Imm8 (.reg .dx) 0x85),
    ([0x30, 0x0E, 0x00, 0x02], .xorRm8R8 (.mem (.direct 0x0200)) .cl),
    ([0x31, 0xF5], .xorRm16R16 (.reg .bp) .si),
    ([0x32, 0x18], .xorR8Rm8 .bl (.mem (.base .bxSi))),
    ([0x33, 0x43, 0x10], .xorR16Rm16 .ax (.mem (.disp8 .bpDi 0x10))),
    ([0x34, 0x85], .xorAlImm8 0x85),
    ([0x35, 0xCD, 0xAB], .xorAxImm16 0xABCD)] = true := by decide

theorem test_decode_logic_2 : reads [
    ([0x80, 0xF6, 0x85], .xorRm8Imm8 (.reg .dh) 0x85),
    ([0x81, 0x31, 0xCD, 0xAB], .xorRm16Imm16 (.mem (.base .bxDi)) 0xABCD),
    ([0x83, 0x75, 0x80, 0x85], .xorRm16Imm8 (.mem (.disp8 .di 0x80)) 0x85)] = true := by decide

theorem test_decode_unary : reads [
    ([0xFE, 0xC7], .incRm8 (.reg .bh)),
    ([0xFF, 0x46, 0xFF], .incRm16 (.mem (.disp8 .bp 0xFF))),
    ([0x44], .incR16 .sp),
    ([0xFE, 0x0E, 0x00, 0x02], .decRm8 (.mem (.direct 0x0200))),
    ([0xFF, 0xC8], .decRm16 (.reg .ax)),
    ([0x4D], .decR16 .bp),
    ([0xF6, 0x10], .notRm8 (.mem (.base .bxSi))),
    ([0xF7, 0x53, 0x10], .notRm16 (.mem (.disp8 .bpDi 0x10))),
    ([0xF6, 0xD9], .negRm8 (.reg .cl)),
    ([0xF7, 0x19], .negRm16 (.mem (.base .bxDi)))] = true := by decide

theorem test_decode_interrupts_and_calls : reads [
    ([0xCC], .int3),
    ([0xCD, 0x85], .intN 0x85),
    ([0xCE], .into),
    ([0x62, 0x7D, 0x80], .boundR16M .di (.disp8 .di 0x80)),
    ([0xCF], .iret),
    ([0xE8, 0xCD, 0xAB], .callRel16 0xABCD),
    ([0xFF, 0xD2], .callRm16 (.reg .dx)),
    ([0x9A, 0x78, 0x56, 0xBC, 0x9A], .callPtr16 0x5678 0x9ABC),
    ([0xFF, 0x5E, 0xFF], .callM16 (.disp8 .bp 0xFF))] = true := by decide

theorem test_decode_system : reads [
    ([0x0F, 0x01, 0x1E, 0x00, 0x02], .lidtM (.direct 0x0200)),
    ([0xDB, 0xF3], .esc 3 6 (.reg .bx)),
    ([0x9B], .wait)] = true := by decide

/-- Undefined forms, patterns outside the table, and too few bytes are told apart (R72, R75, R114, R183, R185, R186). -/
theorem test_decode_refusals :
    [decode [0x8E, 0xC8], decode [0x8C, 0xF0], decode [0x62, 0xC0], decode [0xFF, 0xD8], decode [0x0F, 0x01, 0xD8]].all
        (fun r => decide (r = .error .undefinedForm)) = true ∧
      [decode [0x0F, 0xFF], decode [0xF6, 0x00], decode [0x80, 0x38], decode [0xC6, 0x08], decode [0xF4]].all
        (fun r => decide (r = .error .unknownOpcode)) = true ∧
      [decode [], decode [0x0F], decode [0x80], decode [0x81, 0x06, 0x00], decode [0x8E, 0x4E]].all
        (fun r => decide (r = .error .short)) = true := by decide

/-! ### Steps -/

/-- CS = 1000, DS = SS = 2000, IP = SP = 0100, FLAGS = 0202, all memory RAM and zero. -/
def start : State :=
  { State.reset with
    regs := { Regs.zero with sp := 0x0100 }
    segs := { es := 0x3000, cs := 0x1000, ss := 0x2000, ds := 0x2000, fs := 0, gs := 0 }
    ip := 0x0100
    flags := 0x0202 }

/-- Bytes at CS:IP. -/
def code (bs : List Byte) (s : State) : State := placeBytes bs (s.codeAddr 0) s

/-- Interrupt table entry `v` is 6000:5000 + v (R54). -/
def handler (v : Nat) (s : State) : State := placeBytes [BitVec.ofNat 8 v, 0x50, 0x00, 0x60] (4 * v) s

/-- Something of the next state. -/
def out {α : Type} (f : State → α) : Result → Option α
  | .next t => some (f t)
  | .fault _ => none
  | .refused _ => none

/-- The refusal, if it is one. -/
def why : Result → Option Refusal
  | .next _ => none
  | .fault _ => none
  | .refused r => some r

/-- Whether it is the fault. -/
def stops : Result → Bool
  | .next _ => false
  | .fault _ => true
  | .refused _ => false

/-- The word at the top of the stack. -/
def top (t : State) : Word := wordAt t (t.lin .ss t.regs.sp)

/-- CS, IP and the saved IP. -/
def entered (t : State) : Word × Word × Word := (t.segs.cs, t.ip, top t)

/-- A start with AX, BX, CX. -/
def abc (ax bx cx : Word) : State := { start with regs := { start.regs with ax := ax, bx := bx, cx := cx } }

/-- The same with CF. -/
def carry (s : State) : State := { s with flags := s.flags ||| 1 }

/-- D1 -/
theorem test_div_byte :
    out (fun t => t.regs.ax) (step (code [0xF6, 0xF3] (abc 0x1234 0x56 0))) = some (0x1036) := by decide

/-- D5 -/
theorem test_div_word :
    out (fun t => (t.regs.ax, t.regs.dx)) (step (code [0xF7, 0xF3] ({ abc 0x5678 0xFFFF 0 with regs := { (abc 0x5678 0xFFFF 0).regs with dx := 0x1234 } }))) = some (0x1234, 0x68AC) := by decide

/-- I6 -/
theorem test_idiv_byte_largest_negative :
    out (fun t => t.regs.ax) (step (code [0xF6, 0xFB] (abc 0xC07F 0x7F 0))) = some (0xFF80) := by decide

/-- I9 -/
theorem test_idiv_word_largest_negative :
    out (fun t => (t.regs.ax, t.regs.dx)) (step (code [0xF7, 0xFB] ({ abc 0x8000 1 0 with regs := { (abc 0x8000 1 0).regs with dx := 0xFFFF } }))) = some (0x8000, 0) := by decide

/-- D3: the saved IP is the divide, nothing else changed -/
theorem test_divide_error :
    out (fun t => (entered t, t.regs.ax)) (step (code [0xF6, 0xF3] (handler 0 (abc 0x0100 1 0)))) = some ((0x6000, 0x5000, 0x0100), 0x0100) := by decide

/-- P1 -/
theorem test_push_sp :
    out (fun t => (t.regs.sp, top t)) (step (code [0x54] (start))) = some (0x00FE, 0x0100) := by decide

/-- P4 -/
theorem test_push_sp_wraps :
    out (fun t => (t.regs.sp, top t)) (step (code [0x54] ({ start with regs := Regs.zero }))) = some (0xFFFE, 0) := by decide

/-- P7: #12 is raised, and its own pushes cross (R237) -/
theorem test_push_at_one :
    stops (step (code [0x50] { start with regs := { Regs.zero with sp := 1 } })) = true := by decide

/-- P10 -/
theorem test_pushf :
    out (fun t => top t) (step (code [0x9C] ({ start with flags := 0x2042 }))) = some (0x2042) := by decide

/-- P11 -/
theorem test_mov_store_at_fffe :
    out (fun t => (t.mem.read 0x2FFFE, t.mem.read 0x2FFFF)) (step (code [0xA3, 0xFE, 0xFF] (abc 0x1234 0 0))) = some (0x34, 0x12) := by decide

/-- P14 -/
theorem test_mov_word_at_ffff_through_ss :
    out (fun t => entered t) (step (code [0x89, 0x46, 0xFF] (handler 12 start))) = some (0x6000, 0x500C, 0x0100) := by decide

/-- P15 -/
theorem test_mov_word_at_ffff_through_ds :
    out (fun t => entered t) (step (code [0x3E, 0x89, 0x46, 0xFF] (handler 13 start))) = some (0x6000, 0x500D, 0x0100) := by decide

/-- P16 -/
theorem test_mov_sreg :
    out (fun t => t.segs.ds) (step (code [0x8E, 0xD8] (abc 0xFFFF 0 0))) = some (0xFFFF) := by decide

/-- P17: locked without a prefix -/
theorem test_xchg_memory :
    out (fun t => (t.regs.ax, wordAt t 0x20010, t.lockSignal)) (step (code [0x87, 0x07] (placeBytes [0x22, 0x22] 0x20010 (abc 0x1111 0x10 0)))) = some (0x2222, 0x1111, true) := by decide

/-- P19 -/
theorem test_xchg_registers :
    out (fun t => (t.regs.ax, t.regs.bx, t.lockSignal)) (step (code [0x87, 0xC3] (abc 1 2 0))) = some (2, 1, false) := by decide

/-- H1 -/
theorem test_shl_masked_count :
    out (fun t => t.regs.ax) (step (code [0xD3, 0xE0] (abc 1 0 0x21))) = some (2) := by decide

/-- H2 -/
theorem test_shl_zero_count :
    out (fun t => (t.regs.ax, t.flags)) (step (code [0xD3, 0xE0] (abc 0x1234 0 0x20))) = some (0x1234, 0x0202) := by decide

/-- H7 -/
theorem test_shr :
    out (fun t => t.regs.ax) (step (code [0xD1, 0xE8] (abc 0x8001 0 0))) = some (0x4000) := by decide

/-- H12 -/
theorem test_sar_beyond_width :
    out (fun t => t.regs.ax) (step (code [0xD2, 0xF8] (abc 0x80 0 0x1F))) = some (0xFF) := by decide

/-- H13 -/
theorem test_rol :
    out (fun t => t.regs.ax) (step (code [0xD2, 0xC0] (abc 0x81 0 0x21))) = some (3) := by decide

/-- H16 -/
theorem test_ror :
    out (fun t => t.regs.ax) (step (code [0xD1, 0xC8] (abc 1 0 0))) = some (0x8000) := by decide

/-- H19 -/
theorem test_rcl_seventeen :
    out (fun t => t.regs.ax) (step (code [0xD3, 0xD0] (carry (abc 0x8001 0 0x11)))) = some (0x8001) := by decide

/-- H20 -/
theorem test_rcl_eighteen :
    out (fun t => t.regs.ax) (step (code [0xD3, 0xD0] (abc 0x8001 0 0x12))) = some (2) := by decide

/-- H22 -/
theorem test_rcr :
    out (fun t => t.regs.ax) (step (code [0xD0, 0xD8] (abc 1 0 0))) = some (0) := by decide

/-- H23 -/
theorem test_shld :
    out (fun t => t.regs.ax) (step (code [0x0F, 0xA4, 0xD8, 0x02] (abc 0x8001 0xC000 0))) = some (7) := by decide

/-- H24 -/
theorem test_shrd :
    out (fun t => t.regs.ax) (step (code [0x0F, 0xAC, 0xD8, 0x02] (abc 0x8001 3 0))) = some (0xE000) := by decide

/-- CF and OF of shifts and rotates by 1, from H1, H7, H13, H16, H22, H23, H24, whatever the free bits (R130 to R140). -/
def cfOf (p : Word × Word) : Bool × Bool := (getFlag .cf p.2, getFlag .ovf p.2)

/-- The flags the rules define, with the free bits all 0 and all 1 -/
theorem test_shift_flags :
    [(0 : Word), 0xFFFF].all (fun u =>
      [cfOf (shiftLeft 1 1 2 u), cfOf (shiftRight 0x8001 1 2 u), cfOf (rotateLeft 0x8000 1 2 u), cfOf (rotateRight 1 1 2 u),
        cfOf (rotateCarryRight 1 1 2 u), cfOf (shiftArith 0x8001 1 2 u), cfOf (doubleLeft 0x8001 0xC000 1 2 u 0)] ==
      [(false, false), (true, true), (true, true), (true, true), (true, false), (true, false), (true, true)]) = true := by decide

/-- A8, A9, A10: CF, PF, ZF, SF, OF, with the free bits all 0 and all 1 -/
theorem test_logic_flags :
    [(0 : Word), 0xFFFF].all (fun u =>
      [(aluAnd (0xF0F0 : Word) 0x0FF0 0x0203 u).2 ||| 0x10, (aluOr (0x80 : Byte) 1 0x0203 u).2 ||| 0x10,
        (aluXor (0xAAAA : Word) 0xAAAA 0x0203 u).2 ||| 0x10] == [0x0216, 0x0296, 0x0256]) = true := by decide

/-- A16: CF is the old bit, whatever the free bits -/
theorem test_bit_test_flags :
    [(0 : Word), 0xFFFF].all (fun u => getFlag .cf (bitFlags true 0x0202 u) && !getFlag .cf (bitFlags false 0x0202 u)) = true := by decide

/-- L3 -/
theorem test_lock_register_form :
    out (fun t => entered t) (step (code [0xF0, 0x87, 0xC3] (handler 6 start))) = some (0x6000, 0x5006, 0x0100) := by decide

/-- A19 -/
theorem test_lock_add_memory :
    out (fun t => (wordAt t 0x20010, t.flags, t.lockSignal)) (step (code [0xF0, 0x83, 0x07, 0x01] (placeBytes [0xFF, 0xFF] 0x20010 (abc 0 0x10 0)))) = some (0, 0x0257, true) := by decide

/-- A1 -/
theorem test_add_word :
    out (fun t => (t.regs.ax, t.flags)) (step (code [0x01, 0xD8] (abc 0x7FFF 1 0))) = some (0x8000, 0x0A96) := by decide

/-- A2: the high byte stays -/
theorem test_add_byte :
    out (fun t => (t.regs.ax, t.flags)) (step (code [0x00, 0xD8] (abc 0x12FF 1 0))) = some (0x1200, 0x0257) := by decide

/-- A3 -/
theorem test_adc :
    out (fun t => (t.regs.ax, t.flags)) (step (code [0x11, 0xD8] (carry (abc 0xFFFF 0 0)))) = some (0, 0x0257) := by decide

/-- A4 -/
theorem test_sub :
    out (fun t => (t.regs.ax, t.flags)) (step (code [0x29, 0xD8] (abc 0 1 0))) = some (0xFFFF, 0x0297) := by decide

/-- A5 -/
theorem test_sbb :
    out (fun t => (t.regs.ax, t.flags)) (step (code [0x19, 0xD8] (carry (abc 0x8000 0 0)))) = some (0x7FFF, 0x0A16) := by decide

/-- A6 -/
theorem test_inc_keeps_carry :
    out (fun t => (t.regs.ax, t.flags)) (step (code [0xFE, 0xC0] (carry (abc 0x7F 0 0)))) = some (0x80, 0x0A93) := by decide

/-- A7 -/
theorem test_dec_keeps_carry :
    out (fun t => (t.regs.ax, t.flags)) (step (code [0x48] (abc 0x8000 0 0))) = some (0x7FFF, 0x0A16) := by decide

/-- A8 -/
theorem test_and :
    out (fun t => t.regs.ax) (step (code [0x21, 0xD8] (abc 0xF0F0 0x0FF0 0))) = some (0x00F0) := by decide

/-- A9 -/
theorem test_or :
    out (fun t => t.regs.ax) (step (code [0x08, 0xD8] (abc 0x80 1 0))) = some (0x81) := by decide

/-- A10 -/
theorem test_xor :
    out (fun t => t.regs.ax) (step (code [0x31, 0xC0] (abc 0xAAAA 0 0))) = some (0) := by decide

/-- A11 -/
theorem test_not :
    out (fun t => (t.regs.ax, t.flags)) (step (code [0xF7, 0xD0] (abc 0x00FF 0 0))) = some (0xFF00, 0x0202) := by decide

/-- A12 -/
theorem test_neg :
    out (fun t => (t.regs.ax, t.flags)) (step (code [0xF7, 0xD8] (abc 0x8000 0 0))) = some (0x8000, 0x0A87) := by decide

/-- A18: a negative register bit offset -/
theorem test_bts_memory :
    out (fun t => wordAt t 0x200FE) (step (code [0x0F, 0xAB, 0x07] (abc 0xFFFF 0x100 0))) = some (0x8000) := by decide

/-- A16 -/
theorem test_btr :
    out (fun t => t.regs.ax) (step (code [0x0F, 0xB3, 0xD8] (abc 0xFFFF 0x14 0))) = some (0xFFEF) := by decide

/-- A17 -/
theorem test_btc :
    out (fun t => t.regs.ax) (step (code [0x0F, 0xBA, 0xF8, 0x00] (abc 1 0 0))) = some (0) := by decide

/-- T1 -/
theorem test_int_n :
    out (fun t => (entered t, t.regs.sp, wordAt t 0x200FC, wordAt t 0x200FE, t.flags)) (step (code [0xCD, 0x21] (handler 0x21 start))) = some ((0x6000, 0x5021, 0x0102), 0x00FA, 0x1000, 0x0202, 0x0002) := by decide

/-- T2 -/
theorem test_int3 :
    out (fun t => entered t) (step (code [0xCC] (handler 3 start))) = some (0x6000, 0x5003, 0x0101) := by decide

/-- T3 -/
theorem test_into_not_taken :
    out (fun t => (t.ip, t.flags)) (step (code [0xCE] (start))) = some (0x0101, 0x0202) := by decide

/-- T4: OF stays -/
theorem test_into_taken :
    out (fun t => (entered t, t.flags)) (step (code [0xCE] (handler 4 { start with flags := 0x0A02 }))) = some ((0x6000, 0x5004, 0x0101), 0x0802) := by decide

/-- T6 -/
theorem test_int_at_sp_five :
    stops (step (code [0xCD, 0x21] { start with regs := { Regs.zero with sp := 5 } })) = true := by decide

/-- T7 -/
theorem test_int_beyond_limit :
    out (fun t => entered t) (step (code [0xCD, 0x40] (placeBytes [0x00, 0x05, 0x00, 0x03] 0x1020 { start with idtrLimit := 0xFF, idtrBase := 0x1000 }))) = some (0x0300, 0x0500, 0x0100) := by decide

/-- T11 -/
theorem test_bound_outside :
    out (fun t => entered t) (step (code [0x62, 0x06, 0x00, 0x02] (handler 5 (placeBytes [0, 0, 4, 0] 0x20200 (abc 0xFFFF 0 0))))) = some (0x6000, 0x5005, 0x0100) := by decide

/-- T10 -/
theorem test_bound_at_the_limit :
    out (fun t => (t.ip, t.segs.cs)) (step (code [0x62, 0x06, 0x00, 0x02] (placeBytes [0, 0, 4, 0] 0x20200 (abc 4 0 0)))) = some (0x0104, 0x1000) := by decide

/-- T12 -/
theorem test_iret :
    out (fun t => (t.segs.cs, t.ip, t.regs.sp, t.flags, t.nmiMasked)) (step (code [0xCF] (placeBytes [0x02, 0x01, 0x00, 0x10, 0x02, 0x73] 0x200FA { start with regs := { start.regs with sp := 0x00FA }, nmiMasked := true }))) = some (0x1000, 0x0102, 0x0100, 0x7302, false) := by decide

/-- T15 -/
theorem test_call_near :
    out (fun t => (t.ip, top t, t.regs.sp)) (step (code [0xE8, 0x10, 0x00] (start))) = some (0x0113, 0x0103, 0x00FE) := by decide

/-- R185: CS, then the offset after the CALL -/
theorem test_call_far :
    out (fun t => (t.segs.cs, t.ip, top t, wordAt t 0x200FE)) (step (code [0x9A, 0x78, 0x56, 0xBC, 0x9A] (start))) = some (0x9ABC, 0x5678, 0x0105, 0x1000) := by decide

/-- R185, D15, D29: at SP = 3 the second push crosses, which comes before the refusal of the ROM under the first; the frame of its #12 crosses too (R237) -/
theorem test_call_far_checks_both_pushes :
    stops (step (code [0x9A, 0x78, 0x56, 0xBC, 0x9A] { start with regs := { start.regs with sp := 3 }, cfg := { start.cfg with memMap := { base := 0x20000, size := 0x10, kind := .rom } :: start.cfg.memMap } })) = true := by decide

/-- T17 -/
theorem test_lidt :
    out (fun t => (t.idtrLimit, t.idtrBase)) (step (code [0x0F, 0x01, 0x1E, 0x00, 0x03] (placeBytes [0xFF, 0, 0, 0x10, 0, 0x77] 0x20300 start))) = some (0x00FF, 0x001000) := by decide

/-- T18 -/
theorem test_esc_saves_the_prefix :
    out (fun t => entered t) (step (code [0x26, 0xD9, 0x07] (handler 7 { start with msw := 4 }))) = some (0x6000, 0x5007, 0x0100) := by decide

/-- R187: a coprocessor operation without a memory operand is refused -/
theorem test_esc_refused :
    why (step (code [0xD9, 0xC0] start)) = some .coprocessorOperation := by decide

/-- T22 -/
theorem test_wait :
    out (fun t => t.ip) (step (code [0x9B] ({ start with msw := 4 }))) = some (0x0101) := by decide

/-- E8 -/
theorem test_operand_size_refused :
    why (step (code [0x66, 0x40] start)) = some .operandSizePrefix := by decide

/-- E9, and a pattern outside the table and the set -/
theorem test_undefined_opcode_set :
    out entered (step (code [0x0F, 0xFF] (handler 6 start))) = some (0x6000, 0x5006, 0x0100) ∧
      why (step (code [0xF4] start)) = some .unknownOpcode := by decide

/-- E1 -/
theorem test_fifteen_bytes :
    out (fun t => t.ip) (step (code (List.replicate 14 0x3E ++ [0x90]) start)) = some 0x010F := by decide

/-- E2 -/
theorem test_sixteen_bytes :
    out entered (step (code (List.replicate 15 0x3E ++ [0x90]) (handler 13 start))) = some (0x6000, 0x500D, 0x0100) := by decide

/-- E10 -/
theorem test_override_to_ss :
    out (fun t => entered t) (step (code [0x36, 0xA3, 0xFF, 0xFF] (handler 12 start))) = some (0x6000, 0x500C, 0x0100) := by decide

/-- M15: the last byte of the segment executes -/
theorem test_one_byte_at_ffff :
    out (fun t => (t.ip, t.pastEnd)) (step (code [0x90] ({ start with ip := 0xFFFF }))) = some (0, true) := by decide

/-- M16 -/
theorem test_two_bytes_at_ffff :
    out (fun t => entered t) (step (code [0xB0, 0x00] (handler 13 { start with ip := 0xFFFF, segs := { start.segs with cs := 0xE000 } }))) = some (0x6000, 0x500D, 0xFFFF) := by decide

/-- M17 -/
theorem test_call_at_fffd :
    out (fun t => (t.ip, top t, t.pastEnd)) (step (code [0xE8, 0x10, 0x00] ({ start with ip := 0xFFFD }))) = some (0x0010, 0, false) := by decide

/-- R53: a byte the program wrote is not fetched before a control transfer -/
theorem test_stale_fetch :
    why (step { code [0x90] start with dirty := [0x10100] }) = some .staleFetch := by decide

/-- R233: the NMI first, the request stays -/
theorem test_nmi_before_intr :
    out (fun t => (t.ip, t.nmiMasked, t.intrPending)) (step (handler 2 { start with env := [[.nmi, .intr 0x40]] })) =
      some (0x5002, true, some 0x40) := by decide

/-- R233: before the NMI, which stays -/
theorem test_single_step_first :
    out (fun t => (t.ip, t.stepDue, t.nmiPending)) (step (handler 1 { start with stepDue := true, nmiPending := true })) =
      some (0x5001, false, true) := by decide

/-- log 9 -/
theorem test_reset_runs_a_placed_instruction :
    out (fun t => t.regs.ax) (step (State.reset.withFetchWord 24 0x1234B8)) = some 0x1234 := by decide
/-! ### For every statement with hypotheses, a state and operands that meet them -/

theorem deliverable_of {v : Byte} {s : State} (h : 4 * v.toNat + 3 ≤ s.idtrLimit.toNat ∧
    (∀ k < 4, PresentByte s (s.idtrBase.toNat + 4 * v.toNat + k)) ∧
    PushRoom 2#16 s ∧ PushRoom 4#16 s ∧ PushRoom 6#16 s) : Deliverable v s := ⟨h.1, h.2.1, h.2.2⟩

theorem noEvent_of {s : State} (h : s.ssShadow = true ∨ s.stepDue = false ∧ (s.nmiPending = true → s.nmiMasked = true) ∧
    (getFlag .intf s.flags = true → s.intrPending = none)) : NoEvent s := h

/-- The same state with another SP. -/
def withSp (sp : Word) : State := { start with regs := { start.regs with sp := sp } }
/-- A LOCK prefix read. -/
def locked (s : State) : State := { s with pfx := { count := 1, lock := true, seg := none } }
/-- The start with the three registers of a divide. -/
def dab (dx ax bx : Word) : State := { start with regs := { start.regs with dx := dx, ax := ax, bx := bx } }
/-- The last byte, and the last word, of the data segment. -/
def lastByte : Mem := .direct 0xFFFF
def lastWord : Mem := .direct 0xFFFE

theorem test_witness_DecodeOfEncode :
    (Instr.addRm16R16 (.mem (.disp16 .bp 0xFFFF)) .ax).wellFormed = true ∧ (Instr.pushSp).wellFormed = true ∧
      (Instr.esc 7 7 (.mem (.direct 0))).wellFormed = true := by decide

theorem test_witness_DecodedBytesAreTheEncoding :
    decode [0x89, 0x46, 0xFF, 0x90] = .ok (.movRm16R16 (.mem (.disp8 .bp 0xFF)) .ax, [0x90]) := by decide

theorem test_witness_PrefixesAreSplitOff :
    (∀ p ∈ [Instr.lockPrefix, .esPrefix, .repPrefix], isPrefix p = true) ∧ isPrefix .iret = false ∧
      Instr.iret.wellFormed = true := by decide

theorem test_witness_LinearAddressIsNotWrapped :
    ({ start with segs := { start.segs with ds := 0xFFFF } } : State).sel .ds = 0xFFFF := by decide

theorem test_witness_OperandCrossingASegmentExtreme :
    0xFFFF < (0xFFFF : Word).toNat + 2 - 1 ∧ (0xFFFE : Word).toNat + 2 - 1 ≤ 0xFFFF ∧
      0xFFFF < (0xFFFD : Word).toNat + 4 - 1 ∧ (0xFFFC : Word).toNat + 4 - 1 ≤ 0xFFFF ∧
      0xFFFF < (0xFFFB : Word).toNat + 6 - 1 ∧ (0xFFFA : Word).toNat + 6 - 1 ≤ 0xFFFF ∧
      (withSp 0).regs.sp = 0 ∧ (withSp 1).regs.sp = 1 ∧ (withSp 2).regs.sp = 2 := by decide

theorem test_witness_OperandCrossing_reads :
    (∃ p, segReadPair .ds 0xFFFC start = .ok p) ∧ ∃ p, segReadIdt .ss 0xFFFA start = .ok p := ⟨⟨_, rfl⟩, _, rfl⟩

theorem test_witness_MemoryReadsBackWrites : start.mem.Wf ∧ ∃ t, storeWord 0x2FFFF 0x1234 start = .ok t :=
  ⟨by decide, _, rfl⟩

theorem test_witness_CrossingOperandRaises :
    ((locked start).pfx.lock = true → lockLegal (.addRm16R16 (.mem lastByte) .ax) = true) ∧
      0xFFFF < (effectiveOffset (locked start) lastByte).toNat + 2 - 1 ∧
      start.pfx.lock = false ∧ Seg.ss ≠ .cs ∧ 0xFFFF < (0xFFFF : Word).toNat + 2 - 1 ∧
      0xFFFF < (bitWordOffset (dab 0 0xFFF0 0) (.direct 1) ((dab 0 0xFFF0 0).reg16 .ax)).toNat + 2 - 1 ∧
      0xFFFF < (effectiveOffset start (.direct 0xFFFD)).toNat + 4 - 1 ∧
      0xFFFF < (effectiveOffset start (.direct 0xFFFB)).toNat + 6 - 1 := by decide

/-- Memory destinations with and without LOCK, a register without. -/
theorem test_witness_AluRm8R8 :
    (locked start).mem.Wf ∧ RmWritable (.mem lastByte : RM8) 1 (locked start) ∧ LockLegal (.mem lastByte : RM8) (locked start) ∧
      start.mem.Wf ∧ RmWritable (.reg .ah : RM8) 1 start ∧ LockLegal (.reg .ah : RM8) start := by decide

theorem test_witness_AluRm16R16 :
    (locked start).mem.Wf ∧ RmWritable (.mem lastWord : RM16) 2 (locked start) ∧ LockLegal (.mem lastWord : RM16) (locked start) ∧
      start.mem.Wf ∧ RmWritable (.reg .sp : RM16) 2 start ∧ LockLegal (.reg .sp : RM16) start := by decide

theorem test_witness_AluRegisterDestination :
    RmReadable (.mem lastByte : RM8) 1 start ∧ RmReadable (.mem lastWord : RM16) 2 start ∧ start.pfx.lock = false := by decide

/-- Both clauses of each hold of one state; the second also with LOCK. -/
theorem test_witness_AluImm8 :
    start.pfx.lock = false ∧ start.mem.Wf ∧ RmWritable (.mem lastByte : RM8) 1 start ∧ LockLegal (.mem lastByte : RM8) start ∧
      LockLegal (.mem lastByte : RM8) (locked start) := by decide

theorem test_witness_AluImm16 :
    start.pfx.lock = false ∧ start.mem.Wf ∧ RmWritable (.mem lastWord : RM16) 2 start ∧ LockLegal (.mem lastWord : RM16) start ∧
      LockLegal (.mem lastWord : RM16) (locked start) := by decide

theorem test_witness_UnaryRm8 :
    start.mem.Wf ∧ RmWritable (.mem lastByte : RM8) 1 start ∧ LockLegal (.mem lastByte : RM8) start := by decide

theorem test_witness_UnaryRm16 :
    start.mem.Wf ∧ RmWritable (.mem lastWord : RM16) 2 start ∧ LockLegal (.mem lastWord : RM16) start ∧
      start.pfx.lock = false := by decide

/-- The largest quotients of both widths. -/
theorem test_witness_DivQuotientAndRemainder :
    (let s := dab 0 0x00FF 1;
      let d : RM8 := .reg .bl;
      s.pfx.lock = false ∧ RmReadable d 1 s ∧ (valueRm8 d s).toNat ≠ 0 ∧ s.regs.ax.toNat / (valueRm8 d s).toNat = 0xFF) ∧
    (let s := dab 0 0xFFFF 1;
      let d : RM16 := .reg .bx;
      s.pfx.lock = false ∧ RmReadable d 2 s ∧ (valueRm16 d s).toNat ≠ 0 ∧
        (s.regs.dx ++ s.regs.ax).toNat / (valueRm16 d s).toNat = 0xFFFF) := by decide

/-- The quotients -128, 127, -32768 and 32767. -/
theorem test_witness_IdivAcceptsTheLargestNegativeQuotient :
    (let d : RM8 := .reg .bl;
      (valueRm8 d (dab 0 0xFF80 1)).toInt ≠ 0 ∧ RmReadable d 1 (dab 0 0xFF80 1) ∧
        (dab 0 0xFF80 1).regs.ax.toInt.tdiv (valueRm8 d (dab 0 0xFF80 1)).toInt = -128 ∧
        (dab 0 0x007F 1).regs.ax.toInt.tdiv (valueRm8 d (dab 0 0x007F 1)).toInt = 127) ∧
    (let d : RM16 := .reg .bx;
      let s := dab 0xFFFF 0x8000 1;
      let u := dab 0 0x7FFF 1;
      (valueRm16 d s).toInt ≠ 0 ∧ RmReadable d 2 s ∧
        (s.regs.dx ++ s.regs.ax).toInt.tdiv (valueRm16 d s).toInt = -32768 ∧
        (u.regs.dx ++ u.regs.ax).toInt.tdiv (valueRm16 d u).toInt = 32767) := by decide

/-- Divisor 0, and the first quotients that do not fit: 256, 65536, -129, 128, -32769, 32768. -/
theorem test_witness_DivideErrorPointsAtTheDivide :
    ((dab 0 0 0).pfx.lock = false ∧ (dab 0 0 0).mem.Wf ∧ RmReadable (.reg .bl : RM8) 1 (dab 0 0 0) ∧
      (valueRm8 (.reg .bl) (dab 0 0 0)).toNat = 0 ∧ (valueRm16 (.reg .bx) (dab 0 0 0)).toNat = 0 ∧
      (valueRm8 (.reg .bl) (dab 0 0 0)).toInt = 0 ∧ (valueRm16 (.reg .bx) (dab 0 0 0)).toInt = 0 ∧
      (dab 0 0x0100 1).regs.ax.toNat / (valueRm8 (.reg .bl) (dab 0 0x0100 1)).toNat = 0x100 ∧
      ((dab 1 0 1).regs.dx ++ (dab 1 0 1).regs.ax).toNat / (valueRm16 (.reg .bx) (dab 1 0 1)).toNat = 0x10000 ∧
      (dab 0 0xFF7F 1).regs.ax.toInt.tdiv (valueRm8 (.reg .bl) (dab 0 0xFF7F 1)).toInt = -129 ∧
      (dab 0 0x0080 1).regs.ax.toInt.tdiv (valueRm8 (.reg .bl) (dab 0 0x0080 1)).toInt = 128 ∧
      ((dab 0xFFFF 0x7FFF 1).regs.dx ++ (dab 0xFFFF 0x7FFF 1).regs.ax).toInt.tdiv
        (valueRm16 (.reg .bx) (dab 0xFFFF 0x7FFF 1)).toInt = -32769 ∧
      ((dab 0 0x8000 1).regs.dx ++ (dab 0 0x8000 1).regs.ax).toInt.tdiv
        (valueRm16 (.reg .bx) (dab 0 0x8000 1)).toInt = 32768) ∧
    Deliverable 0 (dab 0 0 0) ∧ Deliverable 0 (dab 0xFFFF 0x7FFF 1) :=
  ⟨by decide, deliverable_of (by decide), deliverable_of (by decide)⟩

/-- Room below SP = 2, the last that does not wrap, and SP = 0, which wraps. -/
theorem test_witness_PushStoresBelowSp :
    (withSp 2).mem.Wf ∧ (withSp 2).pfx.lock = false ∧ PushRoom 2 (withSp 2) ∧ PushRoom 2 (withSp 0) ∧
      RmReadable (.mem lastWord : RM16) 2 (withSp 2) := by decide

theorem test_witness_PushSpPushesTheOldValue :
    (withSp 0).mem.Wf ∧ (withSp 0).pfx.lock = false ∧ PushRoom 2 (withSp 0) ∧ (withSp 1).pfx.lock = false ∧
      (withSp 1).regs.sp = 1 ∧ (locked start).pfx.lock = true := by decide

theorem test_witness_PushfImage :
    (withSp 2).mem.Wf ∧ FlagsFixed (withSp 2).flags ∧ (withSp 2).pfx.lock = false ∧ PushRoom 2 (withSp 2) ∧
      (withSp 1).pfx.lock = false ∧ (withSp 1).regs.sp = 1 ∧ (locked start).pfx.lock = true := by decide

theorem test_witness_PushAtSpOneRaises12 :
    (withSp 1).pfx.lock = false ∧ (withSp 1).regs.sp = 1 ∧ RmReadable (.mem lastWord : RM16) 2 (withSp 1) ∧
      (withSp 3).regs.sp = 3 ∧ MemReadable (.direct 0xFFFC) 4 (withSp 3) ∧
      (withSp 3).pfx.lock = false := by decide

theorem test_witness_MovStoresByte :
    start.mem.Wf ∧ start.pfx.lock = false ∧ RmWritable (.mem lastByte : RM8) 1 start ∧ MemWritable (.direct 0xFFFF) 1 start := by
  decide

theorem test_witness_MovStoresWord :
    start.mem.Wf ∧ start.pfx.lock = false ∧ RmWritable (.mem lastWord : RM16) 2 start ∧ MemWritable (.direct 0xFFFE) 2 start := by
  decide

theorem test_witness_MovLoads :
    start.pfx.lock = false ∧ RmReadable (.mem lastByte : RM8) 1 start ∧ RmReadable (.mem lastWord : RM16) 2 start ∧
      MemReadable (.direct 0xFFFF) 1 start ∧ MemReadable (.direct 0xFFFE) 2 start := by decide

theorem test_witness_MovLoadsSegmentRegister :
    Seg.ss ≠ .cs ∧ Seg.ds ≠ .cs ∧ start.pfx.lock = false ∧ RmReadable (.mem lastWord : RM16) 2 start := by decide

theorem test_witness_XchgBytes :
    start.mem.Wf ∧ RmWritable (.mem lastByte : RM8) 1 start ∧ LockLegal (.mem lastByte : RM8) start ∧
      LockLegal (.mem lastByte : RM8) (locked start) ∧ RmWritable (.reg .ah : RM8) 1 start := by decide

theorem test_witness_XchgWords :
    start.mem.Wf ∧ RmWritable (.mem lastWord : RM16) 2 start ∧ LockLegal (.mem lastWord : RM16) start ∧
      LockLegal (.mem lastWord : RM16) (locked start) ∧ start.pfx.lock = false := by decide

theorem test_witness_XchgWithMemoryIsLocked :
    MemWritable lastWord 2 start ∧ start.pfx.lock = false ∧ (locked start).pfx.lock = true := by decide

/-- CL = 31, and an immediate 33, which is 1. -/
theorem test_witness_ShiftsRm8 :
    (abc 0 0 31).mem.Wf ∧ RmWritable (.mem lastByte : RM8) 1 (abc 0 0 31) ∧ (abc 0 0 31).pfx.lock = false ∧
      ((abc 0 0 31).reg8 .cl).toNat % 32 ≠ 0 ∧ (33 : Byte).toNat % 32 ≠ 0 := by decide

theorem test_witness_ShiftsRm16 :
    (abc 0 0 31).mem.Wf ∧ RmWritable (.mem lastWord : RM16) 2 (abc 0 0 31) ∧ (abc 0 0 31).pfx.lock = false ∧
      ((abc 0 0 31).reg8 .cl).toNat % 32 ≠ 0 ∧ (33 : Byte).toNat % 32 ≠ 0 := by decide

/-- CL = 16, the last count that fixes the result, and 17. -/
theorem test_witness_DoubleShifts :
    (abc 0 0 16).mem.Wf ∧ RmWritable (.mem lastWord : RM16) 2 (abc 0 0 16) ∧ (abc 0 0 16).pfx.lock = false ∧
      ((abc 0 0 16).reg8 .cl).toNat % 32 ≠ 0 ∧ (17 : Byte).toNat % 32 ≠ 0 := by decide

theorem test_witness_ShiftByZeroChangesNothing :
    (abc 0 0 32).pfx.lock = false ∧ RmWritable (.mem lastByte : RM8) 1 (abc 0 0 32) ∧
      RmWritable (.mem lastWord : RM16) 2 (abc 0 0 32) ∧ ((abc 0 0 32).reg8 .cl).toNat % 32 = 0 ∧
      (0xE0 : Byte).toNat % 32 = 0 := by decide

theorem test_witness_BitTestOfRegister : start.pfx.lock = false := by decide

/-- Offset -16 at EA 1 crosses; -16 at EA 2 selects the word at 0, -32768 at EA 0 the word at F000H. -/
theorem test_witness_BitTestOfMemory :
    start.mem.Wf ∧ MemWritable lastWord 2 start ∧
      (let s := dab 0 0xFFF0 0;
        crosses (bitWordOffset s (.direct 2) (s.reg16 .ax)) 2 = false ∧
        bitWordOffset s (.direct 2) (s.reg16 .ax) = 0 ∧ RamByte s 0x20000 ∧ RamByte s 0x20001) ∧
      (let s := dab 0 0x8000 0;
        crosses (bitWordOffset s (.direct 0) (s.reg16 .ax)) 2 = false ∧
        bitWordOffset s (.direct 0) (s.reg16 .ax) = 0xF000) := by decide

/-- A LOCK that is not legal, before a memory and a register form; 8C and 8E with segment numbers 6 and 7, 8E with CS, BOUND
with a register, and 0F FF, which a pattern of the set admits; ES: before MOV CS, AX in a step; LOCK before F4, which is
neither in the table nor in the set. -/
theorem test_witness_LockElsewhereRaises6 :
    (isPrefix (.movRm16R16 (.mem lastWord) .ax) = false ∧ lockLegal (.movRm16R16 (.mem lastWord) .ax) = false ∧
      lockLegal (.addRm16R16 (.reg .ax) .ax) = false ∧ (locked start).pfx.lock = true ∧ (locked start).mem.Wf) ∧
    Deliverable 6 (locked start) ∧
    ([[0x8C, 0xF0], [0x8C, 0x3F], [0x8E, 0xF0], [0x8E, 0xFF], [0x8E, 0xC8], [0x62, 0xC0], [0xFF, 0xD8], [0x0F, 0x01, 0xD8]].all
        (fun bs => decide (decodeOp bs = .error .undefinedForm)) = true ∧
      decodeOp [0x0F, 0xFF] = .error .unknownOpcode ∧ decodeWith [[(0x0F, 0xFF), (0xFF, 0xFF)]] [0x0F, 0xFF] = .error .undefinedForm) ∧
    (let s := code [0x26, 0x8E, 0xC8] start;
      NoEvent (arrive s) ∧ (arrive s).pastEnd = false ∧
        splitPrefixes (fetchWindow (arrive s).begin).1 = ([.esPrefix], 0x8E :: 0xC8 :: List.replicate 12 0) ∧
        .operandSizePrefix ∉ [Instr.esPrefix] ∧ .addressSizePrefix ∉ [Instr.esPrefix] ∧
        decodeWith (arrive s).begin.cfg.undefinedOpcodes (0x8E :: 0xC8 :: List.replicate 12 0) = .error .undefinedForm ∧
        (arrive s).begin.mem.Wf ∧ Deliverable 6 (arrive s).begin) ∧
    (let s := code [0xF0, 0xF4] start;
      decodeOp [0xF4] = .error .unknownOpcode ∧ NoEvent (arrive s) ∧ (arrive s).pastEnd = false ∧
        splitPrefixes (fetchWindow (arrive s).begin).1 = ([.lockPrefix], 0xF4 :: List.replicate 13 0) ∧
        .operandSizePrefix ∉ [Instr.lockPrefix] ∧ .addressSizePrefix ∉ [Instr.lockPrefix] ∧
        decodeWith (arrive s).begin.cfg.undefinedOpcodes (0xF4 :: List.replicate 13 0) = .error .unknownOpcode) :=
  ⟨by decide, deliverable_of (by decide), by decide, ⟨noEvent_of (by decide), by decide, by decide, by decide, by decide,
    by decide, by decide, deliverable_of (by decide)⟩, by decide, noEvent_of (by decide), by decide, by decide, by decide,
    by decide, by decide⟩

theorem test_witness_PrefixesAreRecordedOrRefused :
    (∀ p ∈ [Instr.lockPrefix, .operandSizePrefix], isPrefix p = true) ∧
      .operandSizePrefix ∈ [Instr.lockPrefix, .operandSizePrefix] ∧
      (let s := code [0xF0, 0x66, 0x90] start;
        NoEvent (arrive s) ∧ (arrive s).pastEnd = false ∧
        splitPrefixes (fetchWindow (arrive s).begin).1 = ([.lockPrefix, .operandSizePrefix], 0x90 :: List.replicate 12 0) ∧
        decodeWith (arrive s).begin.cfg.undefinedOpcodes (0x90 :: List.replicate 12 0) ≠ .error .short) :=
  ⟨by decide, by decide, noEvent_of (by decide), by decide, by decide, by decide⟩

/-- Limit 35 ends with entry 8: 8 is delivered and 9 is not; limit 34 admits neither, 18 not 4, 14 not 3; limit 3FFH admits
255; OF clear and set. -/
theorem test_witness_SoftwareInterrupts :
    Deliverable 3 start ∧ Deliverable 255 start ∧ Deliverable 8 { start with idtrLimit := 35 } ∧
    Deliverable 4 { start with flags := 0x0A02 } ∧ start.pfx.lock = false ∧ start.mem.Wf ∧
    ({ start with idtrLimit := 35 } : State).idtrLimit.toNat < 4 * (9 : Byte).toNat + 3 ∧
    ({ start with idtrLimit := 34 } : State).idtrLimit.toNat < 4 * (9 : Byte).toNat + 3 ∧ (34 : Word).toNat < 4 * 8 + 3 ∧
    (18 : Word).toNat < 4 * 4 + 3 ∧ (14 : Word).toNat < 4 * 3 + 3 ∧
    getFlag .ovf ({ start with flags := 0x0A02 } : State).flags = true ∧ getFlag .ovf start.flags = false :=
  ⟨deliverable_of (by decide), deliverable_of (by decide), deliverable_of (by decide), deliverable_of (by decide), by decide⟩

/-- Limits 0 and 0: 0 passes as both limits, -1 and 1 do not. -/
theorem test_witness_BoundChecksSignedLimits :
    start.pfx.lock = false ∧ MemReadable (.direct 0xFFFC) 4 start ∧
      (let a := operandAddr start (.direct 0xFFFC);
       (wordAt start a).toInt = 0 ∧ (wordAt start (a + 2)).toInt = 0 ∧ ((abc 0 0 0).reg16 .ax).toInt = 0 ∧
         ((abc 0xFFFF 0 0).reg16 .ax).toInt < 0 ∧ 0 < ((abc 1 0 0).reg16 .ax).toInt) := by decide

theorem test_witness_IretRestores :
    (withSp 0xFFFA).pfx.lock = false ∧ StackReadable 0 (withSp 0xFFFA) ∧ StackReadable 2 (withSp 0xFFFA) ∧
      StackReadable 4 (withSp 0xFFFA) ∧ (withSp 0xFFFF).regs.sp = 0xFFFF ∧
      (withSp 0xFFFD).regs.sp = 0xFFFD ∧ (withSp 0xFFFB).regs.sp = 0xFFFB := by decide

theorem test_witness_CallNear :
    (withSp 2).mem.Wf ∧ (withSp 2).pfx.lock = false ∧ PushRoom 2 (withSp 2) ∧
      RmReadable (.mem lastWord : RM16) 2 (withSp 2) := by decide

theorem test_witness_CallFar :
    (withSp 4).mem.Wf ∧ (withSp 4).pfx.lock = false ∧ PushRoom 2 (withSp 4) ∧ PushRoom 4 (withSp 4) ∧
      MemReadable (.direct 0xFFFC) 4 (withSp 4) := by decide

theorem test_witness_LidtLoads : start.pfx.lock = false ∧ MemReadable (.direct 0xFFFA) 6 start := by decide

/-- TS; no TS and a pending error; neither. EM alone. -/
theorem test_witness_WaitAndEsc :
    let ts : State := { start with msw := 8 };
    let em : State := { start with msw := 4 };
    let err : State := { start with copErrorPending := true };
    (ts.pfx.lock = false ∧ ts.msw.getLsbD 3 = true ∧ em.msw.getLsbD 2 = true ∧ err.pfx.lock = false ∧
      err.msw.getLsbD 2 = false ∧ err.msw.getLsbD 3 = false ∧ err.copErrorPending = true ∧ err.mem.Wf ∧
      start.msw.getLsbD 2 = false ∧ start.msw.getLsbD 3 = false ∧ start.copErrorPending = false) ∧
    Deliverable 7 em ∧ Deliverable 7 ts ∧ Deliverable 16 err :=
  ⟨by decide, deliverable_of (by decide), deliverable_of (by decide), deliverable_of (by decide)⟩

/-- SP = 6, the last whose frame does not wrap, and SP = 0, whose frame wraps. -/
theorem test_witness_DeliveryEntersTheHandler : start.mem.Wf ∧ Deliverable 255 (withSp 6) ∧ Deliverable 0 (withSp 0) :=
  ⟨by decide, deliverable_of (by decide), deliverable_of (by decide)⟩

/-- Limit 35: vector 9 is beyond it and 8 is delivered; limit 34: 8 is beyond it too. -/
theorem test_witness_VectorBeyondTheLimitRaises8 :
    start.mem.Wf ∧ Deliverable 8 { start with idtrLimit := 35 } ∧
      ({ start with idtrLimit := 35 } : State).idtrLimit.toNat < 4 * (9 : Byte).toNat + 3 ∧
      ({ start with idtrLimit := 34 } : State).idtrLimit.toNat < 4 * 8 + 3 ∧ start.idtrLimit = 0x3FF :=
  ⟨by decide, deliverable_of (by decide), by decide⟩

theorem test_witness_UndeliverableFrameStops :
    (withSp 1).regs.sp = 1 ∧ (withSp 3).regs.sp = 3 ∧ (withSp 5).regs.sp = 5 := by decide

theorem test_witness_StepRunsTheDecodedInstruction :
    let s := code [0x26, 0x90] start;
    NoEvent (arrive s) ∧ (arrive s).pastEnd = false ∧ (∃ t, runPrefixes [.esPrefix] (arrive s).begin = .next t) ∧
      splitPrefixes (fetchWindow (arrive s).begin).1 = ([.esPrefix], 0x90 :: List.replicate 13 0) ∧
      decode (0x90 :: List.replicate 13 0) = .ok (.xchgAxR16 .ax, List.replicate 13 0) :=
  ⟨noEvent_of (by decide), by decide, ⟨_, rfl⟩, by decide, by decide⟩

/-- An event to come, a masked and an unmasked NMI, and a write to RAM; a single-step due; an NMI; a request that IF admits while an NMI waits masked; an NMI past offset
65,535. -/
theorem test_witness_EventsAreTakenInOrder :
    let a : State := { start with stepDue := true, nmiPending := true };
    let b : State := { start with env := [[.nmi, .intr 0x40]] };
    let c : State := { start with nmiMasked := true, nmiPending := true, intrPending := some 0x40 };
    let d : State := { start with pastEnd := true, nmiPending := true };
    (b.env = [.nmi, .intr 0x40] :: [] ∧ a.env = [] ∧ c.nmiMasked = true ∧ b.nmiMasked = false ∧ b.mem.Wf ∧ RamByte b 0x20000) ∧
    ((arrive a).ssShadow = false ∧ (arrive a).pastEnd = false ∧ (arrive a).stepDue = true ∧ (arrive b).mem.Wf ∧
      (arrive b).stepDue = false ∧ (arrive b).nmiPending = true ∧ (arrive b).nmiMasked = false ∧
      (arrive c).stepDue = false ∧ (arrive c).nmiMasked = true ∧ getFlag .intf (arrive c).flags = true ∧
      (arrive c).intrPending = some 0x40 ∧
      (arrive d).pastEnd = true ∧ (arrive d).stepDue = false ∧ (arrive d).nmiPending = true ∧ (arrive d).nmiMasked = false) ∧
    Deliverable 1 (arrive a) ∧ Deliverable 2 (arrive b) ∧ Deliverable 0x40 (arrive c) ∧
    Deliverable 2 (arrive d) :=
  ⟨by decide, by decide, deliverable_of (by decide), deliverable_of (by decide), deliverable_of (by decide),
    deliverable_of (by decide)⟩

/-- XCHG AX, AX after a MOV to SS; a MOV SS, AX. -/
theorem test_witness_MovToSsHoldsEventsOff :
    (let s : State := code [0x90] { start with ssShadow := true, stepDue := true, nmiPending := true };
      (arrive s).ssShadow = true ∧ (arrive s).stepDue = true ∧ ∃ t, step s = .next t) ∧
    ∃ t, step (code [0x8E, 0xD0] start) = .next t ∧ t.ssShadow = true := ⟨⟨by decide, by decide, _, rfl⟩, _, rfl, by decide⟩

/-- An INT 3 that starts with TF = 1: at its handler, single-step is due. An IRET that starts with TF = 0. -/
theorem test_witness_HandlersAreSingleStepped :
    let s : State := code [0xCC] (handler 3 { start with flags := 0x0102 });
    NoEvent (arrive s) ∧ getFlag .tf (arrive s).flags = true ∧
      (∃ t, step (code [0xCF] start) = .next t) ∧
      ∃ t, step s = .next t ∧ t.stepDue = true ∧ t.env = [] ∧ t.ssShadow = false ∧ t.pastEnd = false ∧ t.mem.Wf ∧
        Deliverable 1 t :=
  ⟨noEvent_of (by decide), by decide, ⟨_, rfl⟩, _, rfl, by decide, by decide, by decide, by decide, by decide, deliverable_of (by decide)⟩

theorem fetchable_of {bs : List Byte} {s : State} (h : ∀ k, (h : k < bs.length) → fetchByte s k = .ok bs[k]) :
    Fetchable bs s := h

/-- Fourteen DS prefixes and NOP, fifteen bytes that run; fifteen prefixes and NOP, sixteen bytes that do not; fifteen bytes
of prefixes and the first of a MOV. -/
theorem test_witness_FifteenByteLimit :
    let s := code (List.replicate 14 0x3E ++ [0x90]) start;
    let u := code (List.replicate 15 0x3E ++ [0x90]) start;
    let v := code (List.replicate 14 0x3E ++ [0xB0]) start;
    let ps (n : Nat) := List.replicate n Instr.dsPrefix;
    (NoEvent (arrive s) ∧ (arrive s).pastEnd = false ∧ (∀ p ∈ ps 15, isPrefix p = true) ∧
      isPrefix (.xchgAxR16 .ax) = false ∧ (Instr.xchgAxR16 .ax).wellFormed = true ∧
      ((ps 14).flatMap encode ++ encode (.xchgAxR16 .ax)).length = 15 ∧
      Fetchable ((ps 14).flatMap encode ++ encode (.xchgAxR16 .ax)) (arrive s).begin ∧
      ∃ t, runPrefixes (ps 14) (arrive s).begin = .next t) ∧
    (NoEvent (arrive u) ∧ (arrive u).pastEnd = false ∧ ((ps 15).flatMap encode ++ encode (.xchgAxR16 .ax)).length = 16 ∧
      Fetchable (((ps 15).flatMap encode ++ encode (.xchgAxR16 .ax)).take 15) (arrive u).begin ∧ (arrive u).begin.mem.Wf ∧
      Deliverable 13 (arrive u).begin) ∧
    NoEvent (arrive v) ∧ (arrive v).pastEnd = false ∧
      Fetchable (List.replicate 14 0x3E ++ [0xB0]) (arrive v).begin ∧
      decodeWith (arrive v).begin.cfg.undefinedOpcodes (splitPrefixes (List.replicate 14 0x3E ++ [0xB0])).2 = .error .short ∧
      (arrive v).begin.mem.Wf ∧ Deliverable 13 (arrive v).begin :=
  ⟨⟨noEvent_of (by decide), by decide, by decide, by decide, by decide, by decide, fetchable_of (by decide), _, rfl⟩,
    ⟨noEvent_of (by decide), by decide, by decide, fetchable_of (by decide), by decide, deliverable_of (by decide)⟩,
    noEvent_of (by decide), by decide, fetchable_of (by decide), by decide, by decide, deliverable_of (by decide)⟩

/-- A two-byte instruction at FFFFH; execution past the end. -/
theorem test_witness_ExecutionPastTheSegmentEndRaises13 :
    let s := code [0xB0] { start with ip := 0xFFFF };
    let u : State := { start with pastEnd := true };
    NoEvent (arrive s) ∧ (arrive s).begin.mem.Wf ∧ Deliverable 13 (arrive s).begin ∧ (arrive s).begin.pastEnd = false ∧
      (arrive s).begin.ip.toNat + (fetchWindow (arrive s).begin).1.length = 65536 ∧
      (fetch (arrive s).begin).body = .error .short ∧
      NoEvent (arrive u) ∧ Deliverable 13 (arrive u).begin ∧ (arrive u).begin.pastEnd = true :=
  ⟨noEvent_of (by decide), by decide, deliverable_of (by decide), by decide, by decide, by decide, noEvent_of (by decide),
    deliverable_of (by decide), by decide⟩

/-- A byte that was written at offset 65,535, one before it that was not, and one past it; a window of one byte. -/
theorem test_witness_FetchRefusesWrittenBytes :
    let s : State := { start with ip := 0xFFFE, dirty := [0x1FFFF] };
    0xFFFF < s.ip.toNat + 2 ∧ (fetchWindow s).1.length = 1 ∧ (fetchWindow start).1.length = 15 ∧ s.ip.toNat + 1 ≤ 0xFFFF ∧ (s.sel .cs).toNat * 16 + (s.ip.toNat + 1) ∈ s.dirty ∧
      (s.sel .cs).toNat * 16 + (s.ip.toNat + 0) ∉ s.dirty ∧ PresentByte s ((s.sel .cs).toNat * 16 + (s.ip.toNat + 0)) := by
  decide

theorem inv_of {s : State} (h : s.mem.Wf ∧ DirtyWf s.dirty ∧ FlagsFixed s.flags ∧ s.pfx = Prefixes.empty ∧
    (s.copErrorPending = true → s.cfg.hasCoprocessor = true)) : s.Inv := ⟨h.1, h.2.1, h.2.2.1, h.2.2.2.1, h.2.2.2.2⟩

theorem test_witness_StepKeepsTheInvariant :
    let s := code [0xA3, 0xFE, 0xFF] { start with dirty := [1, 2], copErrorPending := true };
    s.Inv ∧ ∃ t, step s = .next t := ⟨inv_of (by decide), _, rfl⟩

theorem test_witness_OnlyLidtChangesIdtr :
    let s := code [0x0F, 0x01, 0x1E, 0x00, 0x03] start;
    (∃ t, step s = .next t ∧ t.idtrLimit ≠ s.idtrLimit) ∧ start.idtrLimit = 0x3FF := ⟨⟨_, rfl, by decide⟩, by decide⟩

/-- An IRET while an NMI waits masked. -/
theorem test_witness_NmiStaysMaskedUntilIret :
    let s := code [0xCF] { start with nmiMasked := true, nmiPending := true };
    s.nmiMasked = true ∧ (arrive s).stepDue = false ∧ (arrive s).intrPending = none ∧ (arrive s).nmiPending = true ∧
      ∃ t, step s = .next t ∧ t.nmiMasked = false ∧ t.nmiPending = true :=
  ⟨by decide, by decide, by decide, by decide, _, rfl, by decide, by decide⟩

theorem test_witness_NoStepWritesTheseFields : ∃ t, step (code [0x40] start) = .next t := ⟨_, rfl⟩

end Sys2Proof.Tests
end

section
/-! What one step can do: every meaning ends an instruction in one of six ways, a step is one instruction or one
delivery, and neither writes the parameters, the MSW or the upper register halves (R4, R11, R19, R233). -/

namespace Sys2Proof.Machine
open Sys2Proof

variable {s t u : State}

/-! ### The ways a meaning can end -/

/-- How the execution of `i` from `s` can end in `t`. An exception or interrupt that was entered is a `transferred`, as a
CALL is. -/
inductive Executed (i : Instr) (s t : State) : Prop
  | recorded (lock : Bool) (seg : Option Seg) (state : t = s.recordPrefix lock seg)
  | retired (locked : Bool) (n : Nat) (frame : Retired locked n s t)
  | transferred (cs ip : Word) (frame : Jumped cs ip s t)
  | segmentLoaded (g : Seg) (d : RM16) (v : Word) (n : Nat) (instr : i = .movSregRm16 g d)
      (state : t = { (s.setSel g v).retire false n with ssShadow := s.ssShadow || g == .ss })
  | returned (ip cs img : Word) (instr : i = .iret) (state : t = s.returned ip cs img)
  | idtrLoaded (m : Mem) (limit : Word) (base : Dword) (n : Nat) (instr : i = .lidtM m)
      (state : t = { s with idtrLimit := limit, idtrBase := base }.retire false n)

variable {i : Instr}

theorem Executed.of_retire (h : Beside s u) (l : Bool) (n : Nat) : Executed i s (u.retire l n) :=
  .retired l n (retired_retire h l n)

theorem setSel_same_cs (s : State) : s.setSel .cs (s.sel .cs) = s := rfl

/-- A jump with the code segment as it was, which is how a near CALL ends (R185). -/
theorem Executed.of_jump (h : Beside s u) (target : Word) : Executed i s (u.jump target) :=
  .transferred (u.sel .cs) target (setSel_same_cs u ▸ jumped_jump h (u.sel .cs) target)

theorem beside_pushed_setFlags (s : State) (v fl : Word) : Beside s ((s.pushed v).setFlags fl) :=
  (beside_pushed s v).trans (beside_setFlags _ fl)

theorem entered_jumped (s : State) (v : Byte) (ret : Word) : ∃ cs ip, Jumped cs ip s (s.entered v ret) :=
  ⟨_, _, jumped_jump (((beside_pushed_setFlags s _ _).trans (beside_pushed _ _)).trans (beside_pushed _ _)) _ _⟩

theorem entered_executed {v : Byte} {ret : Word} : Executed i s (s.entered v ret) := by
  obtain ⟨cs, ip, hj⟩ := entered_jumped s v ret
  exact .transferred cs ip hj

theorem Raised.executed (h : Raised s t) : Executed i s t := by
  obtain ⟨v, ret, rfl⟩ := h.entered
  exact entered_executed

theorem beside_putRm8_setFlags (s : State) (d : RM8) (v : Byte) (fl : Word) : Beside s ((s.putRm8 d v).setFlags fl) :=
  (beside_putRm8 s d v).trans (beside_setFlags _ fl)

theorem beside_putRm16_setFlags (s : State) (d : RM16) (v fl : Word) : Beside s ((s.putRm16 d v).setFlags fl) :=
  (beside_putRm16 s d v).trans (beside_setFlags _ fl)

theorem beside_rewritten (h : Rewritten s t) : Beside s t := by
  obtain ⟨l, rfl, -⟩ := h
  exact ⟨rfl, rfl, rfl, ⟨rfl, rfl, rfl, rfl, rfl, rfl, rfl, rfl, rfl, rfl, rfl, rfl, rfl⟩⟩

/-! ### Each shape of meaning -/

theorem modifyRm8_executed {d : RM8} {f : Byte → Word → Word → Byte × Word} {n : Nat} (h : modifyRm8 d f n s = .next t) :
    Executed i s t := by
  rcases modifyRm8_inv h with ⟨a, rfl⟩ | h
  · exact .of_retire (beside_putRm8_setFlags ..) _ _
  · exact h.executed

theorem modifyRm16_executed {d : RM16} {f : Word → Word → Word → Word × Word} {n : Nat}
    (h : modifyRm16 d f n s = .next t) : Executed i s t := by
  rcases modifyRm16_inv h with ⟨a, rfl⟩ | h
  · exact .of_retire (beside_putRm16_setFlags ..) _ _
  · exact h.executed

theorem combineReg8_executed {r : Reg8} {d : RM8} {f : Byte → Byte → Word → Word → Byte × Word} {n : Nat}
    (h : combineReg8 r d f n s = .next t) : Executed i s t := by
  rcases combineReg8_inv h with ⟨b, rfl⟩ | h
  · exact .of_retire ((beside_setReg8 ..).trans (beside_setFlags ..)) _ _
  · exact h.executed

theorem combineReg16_executed {r : Reg16} {d : RM16} {f : Word → Word → Word → Word → Word × Word} {n : Nat}
    (h : combineReg16 r d f n s = .next t) : Executed i s t := by
  rcases combineReg16_inv h with ⟨b, rfl⟩ | h
  · exact .of_retire ((beside_setReg16 ..).trans (beside_setFlags ..)) _ _
  · exact h.executed

theorem divideByte_executed {f : Word → Byte → Option (Byte × Byte)} {d : RM8} (h : divideByte f d s = .next t) :
    Executed i s t := by
  rcases divideByte_inv h with ⟨v, rfl⟩ | h
  · exact .of_retire ((beside_setReg16 ..).trans (beside_setFlags ..)) _ _
  · exact h.executed

theorem divideWord_executed {f : Dword → Word → Option (Word × Word)} {d : RM16} (h : divideWord f d s = .next t) :
    Executed i s t := by
  rcases divideWord_inv h with ⟨q, r, rfl⟩ | h
  · exact .of_retire (((beside_setReg16 ..).trans (beside_setReg16 ..)).trans (beside_setFlags ..)) _ _
  · exact h.executed

theorem pushValue_executed {v : Word} {n : Nat} (h : pushValue v n s = .next t) : Executed i s t := by
  rcases pushValue_inv h with rfl | h
  · exact .of_retire (beside_pushed ..) _ _
  · exact h.executed

theorem pushOperand_executed {d : RM16} {n : Nat} (h : pushOperand d n s = .next t) : Executed i s t := by
  rcases pushOperand_inv h with ⟨v, rfl⟩ | h
  · exact .of_retire (beside_pushed ..) _ _
  · exact h.executed

theorem storeRm8_executed {d : RM8} {v : Byte} {n : Nat} (h : storeRm8 d v n s = .next t) : Executed i s t := by
  rcases storeRm8_inv h with rfl | h
  · exact .of_retire (beside_putRm8 ..) _ _
  · exact h.executed

theorem storeRm16_executed {d : RM16} {v : Word} {n : Nat} (h : storeRm16 d v n s = .next t) : Executed i s t := by
  rcases storeRm16_inv h with rfl | h
  · exact .of_retire (beside_putRm16 ..) _ _
  · exact h.executed

theorem loadReg8_executed {r : Reg8} {d : RM8} {n : Nat} (h : loadReg8 r d n s = .next t) : Executed i s t := by
  rcases loadReg8_inv h with ⟨v, rfl⟩ | h
  · exact .of_retire (beside_setReg8 ..) _ _
  · exact h.executed

theorem loadReg16_executed {r : Reg16} {d : RM16} {n : Nat} (h : loadReg16 r d n s = .next t) : Executed i s t := by
  rcases loadReg16_inv h with ⟨v, rfl⟩ | h
  · exact .of_retire (beside_setReg16 ..) _ _
  · exact h.executed

theorem loadSeg_executed {g : Seg} {d : RM16} {n : Nat} (h : loadSeg g d n s = .next t) :
    Executed (.movSregRm16 g d) s t := by
  rcases loadSeg_inv h with ⟨v, ht⟩ | h
  · exact .segmentLoaded g d v n rfl ht
  · exact h.executed

theorem exchange8_executed {d : RM8} {r : Reg8} {n : Nat} (h : exchange8 d r n s = .next t) : Executed i s t := by
  rcases exchange8_inv h with ⟨v, rfl⟩ | h
  · exact .of_retire ((beside_putRm8 ..).trans (beside_setReg8 ..)) _ _
  · exact h.executed

theorem exchange16_executed {d : RM16} {r : Reg16} {n : Nat} (h : exchange16 d r n s = .next t) : Executed i s t := by
  rcases exchange16_inv h with ⟨v, rfl⟩ | h
  · exact .of_retire ((beside_putRm16 ..).trans (beside_setReg16 ..)) _ _
  · exact h.executed

theorem shiftRm8_executed {f : Byte → Nat → Word → Word → Byte × Word} {d : RM8} {count : Byte} {n : Nat}
    (h : shiftRm8 f d count n s = .next t) : Executed i s t := by
  rcases shiftRm8_inv h with ⟨u, hu, rfl⟩ | ⟨v, rfl⟩ | h
  · exact .of_retire (beside_rewritten hu) _ _
  · exact .of_retire (beside_putRm8_setFlags ..) _ _
  · exact h.executed

theorem shiftRm16_executed {f : Word → Nat → Word → Word → Word × Word} {d : RM16} {count : Byte} {n : Nat}
    (h : shiftRm16 f d count n s = .next t) : Executed i s t := by
  rcases shiftRm16_inv h with ⟨u, hu, rfl⟩ | ⟨v, rfl⟩ | h
  · exact .of_retire (beside_rewritten hu) _ _
  · exact .of_retire (beside_putRm16_setFlags ..) _ _
  · exact h.executed

theorem doubleShift_executed {f : Word → Word → Nat → Word → Word → Word → Word × Word} {d : RM16} {r : Reg16}
    {count : Byte} {n : Nat} (h : doubleShift f d r count n s = .next t) : Executed i s t :=
  shiftRm16_executed h

theorem bitTestIn_executed {f : Word → Nat → Word} {r : Reg16} {n len : Nat} : Executed i s (bitTestIn f r n len s) :=
  .of_retire ((beside_setReg16 ..).trans (beside_setFlags ..)) _ _

theorem bitTestWord_executed {a : Nat} {v : Word} {fl l : Bool} {len : Nat} :
    Executed i s (((s.setWord a v).setFlags (bitFlags fl s.flags s.freeFlags)).retire l len) :=
  .of_retire ((beside_setWord ..).trans (beside_setFlags ..)) _ _

theorem bitTestReg_executed {f : Word → Nat → Word} {d : RM16} {k : Word} {len : Nat}
    (h : bitTestReg f d k len s = .next t) : Executed i s t := by
  rcases bitTest_inv (off := fun m => bitWordOffset s m k) h with ⟨r, rfl⟩ | ⟨a, v, fl, rfl⟩ | h
  · exact bitTestIn_executed
  · exact bitTestWord_executed
  · exact h.executed

theorem bitTestImm_executed {f : Word → Nat → Word} {d : RM16} {k : Byte} {len : Nat}
    (h : bitTestImm f d k len s = .next t) : Executed i s t := by
  rcases bitTest_inv (off := fun m => effectiveOffset s m) h with ⟨r, rfl⟩ | ⟨a, v, fl, rfl⟩ | h
  · exact bitTestIn_executed
  · exact bitTestWord_executed
  · exact h.executed

theorem callNear_executed {target : Word} {n : Nat} (h : callNear target n s = .next t) : Executed i s t := by
  rcases callNear_inv h with rfl | h
  · exact .of_jump (beside_pushed ..) _
  · exact h.executed

theorem callNearIndirect_executed {d : RM16} {n : Nat} (h : callNearIndirect d n s = .next t) : Executed i s t := by
  rcases callNearIndirect_inv h with ⟨target, rfl⟩ | h
  · exact .of_jump (beside_pushed ..) _
  · exact h.executed

theorem calledFar_executed {off sel : Word} {n : Nat} : Executed i s (s.calledFar off sel n) :=
  .transferred sel off (jumped_jump ((beside_pushed ..).trans (beside_pushed ..)) sel off)

theorem callFar_executed {off sel : Word} {n : Nat} (h : callFar off sel n s = .next t) : Executed i s t := by
  rcases callFar_inv h with rfl | h
  · exact calledFar_executed
  · exact h.executed

theorem callFarIndirect_executed {m : Mem} {n : Nat} (h : callFarIndirect m n s = .next t) : Executed i s t := by
  rcases callFarIndirect_inv h with ⟨off, sel, rfl⟩ | h
  · exact calledFar_executed
  · exact h.executed

theorem softwareInterrupt_executed {v : Byte} {n : Nat} (h : softwareInterrupt v n s = .next t) : Executed i s t := by
  obtain ⟨v', ret, rfl⟩ := softwareInterrupt_inv h
  exact entered_executed

theorem interruptOnOverflow_executed {n : Nat} (h : interruptOnOverflow n s = .next t) : Executed i s t := by
  rcases interruptOnOverflow_inv h with rfl | ⟨v, ret, rfl⟩
  · exact .of_retire (.refl s) _ _
  · exact entered_executed

theorem checkBounds_executed {r : Reg16} {m : Mem} {n : Nat} (h : checkBounds r m n s = .next t) : Executed i s t := by
  rcases checkBounds_inv h with rfl | h
  · exact .of_retire (.refl s) _ _
  · exact h.executed

theorem interruptReturn_executed (h : interruptReturn s = .next t) : Executed .iret s t := by
  rcases interruptReturn_inv h with ⟨ip, cs, img, ht⟩ | h
  · exact .returned ip cs img rfl ht
  · exact h.executed

theorem loadIdtr_executed {m : Mem} {n : Nat} (h : loadIdtr m n s = .next t) : Executed (.lidtM m) s t := by
  rcases loadIdtr_inv h with ⟨l, b, ht⟩ | h
  · exact .idtrLoaded m l b n rfl ht
  · exact h.executed

theorem coprocessorEscape_executed {x y : BitVec 3} {d : RM16} (h : coprocessorEscape x y d s = .next t) :
    Executed i s t :=
  (coprocessorEscape_inv h).executed

theorem waitCoprocessor_executed (h : waitCoprocessor s = .next t) : Executed i s t := by
  rcases waitCoprocessor_inv h with rfl | h
  · exact .of_retire (.refl s) _ _
  · exact h.executed

theorem recordPrefix_executed {lock : Bool} {seg : Option Seg}
    (h : (.next (s.recordPrefix lock seg) : Result) = .next t) : Executed i s t := by
  cases h
  exact .recorded lock seg rfl

/-! ### Every instruction -/

/-- An instruction that answers a next state ended in one of the six ways; each is named by the shape of its meaning. -/
theorem exec_executed (h : exec i s = .next t) : Executed i s t := by
  cases i with
  | lockPrefix | esPrefix | csPrefix | ssPrefix | dsPrefix | fsPrefix | gsPrefix | repnePrefix | repPrefix =>
      exact recordPrefix_executed h
  | operandSizePrefix | addressSizePrefix => cases h
  | divRm8 | idivRm8 => exact divideByte_executed h
  | divRm16 | idivRm16 => exact divideWord_executed h
  | pushR16 | pushSp | pushImm16 | pushImm8 | pushEs | pushCs | pushSs | pushDs | pushFs | pushGs | pushf =>
      exact pushValue_executed h
  | pushRm16 => exact pushOperand_executed h
  | movRm8R8 | movMoffs8Al | movR8Imm8 | movRm8Imm8 => exact storeRm8_executed h
  | movRm16R16 | movRm16Sreg | movMoffs16Ax | movR16Imm16 | movRm16Imm16 => exact storeRm16_executed h
  | movR8Rm8 | movAlMoffs8 => exact loadReg8_executed h
  | movR16Rm16 | movAxMoffs16 => exact loadReg16_executed h
  | movSregRm16 => exact loadSeg_executed h
  | xchgRm8R8 => exact exchange8_executed h
  | xchgRm16R16 | xchgAxR16 => exact exchange16_executed h
  | rolRm8One | rolRm8Cl | rolRm8Imm8 | rorRm8One | rorRm8Cl | rorRm8Imm8 | rclRm8One | rclRm8Cl | rclRm8Imm8
    | rcrRm8One | rcrRm8Cl | rcrRm8Imm8 | shlRm8One | shlRm8Cl | shlRm8Imm8 | shrRm8One | shrRm8Cl | shrRm8Imm8
    | sarRm8One | sarRm8Cl | sarRm8Imm8 => exact shiftRm8_executed h
  | rolRm16One | rolRm16Cl | rolRm16Imm8 | rorRm16One | rorRm16Cl | rorRm16Imm8 | rclRm16One | rclRm16Cl
    | rclRm16Imm8 | rcrRm16One | rcrRm16Cl | rcrRm16Imm8 | shlRm16One | shlRm16Cl | shlRm16Imm8 | shrRm16One
    | shrRm16Cl | shrRm16Imm8 | sarRm16One | sarRm16Cl | sarRm16Imm8 => exact shiftRm16_executed h
  | shldRm16R16Imm8 | shldRm16R16Cl | shrdRm16R16Imm8 | shrdRm16R16Cl => exact doubleShift_executed h
  | btsRm16R16 | btrRm16R16 | btcRm16R16 => exact bitTestReg_executed h
  | btsRm16Imm8 | btrRm16Imm8 | btcRm16Imm8 => exact bitTestImm_executed h
  | addRm8R8 | addAlImm8 | addRm8Imm8 | orRm8R8 | orAlImm8 | orRm8Imm8 | adcRm8R8 | adcAlImm8 | adcRm8Imm8
    | sbbRm8R8 | sbbAlImm8 | sbbRm8Imm8 | andRm8R8 | andAlImm8 | andRm8Imm8 | subRm8R8 | subAlImm8 | subRm8Imm8
    | xorRm8R8 | xorAlImm8 | xorRm8Imm8 | incRm8 | decRm8 | notRm8 | negRm8 => exact modifyRm8_executed h
  | addRm16R16 | addAxImm16 | addRm16Imm16 | addRm16Imm8 | orRm16R16 | orAxImm16 | orRm16Imm16 | orRm16Imm8
    | adcRm16R16 | adcAxImm16 | adcRm16Imm16 | adcRm16Imm8 | sbbRm16R16 | sbbAxImm16 | sbbRm16Imm16
    | sbbRm16Imm8 | andRm16R16 | andAxImm16 | andRm16Imm16 | andRm16Imm8 | subRm16R16 | subAxImm16
    | subRm16Imm16 | subRm16Imm8 | xorRm16R16 | xorAxImm16 | xorRm16Imm16 | xorRm16Imm8 | incRm16 | incR16
    | decRm16 | decR16 | notRm16 | negRm16 => exact modifyRm16_executed h
  | addR8Rm8 | orR8Rm8 | adcR8Rm8 | sbbR8Rm8 | andR8Rm8 | subR8Rm8 | xorR8Rm8 => exact combineReg8_executed h
  | addR16Rm16 | orR16Rm16 | adcR16Rm16 | sbbR16Rm16 | andR16Rm16 | subR16Rm16 | xorR16Rm16 =>
      exact combineReg16_executed h
  | int3 | intN => exact softwareInterrupt_executed h
  | into => exact interruptOnOverflow_executed h
  | boundR16M => exact checkBounds_executed h
  | iret => exact interruptReturn_executed h
  | callRel16 => exact callNear_executed h
  | callRm16 => exact callNearIndirect_executed h
  | callPtr16 => exact callFar_executed h
  | callM16 => exact callFarIndirect_executed h
  | lidtM => exact loadIdtr_executed h
  | esc => exact coprocessorEscape_executed h
  | wait => exact waitCoprocessor_executed h

/-! ### What ends a step -/

/-- A fetched body that answers a next state was executed, or is an undefined form that raised #6 (R72, R78). -/
theorem runBody_next {body : Except DecodeError Instr} (h : runBody body s = .next t) :
    (∃ i, body = .ok i ∧ exec i s = .next t) ∨ Raised s t := by
  match body, h with
  | .ok i, h => exact .inl ⟨i, rfl, h⟩
  | .error .undefinedForm, h => exact .inr ⟨6#8, h⟩

/-- A fetched instruction that answers a next state took the exception that stopped its fetch, or ran its prefixes and
then its body (R78). -/
theorem runFetched_next {f : Fetched} (h : runFetched f s = .next t) :
    Raised s t ∨ ∃ u, runPrefixes f.prefixes s = .next u ∧ runBody f.body u = .next t := by
  unfold runFetched at h
  split at h
  · rcases complete_inv h with h | h
    · cases h
    · exact .inl h
  · split at h
    · next u hu => exact .inr ⟨u, hu, h⟩
    · cases h
    · cases h

/-- Step 4 of R233 past the segment end, and before it. -/
theorem runInstruction_next (h : runInstruction s = .next t) :
    s.pastEnd = true ∧ deliverEvent 13#8 s.begin = .next t ∨
      s.pastEnd = false ∧ runFetched (fetch s.begin) s.begin = .next t := by
  unfold runInstruction at h
  split at h
  · next hp => exact .inl ⟨hp, h⟩
  · next hp => exact .inr ⟨Bool.eq_false_of_not_eq_true hp, h⟩

/-- What a boundary does: one of the three deliveries of R233, or the next instruction where no event is recognised. -/
theorem atBoundary_next (h : atBoundary s = .next t) :
    takeSingleStep s = .next t ∨ takeNmi s = .next t ∨ (∃ v, takeIntr v s = .next t) ∨
      NoEvent s ∧ runInstruction s = .next t := by
  unfold atBoundary at h
  split at h
  · next hs => exact .inr (.inr (.inr ⟨.inl hs, h⟩))
  · split at h
    · exact .inl h
    · next hd =>
      split at h
      · exact .inr (.inl h)
      · next hn =>
        split at h
        · next v _ => exact .inr (.inr (.inl ⟨v, h⟩))
        · next hi =>
          refine .inr (.inr (.inr ⟨.inr ⟨by simpa using hd, by simpa using hn, fun hf => ?_⟩, h⟩))
          simpa [State.intrDue, hf] using hi

/-! ### The fields no step writes -/

/-- The parameters, the MSW and bits 31:16 of the general registers are the same in both states (R4, R11, R19). -/
structure SameFixed (s t : State) : Prop where
  cfg : t.cfg = s.cfg
  msw : t.msw = s.msw
  upper : t.upper = s.upper

theorem SameFixed.trans (h : SameFixed s t) (k : SameFixed t u) : SameFixed s u :=
  ⟨k.cfg.trans h.cfg, k.msw.trans h.msw, k.upper.trans h.upper⟩

theorem SameFixed.refl (s : State) : SameFixed s s := ⟨rfl, rfl, rfl⟩

theorem SameSystem.sameFixed (h : SameSystem s t) : SameFixed s t := ⟨h.cfg, h.msw, h.upper⟩

theorem Executed.sameFixed (h : Executed i s t) : SameFixed s t := by
  cases h with
  | recorded lock seg state => subst state; exact ⟨rfl, rfl, rfl⟩
  | retired locked n frame => exact frame.system.sameFixed
  | transferred cs ip frame => exact frame.system.sameFixed
  | segmentLoaded g d v n instr state => subst state; exact ⟨rfl, rfl, rfl⟩
  | returned ip cs img instr state => subst state; exact ⟨rfl, rfl, rfl⟩
  | idtrLoaded m limit base n instr state => subst state; exact ⟨rfl, rfl, rfl⟩

theorem exec_sameFixed (h : exec i s = .next t) : SameFixed s t := (exec_executed h).sameFixed

theorem deliver_sameFixed {b : Bool} {v : Byte} {ret start : Word} (h : deliver b v ret start s = .next t) :
    SameFixed s t := by
  obtain ⟨v', ret', rfl⟩ := deliver_inv h
  obtain ⟨cs, ip, hj⟩ := entered_jumped s v' ret'
  exact hj.system.sameFixed

theorem Raised.sameFixed (h : Raised s t) : SameFixed s t := by
  obtain ⟨v, hv⟩ := h
  exact deliver_sameFixed hv

/-- A delivery from a state that differs from `s` in none of the three fields. -/
theorem deliverEvent_sameFixed {v : Byte} (h : deliverEvent v u = .next t) (hu : SameFixed s u) : SameFixed s t :=
  hu.trans (deliver_sameFixed h)

theorem runPrefixes_sameFixed {ps : List Instr} (h : runPrefixes ps s = .next t) : SameFixed s t := by
  induction ps generalizing s with
  | nil => cases h; exact .refl _
  | cons p ps ih =>
    unfold runPrefixes at h
    split at h
    · next u hu => exact (exec_sameFixed hu).trans (ih h)
    · cases h
    · cases h

theorem runBody_sameFixed {body : Except DecodeError Instr} (h : runBody body s = .next t) : SameFixed s t := by
  rcases runBody_next h with ⟨i, -, h⟩ | h
  · exact exec_sameFixed h
  · exact h.sameFixed

theorem runFetched_sameFixed {f : Fetched} (h : runFetched f s = .next t) : SameFixed s t := by
  rcases runFetched_next h with h | ⟨u, hu, h⟩
  · exact h.sameFixed
  · exact (runPrefixes_sameFixed hu).trans (runBody_sameFixed h)

theorem begin_sameFixed (s : State) : SameFixed s s.begin := ⟨rfl, rfl, rfl⟩

theorem runInstruction_sameFixed (h : runInstruction s = .next t) : SameFixed s t := by
  rcases runInstruction_next h with ⟨-, h⟩ | ⟨-, h⟩
  · exact deliverEvent_sameFixed h (begin_sameFixed s)
  · exact (begin_sameFixed s).trans (runFetched_sameFixed h)

theorem takeSingleStep_sameFixed (h : takeSingleStep s = .next t) : SameFixed s t :=
  deliverEvent_sameFixed h ⟨rfl, rfl, rfl⟩

theorem takeNmi_sameFixed (h : takeNmi s = .next t) : SameFixed s t :=
  deliverEvent_sameFixed h ⟨rfl, rfl, rfl⟩

theorem takeIntr_sameFixed {v : Byte} (h : takeIntr v s = .next t) : SameFixed s t :=
  deliverEvent_sameFixed h ⟨rfl, rfl, rfl⟩

theorem atBoundary_sameFixed (h : atBoundary s = .next t) : SameFixed s t := by
  rcases atBoundary_next h with h | h | ⟨v, h⟩ | ⟨-, h⟩
  · exact takeSingleStep_sameFixed h
  · exact takeNmi_sameFixed h
  · exact takeIntr_sameFixed h
  · exact runInstruction_sameFixed h

theorem applyEvent_sameFixed (s : State) (e : EnvEvent) : SameFixed s (applyEvent s e) := by
  cases e with
  | nmi => simp only [applyEvent]; split <;> exact ⟨rfl, rfl, rfl⟩
  | intr v => exact ⟨rfl, rfl, rfl⟩
  | intrWithdrawn => exact ⟨rfl, rfl, rfl⟩
  | copError b => exact ⟨rfl, rfl, rfl⟩
  | busWrite a b => simp only [applyEvent]; split <;> exact ⟨rfl, rfl, rfl⟩

theorem applyEvents_sameFixed (es : List EnvEvent) (s : State) : SameFixed s (es.foldl applyEvent s) := by
  induction es generalizing s with
  | nil => exact .refl _
  | cons e es ih => exact (applyEvent_sameFixed s e).trans (ih (applyEvent s e))

theorem arrive_sameFixed (s : State) : SameFixed s (arrive s) := by
  unfold arrive
  split
  · exact .refl s
  · next es rest _ =>
    have hpop : SameFixed s { s with env := rest } := ⟨rfl, rfl, rfl⟩
    exact hpop.trans (applyEvents_sameFixed es _)

/-- Settles O60: the events of the boundary, each delivery and each instruction keep the three fields. -/
theorem noStepWritesTheseFields : Obligations.NoStepWritesTheseFields := by
  intro s t h
  have hf : SameFixed s t := (arrive_sameFixed s).trans (atBoundary_sameFixed h)
  exact ⟨hf.cfg, hf.msw, hf.upper⟩

end Sys2Proof.Machine
end

section
/-! Which instructions are read where: prefixes before the body, and none of them as the body (R78). -/

namespace Sys2Proof
open Sys2Proof.Machine

/-- A parser that never answers one of the prefixes. -/
structure NoPrefix (p : List Byte → Parsed Instr) : Prop where
  body : ∀ {bs i rest}, p bs = .ok (i, rest) → isPrefix i = false

/-- Reading an item first answers what the rest answers. -/
theorem NoPrefix.andThen {α : Type} {p : List Byte → Parsed α} {f : α → List Byte → Parsed Instr}
    (hf : ∀ a, NoPrefix (f a)) : NoPrefix (fun bs => Sys2Proof.andThen (p bs) f) := by
  refine ⟨fun {bs i rest} h => ?_⟩
  cases hp : p bs with
  | ok q => rw [hp] at h; exact (hf q.1).body h
  | error e => rw [hp] at h; cases h

theorem NoPrefix.pure {i : Instr} (hi : isPrefix i = false) : NoPrefix (fun bs => .ok (i, bs)) := by
  refine ⟨fun h => ?_⟩
  cases h
  exact hi

theorem NoPrefix.error (e : DecodeError) : NoPrefix (fun _ => .error e) := by
  refine ⟨fun {bs i rest} h => ?_⟩
  cases h

/-! ### Every parser -/

theorem noPrefix_parseByte {k} (hk : ∀ v, isPrefix (k v) = false) : NoPrefix (parseByte k) :=
  .andThen fun v => .pure (hk v)
theorem noPrefix_parseWord {k} (hk : ∀ v, isPrefix (k v) = false) : NoPrefix (parseWord k) :=
  .andThen fun v => .pure (hk v)
theorem noPrefix_parseWords {k} (hk : ∀ v w, isPrefix (k v w) = false) : NoPrefix (parseWords k) :=
  .andThen fun v => noPrefix_parseWord (hk v)
theorem noPrefix_parseRm8 {k} (hk : ∀ d, isPrefix (k d) = false) : NoPrefix (parseRm8 k) :=
  .andThen fun _ => .pure (hk _)
theorem noPrefix_parseRm16 {k} (hk : ∀ d, isPrefix (k d) = false) : NoPrefix (parseRm16 k) :=
  .andThen fun _ => .pure (hk _)
theorem noPrefix_parseRm8R8 {k} (hk : ∀ d r, isPrefix (k d r) = false) : NoPrefix (parseRm8R8 k) :=
  .andThen fun _ => .pure (hk _ _)
theorem noPrefix_parseRm16R16 {k} (hk : ∀ d r, isPrefix (k d r) = false) : NoPrefix (parseRm16R16 k) :=
  .andThen fun _ => .pure (hk _ _)
theorem noPrefix_parseRm8Byte {k} (hk : ∀ d v, isPrefix (k d v) = false) : NoPrefix (parseRm8Byte k) :=
  .andThen fun _ => noPrefix_parseByte (hk _)
theorem noPrefix_parseRm16Byte {k} (hk : ∀ d v, isPrefix (k d v) = false) : NoPrefix (parseRm16Byte k) :=
  .andThen fun _ => noPrefix_parseByte (hk _)
theorem noPrefix_parseRm16Word {k} (hk : ∀ d v, isPrefix (k d v) = false) : NoPrefix (parseRm16Word k) :=
  .andThen fun _ => noPrefix_parseWord (hk _)
theorem noPrefix_parseRm16R16Byte {k} (hk : ∀ d r v, isPrefix (k d r v) = false) : NoPrefix (parseRm16R16Byte k) :=
  .andThen fun _ => noPrefix_parseByte (hk _ _)
theorem noPrefix_parseEsc (x : BitVec 3) : NoPrefix (parseEsc x) := .andThen fun _ => .pure rfl

theorem noPrefix_parseMem {k} (hk : ∀ y m, isPrefix (k y m) = false) : NoPrefix (parseMem k) :=
  .andThen fun p => by
    cases hd : p.2 with
    | reg r => exact .error _
    | mem m => exact .pure (hk _ _)

theorem noPrefix_parseSeg {k} (hk : ∀ d g, isPrefix (k d g) = false) : NoPrefix (parseSeg k) :=
  .andThen fun p => by
    cases hg : Seg.ofCode p.1 with
    | none => exact .error _
    | some g => exact .pure (hk _ _)

theorem noPrefix_parseSegDest {k} (hk : ∀ g d, isPrefix (k g d) = false) : NoPrefix (parseSegDest k) :=
  .andThen fun p => by
    cases hg : Seg.ofCode p.1 with
    | none => exact .error _
    | some g =>
      cases g with
      | cs => exact .error _
      | es | ss | ds | fs | gs => exact .pure (hk _ _)

/-- A group is as its rows are. -/
theorem noPrefix_parseGroup {rows : Rows} (hr : ∀ n p, rows n = some p → NoPrefix p) :
    NoPrefix (fun bs => parseGroup bs rows) := by
  refine ⟨fun {bs i rest} h => ?_⟩
  cases bs with
  | nil => cases h
  | cons b bs =>
    dsimp only [parseGroup] at h
    split at h
    · next p hp => exact (hr _ p hp).body h
    · cases h

/-- The rows of every group. -/
theorem noPrefix_rows {rows : Rows} (h : rows ∈ [group80, group81, group83, groupC0, groupC1, groupC6, groupC7, groupD0,
    groupD1, groupD2, groupD3, groupF6, groupF7, groupFE, groupFF, group0F01, group0FBA]) (n : Nat)
    (p : List Byte → Parsed Instr) (hp : rows n = some p) : NoPrefix p := by
  simp only [List.mem_cons, List.not_mem_nil, or_false] at h
  rcases h with rfl | rfl | rfl | rfl | rfl | rfl | rfl | rfl | rfl | rfl | rfl | rfl | rfl | rfl | rfl | rfl | rfl
  all_goals
    simp only [group80.eq_def, group81.eq_def, group83.eq_def, groupC0.eq_def, groupC1.eq_def, groupC6.eq_def,
      groupC7.eq_def, groupD0.eq_def, groupD1.eq_def, groupD2.eq_def, groupD3.eq_def, groupF6.eq_def, groupF7.eq_def,
      groupFE.eq_def, groupFF.eq_def, group0F01.eq_def, group0FBA.eq_def] at hp
    split at hp <;> cases hp
  all_goals
    apply_rules [noPrefix_parseRm8, noPrefix_parseRm16, noPrefix_parseRm8Byte, noPrefix_parseRm16Byte,
      noPrefix_parseRm16Word, noPrefix_parseMem]
    all_goals intros; rfl

theorem noPrefix_decodePrimary (op : Nat) : NoPrefix (decodePrimary op) := by
  unfold decodePrimary
  split
  all_goals
    apply_rules [NoPrefix.pure, NoPrefix.error, noPrefix_parseByte, noPrefix_parseWord, noPrefix_parseWords,
      noPrefix_parseRm8R8, noPrefix_parseRm16R16, noPrefix_parseMem, noPrefix_parseSeg, noPrefix_parseSegDest,
      noPrefix_parseEsc, noPrefix_parseGroup, noPrefix_rows]
    all_goals intros; simp [isPrefix]

theorem noPrefix_decodeEscaped (op : Nat) : NoPrefix (decodeEscaped op) := by
  unfold decodeEscaped
  split
  all_goals
    apply_rules [NoPrefix.pure, NoPrefix.error, noPrefix_parseRm16R16, noPrefix_parseRm16R16Byte, noPrefix_parseGroup,
      noPrefix_rows]
    all_goals intros; simp [isPrefix]

/-- The decoder of the body reads no prefixes: only `decode` and `splitPrefixes` do. -/
theorem noPrefix_decodeWith (l : List Pattern) : NoPrefix (decodeWith l) := by
  refine ⟨fun {bs i rest} h => ?_⟩
  have ho : decodeOp bs = .ok (i, rest) := by
    unfold decodeWith at h
    split at h
    · split at h <;> cases h
    · exact h
  unfold decodeOp at ho
  split at ho
  · cases ho
  · split at ho
    · split at ho
      · cases ho
      · exact (noPrefix_decodeEscaped _).body ho
    · exact (noPrefix_decodePrimary _).body ho

theorem isPrefix_of_decodePrefix {b : Byte} {p : Instr} (h : decodePrefix b = some p) : isPrefix p = true := by
  unfold decodePrefix at h
  split at h <;> cases h <;> rfl

theorem isPrefix_of_mem_splitPrefixes {bs : List Byte} : ∀ p ∈ (splitPrefixes bs).1, isPrefix p = true := by
  induction bs with
  | nil => intro p hp; cases hp
  | cons b bs ih =>
    unfold splitPrefixes
    split
    · next q hq =>
      intro p hp
      rcases List.mem_cons.1 hp with rfl | hp
      · exact isPrefix_of_decodePrefix hq
      · exact ih p hp
    · intro p hp
      cases hp

end Sys2Proof
end

section
/-! What every step keeps of a well-kept state (R16, R17, R22, R53, R78): the fixed bits of FLAGS, the canonical forms
of memory and of the written addresses, no prefixes left over. -/

namespace Sys2Proof.Machine
open Sys2Proof

variable {s t u : State} {i : Instr}

/-! ### The fixed bits of FLAGS -/

/-- No named flag is one of the fixed bits (R17). -/
theorem FlagsFixed.of_onlyFlags {fs : List Flag} {old new : Word} (h : OnlyFlags fs old new) (hf : FlagsFixed old) :
    FlagsFixed new := by
  have hn : ∀ (f : Flag), f.bit ≠ 1 ∧ f.bit ≠ 3 ∧ f.bit ≠ 5 ∧ f.bit ≠ 15 := by intro f; cases f <;> decide
  refine BitVec.eq_of_getLsbD_eq fun j hj => ?_
  have hold : (fixedFlags old).getLsbD j = old.getLsbD j := by rw [hf]
  rw [getLsbD_fixedFlags] at hold ⊢
  by_cases hb : j = 1 ∨ j = 3 ∨ j = 5 ∨ 15 ≤ j
  · rw [h j fun f _ => by have := hn f; omega, ← hold]
    split
    · rfl
    · rw [if_pos (by omega), if_pos (by omega)]
  · rw [if_neg (by omega), if_neg (by omega)]

section
variable {w : Nat} {fl : Word} (hf : FlagsFixed fl)
include hf

@[simp] theorem flagsFixed_aluAdd (a b : BitVec w) (free : Word) : FlagsFixed (aluAdd a b fl free).2 :=
  .of_onlyFlags (aluAdd_isAdd a b fl free).2.2 hf
@[simp] theorem flagsFixed_aluAdc (a b : BitVec w) (free : Word) : FlagsFixed (aluAdc a b fl free).2 :=
  .of_onlyFlags (aluAdc_isAdc a b fl free).2.2 hf
@[simp] theorem flagsFixed_aluSub (a b : BitVec w) (free : Word) : FlagsFixed (aluSub a b fl free).2 :=
  .of_onlyFlags (aluSub_isSub a b fl free).2.2 hf
@[simp] theorem flagsFixed_aluSbb (a b : BitVec w) (free : Word) : FlagsFixed (aluSbb a b fl free).2 :=
  .of_onlyFlags (aluSbb_isSbb a b fl free).2.2 hf
@[simp] theorem flagsFixed_aluAnd (a b : BitVec w) (free : Word) : FlagsFixed (aluAnd a b fl free).2 :=
  .of_onlyFlags (logicFlags_spec (a &&& b) fl free).2.2.2 hf
@[simp] theorem flagsFixed_aluOr (a b : BitVec w) (free : Word) : FlagsFixed (aluOr a b fl free).2 :=
  .of_onlyFlags (logicFlags_spec (a ||| b) fl free).2.2.2 hf
@[simp] theorem flagsFixed_aluXor (a b : BitVec w) (free : Word) : FlagsFixed (aluXor a b fl free).2 :=
  .of_onlyFlags (logicFlags_spec (a ^^^ b) fl free).2.2.2 hf
@[simp] theorem flagsFixed_aluInc (a : BitVec w) (free : Word) : FlagsFixed (aluInc a fl free).2 :=
  .of_onlyFlags (aluInc_isInc a fl free).2 hf
@[simp] theorem flagsFixed_aluDec (a : BitVec w) (free : Word) : FlagsFixed (aluDec a fl free).2 :=
  .of_onlyFlags (aluDec_isDec a fl free).2 hf
@[simp] theorem flagsFixed_aluNeg (a : BitVec w) (free : Word) : FlagsFixed (aluNeg a fl free).2 :=
  .of_onlyFlags (aluNeg_isNeg a fl free).2.2 hf

@[simp] theorem flagsFixed_aluNot (a : BitVec w) (free : Word) : FlagsFixed (aluNot a fl free).2 := hf
@[simp] theorem flagsFixed_drawArith (free : Word) : FlagsFixed (drawArith free fl) :=
  .of_onlyFlags (onlyFlags_drawArith free fl) hf
@[simp] theorem flagsFixed_bitFlags (old : Bool) (free : Word) : FlagsFixed (bitFlags old fl free) :=
  setFlag_fixed (flagsFixed_drawArith hf free)
@[simp] theorem flagsFixed_doubleLeft (v x : Word) (c : Nat) (free res : Word) :
    FlagsFixed (doubleLeft v x c fl free res).2 := .of_onlyFlags (doubleLeft_isShld v x c fl free res).1 hf
@[simp] theorem flagsFixed_doubleRight (v x : Word) (c : Nat) (free res : Word) :
    FlagsFixed (doubleRight v x c fl free res).2 := .of_onlyFlags (doubleRight_isShrd v x c fl free res).1 hf

variable (hw : 1 < w) (v : BitVec w) (c : Nat) (free : Word)
include hw

@[simp] theorem flagsFixed_rotateLeft : FlagsFixed (rotateLeft v c fl free).2 :=
  .of_onlyFlags (rotateLeft_isRol hw v c fl free).2.2.2 hf
@[simp] theorem flagsFixed_rotateRight : FlagsFixed (rotateRight v c fl free).2 :=
  .of_onlyFlags (rotateRight_isRor hw v c fl free).2.2.2 hf
@[simp] theorem flagsFixed_rotateCarryLeft : FlagsFixed (rotateCarryLeft v c fl free).2 :=
  .of_onlyFlags (rotateCarryLeft_isRcl (by omega) v c fl free).2.2 hf
@[simp] theorem flagsFixed_rotateCarryRight : FlagsFixed (rotateCarryRight v c fl free).2 :=
  .of_onlyFlags (rotateCarryRight_isRcr (by omega) v c fl free).2.2 hf
@[simp] theorem flagsFixed_shiftLeft : FlagsFixed (shiftLeft v c fl free).2 :=
  .of_onlyFlags (shiftLeft_isShl hw v c fl free).2.2.2.2 hf
@[simp] theorem flagsFixed_shiftRight : FlagsFixed (shiftRight v c fl free).2 :=
  .of_onlyFlags (shiftRight_isShr hw v c fl free).2.2.2.2 hf
@[simp] theorem flagsFixed_shiftArith : FlagsFixed (shiftArith v c fl free).2 :=
  .of_onlyFlags (shiftArith_isSar hw v c fl free).2.2.2.2 hf

end

/-! ### A well-kept state in the middle of an instruction -/

/-- The parts of `State.Inv` that hold in the middle of an instruction too. -/
structure State.Tidy (s : State) : Prop where
  mem : s.mem.Wf
  dirty : DirtyWf s.dirty
  flags : FlagsFixed s.flags

theorem State.Tidy.setReg16 (h : s.Tidy) (r : Reg16) (v : Word) : (s.setReg16 r v).Tidy := ⟨h.mem, h.dirty, h.flags⟩
theorem State.Tidy.setReg8 (h : s.Tidy) (r : Reg8) (v : Byte) : (s.setReg8 r v).Tidy := ⟨h.mem, h.dirty, h.flags⟩
theorem State.Tidy.setSel (h : s.Tidy) (g : Seg) (v : Word) : (s.setSel g v).Tidy := ⟨h.mem, h.dirty, h.flags⟩
theorem State.Tidy.setFlags (h : s.Tidy) {v : Word} (hv : FlagsFixed v) : (s.setFlags v).Tidy := ⟨h.mem, h.dirty, hv⟩
theorem State.Tidy.jump (h : s.Tidy) (o : Word) : (s.jump o).Tidy := ⟨h.mem, .nil, h.flags⟩

theorem State.Tidy.setByte (h : s.Tidy) (a : Nat) (v : Byte) : (s.setByte a v).Tidy :=
  ⟨setByte_wf h.mem, insertAddr_rising h.dirty a, h.flags⟩

theorem State.Tidy.setWord (h : s.Tidy) (a : Nat) (v : Word) : (s.setWord a v).Tidy :=
  (h.setByte a (lowByte v)).setByte (a + 1) (highByte v)

theorem State.Tidy.putRm8 (h : s.Tidy) (d : RM8) (v : Byte) : (s.putRm8 d v).Tidy := by
  cases d with
  | reg r => exact h.setReg8 r v
  | mem m => exact h.setByte _ v

theorem State.Tidy.putRm16 (h : s.Tidy) (d : RM16) (v : Word) : (s.putRm16 d v).Tidy := by
  cases d with
  | reg r => exact h.setReg16 r v
  | mem m => exact h.setWord _ v

theorem State.Tidy.pushed (h : s.Tidy) (v : Word) : (s.pushed v).Tidy := (h.setWord _ v).setReg16 .sp _

theorem State.Tidy.rewritten (h : s.Tidy) (hr : Rewritten s t) : t.Tidy := by
  obtain ⟨l, rfl, hl⟩ := hr
  exact ⟨h.mem, hl h.dirty, h.flags⟩

/-- An entry clears IF and TF, which are no fixed bits (R229). -/
theorem State.Tidy.entered (h : s.Tidy) (v : Byte) (ret : Word) : (s.entered v ret).Tidy :=
  (((((h.pushed _).setFlags (setFlag_fixed (setFlag_fixed h.flags))).pushed _).pushed _).setSel .cs _).jump _

/-- IRET loads the popped image through the fixed bits (R16, R184). -/
theorem State.Tidy.returned (h : s.Tidy) (ip cs img : Word) : (s.returned ip cs img).Tidy :=
  ⟨h.mem, .nil, fixedFlags_fixedFlags img⟩

/-! ### The end of an instruction -/

/-- From `s` an instruction came to its end in `t`: no prefixes are left over (R78), and `t` is as well kept as `s`. -/
structure Finished (s t : State) : Prop where
  pfx : t.pfx = Prefixes.empty
  tidy : s.Tidy → t.Tidy

theorem Finished.of_retire (h : s.Tidy → u.Tidy) (l : Bool) (n : Nat) : Finished s (u.retire l n) :=
  ⟨rfl, fun hs => ⟨(h hs).mem, (h hs).dirty, (h hs).flags⟩⟩

theorem Finished.of_jump (h : s.Tidy → u.Tidy) (o : Word) : Finished s (u.jump o) := ⟨rfl, fun hs => (h hs).jump o⟩

theorem entered_finished (s : State) (v : Byte) (ret : Word) : Finished s (s.entered v ret) :=
  ⟨rfl, fun hs => hs.entered v ret⟩

theorem Raised.finished (h : Raised s t) : Finished s t := by
  obtain ⟨v, ret, rfl⟩ := h.entered
  exact entered_finished s v ret

theorem modifyRm8_finished {d : RM8} {f : Byte → Word → Word → Byte × Word} {n : Nat}
    (hf : FlagsFixed s.flags → ∀ a, FlagsFixed (f a s.flags s.freeFlags).2) (h : modifyRm8 d f n s = .next t) :
    Finished s t := by
  rcases modifyRm8_inv h with ⟨a, rfl⟩ | h
  · exact .of_retire (fun hs => (hs.putRm8 ..).setFlags (hf hs.flags a)) _ _
  · exact h.finished

theorem modifyRm16_finished {d : RM16} {f : Word → Word → Word → Word × Word} {n : Nat}
    (hf : FlagsFixed s.flags → ∀ a, FlagsFixed (f a s.flags s.freeFlags).2) (h : modifyRm16 d f n s = .next t) :
    Finished s t := by
  rcases modifyRm16_inv h with ⟨a, rfl⟩ | h
  · exact .of_retire (fun hs => (hs.putRm16 ..).setFlags (hf hs.flags a)) _ _
  · exact h.finished

theorem combineReg8_finished {r : Reg8} {d : RM8} {f : Byte → Byte → Word → Word → Byte × Word} {n : Nat}
    (hf : FlagsFixed s.flags → ∀ a b, FlagsFixed (f a b s.flags s.freeFlags).2) (h : combineReg8 r d f n s = .next t) :
    Finished s t := by
  rcases combineReg8_inv h with ⟨b, rfl⟩ | h
  · exact .of_retire (fun hs => (hs.setReg8 ..).setFlags (hf hs.flags _ b)) _ _
  · exact h.finished

theorem combineReg16_finished {r : Reg16} {d : RM16} {f : Word → Word → Word → Word → Word × Word} {n : Nat}
    (hf : FlagsFixed s.flags → ∀ a b, FlagsFixed (f a b s.flags s.freeFlags).2) (h : combineReg16 r d f n s = .next t) :
    Finished s t := by
  rcases combineReg16_inv h with ⟨b, rfl⟩ | h
  · exact .of_retire (fun hs => (hs.setReg16 ..).setFlags (hf hs.flags _ b)) _ _
  · exact h.finished

theorem shiftRm8_finished {f : Byte → Nat → Word → Word → Byte × Word} {d : RM8} {count : Byte} {n : Nat}
    (hf : FlagsFixed s.flags → ∀ v c, FlagsFixed (f v c s.flags s.freeFlags).2) (h : shiftRm8 f d count n s = .next t) :
    Finished s t := by
  rcases shiftRm8_inv h with ⟨u, hu, rfl⟩ | ⟨v, rfl⟩ | h
  · exact .of_retire (fun hs => hs.rewritten hu) _ _
  · exact .of_retire (fun hs => (hs.putRm8 ..).setFlags (hf hs.flags v _)) _ _
  · exact h.finished

theorem shiftRm16_finished {f : Word → Nat → Word → Word → Word × Word} {d : RM16} {count : Byte} {n : Nat}
    (hf : FlagsFixed s.flags → ∀ v c, FlagsFixed (f v c s.flags s.freeFlags).2) (h : shiftRm16 f d count n s = .next t) :
    Finished s t := by
  rcases shiftRm16_inv h with ⟨u, hu, rfl⟩ | ⟨v, rfl⟩ | h
  · exact .of_retire (fun hs => hs.rewritten hu) _ _
  · exact .of_retire (fun hs => (hs.putRm16 ..).setFlags (hf hs.flags v _)) _ _
  · exact h.finished

theorem doubleShift_finished {f : Word → Word → Nat → Word → Word → Word → Word × Word} {d : RM16} {r : Reg16}
    {count : Byte} {n : Nat} (hf : FlagsFixed s.flags → ∀ v x c, FlagsFixed (f v x c s.flags s.freeFlags s.freeResult).2)
    (h : doubleShift f d r count n s = .next t) : Finished s t :=
  shiftRm16_finished (fun hs v => hf hs v _) h

theorem divideByte_finished {f : Word → Byte → Option (Byte × Byte)} {d : RM8} (h : divideByte f d s = .next t) :
    Finished s t := by
  rcases divideByte_inv h with ⟨v, rfl⟩ | h
  · exact .of_retire (fun hs => (hs.setReg16 ..).setFlags (flagsFixed_drawArith hs.flags _)) _ _
  · exact h.finished

theorem divideWord_finished {f : Dword → Word → Option (Word × Word)} {d : RM16} (h : divideWord f d s = .next t) :
    Finished s t := by
  rcases divideWord_inv h with ⟨q, r, rfl⟩ | h
  · exact .of_retire (fun hs => ((hs.setReg16 ..).setReg16 ..).setFlags (flagsFixed_drawArith hs.flags _)) _ _
  · exact h.finished

theorem pushValue_finished {v : Word} {n : Nat} (h : pushValue v n s = .next t) : Finished s t := by
  rcases pushValue_inv h with rfl | h
  · exact .of_retire (·.pushed v) _ _
  · exact h.finished

theorem pushOperand_finished {d : RM16} {n : Nat} (h : pushOperand d n s = .next t) : Finished s t := by
  rcases pushOperand_inv h with ⟨v, rfl⟩ | h
  · exact .of_retire (·.pushed v) _ _
  · exact h.finished

theorem storeRm8_finished {d : RM8} {v : Byte} {n : Nat} (h : storeRm8 d v n s = .next t) : Finished s t := by
  rcases storeRm8_inv h with rfl | h
  · exact .of_retire (·.putRm8 d v) _ _
  · exact h.finished

theorem storeRm16_finished {d : RM16} {v : Word} {n : Nat} (h : storeRm16 d v n s = .next t) : Finished s t := by
  rcases storeRm16_inv h with rfl | h
  · exact .of_retire (·.putRm16 d v) _ _
  · exact h.finished

theorem loadReg8_finished {r : Reg8} {d : RM8} {n : Nat} (h : loadReg8 r d n s = .next t) : Finished s t := by
  rcases loadReg8_inv h with ⟨v, rfl⟩ | h
  · exact .of_retire (·.setReg8 r v) _ _
  · exact h.finished

theorem loadReg16_finished {r : Reg16} {d : RM16} {n : Nat} (h : loadReg16 r d n s = .next t) : Finished s t := by
  rcases loadReg16_inv h with ⟨v, rfl⟩ | h
  · exact .of_retire (·.setReg16 r v) _ _
  · exact h.finished

theorem loadSeg_finished {g : Seg} {d : RM16} {n : Nat} (h : loadSeg g d n s = .next t) : Finished s t := by
  rcases loadSeg_inv h with ⟨v, rfl⟩ | h
  · exact ⟨rfl, fun hs => ⟨hs.mem, hs.dirty, hs.flags⟩⟩
  · exact h.finished

theorem exchange8_finished {d : RM8} {r : Reg8} {n : Nat} (h : exchange8 d r n s = .next t) : Finished s t := by
  rcases exchange8_inv h with ⟨v, rfl⟩ | h
  · exact .of_retire (fun hs => (hs.putRm8 ..).setReg8 r v) _ _
  · exact h.finished

theorem exchange16_finished {d : RM16} {r : Reg16} {n : Nat} (h : exchange16 d r n s = .next t) : Finished s t := by
  rcases exchange16_inv h with ⟨v, rfl⟩ | h
  · exact .of_retire (fun hs => (hs.putRm16 ..).setReg16 r v) _ _
  · exact h.finished

theorem bitTestIn_finished {f : Word → Nat → Word} {r : Reg16} {n len : Nat} : Finished s (bitTestIn f r n len s) :=
  .of_retire (fun hs => (hs.setReg16 ..).setFlags (flagsFixed_bitFlags hs.flags _ _)) _ _

theorem bitTestWord_finished {a : Nat} {v : Word} {fl l : Bool} {len : Nat} :
    Finished s (((s.setWord a v).setFlags (bitFlags fl s.flags s.freeFlags)).retire l len) :=
  .of_retire (fun hs => (hs.setWord ..).setFlags (flagsFixed_bitFlags hs.flags _ _)) _ _

theorem bitTestReg_finished {f : Word → Nat → Word} {d : RM16} {k : Word} {len : Nat}
    (h : bitTestReg f d k len s = .next t) : Finished s t := by
  rcases bitTest_inv (off := fun m => bitWordOffset s m k) h with ⟨r, rfl⟩ | ⟨a, v, fl, rfl⟩ | h
  · exact bitTestIn_finished
  · exact bitTestWord_finished
  · exact h.finished

theorem bitTestImm_finished {f : Word → Nat → Word} {d : RM16} {k : Byte} {len : Nat}
    (h : bitTestImm f d k len s = .next t) : Finished s t := by
  rcases bitTest_inv (off := fun m => effectiveOffset s m) h with ⟨r, rfl⟩ | ⟨a, v, fl, rfl⟩ | h
  · exact bitTestIn_finished
  · exact bitTestWord_finished
  · exact h.finished

theorem callNear_finished {target : Word} {n : Nat} (h : callNear target n s = .next t) : Finished s t := by
  rcases callNear_inv h with rfl | h
  · exact .of_jump (·.pushed _) _
  · exact h.finished

theorem callNearIndirect_finished {d : RM16} {n : Nat} (h : callNearIndirect d n s = .next t) : Finished s t := by
  rcases callNearIndirect_inv h with ⟨target, rfl⟩ | h
  · exact .of_jump (·.pushed _) _
  · exact h.finished

theorem calledFar_finished {off sel : Word} {n : Nat} : Finished s (s.calledFar off sel n) :=
  .of_jump (fun hs => ((hs.pushed _).pushed _).setSel .cs sel) off

theorem callFar_finished {off sel : Word} {n : Nat} (h : callFar off sel n s = .next t) : Finished s t := by
  rcases callFar_inv h with rfl | h
  · exact calledFar_finished
  · exact h.finished

theorem callFarIndirect_finished {m : Mem} {n : Nat} (h : callFarIndirect m n s = .next t) : Finished s t := by
  rcases callFarIndirect_inv h with ⟨off, sel, rfl⟩ | h
  · exact calledFar_finished
  · exact h.finished

theorem softwareInterrupt_finished {v : Byte} {n : Nat} (h : softwareInterrupt v n s = .next t) : Finished s t := by
  obtain ⟨v', ret, rfl⟩ := softwareInterrupt_inv h
  exact entered_finished s v' ret

theorem interruptOnOverflow_finished {n : Nat} (h : interruptOnOverflow n s = .next t) : Finished s t := by
  rcases interruptOnOverflow_inv h with rfl | ⟨v, ret, rfl⟩
  · exact .of_retire id _ _
  · exact entered_finished s v ret

theorem checkBounds_finished {r : Reg16} {m : Mem} {n : Nat} (h : checkBounds r m n s = .next t) : Finished s t := by
  rcases checkBounds_inv h with rfl | h
  · exact .of_retire id _ _
  · exact h.finished

theorem interruptReturn_finished (h : interruptReturn s = .next t) : Finished s t := by
  rcases interruptReturn_inv h with ⟨ip, cs, img, rfl⟩ | h
  · exact ⟨rfl, fun hs => hs.returned ip cs img⟩
  · exact h.finished

theorem loadIdtr_finished {m : Mem} {n : Nat} (h : loadIdtr m n s = .next t) : Finished s t := by
  rcases loadIdtr_inv h with ⟨l, b, rfl⟩ | h
  · exact ⟨rfl, fun hs => ⟨hs.mem, hs.dirty, hs.flags⟩⟩
  · exact h.finished

theorem waitCoprocessor_finished (h : waitCoprocessor s = .next t) : Finished s t := by
  rcases waitCoprocessor_inv h with rfl | h
  · exact .of_retire id _ _
  · exact h.finished

/-- An instruction after the prefixes that answers a next state came to its end. -/
theorem exec_finished (hp : isPrefix i = false) (h : exec i s = .next t) : Finished s t := by
  cases i with
  | lockPrefix | esPrefix | csPrefix | ssPrefix | dsPrefix | fsPrefix | gsPrefix | repnePrefix | repPrefix
    | operandSizePrefix | addressSizePrefix => cases hp
  | divRm8 | idivRm8 => exact divideByte_finished h
  | divRm16 | idivRm16 => exact divideWord_finished h
  | pushR16 | pushSp | pushImm16 | pushImm8 | pushEs | pushCs | pushSs | pushDs | pushFs | pushGs | pushf =>
      exact pushValue_finished h
  | pushRm16 => exact pushOperand_finished h
  | movRm8R8 | movMoffs8Al | movR8Imm8 | movRm8Imm8 => exact storeRm8_finished h
  | movRm16R16 | movRm16Sreg | movMoffs16Ax | movR16Imm16 | movRm16Imm16 => exact storeRm16_finished h
  | movR8Rm8 | movAlMoffs8 => exact loadReg8_finished h
  | movR16Rm16 | movAxMoffs16 => exact loadReg16_finished h
  | movSregRm16 => exact loadSeg_finished h
  | xchgRm8R8 => exact exchange8_finished h
  | xchgRm16R16 | xchgAxR16 => exact exchange16_finished h
  | btsRm16R16 | btrRm16R16 | btcRm16R16 => exact bitTestReg_finished h
  | btsRm16Imm8 | btrRm16Imm8 | btcRm16Imm8 => exact bitTestImm_finished h
  | int3 | intN => exact softwareInterrupt_finished h
  | into => exact interruptOnOverflow_finished h
  | boundR16M => exact checkBounds_finished h
  | iret => exact interruptReturn_finished h
  | callRel16 => exact callNear_finished h
  | callRm16 => exact callNearIndirect_finished h
  | callPtr16 => exact callFar_finished h
  | callM16 => exact callFarIndirect_finished h
  | lidtM => exact loadIdtr_finished h
  | esc => exact (coprocessorEscape_inv h).finished
  | wait => exact waitCoprocessor_finished h
  | rolRm8One | rolRm8Cl | rolRm8Imm8 | rorRm8One | rorRm8Cl | rorRm8Imm8 | rclRm8One | rclRm8Cl | rclRm8Imm8
    | rcrRm8One | rcrRm8Cl | rcrRm8Imm8 | shlRm8One | shlRm8Cl | shlRm8Imm8 | shrRm8One | shrRm8Cl | shrRm8Imm8
    | sarRm8One | sarRm8Cl | sarRm8Imm8 => exact shiftRm8_finished (fun hf _ _ => by simp [FlagsFixed, hf]) h
  | rolRm16One | rolRm16Cl | rolRm16Imm8 | rorRm16One | rorRm16Cl | rorRm16Imm8 | rclRm16One | rclRm16Cl
    | rclRm16Imm8 | rcrRm16One | rcrRm16Cl | rcrRm16Imm8 | shlRm16One | shlRm16Cl | shlRm16Imm8 | shrRm16One
    | shrRm16Cl | shrRm16Imm8 | sarRm16One | sarRm16Cl | sarRm16Imm8 =>
      exact shiftRm16_finished (fun hf _ _ => by simp [FlagsFixed, hf]) h
  | shldRm16R16Imm8 | shldRm16R16Cl =>
      exact doubleShift_finished (f := doubleLeft) (fun hf _ _ _ => flagsFixed_doubleLeft hf ..) h
  | shrdRm16R16Imm8 | shrdRm16R16Cl =>
      exact doubleShift_finished (f := doubleRight) (fun hf _ _ _ => flagsFixed_doubleRight hf ..) h
  | addRm8R8 | addAlImm8 | addRm8Imm8 | orRm8R8 | orAlImm8 | orRm8Imm8 | adcRm8R8 | adcAlImm8 | adcRm8Imm8
    | sbbRm8R8 | sbbAlImm8 | sbbRm8Imm8 | andRm8R8 | andAlImm8 | andRm8Imm8 | subRm8R8 | subAlImm8 | subRm8Imm8
    | xorRm8R8 | xorAlImm8 | xorRm8Imm8 | incRm8 | decRm8 | notRm8 | negRm8 =>
      exact modifyRm8_finished (fun hf _ => by simp [FlagsFixed, hf]) h
  | addRm16R16 | addAxImm16 | addRm16Imm16 | addRm16Imm8 | orRm16R16 | orAxImm16 | orRm16Imm16 | orRm16Imm8
    | adcRm16R16 | adcAxImm16 | adcRm16Imm16 | adcRm16Imm8 | sbbRm16R16 | sbbAxImm16 | sbbRm16Imm16
    | sbbRm16Imm8 | andRm16R16 | andAxImm16 | andRm16Imm16 | andRm16Imm8 | subRm16R16 | subAxImm16
    | subRm16Imm16 | subRm16Imm8 | xorRm16R16 | xorAxImm16 | xorRm16Imm16 | xorRm16Imm8 | incRm16 | incR16
    | decRm16 | decR16 | notRm16 | negRm16 => exact modifyRm16_finished (fun hf _ => by simp [FlagsFixed, hf]) h
  | addR8Rm8 | orR8Rm8 | adcR8Rm8 | sbbR8Rm8 | andR8Rm8 | subR8Rm8 | xorR8Rm8 =>
      exact combineReg8_finished (fun hf _ _ => by simp [FlagsFixed, hf]) h
  | addR16Rm16 | orR16Rm16 | adcR16Rm16 | sbbR16Rm16 | andR16Rm16 | subR16Rm16 | xorR16Rm16 =>
      exact combineReg16_finished (fun hf _ _ => by simp [FlagsFixed, hf]) h

end Sys2Proof.Machine
end

section
/-! The instruction of a step (R78, R233 step 4): prefixes are recorded, the body is executed, and what waits at the
boundary waits over both. -/

namespace Sys2Proof.Machine
open Sys2Proof

variable {s t u : State} {i : Instr}

/-! ### Prefixes and the body -/

/-- The state with other prefixes recorded. -/
def State.withPrefixes (s : State) (p : Prefixes) : State := { s with pfx := p }

/-- What one of the prefixes does: it is recorded, or refused (R81, R150). -/
theorem exec_prefix_next (hp : isPrefix i = true) (h : exec i s = .next t) : ∃ lock seg, t = s.recordPrefix lock seg := by
  cases i with
  | lockPrefix | esPrefix | csPrefix | ssPrefix | dsPrefix | fsPrefix | gsPrefix | repnePrefix | repPrefix =>
      cases h
      exact ⟨_, _, rfl⟩
  | operandSizePrefix | addressSizePrefix => cases h
  | _ => cases hp

theorem runPrefixes_next {ps : List Instr} (hps : ∀ p ∈ ps, isPrefix p = true) (h : runPrefixes ps s = .next t) :
    ∃ p, t = s.withPrefixes p := by
  induction ps generalizing s with
  | nil => cases h; exact ⟨_, rfl⟩
  | cons p ps ih =>
    unfold runPrefixes at h
    split at h
    · next u hu =>
      obtain ⟨lock, seg, rfl⟩ := exec_prefix_next (hps p List.mem_cons_self) hu
      obtain ⟨q, rfl⟩ := ih (fun q hq => hps q (List.mem_cons_of_mem p hq)) h
      exact ⟨q, rfl⟩
    · cases h
    · cases h

theorem isPrefix_of_mem_fetch_prefixes (s : State) : ∀ p ∈ (fetch s).prefixes, isPrefix p = true :=
  isPrefix_of_mem_splitPrefixes

theorem isPrefix_fetch_body (h : (fetch s).body = .ok i) : isPrefix i = false := by
  dsimp only [fetch] at h
  split at h
  · next hd => cases h; exact (noPrefix_decodeWith _).body hd
  · cases h

/-- Step 4 of R233 entered an exception, or executed the fetched body, in both cases with some prefixes recorded. -/
theorem runInstruction_cases (h : runInstruction s = .next t) : ∃ p,
    (∃ v ret, t = (s.begin.withPrefixes p).entered v ret) ∨
      s.pastEnd = false ∧ ∃ i, (fetch s.begin).body = .ok i ∧ isPrefix i = false ∧
        exec i (s.begin.withPrefixes p) = .next t := by
  rcases runInstruction_next h with ⟨-, h⟩ | ⟨hpast, h⟩
  · exact ⟨Prefixes.empty, .inl (deliver_inv h)⟩
  · rcases runFetched_next h with h | ⟨u, hu, h⟩
    · exact ⟨Prefixes.empty, .inl h.entered⟩
    · obtain ⟨p, rfl⟩ := runPrefixes_next (isPrefix_of_mem_fetch_prefixes _) hu
      rcases runBody_next h with ⟨i, hi, h⟩ | h
      · exact ⟨p, .inr ⟨hpast, i, hi, isPrefix_fetch_body hi, h⟩⟩
      · exact ⟨p, .inl h.entered⟩

/-! ### What waits over an instruction -/

/-- The events that wait and the single-step that is due are the same in both states (R22, R24). -/
structure SameSignals (s t : State) : Prop where
  nmiPending : t.nmiPending = s.nmiPending
  intrPending : t.intrPending = s.intrPending
  copErrorPending : t.copErrorPending = s.copErrorPending
  stepDue : t.stepDue = s.stepDue

theorem SameSystem.sameSignals (h : SameSystem s t) : SameSignals s t :=
  ⟨h.nmiPending, h.intrPending, h.copErrorPending, h.stepDue⟩

theorem entered_sameSystem (s : State) (v : Byte) (ret : Word) : SameSystem s (s.entered v ret) := by
  obtain ⟨cs, ip, hj⟩ := entered_jumped s v ret
  exact hj.system

theorem Executed.sameSignals (h : Executed i s t) : SameSignals s t := by
  cases h with
  | recorded lock seg state => subst state; exact ⟨rfl, rfl, rfl, rfl⟩
  | retired locked n frame => exact frame.system.sameSignals
  | transferred cs ip frame => exact frame.system.sameSignals
  | segmentLoaded g d v n instr state => subst state; exact ⟨rfl, rfl, rfl, rfl⟩
  | returned ip cs img instr state => subst state; exact ⟨rfl, rfl, rfl, rfl⟩
  | idtrLoaded m limit base n instr state => subst state; exact ⟨rfl, rfl, rfl, rfl⟩

/-- Only an IRET changes the NMI mask (R21, R184). -/
theorem Executed.nmiMasked (h : Executed i s t) : i = .iret ∨ t.nmiMasked = s.nmiMasked := by
  cases h with
  | recorded lock seg state => subst state; exact .inr rfl
  | retired locked n frame => exact .inr frame.system.nmiMasked
  | transferred cs ip frame => exact .inr frame.system.nmiMasked
  | segmentLoaded g d v n instr state => subst state; exact .inr rfl
  | returned ip cs img instr state => exact .inl instr
  | idtrLoaded m limit base n instr state => subst state; exact .inr rfl

theorem begin_withPrefixes_sameSignals (p : Prefixes) (h : SameSignals (s.begin.withPrefixes p) t) :
    SameSignals s.begin t :=
  ⟨h.nmiPending, h.intrPending, h.copErrorPending, h.stepDue⟩

theorem runInstruction_sameSignals (h : runInstruction s = .next t) : SameSignals s.begin t := by
  obtain ⟨p, ⟨v, ret, rfl⟩ | ⟨-, i, -, -, h⟩⟩ := runInstruction_cases h
  · exact begin_withPrefixes_sameSignals p (entered_sameSystem _ v ret).sameSignals
  · exact begin_withPrefixes_sameSignals p (exec_executed h).sameSignals

theorem runInstruction_nmiMasked (h : runInstruction s = .next t) :
    s.pastEnd = false ∧ (fetch s.begin).body = .ok .iret ∨ t.nmiMasked = s.nmiMasked := by
  obtain ⟨p, ⟨v, ret, rfl⟩ | ⟨hpast, i, hi, -, h⟩⟩ := runInstruction_cases h
  · exact .inr (entered_sameSystem _ v ret).nmiMasked
  · rcases (exec_executed h).nmiMasked with rfl | h
    · exact .inl ⟨hpast, hi⟩
    · exact .inr h

end Sys2Proof.Machine
end

section
/-! The boundary (R233): which of its steps runs, and what the events of the environment keep. -/

namespace Sys2Proof.Machine
open Sys2Proof

variable {s t u : State}

/-! ### Which step of R233 runs -/

theorem atBoundary_noEvent (h : NoEvent s) : atBoundary s = runInstruction s := by
  rcases h with h | ⟨hd, hn, hi⟩
  · simp [atBoundary, h]
  · have hnmi : (s.nmiPending && !s.nmiMasked) = false := by
      cases hp : s.nmiPending with
      | false => rfl
      | true => simp [hn hp]
    have hintr : s.intrDue = none := by
      unfold State.intrDue
      split
      · next hf => exact hi hf
      · rfl
    simp [atBoundary, hd, hnmi, hintr]

theorem atBoundary_stepDue (hs : s.ssShadow = false) (hd : s.stepDue = true) : atBoundary s = takeSingleStep s := by
  simp [atBoundary, hs, hd]

theorem atBoundary_nmi (hs : s.ssShadow = false) (hd : s.stepDue = false) (hp : s.nmiPending = true)
    (hm : s.nmiMasked = false) : atBoundary s = takeNmi s := by
  simp [atBoundary, hs, hd, hp, hm]

theorem atBoundary_intr {v : Byte} (hs : s.ssShadow = false) (hd : s.stepDue = false)
    (hn : s.nmiPending = true → s.nmiMasked = true) (hf : getFlag .intf s.flags = true) (hi : s.intrPending = some v) :
    atBoundary s = takeIntr v s := by
  have hnmi : (s.nmiPending && !s.nmiMasked) = false := by
    cases hp : s.nmiPending with
    | false => rfl
    | true => simp [hn hp]
  simp [atBoundary, hs, hd, hnmi, State.intrDue, hf, hi]

/-- While NMI is masked, the boundary takes one of the two other deliveries or runs the next instruction. -/
theorem atBoundary_masked (hm : s.nmiMasked = true) (h : atBoundary s = .next t) :
    takeSingleStep s = .next t ∨ (∃ v, takeIntr v s = .next t) ∨ NoEvent s ∧ runInstruction s = .next t := by
  by_cases hno : NoEvent s
  · exact .inr (.inr ⟨hno, atBoundary_noEvent hno ▸ h⟩)
  · obtain ⟨hs, hev⟩ := not_or.1 hno
    have hs : s.ssShadow = false := Bool.eq_false_of_not_eq_true hs
    cases hd : s.stepDue with
    | true => exact .inl (atBoundary_stepDue hs hd ▸ h)
    | false =>
      have hintr : getFlag .intf s.flags = true ∧ s.intrPending ≠ none := by
        simpa [hd, hm] using hev
      obtain ⟨v, hv⟩ := Option.ne_none_iff_exists'.1 hintr.2
      exact .inr (.inl ⟨v, atBoundary_intr hs hd (fun _ => hm) hintr.1 hv ▸ h⟩)

/-! ### The events of the environment -/

/-- What every event keeps holds after the events of a boundary. -/
theorem arrive_keeps {P : State → Prop} (henv : ∀ rest, P s → P { s with env := rest })
    (hev : ∀ s e, P s → P (applyEvent s e)) (h : P s) : P (arrive s) := by
  unfold arrive
  split
  · exact h
  · next es rest _ => exact List.foldlRecOn es applyEvent (henv rest h) fun s hs e _ => hev s e hs

theorem applyEvent_nmiMasked (s : State) (e : EnvEvent) : (applyEvent s e).nmiMasked = s.nmiMasked := by
  cases e with
  | nmi | busWrite => simp only [applyEvent]; split <;> rfl
  | intr | intrWithdrawn | copError => rfl

theorem applyEvent_env (s : State) (e : EnvEvent) : (applyEvent s e).env = s.env := by
  cases e with
  | nmi | busWrite => simp only [applyEvent]; split <;> rfl
  | intr | intrWithdrawn | copError => rfl

theorem arrive_nmiMasked (s : State) : (arrive s).nmiMasked = s.nmiMasked :=
  arrive_keeps (P := fun t => t.nmiMasked = s.nmiMasked) (fun _ h => h)
    (fun t e h => (applyEvent_nmiMasked t e).trans h) rfl

theorem arrive_env (s : State) : (arrive s).env = s.env.tail := by
  unfold arrive
  split
  · next h => simp [h]
  · next es rest h =>
    have hpop : ({ s with env := rest } : State).env = rest := rfl
    rw [h]
    exact List.foldlRecOn (motive := fun t => t.env = rest) es applyEvent hpop
      fun t ht e _ => (applyEvent_env t e).trans ht

theorem arrive_of_env_nil (h : s.env = []) : arrive s = s := by
  unfold arrive
  rw [h]

theorem arrive_of_env_cons {es : List EnvEvent} {rest : List (List EnvEvent)} (h : s.env = es :: rest) :
    arrive s = es.foldl applyEvent { s with env := rest } := by
  unfold arrive
  rw [h]

/-! ### The deliveries -/

/-- A delivery whose premises hold is the entry of its vector, with the next instruction's offset saved (R228, R229). -/
theorem deliverEvent_deliverable {v : Byte} (hm : s.mem.Wf) (hd : Deliverable v s) :
    ∃ t, deliverEvent v s = .next t ∧ Entered v s.nextOffset s t := by
  obtain ⟨hlimit, hframe⟩ := deliverable_checks hd
  refine ⟨s.entered v s.nextOffset, ?_, entered_spec hm hd⟩
  rw [deliverEvent, deliver_enter hlimit hframe, enter, enterOp_room hd]

/-- The single-step trap: DR6 tells it by bit 14, and it is due no more (R20, R233). -/
theorem takeSingleStep_deliverable (hm : s.mem.Wf) (hd : Deliverable 1 s) :
    ∃ t, takeSingleStep s = .next t ∧ t.dr6.getLsbD 14 = true ∧
      Entered 1 s.nextOffset { s with dr6 := t.dr6, stepDue := false } t := by
  obtain ⟨t, ht, he⟩ := deliverEvent_deliverable (s := { s with dr6 := stepDr6 s, stepDue := false }) (v := 1#8) hm
    ⟨hd.limit, hd.entry, hd.room⟩
  have hdr : t.dr6 = stepDr6 s := he.jump.system.dr6
  refine ⟨t, ht, ?_, ?_⟩
  · rw [hdr, stepDr6, getLsbD_setBit]
    rfl
  · rw [hdr]
    exact he

end Sys2Proof.Machine
end

section
/-! The invariant over a step: at reset, over the events of a boundary, each delivery and each instruction. -/

namespace Sys2Proof.Machine
open Sys2Proof

variable {s t u : State}

theorem State.Inv.tidy (h : s.Inv) : s.Tidy := ⟨h.mem, h.dirty, h.flags⟩

theorem State.Inv.entered (h : s.Inv) (v : Byte) (ret : Word) : (s.entered v ret).Inv :=
  have ht := h.tidy.entered v ret
  ⟨ht.mem, ht.dirty, ht.flags, rfl, h.cop⟩

theorem applyEvent_inv (h : s.Inv) (e : EnvEvent) : (applyEvent s e).Inv := by
  cases e with
  | nmi =>
    simp only [applyEvent]
    split
    · exact h
    · exact ⟨h.mem, h.dirty, h.flags, h.pfx, h.cop⟩
  | intr v => exact ⟨h.mem, h.dirty, h.flags, h.pfx, h.cop⟩
  | intrWithdrawn => exact ⟨h.mem, h.dirty, h.flags, h.pfx, h.cop⟩
  | copError b => exact ⟨h.mem, h.dirty, h.flags, h.pfx, fun hc => (Bool.and_eq_true_iff.1 hc).2⟩
  | busWrite a b =>
    simp only [applyEvent]
    split
    · exact ⟨Memory.write_wf h.mem _ _, h.dirty, h.flags, h.pfx, h.cop⟩
    · exact h

theorem arrive_inv (h : s.Inv) : (arrive s).Inv :=
  arrive_keeps (fun _ h => ⟨h.mem, h.dirty, h.flags, h.pfx, h.cop⟩) (fun _ e h => applyEvent_inv h e) h

theorem deliverEvent_inv {v : Byte} (hs : s.Inv) (h : deliverEvent v s = .next t) : t.Inv := by
  obtain ⟨v', ret, rfl⟩ := deliver_inv h
  exact hs.entered v' ret

/-- What was fetched ends its instruction, whatever it is and whatever prefixes stand before it. -/
theorem runInstruction_finished (h : runInstruction s = .next t) : ∃ p, Finished (s.begin.withPrefixes p) t := by
  obtain ⟨p, ⟨v, ret, rfl⟩ | ⟨-, i, -, hp, h⟩⟩ := runInstruction_cases h
  · exact ⟨p, entered_finished _ v ret⟩
  · exact ⟨p, exec_finished hp h⟩

theorem runInstruction_inv (hs : s.Inv) (h : runInstruction s = .next t) : t.Inv := by
  obtain ⟨p, hfin⟩ := runInstruction_finished h
  have ht : t.Tidy := hfin.tidy ⟨hs.mem, hs.dirty, hs.flags⟩
  refine ⟨ht.mem, ht.dirty, ht.flags, hfin.pfx, fun hc => ?_⟩
  rw [(runInstruction_sameFixed h).cfg]
  exact hs.cop ((runInstruction_sameSignals h).copErrorPending ▸ hc)

theorem atBoundary_inv (hs : s.Inv) (h : atBoundary s = .next t) : t.Inv := by
  rcases atBoundary_next h with h | h | ⟨v, h⟩ | ⟨-, h⟩
  · exact deliverEvent_inv (s := { s with dr6 := stepDr6 s, stepDue := false })
      ⟨hs.mem, hs.dirty, hs.flags, hs.pfx, hs.cop⟩ h
  · exact deliverEvent_inv (s := { s with nmiMasked := true, nmiPending := false })
      ⟨hs.mem, hs.dirty, hs.flags, hs.pfx, hs.cop⟩ h
  · exact deliverEvent_inv (s := { s with intrPending := none })
      ⟨hs.mem, hs.dirty, hs.flags, hs.pfx, hs.cop⟩ h
  · exact runInstruction_inv hs h

/-- Settles O56: the events of the boundary, each delivery and each instruction keep the invariant. -/
theorem stepKeepsTheInvariant : Obligations.StepKeepsTheInvariant :=
  fun _ _ hs h => atBoundary_inv (arrive_inv hs) h

/-- A launch loads FLAGS through the fixed bits, so that only its memory is asked to be in canonical form. -/
theorem launch_inv {p : Launch} (hm : p.mem.Wf) : (State.launch p).Inv where
  mem := hm
  dirty := .nil
  flags := fixedFlags_fixedFlags p.flags
  pfx := rfl
  cop := nofun

theorem launch_flags (p : Launch) : (State.launch p).flags = fixedFlags p.flags := rfl

/-- Settles O57: reset is a launch with an empty memory. -/
theorem resetHasTheInvariant : Obligations.ResetHasTheInvariant := by
  refine ⟨launch_inv ⟨.nil, nofun⟩, fun p => ⟨rfl, ?_, rfl, rfl⟩⟩
  rw [launch_flags, getLsbD_fixedFlags]
  rfl

end Sys2Proof.Machine
end

section
/-! Events at a boundary, single-step, the NMI mask, and the fetch (R21, R24, R78, R225, R226, R233, R245). -/

namespace Sys2Proof.Machine
open Sys2Proof

variable {s t u : State}

/-! ### The order of events -/

theorem busWrite_effect (s : State) (a : Dword) (b : Byte) :
    EventEffect s (applyEvent s (.busWrite a b)) (.busWrite a b) := by
  simp only [applyEvent]
  split
  · next hram =>
    refine ⟨rfl, fun hm _ => Memory.read_write_same hm _ b, fun x hx => Memory.read_write_other _ b ?_⟩
    rcases hx with hx | hx
    · exact hx
    · rintro rfl
      exact hx hram
  · next hram => exact ⟨rfl, fun _ h => absurd h hram, fun _ _ => rfl⟩

theorem nmi_effect (s : State) : EventEffect s (applyEvent s .nmi) .nmi := by
  simp only [applyEvent]
  split
  · next h =>
    have hlost : s.nmiMasked = true ∧ s.cfg.nmiLatchedWhileMasked = false := by simpa using h
    exact ⟨rfl, by simp [hlost]⟩
  · next h =>
    have hkept : s.nmiMasked = true → s.cfg.nmiLatchedWhileMasked = true := by simpa using h
    refine ⟨rfl, fun _ => .inr ?_, fun _ => rfl⟩
    cases hm : s.nmiMasked with
    | false => exact .inl rfl
    | true => exact .inr (hkept hm)

theorem applyEvent_effect (s : State) (e : EnvEvent) : EventEffect s (applyEvent s e) e := by
  cases e with
  | nmi => exact nmi_effect s
  | intr v => exact rfl
  | intrWithdrawn => exact rfl
  | copError b => exact ⟨rfl, Bool.and_eq_true_iff⟩
  | busWrite a b => exact busWrite_effect s a b

/-- Settles O50: the events by what each does, the order by the equations of the boundary, and the entry by the rule of a
delivery whose premises hold. -/
theorem eventsAreTakenInOrder : Obligations.EventsAreTakenInOrder := by
  refine ⟨fun s => ⟨arrive_env s, arrive_of_env_nil, fun _ _ => arrive_of_env_cons⟩, applyEvent_effect, ?_⟩
  rintro s u hu hm hs
  have hstep : step s = atBoundary u := by rw [step, hu]
  refine ⟨u.nextOffset, fun hp => by simp [State.nextOffset, hp], fun hd hdel => ?_, fun hd hp hmask hdel => ?_,
    fun v hd hn hf hi hdel => ?_⟩
  · rw [hstep, atBoundary_stepDue hs hd]
    exact takeSingleStep_deliverable hm hdel
  · rw [hstep, atBoundary_nmi hs hd hp hmask]
    exact deliverEvent_deliverable hm ⟨hdel.limit, hdel.entry, hdel.room⟩
  · rw [hstep, atBoundary_intr hs hd hn hf hi]
    exact deliverEvent_deliverable hm ⟨hdel.limit, hdel.entry, hdel.room⟩

/-! ### Single-step -/

/-- Whatever the instruction of a step was, single-step is due after it by what TF was before it (R24, R245). -/
theorem runInstruction_stepDue (h : runInstruction s = .next t) :
    t.stepDue = (getFlag .tf s.flags || (s.ssShadow && s.stepDue)) :=
  (runInstruction_sameSignals h).stepDue

/-- Settles O52: an instruction passes on what `State.begin` records of TF, and a due single-step is what the next
boundary takes first. -/
theorem handlersAreSingleStepped : Obligations.HandlersAreSingleStepped := by
  intro s t hno h
  rw [step, atBoundary_noEvent hno] at h
  refine ⟨by simp [runInstruction_stepDue h], fun hd henv hs hp hm hdel => ?_⟩
  have hoff : t.nextOffset = t.ip := by simp [State.nextOffset, hp]
  rw [step, arrive_of_env_nil henv, atBoundary_stepDue hs hd]
  exact hoff ▸ takeSingleStep_deliverable hm hdel

/-! ### The NMI mask -/

/-- A boundary with NMI masked leaves a pending NMI pending, and leaves it masked unless it runs an IRET. -/
theorem atBoundary_masked_keeps (hm : s.nmiMasked = true) (h : atBoundary s = .next t) :
    t.nmiPending = s.nmiPending ∧
      (t.nmiMasked = true ∨ NoEvent s ∧ s.pastEnd = false ∧ (fetch s.begin).body = .ok .iret) := by
  rcases atBoundary_masked hm h with h | ⟨v, h⟩ | ⟨hno, h⟩
  · obtain ⟨v, ret, rfl⟩ := deliver_inv h
    have hsys := entered_sameSystem { s with dr6 := stepDr6 s, stepDue := false } v ret
    exact ⟨hsys.nmiPending, .inl (hsys.nmiMasked.trans hm)⟩
  · obtain ⟨v, ret, rfl⟩ := deliver_inv h
    have hsys := entered_sameSystem { s with intrPending := none } v ret
    exact ⟨hsys.nmiPending, .inl (hsys.nmiMasked.trans hm)⟩
  · refine ⟨(runInstruction_sameSignals h).nmiPending, ?_⟩
    rcases runInstruction_nmiMasked h with hi | hk
    · exact .inr ⟨hno, hi⟩
    · exact .inl (hk.trans hm)

/-- Settles O59: the mask outlives the events of the boundary, and then the boundary keeps it. -/
theorem nmiStaysMaskedUntilIret : Obligations.NmiStaysMaskedUntilIret := by
  intro s hs
  have hm : (arrive s).nmiMasked = true := (arrive_nmiMasked s).trans hs
  refine ⟨fun hd hi => atBoundary_noEvent (.inr ⟨hd, fun _ => hm, hi⟩), fun t h => ?_⟩
  obtain ⟨hpending, hmask⟩ := atBoundary_masked_keeps hm h
  exact ⟨hpending, fun hun => hmask.resolve_left (Bool.eq_false_iff.1 hun)⟩

/-! ### The fetch -/

theorem fetchByte_pastEnd {k : Nat} (h : 0xFFFF < s.ip.toNat + k) : fetchByte s k = .error (.exception 13#8) := by
  rw [fetchByte, if_pos h]

theorem fetchByte_dirty {k : Nat} (h : s.ip.toNat + k ≤ 0xFFFF) (hd : s.codeAddr k ∈ s.dirty) :
    fetchByte s k = .error (.refuse .staleFetch) := by
  rw [fetchByte, if_neg (Nat.not_lt.2 h), if_pos hd]

theorem fetchByte_present {k : Nat} (h : s.ip.toNat + k ≤ 0xFFFF) (hd : s.codeAddr k ∉ s.dirty)
    (hp : PresentByte s (s.codeAddr k)) : fetchByte s k = .ok (s.mem.read (s.codeAddr k)) := by
  rw [fetchByte, if_neg (Nat.not_lt.2 h), if_neg hd, loadByte_present hp]

theorem fetchWindow_spec (s : State) : (fetchWindow s).1.length ≤ 15 ∧ Fetchable (fetchWindow s).1 s ∧
    ((fetchWindow s).1.length < 15 → fetchByte s (fetchWindow s).1.length = .error (fetchWindow s).2) ∧
    ((fetchWindow s).1.length = 15 → (fetchWindow s).2 = .exception 13#8) := by
  simpa [fetchWindow, Fetchable] using window_spec s 15 0

/-- Settles O55: the three answers of a fetch, and the window that collects them. -/
theorem fetchRefusesWrittenBytes : Obligations.FetchRefusesWrittenBytes :=
  ⟨fun _ _ => fetchByte_pastEnd, fetchWindow_spec, fun _ _ h => ⟨fetchByte_dirty h, fetchByte_present h⟩⟩

end Sys2Proof.Machine
end

section
/-! Operands and the segment extremes (R41, R43, R46 to R48): where a linear address lies, what memory reads back, and
which exception an operand or a push that crosses raises, with nothing done before it (D15, D29). -/

namespace Sys2Proof.Machine
open Sys2Proof

variable {s t : State} {g : Seg} {off : Word} {n : Nat}

/-! ### Addresses and memory -/

/-- Settles O5: a selector and an offset are each at most FFFFH. -/
theorem linearAddressIsNotWrapped : Obligations.LinearAddressIsNotWrapped := by
  intro s g off
  have hsel := (s.sel g).isLt
  have hoff := off.isLt
  refine ⟨rfl, by rw [State.lin]; omega, fun hs ho => ?_⟩
  rw [State.lin, hs, ho]
  rfl

/-- The two bytes of a stored word, low byte first (R46). -/
theorem setWord_read_bytes {a : Nat} {v : Word} (hm : s.mem.Wf) :
    (s.setWord a v).mem.read a = lowByte v ∧ (s.setWord a v).mem.read (a + 1) = highByte v := by
  have hw : wordAt (s.setWord a v) a = v := setWord_wordAt hm
  have hlo := congrArg lowByte hw
  have hhi := congrArg highByte hw
  rw [wordAt, lowByte_wordOf] at hlo
  rw [wordAt, highByte_wordOf] at hhi
  exact ⟨hlo, hhi⟩

/-- A word that was stored where there is RAM can be loaded back. -/
theorem loadWord_setWord {a : Nat} {v : Word} (hm : s.mem.Wf) (h : RamByte s a) (h' : RamByte s (a + 1)) :
    loadWord (s.setWord a v) a = .ok v := by
  have hp : PresentByte (s.setWord a v) a := RamByte.present h
  have hp' : PresentByte (s.setWord a v) (a + 1) := RamByte.present h'
  rw [loadWord_present hp hp', setWord_wordAt hm]

/-- Settles O7: the laws of `Memory.write`, and of the two bytes of a word store. -/
theorem memoryReadsBackWrites : Obligations.MemoryReadsBackWrites := by
  refine ⟨fun m x v hm => ⟨Memory.write_wf hm x v, Memory.read_write_same hm x v,
    fun y hy => Memory.read_write_other m v hy⟩, fun s t a v hm h => ?_⟩
  obtain ⟨rfl, hlo, hhi⟩ := storeWord_ok h
  obtain ⟨rlo, rhi⟩ := setWord_read_bytes (a := a) (v := v) hm
  exact ⟨rlo, rhi, loadWord_setWord hm hlo hhi, fun x hx => setWord_read_other v hx⟩

/-! ### Accesses at a segment extreme -/

theorem crosses_eq_true : crosses off n = true ↔ 0xFFFF < off.toNat + n - 1 := decide_eq_true_iff

theorem crosses_eq_false : crosses off n = false ↔ off.toNat + n - 1 ≤ 0xFFFF := by
  rw [crosses, decide_eq_false_iff_not, Nat.not_lt]

theorem segRead16_cross (h : crosses off 2 = true) : segRead16 g off s = .error (.exception (crossVector g)) := by
  simp [segRead16, checkExtreme_cross h]

theorem segWrite16_cross {v : Word} (h : crosses off 2 = true) :
    segWrite16 g off v s = .error (.exception (crossVector g)) := by
  simp [segWrite16, checkExtreme_cross h]

theorem segReadPair_cross (h : crosses off 4 = true) : segReadPair g off s = .error (.exception (crossVector g)) := by
  simp [segReadPair, checkExtreme_cross h]

theorem segReadIdt_cross (h : crosses off 6 = true) : segReadIdt g off s = .error (.exception (crossVector g)) := by
  simp [segReadIdt, checkExtreme_cross h]

theorem segRead8_eq_loadByte : segRead8 g off s = loadByte s (s.lin g off) := by
  simp [segRead8, checkExtreme_ok]

theorem segWrite8_eq_storeByte {v : Byte} : segWrite8 g off v s = storeByte (s.lin g off) v s := by
  simp [segWrite8, checkExtreme_ok]

theorem segRead16_inside (h : crosses off 2 = false) : segRead16 g off s = loadWord s (s.lin g off) := by
  simp [segRead16, checkExtreme_ok h]

theorem segWrite16_inside {v : Word} (h : crosses off 2 = false) :
    segWrite16 g off v s = storeWord (s.lin g off) v s := by
  simp [segWrite16, checkExtreme_ok h]

/-- A four-byte read that answers read its two words, the lower first (R48). -/
theorem segReadPair_ok {p : Word × Word} (h : segReadPair g off s = .ok p) :
    loadWord s (s.lin g off) = .ok p.1 ∧ loadWord s (s.lin g off + 2) = .ok p.2 := by
  obtain ⟨_, -, h⟩ := bind_ok h
  obtain ⟨lo, hlo, h⟩ := bind_ok h
  obtain ⟨hi, hhi, h⟩ := bind_ok h
  cases h
  exact ⟨hlo, hhi⟩

/-- A six-byte read that answers read the limit and the three used bytes of the base (R186). -/
theorem segReadIdt_ok {p : Word × Dword} (h : segReadIdt g off s = .ok p) :
    loadWord s (s.lin g off) = .ok p.1 ∧ ∃ lo hi, loadWord s (s.lin g off + 2) = .ok lo ∧
      loadWord s (s.lin g off + 4) = .ok hi ∧ p.2 = (lowByte hi ++ lo).setWidth 32 := by
  obtain ⟨_, -, h⟩ := bind_ok h
  obtain ⟨limit, hlimit, h⟩ := bind_ok h
  obtain ⟨lo, hlo, h⟩ := bind_ok h
  obtain ⟨hi, hhi, h⟩ := bind_ok h
  cases h
  exact ⟨hlimit, lo, hi, hlo, hhi, rfl⟩

/-! ### Pushes at a segment extreme -/

/-- A part that stops, stops in one of its two parts. -/
theorem bind_error {α β : Type} {p : Op α} {f : α → Op β} {e : Stop} (h : p >>= f = .error e) :
    p = .error e ∨ ∃ a, p = .ok a ∧ f a = .error e := by
  cases p with
  | error e' => cases h; exact .inl rfl
  | ok a => exact .inr ⟨a, rfl, h⟩

/-- A store by linear address is refused or done: MemMap raises no exception (R49). -/
theorem storeByte_ne_exception {a : Nat} {v e : Byte} : storeByte a v s ≠ .error (.exception e) := by
  unfold storeByte checkWritable
  cases memKind s.cfg.memMap a with
  | none => nofun
  | some k => cases k <;> nofun

theorem storeWord_ne_exception {a : Nat} {v : Word} {e : Byte} : storeWord a v s ≠ .error (.exception e) := by
  intro h
  rcases bind_error h with h | ⟨t, -, h⟩
  · exact storeByte_ne_exception h
  · exact storeByte_ne_exception h

/-- A push whose word does not cross raises no exception (R43). -/
theorem push16_ne_exception {v : Word} {e : Byte} (h : crosses (s.regs.sp - 2#16) 2 = false) :
    push16 v s ≠ .error (.exception e) := by
  intro hp
  rw [push16, segWrite16_inside h] at hp
  rcases bind_error hp with hp | ⟨t, -, hp⟩
  · exact storeWord_ne_exception hp
  · cases hp

theorem push16_sp_one {v : Word} (h : s.regs.sp = 1) : push16 v s = .error (.exception 12#8) :=
  push16_cross (by rw [h]; rfl)

/-- Settles O6: each access by whether its bytes cross, and a push by where its word lies. -/
theorem operandCrossingASegmentExtreme : Obligations.OperandCrossingASegmentExtreme := by
  intro s g off
  refine ⟨fun h => ⟨segRead16_cross (crosses_eq_true.2 h), fun v => segWrite16_cross (crosses_eq_true.2 h)⟩,
    fun h => segReadPair_cross (crosses_eq_true.2 h), fun h => segReadIdt_cross (crosses_eq_true.2 h),
    segRead8_eq_loadByte, fun v => segWrite8_eq_storeByte,
    fun h => ⟨segRead16_inside (crosses_eq_false.2 h), fun v => segWrite16_inside (crosses_eq_false.2 h)⟩,
    fun _ _ => segReadPair_ok, fun _ _ => segReadIdt_ok, ?_, fun v => push16_sp_one, fun v hsp e => ?_⟩
  · rw [← crosses_eq_true, crosses_two, decide_eq_true_iff]
    rfl
  · refine push16_ne_exception ?_
    rcases hsp with hsp | hsp <;> rw [hsp] <;> rfl

/-! ### Instructions whose operand crosses -/

/-- An exception of the first access after the LOCK check is raised from the state in which the instruction started
(R232, D15). -/
theorem complete_access_exception {α : Type} {b : Bool} {p : Op α} {f : α → Op State} {v : Byte}
    (hl : checkLock b s = .ok ()) (hp : p = .error (.exception v)) :
    complete s (checkLock b s >>= fun _ => p >>= f) = raise v s := by
  rw [hl, hp]
  rfl

/-- The `r/m` operand of two bytes that an instruction reads or writes before anything else. MOV to a segment register is
not here, because CS raises #6 before the read, nor are the bit tests with a register offset, whose word lies
elsewhere. -/
def wordOperand : Instr → Option RM16
  | .divRm16 d | .idivRm16 d | .pushRm16 d | .callRm16 d => some d
  | .movRm16R16 d _ | .movR16Rm16 _ d | .movRm16Sreg d _ | .movRm16Imm16 d _ | .xchgRm16R16 d _ => some d
  | .movAxMoffs16 o | .movMoffs16Ax o => some (.mem (.direct o))
  | .rolRm16One d | .rorRm16One d | .rclRm16One d | .rcrRm16One d | .shlRm16One d | .shrRm16One d | .sarRm16One d
  | .rolRm16Cl d | .rorRm16Cl d | .rclRm16Cl d | .rcrRm16Cl d | .shlRm16Cl d | .shrRm16Cl d | .sarRm16Cl d
  | .rolRm16Imm8 d _ | .rorRm16Imm8 d _ | .rclRm16Imm8 d _ | .rcrRm16Imm8 d _ | .shlRm16Imm8 d _ | .shrRm16Imm8 d _
  | .sarRm16Imm8 d _ => some d
  | .shldRm16R16Imm8 d _ _ | .shldRm16R16Cl d _ | .shrdRm16R16Imm8 d _ _ | .shrdRm16R16Cl d _ => some d
  | .btsRm16Imm8 d _ | .btrRm16Imm8 d _ | .btcRm16Imm8 d _ => some d
  | .addRm16R16 d _ | .orRm16R16 d _ | .adcRm16R16 d _ | .sbbRm16R16 d _ | .andRm16R16 d _ | .subRm16R16 d _
  | .xorRm16R16 d _ | .addR16Rm16 _ d | .orR16Rm16 _ d | .adcR16Rm16 _ d | .sbbR16Rm16 _ d | .andR16Rm16 _ d
  | .subR16Rm16 _ d | .xorR16Rm16 _ d => some d
  | .addRm16Imm16 d _ | .orRm16Imm16 d _ | .adcRm16Imm16 d _ | .sbbRm16Imm16 d _ | .andRm16Imm16 d _
  | .subRm16Imm16 d _ | .xorRm16Imm16 d _ | .addRm16Imm8 d _ | .orRm16Imm8 d _ | .adcRm16Imm8 d _ | .sbbRm16Imm8 d _
  | .andRm16Imm8 d _ | .subRm16Imm8 d _ | .xorRm16Imm8 d _ => some d
  | .incRm16 d | .decRm16 d | .notRm16 d | .negRm16 d => some d
  | _ => none

theorem noLock_of_not_lockLegal {i : Instr} (h : s.pfx.lock = true → lockLegal i = true) (hi : lockLegal i = false) :
    s.pfx.lock = false :=
  Bool.eq_false_iff.2 fun hl => Bool.eq_false_iff.1 hi (h hl)

/-- A word operand in memory that crosses raises, whichever instruction it is of: a MOV to memory writes it first, all
others read it first. -/
theorem exec_wordOperand_cross {i : Instr} {m : Mem} (hi : wordOperand i = some (.mem m))
    (hl : s.pfx.lock = true → lockLegal i = true) (hc : crosses (effectiveOffset s m) 2 = true) :
    exec i s = raise (crossVector (operandSeg s m)) s := by
  have hmem : checkLock (RM.mem m : RM16).isMem s = .ok () := lockLegal_check fun _ => rfl
  cases i with
  | divRm16 | idivRm16 | pushRm16 | callRm16 | movR16Rm16 | movAxMoffs16
    | rolRm16One | rorRm16One | rclRm16One | rcrRm16One | shlRm16One | shrRm16One | sarRm16One
    | rolRm16Cl | rorRm16Cl | rclRm16Cl | rcrRm16Cl | shlRm16Cl | shrRm16Cl | sarRm16Cl
    | rolRm16Imm8 | rorRm16Imm8 | rclRm16Imm8 | rcrRm16Imm8 | shlRm16Imm8 | shrRm16Imm8 | sarRm16Imm8
    | shldRm16R16Imm8 | shldRm16R16Cl | shrdRm16R16Imm8 | shrdRm16R16Cl
    | addR16Rm16 | orR16Rm16 | adcR16Rm16 | sbbR16Rm16 | andR16Rm16 | subR16Rm16 | xorR16Rm16 =>
      cases hi
      exact complete_access_exception (noLock_check _ (noLock_of_not_lockLegal hl rfl)) (readRm16_cross hc)
  | movRm16R16 | movRm16Sreg | movRm16Imm16 | movMoffs16Ax =>
      cases hi
      exact complete_access_exception (noLock_check _ (noLock_of_not_lockLegal hl rfl)) (writeRm16_cross hc)
  | xchgRm16R16 | addRm16R16 | orRm16R16 | adcRm16R16 | sbbRm16R16 | andRm16R16 | subRm16R16 | xorRm16R16
    | addRm16Imm16 | orRm16Imm16 | adcRm16Imm16 | sbbRm16Imm16 | andRm16Imm16 | subRm16Imm16 | xorRm16Imm16
    | addRm16Imm8 | orRm16Imm8 | adcRm16Imm8 | sbbRm16Imm8 | andRm16Imm8 | subRm16Imm8 | xorRm16Imm8
    | incRm16 | decRm16 | notRm16 | negRm16 =>
      cases hi
      exact complete_access_exception hmem (readRm16_cross hc)
  | btsRm16Imm8 | btrRm16Imm8 | btcRm16Imm8 =>
      cases hi
      exact complete_access_exception hmem (segRead16_cross hc)
  | _ => cases hi

theorem loadSeg_cross {m : Mem} (hg : g ≠ .cs) (hl : s.pfx.lock = false)
    (hc : crosses (effectiveOffset s m) 2 = true) :
    loadSeg g (.mem m) n s = raise (crossVector (operandSeg s m)) s := by
  simp [loadSeg, noLock_check _ hl, hg, readRm16_cross hc]

/-- Settles O8: the listed instructions have the operand as their `wordOperand`; the others read it, or the word a bit
offset selects (R155), right after the LOCK check, a MOV to a segment register after refusing CS. -/
theorem crossingOperandRaises : Obligations.CrossingOperandRaises := by
  intro m r g v b s
  refine ⟨fun i hi hl hc => ?_, fun hl hg hc => ?_, fun hl hc i hi => ?_, fun hc i hi => ?_, fun hl hc i hi => ?_,
    fun hl hc => ?_⟩
  · have hop : wordOperand i = some (.mem m) := List.map_eq_replicate_iff.1 (by rfl) i hi
    exact exec_wordOperand_cross hop hl (crosses_eq_true.2 hc)
  · exact loadSeg_cross hg hl (crosses_eq_true.2 hc)
  · have hop : wordOperand i = some (.mem (.direct v)) := List.map_eq_replicate_iff.1 (by rfl) i hi
    exact exec_wordOperand_cross hop (fun h => by rw [hl] at h; cases h) (crosses_eq_true.2 hc)
  · simp only [List.mem_cons, List.not_mem_nil, or_false] at hi
    have hmem : checkLock (RM.mem m : RM16).isMem s = .ok () := lockLegal_check fun _ => rfl
    rcases hi with rfl | rfl | rfl <;>
      exact complete_access_exception hmem (segRead16_cross (crosses_eq_true.2 hc))
  · simp only [List.mem_cons, List.not_mem_nil, or_false] at hi
    rcases hi with rfl | rfl <;>
      exact complete_access_exception (noLock_check _ hl) (segReadPair_cross (crosses_eq_true.2 hc))
  · exact complete_access_exception (noLock_check _ hl) (segReadIdt_cross (crosses_eq_true.2 hc))

/-! ### Pushes that cross -/

/-- The second word of a far CALL crosses at SP = 3, the first at SP = 1; neither is stored (D15, D29). -/
theorem callFarOp_cross {o c : Word} (h : s.regs.sp = 1 ∨ s.regs.sp = 3) :
    callFarOp o c n s = .error (.exception 12#8) := by
  have hc : checkStackWords [s.regs.sp - 2#16, s.regs.sp - 4#16] = .error (.exception 12#8) := by
    rcases h with h | h <;> rw [h] <;> rfl
  rw [callFarOp, hc]
  rfl

theorem frameCrosses_of_sp (h : s.regs.sp = 1 ∨ s.regs.sp = 3) : s.frameCrosses = true := by
  rcases h with h | h <;> rw [State.frameCrosses, h] <;> rfl

/-- An exception whose frame crosses is not delivered, nor is the 8 of a vector beyond the limit (R229, R237, D11). -/
theorem raise_frameCrosses {v : Byte} (h : s.frameCrosses = true) : raise v s = .fault .deliveryFault := by
  simp [raise, deliver, deliverTable, h]

theorem pushOperand_cross {d : RM16} (hl : s.pfx.lock = false) (hr : RmReadable d 2 s) (hsp : s.regs.sp = 1) :
    pushOperand d n s = raise 12#8 s := by
  simp [pushOperand, noLock_check _ hl, readRm16_readable hr, push16_sp_one hsp]

theorem callNearIndirect_cross {d : RM16} (hl : s.pfx.lock = false) (hr : RmReadable d 2 s) (hsp : s.regs.sp = 1) :
    callNearIndirect d n s = raise 12#8 s := by
  simp [callNearIndirect, noLock_check _ hl, readRm16_readable hr, push16_sp_one hsp]

theorem callFar_pushes_cross {o c : Word} (hl : s.pfx.lock = false) (hsp : s.regs.sp = 1 ∨ s.regs.sp = 3) :
    callFar o c n s = raise 12#8 s := by
  simp [callFar, noLock_check _ hl, callFarOp_cross hsp]

theorem callFarIndirect_pushes_cross {m : Mem} (hl : s.pfx.lock = false) (hr : MemReadable m 4 s)
    (hsp : s.regs.sp = 1 ∨ s.regs.sp = 3) : callFarIndirect m n s = raise 12#8 s := by
  simp [callFarIndirect, noLock_check _ hl, segReadPair_present hr.1 hr.2, callFarOp_cross hsp]

/-- Settles O22: the push comes right after the LOCK check, or after an operand that can be read, and the frame of the 12
itself crosses too. -/
theorem pushAtSpOneRaises12 : Obligations.PushAtSpOneRaises12 := by
  refine ⟨fun v s => push16_sp_one, fun o c n s => callFarOp_cross,
    fun s h => raise_frameCrosses (frameCrosses_of_sp h),
    fun r w c b d m s hl => ⟨fun hsp i hi => ?_, fun hsp hr i hi => ?_, callFar_pushes_cross hl,
      fun hsp hr => callFarIndirect_pushes_cross hl hr hsp⟩⟩
  · simp only [List.mem_cons, List.not_mem_nil, or_false] at hi
    rcases hi with rfl | rfl | rfl | rfl | rfl | rfl | rfl | rfl | rfl | rfl | rfl | rfl <;>
      exact complete_access_exception (noLock_check _ hl) (push16_sp_one hsp)
  · simp only [List.mem_cons, List.not_mem_nil, or_false] at hi
    rcases hi with rfl | rfl
    · exact pushOperand_cross hl hr hsp
    · exact callNearIndirect_cross hl hr hsp

end Sys2Proof.Machine
end

section
/-! Execution at the end of the code segment (R45): the fetch stops there, and past it no fetch begins. -/

namespace Sys2Proof.Machine
open Sys2Proof

variable {s : State}

/-- An exception whose premises hold enters its vector, with the instruction's own offset saved (R228, R229). -/
theorem raise_deliverable {v : Byte} (hm : s.mem.Wf) (hd : Deliverable v s) :
    ∃ t, raise v s = .next t ∧ Entered v s.ip s t := by
  obtain ⟨hlimit, hframe⟩ := deliverable_checks hd
  refine ⟨s.entered v s.ip, ?_, entered_spec hm hd⟩
  rw [raise, deliver_enter hlimit hframe, enter, enterOp_room hd]

/-- A window that ends with the byte at offset 65,535 is stopped by 13: by the next fetch, or because it is full (R45,
R70). -/
theorem fetchWindow_stop_at_end (h : s.ip.toNat + (fetchWindow s).1.length = 65536) :
    (fetchWindow s).2 = .exception 13#8 := by
  obtain ⟨hle, -, hstop, hfull⟩ := fetchWindow_spec s
  rcases hle.lt_or_eq with hlt | heq
  · have hend := hstop hlt
    rw [fetchByte_pastEnd (by omega)] at hend
    exact (Except.error.inj hend).symm
  · exact hfull heq

/-- Too few bytes end the step with what stopped the fetch, before any of the prefixes is run (R78). -/
theorem runFetched_short {f : Fetched} (h : f.body = .error .short) : runFetched f s = complete s (.error f.stop) := by
  rw [runFetched, h]

/-- Settles O54: up to the segment end by what stops the fetch, past it by the first check of the instruction. -/
theorem executionPastTheSegmentEndRaises13 : Obligations.ExecutionPastTheSegmentEndRaises13 := by
  rintro s u hno rfl hm hd
  rw [step, atBoundary_noEvent hno, runInstruction]
  refine ⟨fun hp hlen hshort => ?_, fun hp => ?_⟩
  · have hstop : (fetch (arrive s).begin).stop = .exception 13#8 := fetchWindow_stop_at_end hlen
    rw [State.begin_pastEnd] at hp
    rw [hp, if_neg Bool.false_ne_true, runFetched_short hshort, hstop]
    exact raise_deliverable hm hd
  · rw [State.begin_pastEnd] at hp
    rw [if_pos hp]
    obtain ⟨t, ht, he⟩ := deliverEvent_deliverable hm hd
    exact ⟨t, _, ht, he⟩

end Sys2Proof.Machine
end

section
/-! What each parser reads: a parser answers an instruction exactly on the bytes of its operands (R75, R76). -/

namespace Sys2Proof
open Sys2Proof.Machine

variable {bs rest : List Byte} {i : Instr}

/-! ### The items of an encoding -/

theorem takeByte_eq_ok {v : Byte} : takeByte bs = .ok (v, rest) ↔ bs = v :: rest := ⟨takeByte_inv, fun h => h ▸ rfl⟩

theorem takeWord_eq_ok {v : Word} : takeWord bs = .ok (v, rest) ↔ bs = encodeWord v ++ rest :=
  ⟨takeWord_inv, fun h => h ▸ takeWord_encodeWord v rest⟩

theorem takeModRm_eq_ok {y : BitVec 3} {e : RM (BitVec 3)} :
    takeModRm bs = .ok ((y, e), rest) ↔ e.wellFormed = true ∧ bs = encodeOperand y e ++ rest := by
  refine ⟨fun h => (takeModRm_inv h).symm, fun ⟨he, hb⟩ => ?_⟩
  subst hb
  cases e with
  | mem m => exact takeModRm_mem he
  | reg r =>
    simp [encodeOperand, takeModRm, takeOperand]

theorem andThen_eq_ok {α β : Type} {p : Parsed α} {f : α → List Byte → Parsed β} {q : β × List Byte} :
    andThen p f = .ok q ↔ ∃ a rest, p = .ok (a, rest) ∧ f a rest = .ok q := by
  cases p with
  | ok r => exact ⟨fun h => ⟨r.1, r.2, rfl, h⟩, fun ⟨_, _, hp, h⟩ => by cases hp; exact h⟩
  | error e => exact ⟨nofun, fun ⟨_, _, hp, _⟩ => nomatch hp⟩

/-- Every 8-bit operand is one with its register named. -/
theorem exists_toRm8 (d : RM8) : ∃ e, toRm8 e = d := by
  cases d with
  | reg r => exact ⟨.reg r.code, by simp [toRm8, RM.map]⟩
  | mem m => exact ⟨.mem m, rfl⟩

theorem exists_toRm16 (d : RM16) : ∃ e, toRm16 e = d := by
  cases d with
  | reg r => exact ⟨.reg r.code, by simp [toRm16, RM.map]⟩
  | mem m => exact ⟨.mem m, rfl⟩

/-- Reading an 8-bit operand and going on with the `reg` field and the operand. -/
theorem andThen_modRm8_eq_ok {f : BitVec 3 → RM8 → List Byte → Parsed Instr} {q : Instr × List Byte} :
    andThen (takeModRm bs) (fun p rest => f p.1 (toRm8 p.2) rest) = .ok q ↔
      ∃ y d rest, d.wellFormed = true ∧ bs = encodeRm8 y d ++ rest ∧ f y d rest = .ok q := by
  rw [andThen_eq_ok]
  constructor
  · rintro ⟨⟨y, e⟩, rest, hp, h⟩
    obtain ⟨he, hb⟩ := takeModRm_eq_ok.1 hp
    exact ⟨y, toRm8 e, rest, (toRm8_wellFormed e).trans he, encodeOperand_rm8 y e ▸ hb, h⟩
  · rintro ⟨y, d, rest, hd, hb, h⟩
    obtain ⟨e, rfl⟩ := exists_toRm8 d
    exact ⟨(y, e), rest, takeModRm_eq_ok.2 ⟨(toRm8_wellFormed e).symm.trans hd, encodeOperand_rm8 y e ▸ hb⟩, h⟩

/-- Reading a 16-bit operand and going on with the `reg` field and the operand. -/
theorem andThen_modRm16_eq_ok {f : BitVec 3 → RM16 → List Byte → Parsed Instr} {q : Instr × List Byte} :
    andThen (takeModRm bs) (fun p rest => f p.1 (toRm16 p.2) rest) = .ok q ↔
      ∃ y d rest, d.wellFormed = true ∧ bs = encodeRm16 y d ++ rest ∧ f y d rest = .ok q := by
  rw [andThen_eq_ok]
  constructor
  · rintro ⟨⟨y, e⟩, rest, hp, h⟩
    obtain ⟨he, hb⟩ := takeModRm_eq_ok.1 hp
    exact ⟨y, toRm16 e, rest, (toRm16_wellFormed e).trans he, encodeOperand_rm16 y e ▸ hb, h⟩
  · rintro ⟨y, d, rest, hd, hb, h⟩
    obtain ⟨e, rfl⟩ := exists_toRm16 d
    exact ⟨(y, e), rest, takeModRm_eq_ok.2 ⟨(toRm16_wellFormed e).symm.trans hd, encodeOperand_rm16 y e ▸ hb⟩, h⟩

/-! ### Every parser -/

theorem parseByte_eq_ok {k : Byte → Instr} :
    parseByte k bs = .ok (i, rest) ↔ ∃ v, bs = [v] ++ rest ∧ k v = i := by
  simp [parseByte, andThen_eq_ok, takeByte_eq_ok]

theorem parseWord_eq_ok {k : Word → Instr} :
    parseWord k bs = .ok (i, rest) ↔ ∃ v, bs = encodeWord v ++ rest ∧ k v = i := by
  simp [parseWord, andThen_eq_ok, takeWord_eq_ok]

theorem parseWords_eq_ok {k : Word → Word → Instr} :
    parseWords k bs = .ok (i, rest) ↔ ∃ v w, bs = encodeWord v ++ encodeWord w ++ rest ∧ k v w = i := by
  simp [parseWords, andThen_eq_ok, takeWord_eq_ok, parseWord_eq_ok]

theorem parseRm8_eq_ok {k : RM8 → Instr} :
    parseRm8 k bs = .ok (i, rest) ↔ ∃ y d, d.wellFormed = true ∧ bs = encodeRm8 y d ++ rest ∧ k d = i :=
  (andThen_modRm8_eq_ok (f := fun _ d rest => .ok (k d, rest))).trans (by simp)

theorem parseRm16_eq_ok {k : RM16 → Instr} :
    parseRm16 k bs = .ok (i, rest) ↔ ∃ y d, d.wellFormed = true ∧ bs = encodeRm16 y d ++ rest ∧ k d = i :=
  (andThen_modRm16_eq_ok (f := fun _ d rest => .ok (k d, rest))).trans (by simp)

theorem parseRm8Byte_eq_ok {k : RM8 → Byte → Instr} : parseRm8Byte k bs = .ok (i, rest) ↔
    ∃ y d v, d.wellFormed = true ∧ bs = encodeRm8 y d ++ [v] ++ rest ∧ k d v = i :=
  (andThen_modRm8_eq_ok (f := fun _ d => parseByte (k d))).trans (by simp [parseByte_eq_ok])

theorem parseRm16Byte_eq_ok {k : RM16 → Byte → Instr} : parseRm16Byte k bs = .ok (i, rest) ↔
    ∃ y d v, d.wellFormed = true ∧ bs = encodeRm16 y d ++ [v] ++ rest ∧ k d v = i :=
  (andThen_modRm16_eq_ok (f := fun _ d => parseByte (k d))).trans (by simp [parseByte_eq_ok])

theorem parseRm16Word_eq_ok {k : RM16 → Word → Instr} : parseRm16Word k bs = .ok (i, rest) ↔
    ∃ y d v, d.wellFormed = true ∧ bs = encodeRm16 y d ++ encodeWord v ++ rest ∧ k d v = i :=
  (andThen_modRm16_eq_ok (f := fun _ d => parseWord (k d))).trans (by simp [parseWord_eq_ok])

theorem parseEsc_eq_ok {x : BitVec 3} : parseEsc x bs = .ok (i, rest) ↔
    ∃ y d, d.wellFormed = true ∧ bs = encodeRm16 y d ++ rest ∧ .esc x y d = i :=
  (andThen_modRm16_eq_ok (f := fun y d rest => .ok (.esc x y d, rest))).trans (by simp)

/-- A field names one register, and every register has its field. -/
theorem Reg8.exists_ofCode {P : BitVec 3 → Reg8 → Prop} : (∃ y, P y (Reg8.ofCode y)) ↔ ∃ r, P r.code r :=
  ⟨fun ⟨y, h⟩ => ⟨Reg8.ofCode y, (Reg8.code_ofCode y).symm ▸ h⟩,
    fun ⟨r, h⟩ => ⟨r.code, (Reg8.ofCode_code r).symm ▸ h⟩⟩

theorem Reg16.exists_ofCode {P : BitVec 3 → Reg16 → Prop} : (∃ y, P y (Reg16.ofCode y)) ↔ ∃ r, P r.code r :=
  ⟨fun ⟨y, h⟩ => ⟨Reg16.ofCode y, (Reg16.code_ofCode y).symm ▸ h⟩,
    fun ⟨r, h⟩ => ⟨r.code, (Reg16.ofCode_code r).symm ▸ h⟩⟩

theorem parseRm8R8_eq_ok {k : RM8 → Reg8 → Instr} : parseRm8R8 k bs = .ok (i, rest) ↔
    ∃ r d, d.wellFormed = true ∧ bs = encodeRm8 r.code d ++ rest ∧ k d r = i :=
  (andThen_modRm8_eq_ok (f := fun y d rest => .ok (k d (Reg8.ofCode y), rest))).trans
    ((Reg8.exists_ofCode (P := fun y r => ∃ d tail, d.wellFormed = true ∧ bs = encodeRm8 y d ++ tail ∧
      Except.ok (k d r, tail) = Except.ok (i, rest))).trans (by simp))

theorem parseRm16R16_eq_ok {k : RM16 → Reg16 → Instr} : parseRm16R16 k bs = .ok (i, rest) ↔
    ∃ r d, d.wellFormed = true ∧ bs = encodeRm16 r.code d ++ rest ∧ k d r = i :=
  (andThen_modRm16_eq_ok (f := fun y d rest => .ok (k d (Reg16.ofCode y), rest))).trans
    ((Reg16.exists_ofCode (P := fun y r => ∃ d tail, d.wellFormed = true ∧ bs = encodeRm16 y d ++ tail ∧
      Except.ok (k d r, tail) = Except.ok (i, rest))).trans (by simp))

theorem parseRm16R16Byte_eq_ok {k : RM16 → Reg16 → Byte → Instr} : parseRm16R16Byte k bs = .ok (i, rest) ↔
    ∃ r d v, d.wellFormed = true ∧ bs = encodeRm16 r.code d ++ [v] ++ rest ∧ k d r v = i :=
  (andThen_modRm16_eq_ok (f := fun y d => parseByte (k d (Reg16.ofCode y)))).trans
    ((Reg16.exists_ofCode (P := fun y r => ∃ d tail, d.wellFormed = true ∧ bs = encodeRm16 y d ++ tail ∧
      parseByte (k d r) tail = .ok (i, rest))).trans (by simp [parseByte_eq_ok]))

theorem parseMem_eq_ok {k : BitVec 3 → Mem → Instr} : parseMem k bs = .ok (i, rest) ↔
    ∃ y m, m.wellFormed = true ∧ bs = encodeMem y m ++ rest ∧ k y m = i := by
  rw [parseMem, andThen_eq_ok]
  constructor
  · rintro ⟨⟨y, e⟩, tail, hp, h⟩
    cases e with
    | reg r => cases h
    | mem m =>
      cases h
      obtain ⟨hm, hb⟩ := takeModRm_eq_ok.1 hp
      exact ⟨y, m, hm, hb, rfl⟩
  · rintro ⟨y, m, hm, hb, rfl⟩
    exact ⟨(y, .mem m), rest, takeModRm_eq_ok.2 ⟨hm, hb⟩, rfl⟩

theorem Seg.ofCode_eq_some {y : BitVec 3} {g : Seg} : Seg.ofCode y = some g ↔ y = g.code :=
  ⟨fun h => (Seg.code_ofCode y g h).symm, fun h => h ▸ Seg.ofCode_code g⟩

theorem parseSeg_eq_ok {k : RM16 → Seg → Instr} : parseSeg k bs = .ok (i, rest) ↔
    ∃ g d, d.wellFormed = true ∧ bs = encodeRm16 g.code d ++ rest ∧ k d g = i := by
  refine (andThen_modRm16_eq_ok (f := fun y d rest => match Seg.ofCode y with
    | some g => .ok (k d g, rest)
    | none => .error .undefinedForm)).trans ⟨?_, ?_⟩
  · rintro ⟨y, d, tail, hd, hb, h⟩
    cases hg : Seg.ofCode y with
    | none => rw [hg] at h; cases h
    | some g =>
      rw [hg] at h
      cases h
      exact ⟨g, d, hd, Seg.ofCode_eq_some.1 hg ▸ hb, rfl⟩
  · rintro ⟨g, d, hd, hb, rfl⟩
    exact ⟨g.code, d, rest, hd, hb, by rw [Seg.ofCode_code]⟩

theorem parseSegDest_eq_ok {k : Seg → RM16 → Instr} : parseSegDest k bs = .ok (i, rest) ↔
    ∃ g d, g ≠ .cs ∧ d.wellFormed = true ∧ bs = encodeRm16 g.code d ++ rest ∧ k g d = i := by
  refine (andThen_modRm16_eq_ok (f := fun y d rest => match Seg.ofCode y with
    | some .cs => .error .undefinedForm
    | some g => .ok (k g d, rest)
    | none => .error .undefinedForm)).trans ⟨?_, ?_⟩
  · rintro ⟨y, d, tail, hd, hb, h⟩
    cases hg : Seg.ofCode y with
    | none => rw [hg] at h; cases h
    | some g =>
      rw [hg] at h
      have hb := Seg.ofCode_eq_some.1 hg ▸ hb
      cases g with
      | cs => cases h
      | es | ss | ds | fs | gs => cases h; exact ⟨_, d, by decide, hd, hb, rfl⟩
  · rintro ⟨g, d, hg, hd, hb, rfl⟩
    refine ⟨g.code, d, rest, hd, hb, ?_⟩
    cases g with
    | cs => exact absurd rfl hg
    | es | ss | ds | fs | gs => rfl
end Sys2Proof
end

section
/-! The round trip from an instruction to its bytes and back (R75, R76, R84). -/

namespace Sys2Proof
open Sys2Proof.Machine

variable {bs rest : List Byte} {y : BitVec 3} {rows : Rows}

/-! ### Rows chosen by the `reg` field -/

/-- The `reg` field of the ModR/M byte that the bytes begin with. -/
def firstReg : List Byte → Option (BitVec 3)
  | [] => none
  | b :: _ => some (regField b)

theorem firstReg_encodeMem (y : BitVec 3) (m : Mem) (x : List Byte) : firstReg (encodeMem y m ++ x) = some y := by
  cases m <;> exact congrArg some (regField_modRm ..)

theorem firstReg_encodeRm8 (y : BitVec 3) (d : RM8) (x : List Byte) : firstReg (encodeRm8 y d ++ x) = some y := by
  cases d with
  | reg r => exact congrArg some (regField_modRm ..)
  | mem m => exact firstReg_encodeMem y m x

theorem firstReg_encodeRm16 (y : BitVec 3) (d : RM16) (x : List Byte) : firstReg (encodeRm16 y d ++ x) = some y := by
  cases d with
  | reg r => exact congrArg some (regField_modRm ..)
  | mem m => exact firstReg_encodeMem y m x

/-- A group reads what the row of the `reg` field reads. -/
theorem parseGroup_eq_ok {q : Instr × List Byte} : parseGroup bs rows = .ok q ↔
    ∃ y p, firstReg bs = some y ∧ rows y.toNat = some p ∧ p bs = .ok q := by
  cases bs with
  | nil => simp [parseGroup, firstReg]
  | cons b bs =>
    simp only [parseGroup, firstReg]
    cases hr : rows (regField b).toNat <;> simp [hr]

theorem parseGroup_rm8 {k : RM8 → Instr} {d : RM8} (hr : rows y.toNat = some (parseRm8 k)) (hd : d.wellFormed = true) :
    parseGroup (encodeRm8 y d ++ rest) rows = .ok (k d, rest) :=
  parseGroup_eq_ok.2 ⟨y, _, firstReg_encodeRm8 .., hr, parseRm8_eq_ok.2 ⟨y, d, hd, rfl, rfl⟩⟩

theorem parseGroup_rm16 {k : RM16 → Instr} {d : RM16} (hr : rows y.toNat = some (parseRm16 k))
    (hd : d.wellFormed = true) : parseGroup (encodeRm16 y d ++ rest) rows = .ok (k d, rest) :=
  parseGroup_eq_ok.2 ⟨y, _, firstReg_encodeRm16 .., hr, parseRm16_eq_ok.2 ⟨y, d, hd, rfl, rfl⟩⟩

theorem parseGroup_rm8Byte {k : RM8 → Byte → Instr} {d : RM8} {v : Byte} (hr : rows y.toNat = some (parseRm8Byte k))
    (hd : d.wellFormed = true) : parseGroup (encodeRm8 y d ++ [v] ++ rest) rows = .ok (k d v, rest) :=
  parseGroup_eq_ok.2 ⟨y, _, by rw [List.append_assoc]; exact firstReg_encodeRm8 .., hr,
    parseRm8Byte_eq_ok.2 ⟨y, d, v, hd, rfl, rfl⟩⟩

theorem parseGroup_rm16Byte {k : RM16 → Byte → Instr} {d : RM16} {v : Byte}
    (hr : rows y.toNat = some (parseRm16Byte k)) (hd : d.wellFormed = true) :
    parseGroup (encodeRm16 y d ++ [v] ++ rest) rows = .ok (k d v, rest) :=
  parseGroup_eq_ok.2 ⟨y, _, by rw [List.append_assoc]; exact firstReg_encodeRm16 .., hr,
    parseRm16Byte_eq_ok.2 ⟨y, d, v, hd, rfl, rfl⟩⟩

theorem parseGroup_rm16Word {k : RM16 → Word → Instr} {d : RM16} {v : Word}
    (hr : rows y.toNat = some (parseRm16Word k)) (hd : d.wellFormed = true) :
    parseGroup (encodeRm16 y d ++ encodeWord v ++ rest) rows = .ok (k d v, rest) :=
  parseGroup_eq_ok.2 ⟨y, _, by rw [List.append_assoc]; exact firstReg_encodeRm16 .., hr,
    parseRm16Word_eq_ok.2 ⟨y, d, v, hd, rfl, rfl⟩⟩

theorem parseGroup_mem {k : BitVec 3 → Mem → Instr} {m : Mem} (hr : rows y.toNat = some (parseMem k))
    (hm : m.wellFormed = true) : parseGroup (encodeMem y m ++ rest) rows = .ok (k y m, rest) :=
  parseGroup_eq_ok.2 ⟨y, _, firstReg_encodeMem .., hr, parseMem_eq_ok.2 ⟨y, m, hm, rfl, rfl⟩⟩

/-! ### An encoding decodes to its instruction -/

/-- The rows whose register is the destination. -/
theorem parseR8Rm8_encode {k : Reg8 → RM8 → Instr} {r : Reg8} {d : RM8} (h : d.wellFormed = true) :
    parseRm8R8 (fun d r => k r d) (encodeRm8 r.code d ++ rest) = .ok (k r d, rest) :=
  parseRm8R8_eq_ok.2 ⟨r, d, h, rfl, rfl⟩

theorem parseR16Rm16_encode {k : Reg16 → RM16 → Instr} {r : Reg16} {d : RM16} (h : d.wellFormed = true) :
    parseRm16R16 (fun d r => k r d) (encodeRm16 r.code d ++ rest) = .ok (k r d, rest) :=
  parseRm16R16_eq_ok.2 ⟨r, d, h, rfl, rfl⟩

/-- BOUND names its register by the `reg` field of a memory operand. -/
theorem parseBound_encode {r : Reg16} {m : Mem} (h : m.wellFormed = true) :
    parseMem (fun y m => .boundR16M (Reg16.ofCode y) m) (encodeMem r.code m ++ rest) = .ok (.boundR16M r m, rest) :=
  parseMem_eq_ok.2 ⟨r.code, m, h, rfl, by rw [Reg16.ofCode_code]⟩

theorem bitVec3_cases : ∀ x : BitVec 3, x = 0 ∨ x = 1 ∨ x = 2 ∨ x = 3 ∨ x = 4 ∨ x = 5 ∨ x = 6 ∨ x = 7 := by decide

/-- The opcodes D8 to DF hold three bits of the coprocessor operation (R187). -/
theorem decode_esc (x : BitVec 3) (bs : List Byte) : decode ((0xD8#8 + x.setWidth 8) :: bs) = parseEsc x bs := by
  rcases bitVec3_cases x with rfl | rfl | rfl | rfl | rfl | rfl | rfl | rfl <;> rfl

/-- Settles O2, instruction by instruction: the opcode selects the row, and the row's parser reads the operands back. -/
theorem decodeOfEncode : Obligations.DecodeOfEncode := by
  intro i rest h
  cases i with
  | lockPrefix | esPrefix | csPrefix | ssPrefix | dsPrefix | fsPrefix | gsPrefix | repnePrefix | repPrefix
    | operandSizePrefix | addressSizePrefix | pushSp | pushEs | pushCs | pushSs | pushDs | pushFs | pushGs | pushf
    | int3 | into | iret | wait => rfl
  | pushR16 r =>
    cases r with
    | sp => cases h
    | ax | cx | dx | bx | bp | si | di => rfl
  | xchgAxR16 r | incR16 r | decR16 r => cases r <;> rfl
  | movR8Imm8 r v => cases r <;> exact parseByte_eq_ok.2 ⟨v, rfl, rfl⟩
  | movR16Imm16 r v => cases r <;> exact parseWord_eq_ok.2 ⟨v, rfl, rfl⟩
  | pushImm8 v | intN v | addAlImm8 v | orAlImm8 v | adcAlImm8 v | sbbAlImm8 v | andAlImm8 v | subAlImm8 v
    | xorAlImm8 v => exact parseByte_eq_ok.2 ⟨v, rfl, rfl⟩
  | pushImm16 v | movAlMoffs8 v | movAxMoffs16 v | movMoffs8Al v | movMoffs16Ax v | callRel16 v | addAxImm16 v
    | orAxImm16 v | adcAxImm16 v | sbbAxImm16 v | andAxImm16 v | subAxImm16 v | xorAxImm16 v =>
    exact parseWord_eq_ok.2 ⟨v, rfl, rfl⟩
  | callPtr16 o c => exact parseWords_eq_ok.2 ⟨o, c, rfl, rfl⟩
  | movRm8R8 d r | xchgRm8R8 d r | addRm8R8 d r | orRm8R8 d r | adcRm8R8 d r | sbbRm8R8 d r | andRm8R8 d r | subRm8R8 d r
    | xorRm8R8 d r => exact parseRm8R8_eq_ok.2 ⟨r, d, h, rfl, rfl⟩
  | movR8Rm8 r d | addR8Rm8 r d | orR8Rm8 r d | adcR8Rm8 r d | sbbR8Rm8 r d | andR8Rm8 r d | subR8Rm8 r d
    | xorR8Rm8 r d => exact parseR8Rm8_encode h
  | movRm16R16 d r | xchgRm16R16 d r | addRm16R16 d r | orRm16R16 d r | adcRm16R16 d r | sbbRm16R16 d r | andRm16R16 d r
    | subRm16R16 d r | xorRm16R16 d r | shldRm16R16Cl d r | shrdRm16R16Cl d r | btsRm16R16 d r | btrRm16R16 d r
    | btcRm16R16 d r => exact parseRm16R16_eq_ok.2 ⟨r, d, h, rfl, rfl⟩
  | movR16Rm16 r d | addR16Rm16 r d | orR16Rm16 r d | adcR16Rm16 r d | sbbR16Rm16 r d | andR16Rm16 r d | subR16Rm16 r d
    | xorR16Rm16 r d => exact parseR16Rm16_encode h
  | shldRm16R16Imm8 d r v | shrdRm16R16Imm8 d r v => exact parseRm16R16Byte_eq_ok.2 ⟨r, d, v, h, rfl, rfl⟩
  | movRm16Sreg d g => exact parseSeg_eq_ok.2 ⟨g, d, h, rfl, rfl⟩
  | movSregRm16 g d =>
    obtain ⟨hg, hd⟩ := Bool.and_eq_true_iff.1 h
    exact parseSegDest_eq_ok.2 ⟨g, d, bne_iff_ne.1 hg, hd, rfl, rfl⟩
  | boundR16M r m => exact parseBound_encode h
  | esc x y d => exact (decode_esc x _).trans (parseEsc_eq_ok.2 ⟨y, d, h, rfl, rfl⟩)
  | divRm8 | idivRm8 | notRm8 | negRm8 | incRm8 | decRm8 | rolRm8One | rorRm8One | rclRm8One | rcrRm8One | shlRm8One
    | shrRm8One | sarRm8One | rolRm8Cl | rorRm8Cl | rclRm8Cl | rcrRm8Cl | shlRm8Cl | shrRm8Cl | sarRm8Cl =>
    exact parseGroup_rm8 rfl h
  | divRm16 | idivRm16 | notRm16 | negRm16 | incRm16 | decRm16 | callRm16 | pushRm16 | rolRm16One | rorRm16One | rclRm16One
    | rcrRm16One | shlRm16One | shrRm16One | sarRm16One | rolRm16Cl | rorRm16Cl | rclRm16Cl | rcrRm16Cl | shlRm16Cl
    | shrRm16Cl | sarRm16Cl => exact parseGroup_rm16 rfl h
  | movRm8Imm8 | rolRm8Imm8 | rorRm8Imm8 | rclRm8Imm8 | rcrRm8Imm8 | shlRm8Imm8 | shrRm8Imm8 | sarRm8Imm8 | addRm8Imm8
    | orRm8Imm8 | adcRm8Imm8 | sbbRm8Imm8 | andRm8Imm8 | subRm8Imm8 | xorRm8Imm8 => exact parseGroup_rm8Byte rfl h
  | rolRm16Imm8 | rorRm16Imm8 | rclRm16Imm8 | rcrRm16Imm8 | shlRm16Imm8 | shrRm16Imm8 | sarRm16Imm8 | addRm16Imm8
    | orRm16Imm8 | adcRm16Imm8 | sbbRm16Imm8 | andRm16Imm8 | subRm16Imm8 | xorRm16Imm8 | btsRm16Imm8 | btrRm16Imm8
    | btcRm16Imm8 => exact parseGroup_rm16Byte rfl h
  | movRm16Imm16 | addRm16Imm16 | orRm16Imm16 | adcRm16Imm16 | sbbRm16Imm16 | andRm16Imm16 | subRm16Imm16
    | xorRm16Imm16 => exact parseGroup_rm16Word rfl h
  | callM16 => exact parseGroup_mem (rows := groupFF) (k := fun _ m => .callM16 m) rfl h
  | lidtM => exact parseGroup_mem (rows := group0F01) (k := fun _ m => .lidtM m) rfl h

end Sys2Proof
end

section
/-! The round trip from bytes to an instruction and back (R75, R76, R84). -/

namespace Sys2Proof
open Sys2Proof.Machine

variable {bs pre : List Byte} {i : Instr} {y : BitVec 3} {rows : Rows}

/-- After the opcode bytes `pre`, an answer `p` on the bytes `bs` is a well-formed instruction whose encoding is what was
read. -/
def ReadsBack (pre bs : List Byte) (p : Parsed Instr) : Prop :=
  ∀ i rest, p = .ok (i, rest) → i.wellFormed = true ∧ pre ++ bs = encode i ++ rest

theorem ReadsBack.pure (hw : i.wellFormed = true) (he : encode i = pre) : ReadsBack pre bs (.ok (i, bs)) := by
  rintro i rest h
  cases h
  exact ⟨hw, by rw [he]⟩

theorem ReadsBack.error (e : DecodeError) : ReadsBack pre bs (.error e) := by
  rintro i rest h
  cases h

/-! ### Every parser -/

theorem readsBack_parseByte {k} (hw : ∀ v, (k v).wellFormed = true) (he : ∀ v, encode (k v) = pre ++ [v]) :
    ReadsBack pre bs (parseByte k bs) := by
  rintro i rest h
  obtain ⟨v, rfl, rfl⟩ := parseByte_eq_ok.1 h
  exact ⟨hw v, by rw [he, List.append_assoc]⟩

theorem readsBack_parseWord {k} (hw : ∀ v, (k v).wellFormed = true) (he : ∀ v, encode (k v) = pre ++ encodeWord v) :
    ReadsBack pre bs (parseWord k bs) := by
  rintro i rest h
  obtain ⟨v, rfl, rfl⟩ := parseWord_eq_ok.1 h
  exact ⟨hw v, by rw [he, List.append_assoc]⟩

theorem readsBack_parseWords {k} (hw : ∀ v w, (k v w).wellFormed = true)
    (he : ∀ v w, encode (k v w) = pre ++ (encodeWord v ++ encodeWord w)) : ReadsBack pre bs (parseWords k bs) := by
  rintro i rest h
  obtain ⟨v, w, rfl, rfl⟩ := parseWords_eq_ok.1 h
  exact ⟨hw v w, by rw [he, List.append_assoc pre]⟩

theorem readsBack_parseRm8R8 {k} (hw : ∀ d r, (k d r).wellFormed = d.wellFormed)
    (he : ∀ d r, encode (k d r) = pre ++ encodeRm8 r.code d) : ReadsBack pre bs (parseRm8R8 k bs) := by
  rintro i rest h
  obtain ⟨r, d, hd, rfl, rfl⟩ := parseRm8R8_eq_ok.1 h
  exact ⟨(hw d r).trans hd, by rw [he, List.append_assoc]⟩

theorem readsBack_parseRm16R16 {k} (hw : ∀ d r, (k d r).wellFormed = d.wellFormed)
    (he : ∀ d r, encode (k d r) = pre ++ encodeRm16 r.code d) : ReadsBack pre bs (parseRm16R16 k bs) := by
  rintro i rest h
  obtain ⟨r, d, hd, rfl, rfl⟩ := parseRm16R16_eq_ok.1 h
  exact ⟨(hw d r).trans hd, by rw [he, List.append_assoc]⟩

theorem readsBack_parseRm16R16Byte {k} (hw : ∀ d r v, (k d r v).wellFormed = d.wellFormed)
    (he : ∀ d r v, encode (k d r v) = pre ++ (encodeRm16 r.code d ++ [v])) :
    ReadsBack pre bs (parseRm16R16Byte k bs) := by
  rintro i rest h
  obtain ⟨r, d, v, hd, rfl, rfl⟩ := parseRm16R16Byte_eq_ok.1 h
  exact ⟨(hw d r v).trans hd, by rw [he, List.append_assoc pre]⟩

theorem readsBack_parseSeg {k} (hw : ∀ d g, (k d g).wellFormed = d.wellFormed)
    (he : ∀ d g, encode (k d g) = pre ++ encodeRm16 g.code d) : ReadsBack pre bs (parseSeg k bs) := by
  rintro i rest h
  obtain ⟨g, d, hd, rfl, rfl⟩ := parseSeg_eq_ok.1 h
  exact ⟨(hw d g).trans hd, by rw [he, List.append_assoc]⟩

theorem readsBack_parseSegDest {k} (hw : ∀ g d, (k g d).wellFormed = (g != .cs && d.wellFormed))
    (he : ∀ g d, encode (k g d) = pre ++ encodeRm16 g.code d) : ReadsBack pre bs (parseSegDest k bs) := by
  rintro i rest h
  obtain ⟨g, d, hg, hd, rfl, rfl⟩ := parseSegDest_eq_ok.1 h
  exact ⟨(hw g d).trans (Bool.and_eq_true_iff.2 ⟨bne_iff_ne.2 hg, hd⟩), by rw [he, List.append_assoc]⟩

theorem readsBack_parseEsc {x : BitVec 3} (he : ∀ y d, encode (.esc x y d) = pre ++ encodeRm16 y d) :
    ReadsBack pre bs (parseEsc x bs) := by
  rintro i rest h
  obtain ⟨y, d, hd, rfl, rfl⟩ := parseEsc_eq_ok.1 h
  exact ⟨hd, by rw [he, List.append_assoc]⟩

theorem readsBack_parseBound : ReadsBack [0x62#8] bs (parseMem (fun y m => .boundR16M (Reg16.ofCode y) m) bs) := by
  rintro i rest h
  obtain ⟨y, m, hm, rfl, rfl⟩ := parseMem_eq_ok.1 h
  refine ⟨hm, ?_⟩
  rw [show encode (.boundR16M (Reg16.ofCode y) m) = [0x62#8] ++ encodeMem (Reg16.ofCode y).code m from rfl,
    Reg16.code_ofCode, List.append_assoc]

/-! The rows of a group, whose `reg` field `y` is the row's number. -/

theorem readsBack_parseRm8 {k} (hy : firstReg bs = some y) (hw : ∀ d, (k d).wellFormed = d.wellFormed)
    (he : ∀ d, encode (k d) = pre ++ encodeRm8 y d) : ReadsBack pre bs (parseRm8 k bs) := by
  rintro i rest h
  obtain ⟨z, d, hd, rfl, rfl⟩ := parseRm8_eq_ok.1 h
  rw [firstReg_encodeRm8] at hy
  cases hy
  exact ⟨(hw d).trans hd, by rw [he, List.append_assoc]⟩

theorem readsBack_parseRm16 {k} (hy : firstReg bs = some y) (hw : ∀ d, (k d).wellFormed = d.wellFormed)
    (he : ∀ d, encode (k d) = pre ++ encodeRm16 y d) : ReadsBack pre bs (parseRm16 k bs) := by
  rintro i rest h
  obtain ⟨z, d, hd, rfl, rfl⟩ := parseRm16_eq_ok.1 h
  rw [firstReg_encodeRm16] at hy
  cases hy
  exact ⟨(hw d).trans hd, by rw [he, List.append_assoc]⟩

theorem readsBack_parseRm8Byte {k} (hy : firstReg bs = some y) (hw : ∀ d v, (k d v).wellFormed = d.wellFormed)
    (he : ∀ d v, encode (k d v) = pre ++ (encodeRm8 y d ++ [v])) : ReadsBack pre bs (parseRm8Byte k bs) := by
  rintro i rest h
  obtain ⟨z, d, v, hd, rfl, rfl⟩ := parseRm8Byte_eq_ok.1 h
  rw [List.append_assoc, firstReg_encodeRm8] at hy
  cases hy
  exact ⟨(hw d v).trans hd, by rw [he, List.append_assoc pre]⟩

theorem readsBack_parseRm16Byte {k} (hy : firstReg bs = some y) (hw : ∀ d v, (k d v).wellFormed = d.wellFormed)
    (he : ∀ d v, encode (k d v) = pre ++ (encodeRm16 y d ++ [v])) : ReadsBack pre bs (parseRm16Byte k bs) := by
  rintro i rest h
  obtain ⟨z, d, v, hd, rfl, rfl⟩ := parseRm16Byte_eq_ok.1 h
  rw [List.append_assoc, firstReg_encodeRm16] at hy
  cases hy
  exact ⟨(hw d v).trans hd, by rw [he, List.append_assoc pre]⟩

theorem readsBack_parseRm16Word {k} (hy : firstReg bs = some y) (hw : ∀ d v, (k d v).wellFormed = d.wellFormed)
    (he : ∀ d v, encode (k d v) = pre ++ (encodeRm16 y d ++ encodeWord v)) :
    ReadsBack pre bs (parseRm16Word k bs) := by
  rintro i rest h
  obtain ⟨z, d, v, hd, rfl, rfl⟩ := parseRm16Word_eq_ok.1 h
  rw [List.append_assoc, firstReg_encodeRm16] at hy
  cases hy
  exact ⟨(hw d v).trans hd, by rw [he, List.append_assoc pre]⟩

theorem readsBack_parseMem {k} (hy : firstReg bs = some y) (hw : ∀ m, (k y m).wellFormed = m.wellFormed)
    (he : ∀ m, encode (k y m) = pre ++ encodeMem y m) : ReadsBack pre bs (parseMem k bs) := by
  rintro i rest h
  obtain ⟨z, m, hm, rfl, rfl⟩ := parseMem_eq_ok.1 h
  rw [firstReg_encodeMem] at hy
  cases hy
  exact ⟨(hw m).trans hm, by rw [he, List.append_assoc]⟩

/-- A group reads back as its rows do. -/
theorem readsBack_parseGroup
    (hr : ∀ n p, firstReg bs = some (BitVec.ofNat 3 n) → rows n = some p → ReadsBack pre bs (p bs)) :
    ReadsBack pre bs (parseGroup bs rows) := by
  rintro i rest h
  obtain ⟨y, p, hy, hp, h⟩ := parseGroup_eq_ok.1 h
  exact hr y.toNat p (by rw [BitVec.ofNat_toNat, BitVec.setWidth_eq]; exact hy) hp i rest h

/-- The rows that opcode bytes select by the `reg` field after them (30_encoding.md section 6). -/
def groupOf : List Byte → Option Rows
  | [0x80#8] => some group80
  | [0x81#8] => some group81
  | [0x83#8] => some group83
  | [0xC0#8] => some groupC0
  | [0xC1#8] => some groupC1
  | [0xC6#8] => some groupC6
  | [0xC7#8] => some groupC7
  | [0xD0#8] => some groupD0
  | [0xD1#8] => some groupD1
  | [0xD2#8] => some groupD2
  | [0xD3#8] => some groupD3
  | [0xF6#8] => some groupF6
  | [0xF7#8] => some groupF7
  | [0xFE#8] => some groupFE
  | [0xFF#8] => some groupFF
  | [0x0F#8, 0x01#8] => some group0F01
  | [0x0F#8, 0xBA#8] => some group0FBA
  | _ => none

theorem readsBack_rows (hg : groupOf pre = some rows) (n : Nat) (p : List Byte → Parsed Instr)
    (hy : firstReg bs = some (BitVec.ofNat 3 n)) (hp : rows n = some p) : ReadsBack pre bs (p bs) := by
  unfold groupOf at hg
  split at hg <;> cases hg
  all_goals
    simp only [group80.eq_def, group81.eq_def, group83.eq_def, groupC0.eq_def, groupC1.eq_def, groupC6.eq_def,
      groupC7.eq_def, groupD0.eq_def, groupD1.eq_def, groupD2.eq_def, groupD3.eq_def, groupF6.eq_def, groupF7.eq_def,
      groupFE.eq_def, groupFF.eq_def, group0F01.eq_def, group0FBA.eq_def] at hp
    split at hp <;> cases hp
  all_goals
    apply_rules [readsBack_parseRm8 hy, readsBack_parseRm16 hy, readsBack_parseRm8Byte hy, readsBack_parseRm16Byte hy,
      readsBack_parseRm16Word hy, readsBack_parseMem hy]
    all_goals intros; rfl

/-! ### The decoder -/

theorem readsBack_decodePrimary (op : Nat) : ReadsBack [BitVec.ofNat 8 op] bs (decodePrimary op bs) := by
  unfold decodePrimary
  split
  all_goals
    apply_rules [ReadsBack.pure, ReadsBack.error, readsBack_parseByte, readsBack_parseWord, readsBack_parseWords,
      readsBack_parseRm8R8, readsBack_parseRm16R16, readsBack_parseBound, readsBack_parseSeg, readsBack_parseSegDest,
      readsBack_parseEsc, readsBack_parseGroup, readsBack_rows]
    all_goals intros; rfl

theorem readsBack_decodeEscaped (op : Nat) : ReadsBack [0x0F#8, BitVec.ofNat 8 op] bs (decodeEscaped op bs) := by
  unfold decodeEscaped
  split
  all_goals
    apply_rules [ReadsBack.pure, ReadsBack.error, readsBack_parseRm16R16, readsBack_parseRm16R16Byte,
      readsBack_parseGroup, readsBack_rows]
    all_goals intros; rfl

theorem readsBack_decodeOp : ReadsBack [] bs (decodeOp bs) := by
  cases bs with
  | nil => exact .error _
  | cons b bs =>
    simp only [decodeOp]
    split
    · next hb =>
      obtain rfl : b = 0x0F#8 := BitVec.eq_of_toNat_eq hb
      cases bs with
      | nil => exact .error _
      | cons b bs =>
        have h := readsBack_decodeEscaped (bs := bs) b.toNat
        rwa [BitVec.ofNat_toNat, BitVec.setWidth_eq] at h
    · have h := readsBack_decodePrimary (bs := bs) b.toNat
      rwa [BitVec.ofNat_toNat, BitVec.setWidth_eq] at h

/-- Each of the prefixes is well formed, and its byte is its encoding. -/
theorem encode_of_decodePrefix {b : Byte} {p : Instr} (h : decodePrefix b = some p) :
    p.wellFormed = true ∧ encode p = [b] := by
  unfold decodePrefix at h
  split at h
  case h_12 => cases h
  all_goals
    next hb =>
      cases h
      exact ⟨rfl, congrArg (fun b : Byte => [b]) (BitVec.eq_of_toNat_eq hb.symm)⟩

/-- Settles O3: a byte of one of the prefixes is its encoding, and any other byte begins the bytes of a row. -/
theorem decodedBytesAreTheEncoding : Obligations.DecodedBytesAreTheEncoding := by
  intro bs i rest h
  cases bs with
  | nil => cases h
  | cons b bs =>
    rw [decode] at h
    split at h
    · next p hp =>
      cases h
      obtain ⟨hw, he⟩ := encode_of_decodePrefix hp
      exact ⟨hw, by rw [he]; rfl⟩
    · exact readsBack_decodeOp i rest h

end Sys2Proof
end

section
/-! Prefixes and the instruction after them (R71, R77, R78): how the bytes are split, and when they are too few. -/

namespace Sys2Proof
open Sys2Proof.Machine

variable {bs rest : List Byte} {ps : List Instr} {i p : Instr}

/-- Settles O1: the decoder evaluates on each of the written-out words. -/
theorem decodesWrittenOutBytes : Obligations.DecodesWrittenOutBytes :=
  ⟨rfl, rfl, rfl, rfl, rfl, rfl, rfl, rfl, rfl, rfl, rfl, rfl, rfl, rfl, rfl, rfl, rfl, rfl, rfl, rfl, rfl, rfl, rfl⟩

/-! ### The decoder of prefixes and of a body -/

/-- Each of the prefixes is one byte, and the byte stands for nothing else. -/
theorem encode_prefix (hp : isPrefix p = true) : ∃ b, encode p = [b] ∧ decodePrefix b = some p := by
  cases p with
  | lockPrefix | esPrefix | csPrefix | ssPrefix | dsPrefix | fsPrefix | gsPrefix | repnePrefix | repPrefix
    | operandSizePrefix | addressSizePrefix => exact ⟨_, rfl, rfl⟩
  | _ => cases hp

/-- Bytes that decode to an instruction after its prefixes do not begin with one. -/
theorem decodePrefix_eq_none {b : Byte} (h : decode (b :: bs) = .ok (i, rest)) (hi : isPrefix i = false) :
    decodePrefix b = none := by
  rw [decode] at h
  split at h
  · next p hp =>
    cases h
    exact absurd (isPrefix_of_decodePrefix hp) (Bool.eq_false_iff.1 hi)
  · assumption

theorem decodeOp_of_decode (h : decode bs = .ok (i, rest)) (hi : isPrefix i = false) : decodeOp bs = .ok (i, rest) := by
  cases bs with
  | nil => cases h
  | cons b bs =>
    have hb := decodePrefix_eq_none h hi
    rwa [decode, hb] at h

theorem decodeWith_of_decodeOp (l : List Pattern) (h : decodeOp bs = .ok (i, rest)) :
    decodeWith l bs = .ok (i, rest) := by
  rw [decodeWith, h]

/-! ### Splitting the prefixes off -/

theorem splitPrefixes_encode_append (hp : isPrefix p = true) (x : List Byte) :
    splitPrefixes (encode p ++ x) = (p :: (splitPrefixes x).1, (splitPrefixes x).2) := by
  obtain ⟨b, he, hb⟩ := encode_prefix hp
  rw [he, List.singleton_append, splitPrefixes, hb]

/-- The bytes of an instruction, all of them or with the end cut off, hold none of the prefixes. -/
theorem splitPrefixes_of_decode_append {x y : List Byte} (h : decode (x ++ y) = .ok (i, rest))
    (hi : isPrefix i = false) : splitPrefixes x = ([], x) := by
  cases x with
  | nil => rfl
  | cons b x =>
    have hb := decodePrefix_eq_none h hi
    rw [splitPrefixes, hb]

theorem splitPrefixes_flatMap_append (hps : ∀ p ∈ ps, isPrefix p = true) (x : List Byte) :
    splitPrefixes (ps.flatMap encode ++ x) = (ps ++ (splitPrefixes x).1, (splitPrefixes x).2) := by
  induction ps with
  | nil => rfl
  | cons p ps ih =>
    rw [List.flatMap_cons, List.append_assoc, splitPrefixes_encode_append (hps p List.mem_cons_self),
      ih fun q hq => hps q (List.mem_cons_of_mem p hq)]
    rfl

/-- Settles O4: the prefixes are split off byte by byte, and the instruction begins with none. -/
theorem prefixesAreSplitOff : Obligations.PrefixesAreSplitOff := by
  intro ps i rest hps hi hw
  have hd : decode (encode i ++ rest ++ []) = .ok (i, rest) := by
    rw [List.append_nil]
    exact decodeOfEncode i rest hw
  rw [List.append_assoc, splitPrefixes_flatMap_append hps, splitPrefixes_of_decode_append hd hi, List.append_nil]

/-- The bytes after the prefixes begin with none. -/
theorem decode_splitPrefixes (w : List Byte) : decode (splitPrefixes w).2 = decodeOp (splitPrefixes w).2 := by
  induction w with
  | nil => rfl
  | cons b w ih =>
    rw [splitPrefixes]
    split
    · exact ih
    · next hb => rw [decode, hb]

/-! ### Bytes that are too few -/

/-- The first bytes of an instruction hold no complete instruction: what they read would be read with the rest there. -/
theorem decodeWith_short_of_append (l : List Pattern) {x y : List Byte} (h : decodeOp (x ++ y) = .ok (i, []))
    (hy : y ≠ []) : decodeWith l x = .error .short := by
  by_contra hs
  have hg : grow y (decodeWith l x) = .ok (i, []) :=
    (stable_decodeWith l x y hs).symm.trans (decodeWith_of_decodeOp l h)
  cases hx : decodeWith l x with
  | error e => rw [hx] at hg; cases hg
  | ok q =>
    rw [hx] at hg
    have hnil : q.2 ++ y = [] := congrArg Prod.snd (Except.ok.inj hg)
    exact hy (List.append_eq_nil_iff.1 hnil).2

/-- With its end cut off, prefixes or not, an instruction is not complete (R78). -/
theorem decodeWith_take_short (l : List Pattern) (hps : ∀ p ∈ ps, isPrefix p = true) (hi : isPrefix i = false)
    (hw : i.wellFormed = true) {n : Nat} (hn : n < (ps.flatMap encode ++ encode i).length) :
    decodeWith l (splitPrefixes ((ps.flatMap encode ++ encode i).take n)).2 = .error .short := by
  induction ps generalizing n with
  | nil =>
    have hd : decode ((encode i).take n ++ (encode i).drop n) = .ok (i, []) := by
      rw [List.take_append_drop, ← List.append_nil (encode i)]
      exact decodeOfEncode i [] hw
    rw [List.flatMap_nil, List.nil_append, splitPrefixes_of_decode_append hd hi]
    exact decodeWith_short_of_append l (decodeOp_of_decode hd hi) (List.drop_eq_nil_iff.not.2 (Nat.not_le.2 hn))
  | cons p ps ih =>
    obtain ⟨b, he, hb⟩ := encode_prefix (hps p List.mem_cons_self)
    rw [List.flatMap_cons, he, List.singleton_append, List.cons_append] at hn ⊢
    cases n with
    | zero => rfl
    | succ n =>
      rw [List.take_succ_cons, splitPrefixes, hb]
      exact ih (fun q hq => hps q (List.mem_cons_of_mem p hq)) (Nat.lt_of_succ_lt_succ hn)

end Sys2Proof
end

section
/-! The step that fetches prefixes and an instruction (R70, R71, R78, R81, R233 step 4). -/

namespace Sys2Proof.Machine
open Sys2Proof

variable {s t : State} {i p : Instr} {ps : List Instr} {bs rest : List Byte} {f : Fetched}

/-! ### A fetched instruction -/

theorem step_eq_runFetched (hno : NoEvent (arrive s)) (hp : (arrive s).pastEnd = false) :
    step s = runFetched (fetch (arrive s).begin) (arrive s).begin := by
  rw [step, atBoundary_noEvent hno, runInstruction, hp, if_neg Bool.false_ne_true]

theorem runFetched_ok (hb : f.body = .ok i) (hr : runPrefixes f.prefixes s = .next t) : runFetched f s = exec i t := by
  rw [runFetched, hb, hr]
  rfl

/-- One of the prefixes that is refused refuses the instruction, if its bytes are all there. -/
theorem runFetched_refused {r : Refusal} (hb : f.body ≠ .error .short) (hr : runPrefixes f.prefixes s = .refused r) :
    runFetched f s = .refused r := by
  unfold runFetched
  split
  · next hs => exact absurd hs hb
  · rw [hr]

theorem fetch_prefixes (h : splitPrefixes (fetchWindow s).1 = (ps, bs)) : (fetch s).prefixes = ps :=
  (fetch_body rfl h).1

theorem fetch_body_ok (h : splitPrefixes (fetchWindow s).1 = (ps, bs)) (hd : decodeOp bs = .ok (i, rest)) :
    (fetch s).body = .ok i :=
  (fetch_body rfl h).2.2.1 i rest (decodeWith_of_decodeOp _ hd)

/-- Prefixes and an instruction at CS:IP are recorded and executed. -/
theorem step_eq_exec (hno : NoEvent (arrive s)) (hp : (arrive s).pastEnd = false)
    (hs : splitPrefixes (fetchWindow (arrive s).begin).1 = (ps, bs)) (hd : decodeOp bs = .ok (i, rest))
    (hr : runPrefixes ps (arrive s).begin = .next t) : step s = exec i t := by
  rw [step_eq_runFetched hno hp]
  exact runFetched_ok (fetch_body_ok hs hd) (fetch_prefixes hs ▸ hr)

/-- Settles O49: what is left after the prefixes begins with none, so that `decode` reads it as the body. -/
theorem stepRunsTheDecodedInstruction : Obligations.StepRunsTheDecodedInstruction := by
  intro s t ps bs rest i hno hp hs hd hr
  have hop : decode bs = decodeOp bs := by
    have h := decode_splitPrefixes (fetchWindow (arrive s).begin).1
    rwa [hs] at h
  exact step_eq_exec hno hp hs (hop ▸ hd) hr

/-! ### The prefixes 66 and 67 -/

/-- The refusal of an instruction that carries 66 or 67 (R81, D10). -/
def SizeRefused (r : Result) : Prop := r = .refused .operandSizePrefix ∨ r = .refused .addressSizePrefix

/-- The prefixes other than 66 and 67 are recorded. -/
theorem exec_prefix_cases (hp : isPrefix p = true) (s : State) :
    SizeRefused (exec p s) ∨ p ≠ .operandSizePrefix ∧ p ≠ .addressSizePrefix ∧ ∃ t, exec p s = .next t := by
  cases p with
  | operandSizePrefix => exact .inl (.inl rfl)
  | addressSizePrefix => exact .inl (.inr rfl)
  | lockPrefix | esPrefix | csPrefix | ssPrefix | dsPrefix | fsPrefix | gsPrefix | repnePrefix | repPrefix =>
      exact .inr ⟨nofun, nofun, _, rfl⟩
  | _ => cases hp

/-- The prefixes up to the first 66 or 67 are recorded, and that one is refused. -/
theorem runPrefixes_sizeRefused (hps : ∀ p ∈ ps, isPrefix p = true)
    (hmem : .operandSizePrefix ∈ ps ∨ .addressSizePrefix ∈ ps) (s : State) : SizeRefused (runPrefixes ps s) := by
  induction ps generalizing s with
  | nil => exact absurd hmem (by simp)
  | cons p ps ih =>
    rcases exec_prefix_cases (hps p List.mem_cons_self) s with href | ⟨hop, had, t, ht⟩
    · rcases href with h | h <;> rw [runPrefixes, h]
      · exact .inl rfl
      · exact .inr rfl
    · rw [runPrefixes, ht]
      exact ih (fun q hq => hps q (List.mem_cons_of_mem p hq))
        (hmem.imp (List.mem_of_ne_of_mem hop.symm) (List.mem_of_ne_of_mem had.symm)) t

theorem fetch_body_ne_short (h : splitPrefixes (fetchWindow s).1 = (ps, bs))
    (hd : decodeWith s.cfg.undefinedOpcodes bs ≠ .error .short) : (fetch s).body ≠ .error .short := by
  obtain ⟨-, -, hok, herr⟩ := fetch_body rfl h
  cases hx : decodeWith s.cfg.undefinedOpcodes bs with
  | ok q => rw [hok q.1 q.2 hx]; nofun
  | error e =>
    rw [herr e hx]
    intro he
    cases he
    exact hd hx

/-- Settles O38: the prefixes by their meanings, and 66 or 67 by whichever of them is met before the other. -/
theorem prefixesAreRecordedOrRefused : Obligations.PrefixesAreRecordedOrRefused := by
  refine ⟨fun p hp s => ?_, fun s => ⟨rfl, rfl⟩, fun ps s hps hmem => runPrefixes_sizeRefused hps hmem s, ?_⟩
  · simp only [List.mem_cons, List.not_mem_nil, or_false] at hp
    rcases hp with rfl | rfl | rfl | rfl | rfl | rfl | rfl | rfl | rfl <;> rfl
  · rintro s u ps bs hno hp rfl hs hmem hd
    have hps : ∀ p ∈ ps, isPrefix p = true := by
      have h := isPrefix_of_mem_splitPrefixes (bs := (fetchWindow (arrive s).begin).1)
      rwa [hs] at h
    have hb := fetch_body_ne_short hs hd
    rw [step_eq_runFetched hno hp]
    exact (runPrefixes_sizeRefused hps hmem (arrive s).begin).imp
      (fun h => runFetched_refused hb (fetch_prefixes hs ▸ h)) (fun h => runFetched_refused hb (fetch_prefixes hs ▸ h))

/-! ### Fifteen bytes -/

/-- Fifteen bytes that hold no complete instruction raise 13 before any of their prefixes is run (R70, R78). -/
theorem step_fifteen_short {u : State} (hno : NoEvent (arrive s)) (hp : (arrive s).pastEnd = false)
    (hu : (arrive s).begin = u) (hl : bs.length = 15) (hf : Fetchable bs u)
    (hd : decodeWith u.cfg.undefinedOpcodes (splitPrefixes bs).2 = .error .short) (hm : u.mem.Wf)
    (hdel : Deliverable 13 u) : ∃ t, step s = .next t ∧ Entered 13 u.ip u t := by
  subst hu
  obtain ⟨-, hstop, -, herr⟩ := fetch_body (fetchWindow_fifteen hl hf) rfl
  rw [step_eq_runFetched hno hp, runFetched_short (herr _ hd), hstop]
  exact raise_deliverable hm hdel

/-- Settles O53: within fifteen bytes the window begins with the whole instruction; of a longer one it holds fifteen bytes,
too few for it. -/
theorem fifteenByteLimit : Obligations.FifteenByteLimit := by
  rintro s u hno hp rfl
  refine ⟨fun ps i hps hi hw => ⟨fun hlen hf t hr => ?_, fun hlen hf hm hdel => ?_⟩,
    fun bs hl hf hd hm hdel => step_fifteen_short hno hp rfl hl hf hd hm hdel⟩
  · obtain ⟨more, hmore⟩ := fetchWindow_append hlen hf
    have hs : splitPrefixes (fetchWindow (arrive s).begin).1 = (ps, encode i ++ more) :=
      hmore ▸ prefixesAreSplitOff ps i more hps hi hw
    exact step_eq_exec hno hp hs (decodeOp_of_decode (decodeOfEncode i more hw) hi) hr
  · exact step_fifteen_short hno hp rfl (List.length_take_of_le (Nat.le_of_lt hlen)) hf
      (decodeWith_take_short _ hps hi hw hlen) hm hdel

end Sys2Proof.Machine
end

section
/-! DIV and IDIV (R100 to R103): the quotient and the remainder where the quotient fits, the state a completed divide
leaves, and exception 0 where there is no quotient or it does not fit. -/

namespace Sys2Proof.Machine
open Sys2Proof

variable {s : State}

/-! ### The remainder fits the divisor's width -/

theorem toNat_ofNat_mod_toNat {w : Nat} (n : Nat) {d : BitVec w} (hd : d.toNat ≠ 0) :
    (BitVec.ofNat w (n % d.toNat)).toNat = n % d.toNat := by
  have hlt : n % d.toNat < d.toNat := Nat.mod_lt n (Nat.pos_of_ne_zero hd)
  rw [BitVec.toNat_ofNat, Nat.mod_eq_of_lt (hlt.trans d.isLt)]

/-- A remainder is smaller in magnitude than its divisor, the most negative divisor included. -/
theorem toInt_ofInt_sub_tdiv_mul {w : Nat} (n : Int) {d : BitVec w} (hd : d.toInt ≠ 0) :
    (BitVec.ofInt w (n - n.tdiv d.toInt * d.toInt)).toInt = n.tmod d.toInt := by
  have hw : 0 < w := by
    refine Nat.pos_of_ne_zero fun h => hd ?_
    subst h
    exact BitVec.toInt_zero_length d
  have hmag : (n.tmod d.toInt).natAbs < d.toInt.natAbs := by
    rw [Int.natAbs_tmod]
    exact Nat.mod_lt _ (Int.natAbs_pos.2 hd)
  have hmin := BitVec.le_toInt d
  have hmax := BitVec.toInt_lt (x := d)
  rw [Int.mul_comm, ← Int.tmod_def]
  exact BitVec.toInt_ofInt_eq_self hw (by omega) (by omega)

/-! ### Quotient and remainder, or none -/

theorem udivByte_eq_some {n : Word} {d : Byte} (hd : d.toNat ≠ 0) (hq : n.toNat / d.toNat ≤ 0xFF) :
    ∃ q r, udivByte n d = some (q, r) ∧ q.toNat = n.toNat / d.toNat ∧ r.toNat = n.toNat % d.toNat := by
  refine ⟨_, _, by rw [udivByte, if_neg hd, if_neg (Nat.not_lt.2 hq)], ?_, toNat_ofNat_mod_toNat _ hd⟩
  exact Nat.mod_eq_of_lt (Nat.lt_succ_of_le hq)

theorem udivByte_eq_none {n : Word} {d : Byte} (h : d.toNat = 0 ∨ 0xFF < n.toNat / d.toNat) : udivByte n d = none := by
  rcases h with hd | hq
  · rw [udivByte, if_pos hd]
  · rw [udivByte, if_pos hq, ite_self]

theorem udivWord_eq_some {n : Dword} {d : Word} (hd : d.toNat ≠ 0) (hq : n.toNat / d.toNat ≤ 0xFFFF) :
    ∃ q r, udivWord n d = some (q, r) ∧ q.toNat = n.toNat / d.toNat ∧ r.toNat = n.toNat % d.toNat := by
  refine ⟨_, _, by rw [udivWord, if_neg hd, if_neg (Nat.not_lt.2 hq)], ?_, toNat_ofNat_mod_toNat _ hd⟩
  exact Nat.mod_eq_of_lt (Nat.lt_succ_of_le hq)

theorem udivWord_eq_none {n : Dword} {d : Word} (h : d.toNat = 0 ∨ 0xFFFF < n.toNat / d.toNat) :
    udivWord n d = none := by
  rcases h with hd | hq
  · rw [udivWord, if_pos hd]
  · rw [udivWord, if_pos hq, ite_self]

theorem sdivByte_eq_some {n : Word} {d : Byte} (hd : d.toInt ≠ 0) (hmin : -128 ≤ n.toInt.tdiv d.toInt)
    (hmax : n.toInt.tdiv d.toInt ≤ 127) :
    ∃ q r, sdivByte n d = some (q, r) ∧ q.toInt = n.toInt.tdiv d.toInt ∧ r.toInt = n.toInt.tmod d.toInt := by
  have hfits : ¬(n.toInt.tdiv d.toInt < -128 ∨ 127 < n.toInt.tdiv d.toInt) := by omega
  refine ⟨_, _, by rw [sdivByte, if_neg hd, if_neg hfits], ?_, toInt_ofInt_sub_tdiv_mul _ hd⟩
  exact BitVec.toInt_ofInt_eq_self (by decide) hmin (Int.lt_add_one_of_le hmax)

theorem sdivByte_eq_none {n : Word} {d : Byte}
    (h : d.toInt = 0 ∨ n.toInt.tdiv d.toInt < -128 ∨ 127 < n.toInt.tdiv d.toInt) : sdivByte n d = none := by
  rcases h with hd | hq
  · rw [sdivByte, if_pos hd]
  · rw [sdivByte, if_pos hq, ite_self]

theorem sdivWord_eq_some {n : Dword} {d : Word} (hd : d.toInt ≠ 0) (hmin : -32768 ≤ n.toInt.tdiv d.toInt)
    (hmax : n.toInt.tdiv d.toInt ≤ 32767) :
    ∃ q r, sdivWord n d = some (q, r) ∧ q.toInt = n.toInt.tdiv d.toInt ∧ r.toInt = n.toInt.tmod d.toInt := by
  have hfits : ¬(n.toInt.tdiv d.toInt < -32768 ∨ 32767 < n.toInt.tdiv d.toInt) := by omega
  refine ⟨_, _, by rw [sdivWord, if_neg hd, if_neg hfits], ?_, toInt_ofInt_sub_tdiv_mul _ hd⟩
  exact BitVec.toInt_ofInt_eq_self (by decide) hmin (Int.lt_add_one_of_le hmax)

theorem sdivWord_eq_none {n : Dword} {d : Word}
    (h : d.toInt = 0 ∨ n.toInt.tdiv d.toInt < -32768 ∨ 32767 < n.toInt.tdiv d.toInt) : sdivWord n d = none := by
  rcases h with hd | hq
  · rw [sdivWord, if_pos hd]
  · rw [sdivWord, if_pos hq, ite_self]

/-! ### A completed divide -/

/-- What a completed divide of `n` bytes after its prefixes leaves as it was, apart from the general registers. -/
structure DivideFrame (n : Nat) (s t : State) : Prop where
  flags : OnlyFlags arithFlags s.flags t.flags
  memory : SameMemory s t
  retired : Retired false n s t

/-- A divide that had written its results in `u` draws the six flags and retires. -/
theorem divideFrame_retire {u : State} (h : Beside s u) (hmem : SameMemory s u) (n : Nat) :
    DivideFrame n s ((u.setFlags (drawArith s.freeFlags s.flags)).retire false n) :=
  ⟨onlyFlags_drawArith _ _, hmem, retired_retire (h.trans (beside_setFlags u _)) false n⟩

/-- A byte divide with a quotient puts the quotient in AL and the remainder in AH (R101). -/
theorem divideByte_completes {f : Word → Byte → Option (Byte × Byte)} {d : RM8} {q r : Byte} (hr : RmReadable d 1 s)
    (hl : s.pfx.lock = false) (hf : f s.regs.ax (valueRm8 d s) = some (q, r)) :
    ∃ t, divideByte f d s = .next t ∧ t.reg8 .al = q ∧ t.reg8 .ah = r ∧ (∀ x, x ≠ .ax → t.reg16 x = s.reg16 x) ∧
      DivideFrame (1 + d.size) s t :=
  ⟨_, divideByte_next hr hl hf, lowByte_wordOf q r, highByte_wordOf q r, fun _ hx => Regs.get_set_other s.regs _ hx,
    divideFrame_retire (beside_setReg16 s .ax (wordOf q r)) ⟨fun _ => rfl, rfl⟩ _⟩

/-- A word divide with a quotient puts the quotient in AX and the remainder in DX (R101). -/
theorem divideWord_completes {f : Dword → Word → Option (Word × Word)} {d : RM16} {q r : Word} (hr : RmReadable d 2 s)
    (hl : s.pfx.lock = false) (hf : f (s.regs.dx ++ s.regs.ax) (valueRm16 d s) = some (q, r)) :
    ∃ t, divideWord f d s = .next t ∧ t.regs.ax = q ∧ t.regs.dx = r ∧
      (∀ x, x ≠ .ax → x ≠ .dx → t.reg16 x = s.reg16 x) ∧ DivideFrame (1 + d.size) s t :=
  ⟨_, divideWord_next hr hl hf, rfl, rfl,
    fun _ ha hd => (Regs.get_set_other _ r hd).trans (Regs.get_set_other s.regs q ha),
    divideFrame_retire ((beside_setReg16 s .ax q).trans (beside_setReg16 _ .dx r)) ⟨fun _ => rfl, rfl⟩ _⟩

/-! ### The four instructions -/

theorem exec_divRm8 (d : RM8) (s : State) : exec (.divRm8 d) s = divideByte udivByte d s := rfl
theorem exec_divRm16 (d : RM16) (s : State) : exec (.divRm16 d) s = divideWord udivWord d s := rfl
theorem exec_idivRm8 (d : RM8) (s : State) : exec (.idivRm8 d) s = divideByte sdivByte d s := rfl
theorem exec_idivRm16 (d : RM16) (s : State) : exec (.idivRm16 d) s = divideWord sdivWord d s := rfl

/-- Settles O16: a quotient that fits and its remainder are the results of the completed divide. -/
theorem divQuotientAndRemainder : Obligations.DivQuotientAndRemainder := by
  constructor
  · intro d s hl hr hd hq
    obtain ⟨q, r, hf, hquot, hrem⟩ := udivByte_eq_some hd hq
    obtain ⟨t, ht, rfl, rfl, hother, hframe⟩ := divideByte_completes hr hl hf
    exact ⟨t, (exec_divRm8 d s).trans ht, hquot, hrem, hother, hframe.flags, hframe.memory, hframe.retired⟩
  · intro d s hl hr hd hq
    obtain ⟨q, r, hf, hquot, hrem⟩ := udivWord_eq_some hd hq
    obtain ⟨t, ht, rfl, rfl, hother, hframe⟩ := divideWord_completes hr hl hf
    exact ⟨t, (exec_divRm16 d s).trans ht, hquot, hrem, hother, hframe.flags, hframe.memory, hframe.retired⟩

/-- Settles O17: the lower bound on the quotient is met by 80H and 8000H, which are accepted as any other quotient is. -/
theorem idivAcceptsTheLargestNegativeQuotient : Obligations.IdivAcceptsTheLargestNegativeQuotient := by
  constructor
  · intro d s hl hr hd hmin hmax
    obtain ⟨q, r, hf, hquot, hrem⟩ := sdivByte_eq_some hd hmin hmax
    obtain ⟨t, ht, rfl, rfl, hother, hframe⟩ := divideByte_completes hr hl hf
    exact ⟨t, (exec_idivRm8 d s).trans ht, hquot, hrem, hother, fun h => BitVec.eq_of_toInt_eq (hquot.trans h),
      hframe.flags, hframe.memory, hframe.retired⟩
  · intro d s hl hr hd hmin hmax
    obtain ⟨q, r, hf, hquot, hrem⟩ := sdivWord_eq_some hd hmin hmax
    obtain ⟨t, ht, rfl, rfl, hother, hframe⟩ := divideWord_completes hr hl hf
    exact ⟨t, (exec_idivRm16 d s).trans ht, hquot, hrem, hother, fun h => BitVec.eq_of_toInt_eq (hquot.trans h),
      hframe.flags, hframe.memory, hframe.retired⟩

/-- Settles O18: without a quotient that fits, each of the four divides is the raise of exception 0 (R100). -/
theorem divideErrorPointsAtTheDivide : Obligations.DivideErrorPointsAtTheDivide := by
  intro i s hl hm hdel herr
  have hraise : exec i s = raise 0#8 s := by
    rcases herr with ⟨d, rfl, hr, hq⟩ | ⟨d, rfl, hr, hq⟩ | ⟨d, rfl, hr, hq⟩ | ⟨d, rfl, hr, hq⟩
    · rw [exec_divRm8, divideByte_error hr hl (udivByte_eq_none hq)]
    · rw [exec_divRm16, divideWord_error hr hl (udivWord_eq_none hq)]
    · rw [exec_idivRm8, divideByte_error hr hl (sdivByte_eq_none hq)]
    · rw [exec_idivRm16, divideWord_error hr hl (sdivWord_eq_none hq)]
  rw [hraise]
  exact raise_deliverable hm hdel

end Sys2Proof.Machine
end

section
/-! PUSH and PUSHF (R110 to R112): the one word a completed push stores, and which value that word holds. -/

namespace Sys2Proof.Machine
open Sys2Proof

variable {s t : State} {v : Word} {n : Nat}

/-! ### A push of a value -/

/-- A completed push of `n` bytes after its prefixes: one word below SP, counted as written (R53), and no flag. -/
structure PushCompleted (v : Word) (n : Nat) (s t : State) : Prop where
  word : Pushed1 v s t
  stored : StoredAt (s.lin .ss (s.regs.sp - 2#16)) 2 s t
  flags : t.flags = s.flags
  retired : Retired false n s t

theorem pushed_completed (hm : s.mem.Wf) (v : Word) (n : Nat) : PushCompleted v n s ((s.pushed v).retire false n) where
  word := (pushed_pushed1 hm v).congr rfl rfl
  stored := storedAt_setWord s _ v
  flags := rfl
  retired := retired_retire (beside_pushed s v) false n

theorem pushValue_completes (hm : s.mem.Wf) (hl : s.pfx.lock = false) (hp : PushRoom 2#16 s) :
    ∃ t, pushValue v n s = .next t ∧ PushCompleted v n s t :=
  ⟨_, pushValue_next hp hl, pushed_completed hm v n⟩

theorem pushOperand_completes {d : RM16} (hm : s.mem.Wf) (hl : s.pfx.lock = false) (hr : RmReadable d 2 s)
    (hp : PushRoom 2#16 s) : ∃ t, pushOperand d n s = .next t ∧ PushCompleted (valueRm16 d s) n s t :=
  ⟨_, pushOperand_next hr hp hl, pushed_completed hm _ n⟩

theorem pushValue_cross (hl : s.pfx.lock = false) (hsp : s.regs.sp = 1) : pushValue v n s = raise 12#8 s :=
  complete_access_exception (noLock_check _ hl) (push16_sp_one hsp)

theorem pushValue_lock (hl : s.pfx.lock = true) : pushValue v n s = raise 6#8 s := by
  rw [pushValue, checkLock_illegal hl, error_bind, complete_exception]

/-- Settles O19: each of the listed instructions is a push of the value listed with it, and PUSH r/m16 is one of the value
its operand has before the push. -/
theorem pushStoresBelowSp : Obligations.PushStoresBelowSp := by
  constructor
  · intro r w b s hm hl hp p hmem
    have hexec : exec p.1 s = pushValue p.2.1 p.2.2 s := by
      simp only [List.mem_cons, List.not_mem_nil, or_false] at hmem
      rcases hmem with rfl | rfl | rfl | rfl | rfl | rfl | rfl | rfl | rfl <;> rfl
    obtain ⟨t, ht, hc⟩ := pushValue_completes (v := p.2.1) (n := p.2.2) hm hl hp
    exact ⟨t, hexec.trans ht, hc.word, hc.stored, hc.flags, hc.retired⟩
  · intro d s hm hl hr hp
    obtain ⟨t, ht, hc⟩ := pushOperand_completes (n := 1 + d.size) hm hl hr hp
    exact ⟨t, ht, hc.word, hc.stored, hc.flags, hc.retired⟩

/-! ### PUSH SP -/

/-- The pushed word lies at the new top of the stack. -/
theorem Pushed1.wordAt_top (h : Pushed1 v s t) (hs : t.segs = s.segs) : wordAt t (t.lin .ss t.regs.sp) = v := by
  have haddr : t.lin .ss t.regs.sp = s.lin .ss (s.regs.sp - 2#16) := by
    rw [State.lin, State.lin, State.sel, State.sel, hs, h.regs]
    rfl
  rw [haddr, h.top]

/-- What is found at the top after a push of SP is the SP of before, 2 above the new one. -/
theorem Pushed1.wordAt_top_of_sp (h : Pushed1 s.regs.sp s t) (hs : t.segs = s.segs) :
    wordAt t (t.lin .ss t.regs.sp) = t.regs.sp + 2#16 := by
  have hsp : t.regs.sp = s.regs.sp - 2#16 := congrArg Regs.sp h.regs
  rw [h.wordAt_top hs, hsp, BitVec.sub_add_cancel]

/-- Settles O20: both encodings push the SP of before, so that the two read alike from here on. -/
theorem pushSpPushesTheOldValue : Obligations.PushSpPushesTheOldValue := by
  refine ⟨rfl, rfl, fun s p hmem => ?_⟩
  have hexec : exec p.1 s = pushValue s.regs.sp p.2 s := by
    simp only [List.mem_cons, List.not_mem_nil, or_false] at hmem
    rcases hmem with rfl | rfl <;> rfl
  rw [hexec]
  refine ⟨fun hm hl hp => ?_, fun hl hsp => ⟨push16_sp_one hsp, pushValue_cross hl hsp⟩, pushValue_lock⟩
  obtain ⟨t, ht, hc⟩ := pushValue_completes (v := s.regs.sp) (n := p.2) hm hl hp
  exact ⟨t, ht, hc.word, hc.stored, hc.word.wordAt_top_of_sp hc.retired.segs, hc.flags, hc.retired⟩

/-! ### PUSHF -/

/-- The image of a FLAGS that holds its fixed bits is that FLAGS, of which bit 15 is 0 (R16, R112). -/
theorem flagsImage_eq_append {fl : Word} (h : FlagsFixed fl) :
    flagsImage fl = 0#1 ++ fl.extractLsb' 12 3 ++ fl.extractLsb' 0 12 := by
  have h15 : fl.getLsbD 15 = false := by rw [← h, getLsbD_fixedFlags]; rfl
  rw [flagsImage, h]
  refine BitVec.eq_of_getLsbD_eq fun i hi => ?_
  rw [BitVec.getLsbD_append, BitVec.getLsbD_append]
  split
  · next hlow => simp [hlow]
  · split
    · next hlow hmid => simp [hmid, show 12 + (i - 12) = i by omega]
    · next hlow hmid =>
      obtain rfl : i = 15 := by omega
      simpa using h15

/-- Settles O21: PUSHF is a push of the flags image. -/
theorem pushfImage : Obligations.PushfImage := by
  refine fun s => ⟨fun hm hf hl hp => ?_, fun hl hsp => ⟨push16_sp_one hsp, pushValue_cross hl hsp⟩, pushValue_lock⟩
  obtain ⟨t, ht, hc⟩ := pushValue_completes (v := flagsImage s.flags) (n := 1) hm hl hp
  exact ⟨t, ht, flagsImage_eq_append hf ▸ hc.word, hc.stored, hc.flags, hc.retired⟩

end Sys2Proof.Machine
end

section
/-! MOV (R113, R114): into an `r/m` operand, into a register, and into a segment register. -/

namespace Sys2Proof.Machine
open Sys2Proof

variable {s : State} {n : Nat}

theorem putRm8_flags (s : State) (d : RM8) (v : Byte) : (s.putRm8 d v).flags = s.flags := by cases d <;> rfl
theorem putRm16_flags (s : State) (d : RM16) (v : Word) : (s.putRm16 d v).flags = s.flags := by cases d <;> rfl

/-! ### Into an operand -/

theorem storeRm8_completes {d : RM8} {v : Byte} (hm : s.mem.Wf) (hl : s.pfx.lock = false) (hw : RmWritable d 1 s) :
    ∃ t, storeRm8 d v n s = .next t ∧ Stored8 d v s t ∧ t.flags = s.flags ∧ Retired false n s t :=
  ⟨_, storeRm8_next hw hl, (putRm8_stored hm d v).congr rfl rfl rfl, putRm8_flags s d v,
    retired_retire (beside_putRm8 s d v) false n⟩

theorem storeRm16_completes {d : RM16} {v : Word} (hm : s.mem.Wf) (hl : s.pfx.lock = false) (hw : RmWritable d 2 s) :
    ∃ t, storeRm16 d v n s = .next t ∧ Stored16 d v s t ∧ t.flags = s.flags ∧ Retired false n s t :=
  ⟨_, storeRm16_next hw hl, (putRm16_stored hm d v).congr rfl rfl rfl, putRm16_flags s d v,
    retired_retire (beside_putRm16 s d v) false n⟩

/-- Settles O23: the four forms store one byte, a `moffs` form into the direct operand of its offset (R76). -/
theorem movStoresByte : Obligations.MovStoresByte := fun _ _ _ _ _ hm hl =>
  ⟨fun hw => ⟨storeRm8_completes hm hl hw, storeRm8_completes hm hl hw⟩, storeRm8_completes (d := .reg _) hm hl trivial,
    fun hw => storeRm8_completes (d := .mem _) hm hl hw⟩

/-- Settles O24: the five forms store one word, as the byte forms do theirs. -/
theorem movStoresWord : Obligations.MovStoresWord := fun _ _ _ _ _ _ hm hl =>
  ⟨fun hw => ⟨storeRm16_completes hm hl hw, storeRm16_completes hm hl hw, storeRm16_completes hm hl hw⟩,
    storeRm16_completes (d := .reg _) hm hl trivial, fun hw => storeRm16_completes (d := .mem _) hm hl hw⟩

/-! ### Into a register -/

theorem loadReg8_completes {r : Reg8} {d : RM8} (hl : s.pfx.lock = false) (hr : RmReadable d 1 s) :
    ∃ t, loadReg8 r d n s = .next t ∧ Stored8 (.reg r) (valueRm8 d s) s t ∧ t.flags = s.flags ∧ Retired false n s t :=
  ⟨_, loadReg8_next hr hl, ⟨rfl, fun _ => rfl, rfl⟩, rfl, retired_retire (beside_setReg8 s r _) false n⟩

theorem loadReg16_completes {r : Reg16} {d : RM16} (hl : s.pfx.lock = false) (hr : RmReadable d 2 s) :
    ∃ t, loadReg16 r d n s = .next t ∧ Stored16 (.reg r) (valueRm16 d s) s t ∧ t.flags = s.flags ∧
      Retired false n s t :=
  ⟨_, loadReg16_next hr hl, ⟨rfl, fun _ => rfl, rfl⟩, rfl, retired_retire (beside_setReg16 s r _) false n⟩

/-- Settles O25: the four forms load the value of their operand, a `moffs` form that of the direct operand of its offset
(R76). -/
theorem movLoads : Obligations.MovLoads := fun _ _ _ _ _ _ hl =>
  ⟨loadReg8_completes hl, loadReg16_completes hl, fun hr => loadReg8_completes (d := .mem _) hl hr,
    fun hr => loadReg16_completes (d := .mem _) hl hr⟩

/-! ### Into a segment register -/

theorem loadSeg_cs (d : RM16) (n : Nat) (s : State) : loadSeg .cs d n s = raise 6#8 s := by
  cases hl : s.pfx.lock with
  | false => simp [loadSeg, noLock_check _ hl]
  | true => simp [loadSeg, checkLock_illegal hl]

/-- Settles O26: a selector is loaded as it is; CS raises 6, as LOCK does, whichever is found first. -/
theorem movLoadsSegmentRegister : Obligations.MovLoadsSegmentRegister := fun _ d s =>
  ⟨fun hg hl hr => ⟨_, loadSeg_next hg hr hl, rfl, rfl, rfl, rfl, ⟨fun _ => rfl, rfl⟩,
    retired_retire (Beside.refl s) false (1 + d.size)⟩, loadSeg_cs d _ s⟩

end Sys2Proof.Machine
end

section
/-! XCHG (R83, R115). The operand takes the register's value first, and then the register the operand's old one, so that
two byte registers of one word are exchanged too. -/

namespace Sys2Proof.Machine
open Sys2Proof

variable {s : State}

theorem beside_putRm8_setReg8 (s : State) (d : RM8) (r : Reg8) (v w : Byte) :
    Beside s ((s.putRm8 d v).setReg8 r w) :=
  (beside_putRm8 s d v).trans (beside_setReg8 _ r w)

theorem beside_putRm16_setReg16 (s : State) (d : RM16) (r : Reg16) (v w : Word) :
    Beside s ((s.putRm16 d v).setReg16 r w) :=
  (beside_putRm16 s d v).trans (beside_setReg16 _ r w)

/-- Settles O27: by whether the operand is a register or in memory. -/
theorem xchgBytes : Obligations.XchgBytes := by
  intro d r s hm hw hl
  refine ⟨_, exchange8_next hw hl, putRm8_flags s d _, retired_retire (beside_putRm8_setReg8 ..) _ _, ?_⟩
  cases d with
  | reg q => exact ⟨rfl, fun _ => rfl, rfl⟩
  | mem m => exact ⟨rfl, setByte_read hm, storedAt_setByte ..⟩

/-- XCHG of two word registers, of which the first may be AX without a ModR/M byte. -/
theorem exchange16_registers {q r : Reg16} {n : Nat} (hl : s.pfx.lock = false) :
    ∃ t, exchange16 (.reg q) r n s = .next t ∧ t.regs = (s.regs.set q (s.reg16 r)).set r (s.reg16 q) ∧
      t.flags = s.flags ∧ SameMemory s t ∧ Retired false n s t :=
  ⟨_, exchange16_next trivial (fun h => by rw [hl] at h; cases h), rfl, rfl, ⟨fun _ => rfl, rfl⟩,
    retired_retire (beside_putRm16_setReg16 ..) _ _⟩

/-- Settles O28: the two-operand form as for bytes; opcode 90 writes AX to AX, twice. -/
theorem xchgWords : Obligations.XchgWords := by
  constructor
  · intro d r s hm hw hl
    refine ⟨_, exchange16_next hw hl, putRm16_flags s d _, retired_retire (beside_putRm16_setReg16 ..) _ _, ?_⟩
    cases d with
    | reg q => exact ⟨rfl, fun _ => rfl, rfl⟩
    | mem m => exact ⟨rfl, setWord_wordAt hm, storedAt_setWord ..⟩
  · intro r s hl
    obtain ⟨t, ht, hregs, hflags, hmem, hret⟩ := exchange16_registers (q := .ax) (r := r) (n := 1) hl
    exact ⟨t, ht, hregs, fun hax => by subst hax; exact hregs, hflags, hmem, hret⟩

end Sys2Proof.Machine
end

section
/-! The boundary after a MOV to SS (R114, R233 step 0). -/

namespace Sys2Proof.Machine
open Sys2Proof

variable {s t : State} {i : Instr}

/-- Only a MOV to SS asks that the next boundary be without events. -/
theorem Executed.ssShadow (h : Executed i s t) : (∃ d, i = .movSregRm16 .ss d) ∨ t.ssShadow = s.ssShadow := by
  cases h with
  | recorded lock seg state => subst state; exact .inr rfl
  | retired locked n frame => exact .inr frame.system.ssShadow
  | transferred cs ip frame => exact .inr frame.system.ssShadow
  | segmentLoaded g d v n instr state =>
    subst state
    by_cases hg : g = .ss
    · exact .inl ⟨d, hg ▸ instr⟩
    · exact .inr (by simp [hg])
  | returned ip cs img instr state => subst state; exact .inr rfl
  | idtrLoaded m limit base n instr state => subst state; exact .inr rfl

/-- `State.begin` forgets the MOV to SS before, so that a step which leaves one recorded executed one itself. -/
theorem runInstruction_ssShadow (h : runInstruction s = .next t) (hss : t.ssShadow = true) :
    s.pastEnd = false ∧ ∃ d, (fetch s.begin).body = .ok (.movSregRm16 .ss d) := by
  obtain ⟨p, ⟨v, ret, rfl⟩ | ⟨hpast, i, hi, -, h⟩⟩ := runInstruction_cases h
  · have hkept := (entered_sameSystem (s.begin.withPrefixes p) v ret).ssShadow
    exact absurd (hkept.symm.trans hss) Bool.false_ne_true
  · rcases (exec_executed h).ssShadow with ⟨d, rfl⟩ | hkept
    · exact ⟨hpast, d, hi⟩
    · exact absurd (hkept.symm.trans hss) Bool.false_ne_true

theorem deliverEvent_ssShadow {v : Byte} (hs : s.ssShadow = false) (h : deliverEvent v s = .next t) :
    t.ssShadow = false := by
  obtain ⟨v', ret, rfl⟩ := deliver_inv h
  exact (entered_sameSystem s v' ret).ssShadow.trans hs

/-- A boundary that delivers an event had no MOV to SS before it, and leaves none recorded. -/
theorem atBoundary_event_ssShadow (hev : ¬ NoEvent s) (h : atBoundary s = .next t) : t.ssShadow = false := by
  have hs : s.ssShadow = false := Bool.eq_false_of_not_eq_true (not_or.1 hev).1
  rcases atBoundary_next h with h | h | ⟨v, h⟩ | ⟨hno, -⟩
  · exact deliverEvent_ssShadow (s := { s with dr6 := stepDr6 s, stepDue := false }) hs h
  · exact deliverEvent_ssShadow (s := { s with nmiMasked := true, nmiPending := false }) hs h
  · exact deliverEvent_ssShadow (s := { s with intrPending := none }) hs h
  · exact absurd hno hev

/-- Settles O51: the boundary goes straight to the instruction, over which what waits stays; and a MOV to SS is recorded by
nothing but itself. -/
theorem movToSsHoldsEventsOff : Obligations.MovToSsHoldsEventsOff := by
  constructor
  · intro s hss
    have hstep : step s = runInstruction (arrive s) := atBoundary_noEvent (.inl hss)
    refine ⟨hstep, fun t h => ?_⟩
    rw [hstep] at h
    have hsig := runInstruction_sameSignals h
    exact ⟨fun hd => by simp [runInstruction_stepDue h, hss, hd], hsig.nmiPending, hsig.intrPending⟩
  · intro s t h hss
    have hno : NoEvent (arrive s) := by
      by_contra hev
      exact absurd hss (Bool.eq_false_iff.1 (atBoundary_event_ssShadow hev h))
    rw [step, atBoundary_noEvent hno] at h
    exact ⟨hno, runInstruction_ssShadow h hss⟩

end Sys2Proof.Machine
end

section
/-! Shifts and rotates (R130 to R140): every form is one shape of meaning, run with the operation of its mnemonic and
the count of its encoding. -/

namespace Sys2Proof.Machine
open Sys2Proof

section
variable {s : State} {count b : Byte} {n : Nat}

/-! ### A count that is not 0 modulo 32 -/

/-- An operation of a shift or rotate answers the result and the flags its rule asks for, whatever values are free. -/
def Computes {w : Nat} (f : BitVec w → Nat → Word → Word → BitVec w × Word) (rule : Shift w) : Prop :=
  ∀ v c fl free, rule v c fl (f v c fl free).1 (f v c fl free).2

/-- A completed shift or rotate of a byte by `c`, with `n` bytes after its prefixes. -/
def ShiftedRm8 (rule : Shift 8) (d : RM8) (c n : Nat) (s : State) (r : Result) : Prop :=
  ∃ t v, r = .next t ∧ rule (valueRm8 d s) c s.flags v t.flags ∧ Stored8 d v s t ∧ Retired false n s t

/-- A completed shift or rotate of a word by `c`, with `n` bytes after its prefixes. -/
def ShiftedRm16 (rule : Shift 16) (d : RM16) (c n : Nat) (s : State) (r : Result) : Prop :=
  ∃ t v, r = .next t ∧ rule (valueRm16 d s) c s.flags v t.flags ∧ Stored16 d v s t ∧ Retired false n s t

theorem shiftRm8_shifted {f : Byte → Nat → Word → Word → Byte × Word} {rule : Shift 8} {d : RM8}
    (hf : Computes f rule) (hm : s.mem.Wf) (hw : RmWritable d 1 s) (hl : s.pfx.lock = false) (hc : count.toNat % 32 ≠ 0) :
    ShiftedRm8 rule d (count.toNat % 32) n s (shiftRm8 f d count n s) := by
  rw [← maskedCount_eq] at hc ⊢
  exact ⟨_, _, shiftRm8_next hw hl hc, hf _ _ _ _, (putRm8_stored hm d _).congr rfl rfl rfl,
    retired_retire ((beside_putRm8 s d _).trans (beside_setFlags _ _)) false n⟩

theorem shiftRm16_shifted {f : Word → Nat → Word → Word → Word × Word} {rule : Shift 16} {d : RM16}
    (hf : Computes f rule) (hm : s.mem.Wf) (hw : RmWritable d 2 s) (hl : s.pfx.lock = false) (hc : count.toNat % 32 ≠ 0) :
    ShiftedRm16 rule d (count.toNat % 32) n s (shiftRm16 f d count n s) := by
  rw [← maskedCount_eq] at hc ⊢
  exact ⟨_, _, shiftRm16_next hw hl hc, hf _ _ _ _, (putRm16_stored hm d _).congr rfl rfl rfl,
    retired_retire ((beside_putRm16 s d _).trans (beside_setFlags _ _)) false n⟩

/-! ### A count that is 0 modulo 32 -/

/-- A completed instruction of `n` bytes after its prefixes that left flags, registers and memory as they were. -/
def Unchanged (n : Nat) (s : State) (r : Result) : Prop :=
  ∃ t, r = .next t ∧ t.flags = s.flags ∧ t.regs = s.regs ∧ t.mem = s.mem ∧ Retired false n s t

theorem Rewritten.unchanged {t : State} (h : Rewritten s t) (n : Nat) : Unchanged n s (.next (t.retire false n)) := by
  obtain ⟨l, rfl, -⟩ := h
  have hbeside : Beside s { s with dirty := l } :=
    ⟨rfl, rfl, rfl, ⟨rfl, rfl, rfl, rfl, rfl, rfl, rfl, rfl, rfl, rfl, rfl, rfl, rfl⟩⟩
  exact ⟨_, rfl, rfl, rfl, rfl, retired_retire hbeside false n⟩

theorem shiftRm8_unchanged {f : Byte → Nat → Word → Word → Byte × Word} {d : RM8} (hw : RmWritable d 1 s)
    (hl : s.pfx.lock = false) (hc : count.toNat % 32 = 0) : Unchanged n s (shiftRm8 f d count n s) := by
  obtain ⟨t, ht, h⟩ := shiftRm8_zero (f := f) (n := n) hw hl ((maskedCount_eq count).trans hc)
  exact ht ▸ h.unchanged n

theorem shiftRm16_unchanged {f : Word → Nat → Word → Word → Word × Word} {d : RM16} (hw : RmWritable d 2 s)
    (hl : s.pfx.lock = false) (hc : count.toNat % 32 = 0) : Unchanged n s (shiftRm16 f d count n s) := by
  obtain ⟨t, ht, h⟩ := shiftRm16_zero (f := f) (n := n) hw hl ((maskedCount_eq count).trans hc)
  exact ht ▸ h.unchanged n

/-! ### The low five bits of the count -/

theorem maskedCount_low (b : Byte) : maskedCount (b &&& 0x1F#8) = maskedCount b := by
  rw [maskedCount, maskedCount, BitVec.and_assoc, BitVec.and_self]

theorem shiftRm8_low (f : Byte → Nat → Word → Word → Byte × Word) (d : RM8) (b : Byte) (n : Nat) (s : State) :
    shiftRm8 f d b n s = shiftRm8 f d (b &&& 0x1F#8) n s := by
  rw [shiftRm8, shiftRm8, maskedCount_low]

theorem shiftRm16_low (f : Word → Nat → Word → Word → Word × Word) (d : RM16) (b : Byte) (n : Nat) (s : State) :
    shiftRm16 f d b n s = shiftRm16 f d (b &&& 0x1F#8) n s := by
  rw [shiftRm16, shiftRm16, maskedCount_low]

/-! ### The forms on a byte -/

/-- The forms of one mnemonic on a byte, by 1, by CL and by an immediate, run one operation. -/
structure FormsRm8 (f : Byte → Nat → Word → Word → Byte × Word) (one cl : RM8 → Instr) (imm : RM8 → Byte → Instr) :
    Prop where
  one : ∀ d s, exec (one d) s = shiftRm8 f d 1#8 (1 + d.size) s
  cl : ∀ d s, exec (cl d) s = shiftRm8 f d (s.reg8 .cl) (1 + d.size) s
  imm : ∀ d b s, exec (imm d b) s = shiftRm8 f d b (2 + d.size) s

theorem rolRm8_forms : FormsRm8 rotateLeft .rolRm8One .rolRm8Cl .rolRm8Imm8 :=
  ⟨fun _ _ => rfl, fun _ _ => rfl, fun _ _ _ => rfl⟩
theorem rorRm8_forms : FormsRm8 rotateRight .rorRm8One .rorRm8Cl .rorRm8Imm8 :=
  ⟨fun _ _ => rfl, fun _ _ => rfl, fun _ _ _ => rfl⟩
theorem rclRm8_forms : FormsRm8 rotateCarryLeft .rclRm8One .rclRm8Cl .rclRm8Imm8 :=
  ⟨fun _ _ => rfl, fun _ _ => rfl, fun _ _ _ => rfl⟩
theorem rcrRm8_forms : FormsRm8 rotateCarryRight .rcrRm8One .rcrRm8Cl .rcrRm8Imm8 :=
  ⟨fun _ _ => rfl, fun _ _ => rfl, fun _ _ _ => rfl⟩
theorem shlRm8_forms : FormsRm8 shiftLeft .shlRm8One .shlRm8Cl .shlRm8Imm8 :=
  ⟨fun _ _ => rfl, fun _ _ => rfl, fun _ _ _ => rfl⟩
theorem shrRm8_forms : FormsRm8 shiftRight .shrRm8One .shrRm8Cl .shrRm8Imm8 :=
  ⟨fun _ _ => rfl, fun _ _ => rfl, fun _ _ _ => rfl⟩
theorem sarRm8_forms : FormsRm8 shiftArith .sarRm8One .sarRm8Cl .sarRm8Imm8 :=
  ⟨fun _ _ => rfl, fun _ _ => rfl, fun _ _ _ => rfl⟩

namespace FormsRm8
variable {f : Byte → Nat → Word → Word → Byte × Word} {one cl : RM8 → Instr} {imm : RM8 → Byte → Instr} {d : RM8}

theorem shifted {rule : Shift 8} (h : FormsRm8 f one cl imm) (hf : Computes f rule) (hm : s.mem.Wf)
    (hw : RmWritable d 1 s) (hl : s.pfx.lock = false) :
    ShiftedRm8 rule d 1 (1 + d.size) s (exec (one d) s) ∧
      ((s.reg8 .cl).toNat % 32 ≠ 0 →
        ShiftedRm8 rule d ((s.reg8 .cl).toNat % 32) (1 + d.size) s (exec (cl d) s)) ∧
      (b.toNat % 32 ≠ 0 → ShiftedRm8 rule d (b.toNat % 32) (2 + d.size) s (exec (imm d b) s)) := by
  rw [h.one, h.cl, h.imm]
  exact ⟨shiftRm8_shifted (count := 1#8) hf hm hw hl (by decide), shiftRm8_shifted hf hm hw hl,
    shiftRm8_shifted hf hm hw hl⟩

theorem cl_unchanged (h : FormsRm8 f one cl imm) (hw : RmWritable d 1 s) (hl : s.pfx.lock = false)
    (hc : (s.reg8 .cl).toNat % 32 = 0) : Unchanged (1 + d.size) s (exec (cl d) s) := by
  rw [h.cl]; exact shiftRm8_unchanged hw hl hc

theorem imm_unchanged (h : FormsRm8 f one cl imm) (hw : RmWritable d 1 s) (hl : s.pfx.lock = false)
    (hc : b.toNat % 32 = 0) : Unchanged (2 + d.size) s (exec (imm d b) s) := by
  rw [h.imm]; exact shiftRm8_unchanged hw hl hc

theorem imm_low (h : FormsRm8 f one cl imm) (d : RM8) (b : Byte) (s : State) :
    exec (imm d b) s = exec (imm d (b &&& 0x1F#8)) s := by
  rw [h.imm, h.imm]; exact shiftRm8_low f d b _ s

end FormsRm8

/-! ### The forms on a word -/

/-- The forms of one mnemonic on a word, by 1, by CL and by an immediate, run one operation. -/
structure FormsRm16 (f : Word → Nat → Word → Word → Word × Word) (one cl : RM16 → Instr) (imm : RM16 → Byte → Instr) :
    Prop where
  one : ∀ d s, exec (one d) s = shiftRm16 f d 1#8 (1 + d.size) s
  cl : ∀ d s, exec (cl d) s = shiftRm16 f d (s.reg8 .cl) (1 + d.size) s
  imm : ∀ d b s, exec (imm d b) s = shiftRm16 f d b (2 + d.size) s

theorem rolRm16_forms : FormsRm16 rotateLeft .rolRm16One .rolRm16Cl .rolRm16Imm8 :=
  ⟨fun _ _ => rfl, fun _ _ => rfl, fun _ _ _ => rfl⟩
theorem rorRm16_forms : FormsRm16 rotateRight .rorRm16One .rorRm16Cl .rorRm16Imm8 :=
  ⟨fun _ _ => rfl, fun _ _ => rfl, fun _ _ _ => rfl⟩
theorem rclRm16_forms : FormsRm16 rotateCarryLeft .rclRm16One .rclRm16Cl .rclRm16Imm8 :=
  ⟨fun _ _ => rfl, fun _ _ => rfl, fun _ _ _ => rfl⟩
theorem rcrRm16_forms : FormsRm16 rotateCarryRight .rcrRm16One .rcrRm16Cl .rcrRm16Imm8 :=
  ⟨fun _ _ => rfl, fun _ _ => rfl, fun _ _ _ => rfl⟩
theorem shlRm16_forms : FormsRm16 shiftLeft .shlRm16One .shlRm16Cl .shlRm16Imm8 :=
  ⟨fun _ _ => rfl, fun _ _ => rfl, fun _ _ _ => rfl⟩
theorem shrRm16_forms : FormsRm16 shiftRight .shrRm16One .shrRm16Cl .shrRm16Imm8 :=
  ⟨fun _ _ => rfl, fun _ _ => rfl, fun _ _ _ => rfl⟩
theorem sarRm16_forms : FormsRm16 shiftArith .sarRm16One .sarRm16Cl .sarRm16Imm8 :=
  ⟨fun _ _ => rfl, fun _ _ => rfl, fun _ _ _ => rfl⟩

namespace FormsRm16
variable {f : Word → Nat → Word → Word → Word × Word} {one cl : RM16 → Instr} {imm : RM16 → Byte → Instr} {d : RM16}

theorem shifted {rule : Shift 16} (h : FormsRm16 f one cl imm) (hf : Computes f rule) (hm : s.mem.Wf)
    (hw : RmWritable d 2 s) (hl : s.pfx.lock = false) :
    ShiftedRm16 rule d 1 (1 + d.size) s (exec (one d) s) ∧
      ((s.reg8 .cl).toNat % 32 ≠ 0 →
        ShiftedRm16 rule d ((s.reg8 .cl).toNat % 32) (1 + d.size) s (exec (cl d) s)) ∧
      (b.toNat % 32 ≠ 0 → ShiftedRm16 rule d (b.toNat % 32) (2 + d.size) s (exec (imm d b) s)) := by
  rw [h.one, h.cl, h.imm]
  exact ⟨shiftRm16_shifted (count := 1#8) hf hm hw hl (by decide), shiftRm16_shifted hf hm hw hl,
    shiftRm16_shifted hf hm hw hl⟩

theorem cl_unchanged (h : FormsRm16 f one cl imm) (hw : RmWritable d 2 s) (hl : s.pfx.lock = false)
    (hc : (s.reg8 .cl).toNat % 32 = 0) : Unchanged (1 + d.size) s (exec (cl d) s) := by
  rw [h.cl]; exact shiftRm16_unchanged hw hl hc

theorem imm_unchanged (h : FormsRm16 f one cl imm) (hw : RmWritable d 2 s) (hl : s.pfx.lock = false)
    (hc : b.toNat % 32 = 0) : Unchanged (2 + d.size) s (exec (imm d b) s) := by
  rw [h.imm]; exact shiftRm16_unchanged hw hl hc

theorem imm_low (h : FormsRm16 f one cl imm) (d : RM16) (b : Byte) (s : State) :
    exec (imm d b) s = exec (imm d (b &&& 0x1F#8)) s := by
  rw [h.imm, h.imm]; exact shiftRm16_low f d b _ s

end FormsRm16

/-! ### SHLD and SHRD -/

/-- The forms of SHLD or SHRD, by an immediate and by CL, run one operation. -/
structure DoubleForms (f : Word → Word → Nat → Word → Word → Word → Word × Word) (imm : RM16 → Reg16 → Byte → Instr)
    (cl : RM16 → Reg16 → Instr) : Prop where
  imm : ∀ d r b s, exec (imm d r b) s = doubleShift f d r b (3 + d.size) s
  cl : ∀ d r s, exec (cl d r) s = doubleShift f d r (s.reg8 .cl) (2 + d.size) s

theorem shld_forms : DoubleForms doubleLeft .shldRm16R16Imm8 .shldRm16R16Cl := ⟨fun _ _ _ _ => rfl, fun _ _ _ => rfl⟩
theorem shrd_forms : DoubleForms doubleRight .shrdRm16R16Imm8 .shrdRm16R16Cl := ⟨fun _ _ _ _ => rfl, fun _ _ _ => rfl⟩

namespace DoubleForms
variable {f : Word → Word → Nat → Word → Word → Word → Word × Word} {imm : RM16 → Reg16 → Byte → Instr}
  {cl : RM16 → Reg16 → Instr} {d : RM16} {r : Reg16}

/-- With the register's value fixed, the operation is one of a shift of a word. -/
theorem shifted {rule : Word → Shift 16} (h : DoubleForms f imm cl)
    (hf : ∀ x res, Computes (fun v c fl free => f v x c fl free res) (rule x)) (hm : s.mem.Wf) (hw : RmWritable d 2 s)
    (hl : s.pfx.lock = false) :
    (b.toNat % 32 ≠ 0 → ShiftedRm16 (rule (s.reg16 r)) d (b.toNat % 32) (3 + d.size) s (exec (imm d r b) s)) ∧
      ((s.reg8 .cl).toNat % 32 ≠ 0 →
        ShiftedRm16 (rule (s.reg16 r)) d ((s.reg8 .cl).toNat % 32) (2 + d.size) s (exec (cl d r) s)) := by
  rw [h.imm, h.cl]
  exact ⟨shiftRm16_shifted (hf _ _) hm hw hl, shiftRm16_shifted (hf _ _) hm hw hl⟩

theorem cl_unchanged (h : DoubleForms f imm cl) (hw : RmWritable d 2 s) (hl : s.pfx.lock = false)
    (hc : (s.reg8 .cl).toNat % 32 = 0) : Unchanged (2 + d.size) s (exec (cl d r) s) := by
  rw [h.cl]; exact shiftRm16_unchanged hw hl hc

theorem imm_unchanged (h : DoubleForms f imm cl) (hw : RmWritable d 2 s) (hl : s.pfx.lock = false)
    (hc : b.toNat % 32 = 0) : Unchanged (3 + d.size) s (exec (imm d r b) s) := by
  rw [h.imm]; exact shiftRm16_unchanged hw hl hc

theorem imm_low (h : DoubleForms f imm cl) (d : RM16) (r : Reg16) (b : Byte) (s : State) :
    exec (imm d r b) s = exec (imm d r (b &&& 0x1F#8)) s := by
  rw [h.imm, h.imm]; exact shiftRm16_low _ d b _ s

end DoubleForms

end

/-! ### The statements -/

/-- Settles O30: each mnemonic's forms run its own operation, which keeps its rule. -/
theorem shiftsRm8 : Obligations.ShiftsRm8 := by
  intro p hmem d b s hm hw hl
  simp only [List.mem_cons, List.not_mem_nil, or_false] at hmem
  rcases hmem with rfl | rfl | rfl | rfl | rfl | rfl | rfl
  · exact rolRm8_forms.shifted (rotateLeft_isRol (by decide)) hm hw hl
  · exact rorRm8_forms.shifted (rotateRight_isRor (by decide)) hm hw hl
  · exact rclRm8_forms.shifted (rotateCarryLeft_isRcl (by decide)) hm hw hl
  · exact rcrRm8_forms.shifted (rotateCarryRight_isRcr (by decide)) hm hw hl
  · exact shlRm8_forms.shifted (shiftLeft_isShl (by decide)) hm hw hl
  · exact shrRm8_forms.shifted (shiftRight_isShr (by decide)) hm hw hl
  · exact sarRm8_forms.shifted (shiftArith_isSar (by decide)) hm hw hl

/-- Settles O31: as for bytes, with the same operations at the width of a word. -/
theorem shiftsRm16 : Obligations.ShiftsRm16 := by
  intro p hmem d b s hm hw hl
  simp only [List.mem_cons, List.not_mem_nil, or_false] at hmem
  rcases hmem with rfl | rfl | rfl | rfl | rfl | rfl | rfl
  · exact rolRm16_forms.shifted (rotateLeft_isRol (by decide)) hm hw hl
  · exact rorRm16_forms.shifted (rotateRight_isRor (by decide)) hm hw hl
  · exact rclRm16_forms.shifted (rotateCarryLeft_isRcl (by decide)) hm hw hl
  · exact rcrRm16_forms.shifted (rotateCarryRight_isRcr (by decide)) hm hw hl
  · exact shlRm16_forms.shifted (shiftLeft_isShl (by decide)) hm hw hl
  · exact shrRm16_forms.shifted (shiftRight_isShr (by decide)) hm hw hl
  · exact sarRm16_forms.shifted (shiftArith_isSar (by decide)) hm hw hl

/-- Settles O32: SHLD and SHRD are shifts of a word whose operation takes bits from a register that is only read. -/
theorem doubleShifts : Obligations.DoubleShifts := by
  intro p hmem d r b s hm hw hl
  simp only [List.mem_cons, List.not_mem_nil, or_false] at hmem
  rcases hmem with rfl | rfl
  · exact shld_forms.shifted (rule := fun x v => IsShld v x)
      (fun x res v c fl free => doubleLeft_isShld v x c fl free res) hm hw hl
  · exact shrd_forms.shifted (rule := fun x v => IsShrd v x)
      (fun x res v c fl free => doubleRight_isShrd v x c fl free res) hm hw hl

/-- Settles O33: a shape of shift that is given a masked count of 0 does not run its operation. -/
theorem shiftByZeroChangesNothing : Obligations.ShiftByZeroChangesNothing := by
  intro d e r b s hl
  refine ⟨fun hw hc i hmem => ?_, fun hw hc i hmem => ?_, fun hw hc p hmem => ?_, fun hw hc p hmem => ?_⟩ <;>
    simp only [List.mem_cons, List.not_mem_nil, or_false] at hmem
  · rcases hmem with rfl | rfl | rfl | rfl | rfl | rfl | rfl
    exacts [rolRm8_forms.imm_unchanged hw hl hc, rorRm8_forms.imm_unchanged hw hl hc,
      rclRm8_forms.imm_unchanged hw hl hc, rcrRm8_forms.imm_unchanged hw hl hc, shlRm8_forms.imm_unchanged hw hl hc,
      shrRm8_forms.imm_unchanged hw hl hc, sarRm8_forms.imm_unchanged hw hl hc]
  · rcases hmem with rfl | rfl | rfl | rfl | rfl | rfl | rfl
    exacts [rolRm8_forms.cl_unchanged hw hl hc, rorRm8_forms.cl_unchanged hw hl hc,
      rclRm8_forms.cl_unchanged hw hl hc, rcrRm8_forms.cl_unchanged hw hl hc, shlRm8_forms.cl_unchanged hw hl hc,
      shrRm8_forms.cl_unchanged hw hl hc, sarRm8_forms.cl_unchanged hw hl hc]
  · rcases hmem with rfl | rfl | rfl | rfl | rfl | rfl | rfl | rfl | rfl
    exacts [rolRm16_forms.imm_unchanged hw hl hc, rorRm16_forms.imm_unchanged hw hl hc,
      rclRm16_forms.imm_unchanged hw hl hc, rcrRm16_forms.imm_unchanged hw hl hc,
      shlRm16_forms.imm_unchanged hw hl hc, shrRm16_forms.imm_unchanged hw hl hc,
      sarRm16_forms.imm_unchanged hw hl hc, shld_forms.imm_unchanged hw hl hc, shrd_forms.imm_unchanged hw hl hc]
  · rcases hmem with rfl | rfl | rfl | rfl | rfl | rfl | rfl | rfl | rfl
    exacts [rolRm16_forms.cl_unchanged hw hl hc, rorRm16_forms.cl_unchanged hw hl hc,
      rclRm16_forms.cl_unchanged hw hl hc, rcrRm16_forms.cl_unchanged hw hl hc, shlRm16_forms.cl_unchanged hw hl hc,
      shrRm16_forms.cl_unchanged hw hl hc, sarRm16_forms.cl_unchanged hw hl hc, shld_forms.cl_unchanged hw hl hc,
      shrd_forms.cl_unchanged hw hl hc]

/-- Settles O34: the count is read through its mask alone, and no form's length depends on it. -/
theorem shiftCountIsMaskedToFiveBits : Obligations.ShiftCountIsMaskedToFiveBits := by
  refine ⟨fun i hmem => ?_, fun i hmem => ?_, fun i hmem => ?_⟩ <;>
    simp only [List.mem_cons, List.not_mem_nil, or_false] at hmem
  · rcases hmem with rfl | rfl | rfl | rfl | rfl | rfl | rfl
    exacts [rolRm8_forms.imm_low, rorRm8_forms.imm_low, rclRm8_forms.imm_low, rcrRm8_forms.imm_low,
      shlRm8_forms.imm_low, shrRm8_forms.imm_low, sarRm8_forms.imm_low]
  · rcases hmem with rfl | rfl | rfl | rfl | rfl | rfl | rfl
    exacts [rolRm16_forms.imm_low, rorRm16_forms.imm_low, rclRm16_forms.imm_low, rcrRm16_forms.imm_low,
      shlRm16_forms.imm_low, shrRm16_forms.imm_low, sarRm16_forms.imm_low]
  · rcases hmem with rfl | rfl
    exacts [shld_forms.imm_low, shrd_forms.imm_low]

end Sys2Proof.Machine
end

section
/-! Two-operand and one-operand arithmetic and logic (R158 to R169): every form is one shape of meaning, run with the
operation of its mnemonic, which keeps the mnemonic's rule whatever values are free. -/

namespace Sys2Proof.Machine
open Sys2Proof

/-- An operation on one operand answers the result and the flags its rule asks for. -/
def ComputesUnary {w : Nat} (f : BitVec w → Word → Word → BitVec w × Word) (rule : Unary w) : Prop :=
  ∀ a fl free, rule a fl (f a fl free).1 (f a fl free).2

/-- An operation on a destination and a source answers the result and the flags its rule asks for. -/
def ComputesBinary {w : Nat} (f : BitVec w → BitVec w → Word → Word → BitVec w × Word) (rule : Binary w) : Prop :=
  ∀ a b fl free, rule a b fl (f a b fl free).1 (f a b fl free).2

/-- With its source fixed, an operation on two operands is one on the destination. -/
theorem ComputesBinary.withSource {w : Nat} {f : BitVec w → BitVec w → Word → Word → BitVec w × Word} {rule : Binary w}
    (hf : ComputesBinary f rule) (b : BitVec w) : ComputesUnary (fun a => f a b) (fun a => rule a b) :=
  fun a => hf a b

theorem aluAdd_computes (w : Nat) : ComputesBinary (w := w) aluAdd IsAdd := aluAdd_isAdd
theorem aluOr_computes (w : Nat) : ComputesBinary (w := w) aluOr IsOr := aluOr_isOr
theorem aluAdc_computes (w : Nat) : ComputesBinary (w := w) aluAdc IsAdc := aluAdc_isAdc
theorem aluSbb_computes (w : Nat) : ComputesBinary (w := w) aluSbb IsSbb := aluSbb_isSbb
theorem aluAnd_computes (w : Nat) : ComputesBinary (w := w) aluAnd IsAnd := aluAnd_isAnd
theorem aluSub_computes (w : Nat) : ComputesBinary (w := w) aluSub IsSub := aluSub_isSub
theorem aluXor_computes (w : Nat) : ComputesBinary (w := w) aluXor IsXor := aluXor_isXor
theorem aluInc_computes (w : Nat) : ComputesUnary (w := w) aluInc IsInc := aluInc_isInc
theorem aluDec_computes (w : Nat) : ComputesUnary (w := w) aluDec IsDec := aluDec_isDec
theorem aluNot_computes (w : Nat) : ComputesUnary (w := w) aluNot IsNot := aluNot_isNot
theorem aluNeg_computes (w : Nat) : ComputesUnary (w := w) aluNeg IsNeg := aluNeg_isNeg

section
variable {s : State} {n : Nat}

theorem lockLegal_of_noLock {ρ : Type} {d : RM ρ} (hl : s.pfx.lock = false) : LockLegal d s := fun h => by
  rw [hl] at h
  cases h

/-! ### The shapes on a byte -/

/-- A completed instruction of `n` bytes after its prefixes that put into `d` a value which `rule` allows with the new
FLAGS. -/
def Computed8 (rule : Byte → Word → Prop) (d : RM8) (locked : Bool) (n : Nat) (s : State) (r : Result) : Prop :=
  ∃ t v, r = .next t ∧ rule v t.flags ∧ Stored8 d v s t ∧ Retired locked n s t

theorem ComputesUnary.modifyRm8_computed {f : Byte → Word → Word → Byte × Word} {rule : Unary 8} {d : RM8}
    (hf : ComputesUnary f rule) (hm : s.mem.Wf) (hw : RmWritable d 1 s) (hl : LockLegal d s) :
    Computed8 (rule (valueRm8 d s) s.flags) d s.pfx.lock n s (modifyRm8 d f n s) :=
  ⟨_, _, modifyRm8_next hw hl, hf _ _ _, (putRm8_stored hm d _).congr rfl rfl rfl,
    retired_retire (beside_putRm8_setFlags ..) _ n⟩

/-- A register is changed without LOCK, and memory need not be in canonical form. -/
theorem ComputesUnary.modifyReg8_computed {f : Byte → Word → Word → Byte × Word} {rule : Unary 8} {r : Reg8}
    (hf : ComputesUnary f rule) (hl : s.pfx.lock = false) :
    Computed8 (rule (s.reg8 r) s.flags) (.reg r) false n s (modifyRm8 (.reg r) f n s) :=
  hl ▸ ⟨_, _, modifyRm8_next trivial (lockLegal_of_noLock hl), hf _ _ _, ⟨rfl, fun _ => rfl, rfl⟩,
    retired_retire (beside_putRm8_setFlags ..) _ n⟩

theorem ComputesBinary.combineReg8_computed {f : Byte → Byte → Word → Word → Byte × Word} {rule : Binary 8} {r : Reg8}
    {d : RM8} (hf : ComputesBinary f rule) (hr : RmReadable d 1 s) (hl : s.pfx.lock = false) :
    Computed8 (rule (s.reg8 r) (valueRm8 d s) s.flags) (.reg r) false n s (combineReg8 r d f n s) :=
  ⟨_, _, combineReg8_next hr hl, hf _ _ _ _, ⟨rfl, fun _ => rfl, rfl⟩,
    retired_retire ((beside_setReg8 ..).trans (beside_setFlags ..)) _ n⟩

/-- The two forms of a mnemonic with an immediate byte, for AL and for an `r/m` operand. -/
theorem ComputesBinary.immediate8 {f : Byte → Byte → Word → Word → Byte × Word} {rule : Binary 8} {d : RM8} {b : Byte}
    (hf : ComputesBinary f rule) :
    (s.pfx.lock = false →
      Computed8 (rule (s.reg8 .al) b s.flags) (.reg .al) false 2 s (modifyRm8 (.reg .al) (fun a => f a b) 2 s)) ∧
    (s.mem.Wf → RmWritable d 1 s → LockLegal d s →
      Computed8 (rule (valueRm8 d s) b s.flags) d s.pfx.lock (2 + d.size) s
        (modifyRm8 d (fun a => f a b) (2 + d.size) s)) :=
  ⟨(hf.withSource b).modifyReg8_computed, (hf.withSource b).modifyRm8_computed⟩

/-! ### The shapes on a word -/

/-- As `Computed8`, for an operand of a word. -/
def Computed16 (rule : Word → Word → Prop) (d : RM16) (locked : Bool) (n : Nat) (s : State) (r : Result) : Prop :=
  ∃ t v, r = .next t ∧ rule v t.flags ∧ Stored16 d v s t ∧ Retired locked n s t

theorem ComputesUnary.modifyRm16_computed {f : Word → Word → Word → Word × Word} {rule : Unary 16} {d : RM16}
    (hf : ComputesUnary f rule) (hm : s.mem.Wf) (hw : RmWritable d 2 s) (hl : LockLegal d s) :
    Computed16 (rule (valueRm16 d s) s.flags) d s.pfx.lock n s (modifyRm16 d f n s) :=
  ⟨_, _, modifyRm16_next hw hl, hf _ _ _, (putRm16_stored hm d _).congr rfl rfl rfl,
    retired_retire (beside_putRm16_setFlags ..) _ n⟩

theorem ComputesUnary.modifyReg16_computed {f : Word → Word → Word → Word × Word} {rule : Unary 16} {r : Reg16}
    (hf : ComputesUnary f rule) (hl : s.pfx.lock = false) :
    Computed16 (rule (s.reg16 r) s.flags) (.reg r) false n s (modifyRm16 (.reg r) f n s) :=
  hl ▸ ⟨_, _, modifyRm16_next trivial (lockLegal_of_noLock hl), hf _ _ _, ⟨rfl, fun _ => rfl, rfl⟩,
    retired_retire (beside_putRm16_setFlags ..) _ n⟩

theorem ComputesBinary.combineReg16_computed {f : Word → Word → Word → Word → Word × Word} {rule : Binary 16}
    {r : Reg16} {d : RM16} (hf : ComputesBinary f rule) (hr : RmReadable d 2 s) (hl : s.pfx.lock = false) :
    Computed16 (rule (s.reg16 r) (valueRm16 d s) s.flags) (.reg r) false n s (combineReg16 r d f n s) :=
  ⟨_, _, combineReg16_next hr hl, hf _ _ _ _, ⟨rfl, fun _ => rfl, rfl⟩,
    retired_retire ((beside_setReg16 ..).trans (beside_setFlags ..)) _ n⟩

/-- The three forms of a mnemonic with an immediate: a word for AX, a word and a sign-extended byte for an `r/m`
operand (R76). -/
theorem ComputesBinary.immediate16 {f : Word → Word → Word → Word → Word × Word} {rule : Binary 16} {d : RM16}
    {w : Word} {b : Byte} (hf : ComputesBinary f rule) :
    (s.pfx.lock = false →
      Computed16 (rule (s.reg16 .ax) w s.flags) (.reg .ax) false 3 s (modifyRm16 (.reg .ax) (fun a => f a w) 3 s)) ∧
    (s.mem.Wf → RmWritable d 2 s → LockLegal d s →
      Computed16 (rule (valueRm16 d s) w s.flags) d s.pfx.lock (3 + d.size) s
        (modifyRm16 d (fun a => f a w) (3 + d.size) s) ∧
      Computed16 (rule (valueRm16 d s) (b.signExtend 16) s.flags) d s.pfx.lock (2 + d.size) s
        (modifyRm16 d (fun a => f a (b.signExtend 16)) (2 + d.size) s)) :=
  ⟨(hf.withSource w).modifyReg16_computed,
    fun hm hw hl => ⟨(hf.withSource w).modifyRm16_computed hm hw hl, (hf.withSource _).modifyRm16_computed hm hw hl⟩⟩

end

/-! ### The statements -/

/-- Settles O9: each mnemonic is a modification of its operand by its own operation, whose source is the register. -/
theorem aluRm8R8 : Obligations.AluRm8R8 := by
  intro p hmem d r s hm hw hl
  simp only [List.mem_cons, List.not_mem_nil, or_false] at hmem
  rcases hmem with rfl | rfl | rfl | rfl | rfl | rfl | rfl
  · exact ((aluAdd_computes 8).withSource _).modifyRm8_computed hm hw hl
  · exact ((aluOr_computes 8).withSource _).modifyRm8_computed hm hw hl
  · exact ((aluAdc_computes 8).withSource _).modifyRm8_computed hm hw hl
  · exact ((aluSbb_computes 8).withSource _).modifyRm8_computed hm hw hl
  · exact ((aluAnd_computes 8).withSource _).modifyRm8_computed hm hw hl
  · exact ((aluSub_computes 8).withSource _).modifyRm8_computed hm hw hl
  · exact ((aluXor_computes 8).withSource _).modifyRm8_computed hm hw hl

/-- Settles O10: as for bytes, with the same operations at the width of a word. -/
theorem aluRm16R16 : Obligations.AluRm16R16 := by
  intro p hmem d r s hm hw hl
  simp only [List.mem_cons, List.not_mem_nil, or_false] at hmem
  rcases hmem with rfl | rfl | rfl | rfl | rfl | rfl | rfl
  · exact ((aluAdd_computes 16).withSource _).modifyRm16_computed hm hw hl
  · exact ((aluOr_computes 16).withSource _).modifyRm16_computed hm hw hl
  · exact ((aluAdc_computes 16).withSource _).modifyRm16_computed hm hw hl
  · exact ((aluSbb_computes 16).withSource _).modifyRm16_computed hm hw hl
  · exact ((aluAnd_computes 16).withSource _).modifyRm16_computed hm hw hl
  · exact ((aluSub_computes 16).withSource _).modifyRm16_computed hm hw hl
  · exact ((aluXor_computes 16).withSource _).modifyRm16_computed hm hw hl

/-- Settles O11: the operation's destination is the register, and its source the operand, which is only read. -/
theorem aluRegisterDestination : Obligations.AluRegisterDestination := by
  constructor <;> intro p hmem d r s hr hl <;> simp only [List.mem_cons, List.not_mem_nil, or_false] at hmem
  · rcases hmem with rfl | rfl | rfl | rfl | rfl | rfl | rfl
    · exact (aluAdd_computes 8).combineReg8_computed hr hl
    · exact (aluOr_computes 8).combineReg8_computed hr hl
    · exact (aluAdc_computes 8).combineReg8_computed hr hl
    · exact (aluSbb_computes 8).combineReg8_computed hr hl
    · exact (aluAnd_computes 8).combineReg8_computed hr hl
    · exact (aluSub_computes 8).combineReg8_computed hr hl
    · exact (aluXor_computes 8).combineReg8_computed hr hl
  · rcases hmem with rfl | rfl | rfl | rfl | rfl | rfl | rfl
    · exact (aluAdd_computes 16).combineReg16_computed hr hl
    · exact (aluOr_computes 16).combineReg16_computed hr hl
    · exact (aluAdc_computes 16).combineReg16_computed hr hl
    · exact (aluSbb_computes 16).combineReg16_computed hr hl
    · exact (aluAnd_computes 16).combineReg16_computed hr hl
    · exact (aluSub_computes 16).combineReg16_computed hr hl
    · exact (aluXor_computes 16).combineReg16_computed hr hl

/-- Settles O12: the operation's source is the immediate byte. -/
theorem aluImm8 : Obligations.AluImm8 := by
  intro p hmem d b s
  simp only [List.mem_cons, List.not_mem_nil, or_false] at hmem
  rcases hmem with rfl | rfl | rfl | rfl | rfl | rfl | rfl
  · exact (aluAdd_computes 8).immediate8
  · exact (aluOr_computes 8).immediate8
  · exact (aluAdc_computes 8).immediate8
  · exact (aluSbb_computes 8).immediate8
  · exact (aluAnd_computes 8).immediate8
  · exact (aluSub_computes 8).immediate8
  · exact (aluXor_computes 8).immediate8

/-- Settles O13: the operation's source is the immediate word, or the immediate byte with its sign extended. -/
theorem aluImm16 : Obligations.AluImm16 := by
  intro p hmem d w b s
  simp only [List.mem_cons, List.not_mem_nil, or_false] at hmem
  rcases hmem with rfl | rfl | rfl | rfl | rfl | rfl | rfl
  · exact (aluAdd_computes 16).immediate16
  · exact (aluOr_computes 16).immediate16
  · exact (aluAdc_computes 16).immediate16
  · exact (aluSbb_computes 16).immediate16
  · exact (aluAnd_computes 16).immediate16
  · exact (aluSub_computes 16).immediate16
  · exact (aluXor_computes 16).immediate16

/-- Settles O14: the same shape, with an operation on one operand. -/
theorem unaryRm8 : Obligations.UnaryRm8 := by
  intro p hmem d s hm hw hl
  simp only [List.mem_cons, List.not_mem_nil, or_false] at hmem
  rcases hmem with rfl | rfl | rfl | rfl
  · exact (aluInc_computes 8).modifyRm8_computed hm hw hl
  · exact (aluDec_computes 8).modifyRm8_computed hm hw hl
  · exact (aluNot_computes 8).modifyRm8_computed hm hw hl
  · exact (aluNeg_computes 8).modifyRm8_computed hm hw hl

/-- Settles O15: as for bytes; the one-byte INC and DEC change a register by the same operations. -/
theorem unaryRm16 : Obligations.UnaryRm16 := by
  constructor
  · intro p hmem d s hm hw hl
    simp only [List.mem_cons, List.not_mem_nil, or_false] at hmem
    rcases hmem with rfl | rfl | rfl | rfl
    · exact (aluInc_computes 16).modifyRm16_computed hm hw hl
    · exact (aluDec_computes 16).modifyRm16_computed hm hw hl
    · exact (aluNot_computes 16).modifyRm16_computed hm hw hl
    · exact (aluNeg_computes 16).modifyRm16_computed hm hw hl
  · intro p hmem r s hl
    simp only [List.mem_cons, List.not_mem_nil, or_false] at hmem
    rcases hmem with rfl | rfl
    · exact (aluInc_computes 16).modifyReg16_computed hl
    · exact (aluDec_computes 16).modifyReg16_computed hl

end Sys2Proof.Machine
end

section
/-! BTS, BTR, BTC (R155 to R157): which bit changes, in a register or in the word of memory that the bit offset
selects. -/

namespace Sys2Proof.Machine
open Sys2Proof

/-! ### The bit and the flags -/

/-- An operation on one bit of a word replaces it by `g` of it and leaves every other bit. -/
def ChangesBit (f : Word → Nat → Word) (g : Bool → Bool) : Prop :=
  ∀ v n, ∀ i < 16, (f v n).getLsbD i = if i = n then g (v.getLsbD i) else v.getLsbD i

theorem getLsbD_setBit_word (v : Word) (n : Nat) (b : Bool) {i : Nat} (hi : i < 16) :
    (setBit v n b).getLsbD i = if i = n then b else v.getLsbD i := by
  rw [getLsbD_setBit]
  simp [hi, eq_comm]

theorem bitSet_changesBit : ChangesBit bitSet fun _ => true := fun v n _ hi => getLsbD_setBit_word v n true hi

theorem bitReset_changesBit : ChangesBit bitReset fun _ => false := fun v n _ hi => getLsbD_setBit_word v n false hi

theorem bitComplement_changesBit : ChangesBit bitComplement fun x => !x := by
  intro v n i hi
  rw [bitComplement, getLsbD_setBit_word v n _ hi]
  split
  · next h => rw [h]
  · rfl

/-- With its flags, such an operation is a bit test. -/
theorem ChangesBit.isBitTest {f : Word → Nat → Word} {g : Bool → Bool} (h : ChangesBit f g) (v : Word) (n : Nat)
    (fl free : Word) : IsBitTest g n v (f v n) fl (bitFlags (v.getLsbD n) fl free) :=
  ⟨h v n, getFlag_setFlag_same .cf _ _, (onlyFlags_drawArith free fl).of_setFlag .cf _ (by simp [arithFlags])⟩

section
variable {f : Word → Nat → Word} {g : Bool → Bool} {s : State} {n : Nat}

/-! ### A bit of a register -/

/-- A completed bit test of bit `i` of a register, with `n` bytes after its prefixes. -/
def BitTestedReg (g : Bool → Bool) (i : Nat) (q : Reg16) (n : Nat) (s : State) (r : Result) : Prop :=
  ∃ t v, r = .next t ∧ IsBitTest g i (s.reg16 q) v s.flags t.flags ∧ Stored16 (.reg q) v s t ∧ Retired false n s t

theorem ChangesBit.bitTestIn_tested (h : ChangesBit f g) (q : Reg16) (i n : Nat) (hl : s.pfx.lock = false) :
    BitTestedReg g i q n s (.next (bitTestIn f q i n s)) := by
  have hret : Retired s.pfx.lock n s (bitTestIn f q i n s) :=
    retired_retire ((beside_setReg16 ..).trans (beside_setFlags ..)) _ n
  rw [hl] at hret
  exact ⟨_, _, rfl, h.isBitTest _ i s.flags s.freeFlags, ⟨rfl, fun _ => rfl, rfl⟩, hret⟩

theorem bitTestReg_reg (q : Reg16) (k : Word) (hl : s.pfx.lock = false) :
    bitTestReg f (.reg q) k n s = .next (bitTestIn f q (k.toNat % 16) n s) := by
  simp [bitTestReg, noLock_check _ hl]

theorem bitTestImm_reg (q : Reg16) (k : Byte) (hl : s.pfx.lock = false) :
    bitTestImm f (.reg q) k n s = .next (bitTestIn f q (k.toNat % 16) n s) := by
  simp [bitTestImm, noLock_check _ hl]

/-- The two forms of a mnemonic on a register, with the bit offset in a register and in an immediate. -/
theorem ChangesBit.register (h : ChangesBit f g) (q : Reg16) (k : Word) (b : Byte) (hl : s.pfx.lock = false) :
    BitTestedReg g (k.toNat % 16) q 3 s (bitTestReg f (.reg q) k 3 s) ∧
      BitTestedReg g (b.toNat % 16) q 4 s (bitTestImm f (.reg q) b 4 s) := by
  rw [bitTestReg_reg q k hl, bitTestImm_reg q b hl]
  exact ⟨h.bitTestIn_tested q _ 3 hl, h.bitTestIn_tested q _ 4 hl⟩

/-! ### A bit of memory -/

/-- A completed bit test of bit `i` of the word at `a`, with `n` bytes after its prefixes. -/
def BitTestedAt (g : Bool → Bool) (i a n : Nat) (s : State) (r : Result) : Prop :=
  ∃ t v, r = .next t ∧ IsBitTest g i (wordAt s a) v s.flags t.flags ∧ t.regs = s.regs ∧ wordAt t a = v ∧
    StoredAt a 2 s t ∧ Retired s.pfx.lock n s t

theorem bitTestReg_mem (m : Mem) (k : Word) : bitTestReg f (.mem m) k n s = complete s (checkLock true s >>= fun _ =>
    bitTestAt f (operandSeg s m) (bitWordOffset s m k) (k.toNat % 16) n s) := rfl

theorem bitTestImm_mem (m : Mem) (k : Byte) : bitTestImm f (.mem m) k n s = complete s (checkLock true s >>= fun _ =>
    bitTestAt f (operandSeg s m) (effectiveOffset s m) (k.toNat % 16) n s) := rfl

/-- LOCK is legal, and the word that the offset selects can be written. -/
theorem ChangesBit.bitTestAt_tested (h : ChangesBit f g) {sg : Seg} {off : Word} (i n : Nat) (hm : s.mem.Wf)
    (hc : crosses off 2 = false) (h0 : RamByte s (s.lin sg off)) (h1 : RamByte s (s.lin sg off + 1)) :
    BitTestedAt g i (s.lin sg off) n s (complete s (checkLock true s >>= fun _ => bitTestAt f sg off i n s)) := by
  rw [checkLock_legal fun _ => rfl, ok_bind, bitTestAt_ram hc h0 h1]
  exact ⟨_, _, rfl, h.isBitTest _ i s.flags s.freeFlags, rfl, setWord_wordAt hm, storedAt_setWord ..,
    retired_retire ((beside_setWord ..).trans (beside_setFlags ..)) _ n⟩

/-! ### The word that a bit offset in a register selects -/

/-- The floor of a quotient by 16 is what an arithmetic shift by 4 leaves. -/
theorem bitWordOffset_eq (s : State) (m : Mem) (k : Word) :
    bitWordOffset s m k = BitVec.ofInt 16 ((effectiveOffset s m).toNat + 2 * (k.toInt / 16)) := by
  have hk : BitVec.ofInt 16 (k.toInt / 16) = k.sshiftRight 4 := by
    rw [← BitVec.ofInt_toInt (x := k.sshiftRight 4), BitVec.toInt_sshiftRight, Int.shiftRight_eq_div_pow]
    rfl
  rw [BitVec.ofInt_add, BitVec.ofInt_mul, hk, BitVec.ofInt_natCast, BitVec.ofNat_toNat, BitVec.setWidth_eq]
  rfl

/-- A word and the signed number it stands for have the same remainder by 16. -/
theorem toInt_emod_sixteen (k : Word) : (k.toInt % 16).toNat = k.toNat % 16 := by
  have hk := k.isLt
  rw [BitVec.toInt_eq_toNat_cond]
  split <;> omega

/-- The two forms of a mnemonic on memory, with the bit offset in an immediate and in a register. -/
theorem ChangesBit.memory (h : ChangesBit f g) (m : Mem) (r : Reg16) (b : Byte) (hm : s.mem.Wf) :
    (MemWritable m 2 s →
      ∃ t v, bitTestImm f (.mem m) b (3 + m.size) s = .next t ∧
        IsBitTest g (b.toNat % 16) (wordAt s (operandAddr s m)) v s.flags t.flags ∧ Stored16 (.mem m) v s t ∧
        Retired s.pfx.lock (3 + m.size) s t) ∧
    bitWordOffset s m (s.reg16 r) = BitVec.ofInt 16 ((effectiveOffset s m).toNat + 2 * ((s.reg16 r).toInt / 16)) ∧
    ∀ a, a = s.lin (operandSeg s m) (bitWordOffset s m (s.reg16 r)) →
      crosses (bitWordOffset s m (s.reg16 r)) 2 = false → RamByte s a → RamByte s (a + 1) →
      BitTestedAt g ((s.reg16 r).toInt % 16).toNat a (2 + m.size) s
        (bitTestReg f (.mem m) (s.reg16 r) (2 + m.size) s) := by
  refine ⟨fun hw => ?_, bitWordOffset_eq .., ?_⟩
  · obtain ⟨hc, hram⟩ := hw
    have h0 : RamByte s (operandAddr s m) := hram 0 Nat.two_pos
    obtain ⟨t, v, ht, hbit, hregs, hword, hstored, hret⟩ :=
      h.bitTestAt_tested (sg := operandSeg s m) (b.toNat % 16) (3 + m.size) hm hc h0 (hram 1 Nat.one_lt_two)
    exact ⟨t, v, (bitTestImm_mem m b).trans ht, hbit, ⟨hregs, hword, hstored⟩, hret⟩
  · rintro a rfl hc h0 h1
    rw [toInt_emod_sixteen, bitTestReg_mem]
    exact h.bitTestAt_tested _ (2 + m.size) hm hc h0 h1

end

/-! ### The statements -/

/-- Settles O35: each mnemonic changes the tested bit by its own function. -/
theorem bitTestOfRegister : Obligations.BitTestOfRegister := by
  intro p hmem q r b s hl
  simp only [List.mem_cons, List.not_mem_nil, or_false] at hmem
  rcases hmem with rfl | rfl | rfl
  · exact bitSet_changesBit.register q (s.reg16 r) b hl
  · exact bitReset_changesBit.register q (s.reg16 r) b hl
  · exact bitComplement_changesBit.register q (s.reg16 r) b hl

/-- Settles O36: as for a register, in the word of memory that the offset selects. -/
theorem bitTestOfMemory : Obligations.BitTestOfMemory := by
  intro p hmem m r b s hm
  simp only [List.mem_cons, List.not_mem_nil, or_false] at hmem
  rcases hmem with rfl | rfl | rfl
  · exact bitSet_changesBit.memory m r b hm
  · exact bitReset_changesBit.memory m r b hm
  · exact bitComplement_changesBit.memory m r b hm

end Sys2Proof.Machine
end

section
/-! What an exception keeps of the prefixes: nothing. The entry that it takes is the same whichever prefixes were read
(R228, R229), and so is an XCHG with memory, whichever way LOCK is (R153). -/

namespace Sys2Proof.Machine
open Sys2Proof

variable {s : State} {p : Prefixes}

/-! ### Stores and pushes -/

theorem storeByte_withPrefixes (a : Nat) (v : Byte) (s : State) (p : Prefixes) :
    storeByte a v (s.withPrefixes p) = (storeByte a v s).map fun t => t.withPrefixes p := by
  have hcheck : checkWritable (s.withPrefixes p) a = checkWritable s a := rfl
  rw [storeByte, storeByte, hcheck]
  cases checkWritable s a <;> rfl

theorem storeWord_withPrefixes (a : Nat) (v : Word) (s : State) (p : Prefixes) :
    storeWord a v (s.withPrefixes p) = (storeWord a v s).map fun t => t.withPrefixes p := by
  rw [storeWord, storeWord, storeByte_withPrefixes]
  cases storeByte a (lowByte v) s with
  | error e => rfl
  | ok t => exact storeByte_withPrefixes _ _ t p

theorem segWrite8_withPrefixes (g : Seg) (off : Word) (v : Byte) (s : State) (p : Prefixes) :
    segWrite8 g off v (s.withPrefixes p) = (segWrite8 g off v s).map fun t => t.withPrefixes p := by
  rw [segWrite8, segWrite8]
  cases checkExtreme g off 1 with
  | error e => rfl
  | ok u => exact storeByte_withPrefixes _ _ s p

theorem segWrite16_withPrefixes (g : Seg) (off v : Word) (s : State) (p : Prefixes) :
    segWrite16 g off v (s.withPrefixes p) = (segWrite16 g off v s).map fun t => t.withPrefixes p := by
  rw [segWrite16, segWrite16]
  cases checkExtreme g off 2 with
  | error e => rfl
  | ok u => exact storeWord_withPrefixes _ _ s p

theorem push16_withPrefixes (v : Word) (s : State) (p : Prefixes) :
    push16 v (s.withPrefixes p) = (push16 v s).map fun t => t.withPrefixes p := by
  have hsp : (s.withPrefixes p).regs.sp = s.regs.sp := rfl
  rw [push16, push16, hsp, segWrite16_withPrefixes]
  cases segWrite16 .ss (s.regs.sp - 2#16) v s <;> rfl

/-! ### Exceptions -/

/-- A push hands the prefixes on to what comes after it. -/
theorem push16_bind_withPrefixes {k : State → Op State} (hk : ∀ t, k (t.withPrefixes p) = k t) (v : Word) (s : State) :
    (push16 v (s.withPrefixes p) >>= k) = push16 v s >>= k := by
  rw [push16_withPrefixes]
  cases push16 v s with
  | error e => rfl
  | ok t => exact hk t

/-- The three pushes of an entry hand the prefixes on, and the jump at its end drops them. -/
theorem enterOp_withPrefixes (v : Byte) (ret : Word) (s : State) (p : Prefixes) :
    enterOp v ret (s.withPrefixes p) = enterOp v ret s := by
  have hload : ∀ a, loadWord (s.withPrefixes p) a = loadWord s a := fun _ => rfl
  have hbase : (s.withPrefixes p).idtrBase = s.idtrBase := rfl
  have hflags : (s.withPrefixes p).flags = s.flags := rfl
  rw [enterOp, enterOp, hload, hload, hbase, hflags]
  refine bind_congr fun ip => bind_congr fun cs => push16_bind_withPrefixes (fun t => ?_) _ s
  refine push16_bind_withPrefixes (fun t => ?_) _ (t.setFlags (setFlag .intf false (setFlag .tf false t.flags)))
  exact push16_bind_withPrefixes (fun _ => rfl) _ t

theorem enter_withPrefixes (v : Byte) (ret : Word) (s : State) (p : Prefixes) :
    enter v ret (s.withPrefixes p) = enter v ret s := by
  rw [enter, enter, enterOp_withPrefixes]

/-- A fault is entered, replaced by 8, or stops the machine by what none of the prefixes changes. -/
theorem raise_withPrefixes (v : Byte) (s : State) (p : Prefixes) : raise v (s.withPrefixes p) = raise v s := by
  have hlimit : ∀ v, (s.withPrefixes p).beyondLimit v = s.beyondLimit v := fun _ => rfl
  have hframe : (s.withPrefixes p).frameCrosses = s.frameCrosses := rfl
  have hip : (s.withPrefixes p).ip = s.ip := rfl
  simp only [raise, deliver, deliverTable, deliverStack, hlimit, hframe, hip, enter_withPrefixes]

theorem complete_withPrefixes (r : Op State) (s : State) (p : Prefixes) :
    complete (s.withPrefixes p) r = complete s r := by
  match r with
  | .ok _ => rfl
  | .error (.exception v) => exact raise_withPrefixes v s p
  | .error (.refuse _) => rfl

/-! ### LOCK where it is not legal -/

/-- LOCK before a form that it is not legal before raises 6 before anything else is done (R152). -/
theorem complete_checkLock_illegal {b : Bool} {f : Unit → Op State} (hb : b = false) (hl : s.pfx.lock = true) :
    complete s (checkLock b s >>= f) = raise 6#8 s := by
  rw [hb, checkLock_illegal hl, error_bind, complete_exception]

/-! ### XCHG with memory -/

theorem retire_withPrefixes {t : State} (hc : p.count = t.pfx.count) (l : Bool) (n : Nat) :
    (t.withPrefixes p).retire l n = t.retire l n := by
  simp only [State.retire, State.nextIp, State.withPrefixes, hc]

theorem operandSeg_withPrefixes (hs : p.seg = s.pfx.seg) (m : Mem) :
    operandSeg (s.withPrefixes p) m = operandSeg s m := by
  rw [operandSeg, operandSeg, State.withPrefixes, hs]

/-- A part that reads, writes and retires answers the same whichever prefixes of the same number the write carries. -/
theorem readWriteRetire_withPrefixes {α : Type} (rd : Op α) {wr : Op State} {k : α → State → State} (l : Bool) (n : Nat)
    (hk : ∀ v t, k v (t.withPrefixes p) = (k v t).withPrefixes p)
    (hc : ∀ v t, wr = .ok t → p.count = (k v t).pfx.count) :
    (rd >>= fun v => (wr.map fun t => t.withPrefixes p) >>= fun t => pure ((k v t).retire l n) : Op State) =
      rd >>= fun v => wr >>= fun t => pure ((k v t).retire l n) := by
  cases rd with
  | error e => rfl
  | ok v =>
    cases wr with
    | error e => rfl
    | ok t =>
      show Except.ok ((k v (t.withPrefixes p)).retire l n) = .ok ((k v t).retire l n)
      rw [hk, retire_withPrefixes (hc v t rfl)]

/-- An XCHG with memory looks at the segment override and at how many prefixes there are, and not at LOCK. -/
theorem exchange8_withPrefixes (hc : p.count = s.pfx.count) (hs : p.seg = s.pfx.seg) (m : Mem) (r : Reg8) (n : Nat) :
    exchange8 (.mem m) r n (s.withPrefixes p) = exchange8 (.mem m) r n s := by
  have hread : readRm8 (.mem m) (s.withPrefixes p) = readRm8 (.mem m) s := by
    rw [readRm8, readRm8, operandSeg_withPrefixes hs]
    rfl
  have hwrite : writeRm8 (.mem m) (s.reg8 r) (s.withPrefixes p) =
      (writeRm8 (.mem m) (s.reg8 r) s).map fun t => t.withPrefixes p := by
    rw [writeRm8, writeRm8, operandSeg_withPrefixes hs]
    exact segWrite8_withPrefixes ..
  have hreg : (s.withPrefixes p).reg8 r = s.reg8 r := rfl
  have hlock : ∀ s, checkLock (RM.mem m : RM8).isMem s = .ok () := fun _ => lockLegal_check fun _ => rfl
  rw [exchange8, exchange8, complete_withPrefixes, hlock, hlock, hread, hreg, hwrite]
  refine congrArg (complete s) (readWriteRetire_withPrefixes _ _ n (fun _ _ => rfl) fun v t ht => ?_)
  rw [State.setReg8_pfx, writeRm8_ok ht, (beside_putRm8 ..).pfx, hc]

theorem exchange16_withPrefixes (hc : p.count = s.pfx.count) (hs : p.seg = s.pfx.seg) (m : Mem) (r : Reg16) (n : Nat) :
    exchange16 (.mem m) r n (s.withPrefixes p) = exchange16 (.mem m) r n s := by
  have hread : readRm16 (.mem m) (s.withPrefixes p) = readRm16 (.mem m) s := by
    rw [readRm16, readRm16, operandSeg_withPrefixes hs]
    rfl
  have hwrite : writeRm16 (.mem m) (s.reg16 r) (s.withPrefixes p) =
      (writeRm16 (.mem m) (s.reg16 r) s).map fun t => t.withPrefixes p := by
    rw [writeRm16, writeRm16, operandSeg_withPrefixes hs]
    exact segWrite16_withPrefixes ..
  have hreg : (s.withPrefixes p).reg16 r = s.reg16 r := rfl
  have hlock : ∀ s, checkLock (RM.mem m : RM16).isMem s = .ok () := fun _ => lockLegal_check fun _ => rfl
  rw [exchange16, exchange16, complete_withPrefixes, hlock, hlock, hread, hreg, hwrite]
  refine congrArg (complete s) (readWriteRetire_withPrefixes _ _ n (fun _ _ => rfl) fun v t ht => ?_)
  rw [State.setReg16_pfx, writeRm16_ok ht, (beside_putRm16 ..).pfx, hc]

/-- The state with LOCK read or not, and the other prefixes as they were. -/
def State.withLock (s : State) (b : Bool) : State := s.withPrefixes { s.pfx with lock := b }

theorem MemWritable.byte {m : Mem} (h : MemWritable m 2 s) : MemWritable m 1 s :=
  ⟨crosses_one _, fun k hk => h.2 k (Nat.lt_succ_of_lt hk)⟩

/-- Settles O29: with memory, LOCK is asserted by the instruction and not read; with two registers, it is read first. -/
theorem xchgWithMemoryIsLocked : Obligations.XchgWithMemoryIsLocked := by
  intro m q r p w s
  constructor
  · intro i hi
    simp only [List.mem_cons, List.not_mem_nil, or_false] at hi
    rcases hi with rfl | rfl
    · have hlock : ∀ b, exec (.xchgRm8R8 (.mem m) r) (s.withLock b) = exec (.xchgRm8R8 (.mem m) r) s :=
        fun b => exchange8_withPrefixes (p := { s.pfx with lock := b }) rfl rfl m r (1 + m.size)
      exact ⟨fun hw => ⟨_, exchange8_next (MemWritable.byte hw) fun _ => rfl, rfl⟩,
        (hlock true).trans (hlock false).symm⟩
    · have hlock : ∀ b, exec (.xchgRm16R16 (.mem m) w) (s.withLock b) = exec (.xchgRm16R16 (.mem m) w) s :=
        fun b => exchange16_withPrefixes (p := { s.pfx with lock := b }) rfl rfl m w (1 + m.size)
      exact ⟨fun hw => ⟨_, exchange16_next hw fun _ => rfl, rfl⟩, (hlock true).trans (hlock false).symm⟩
  · intro i hi
    simp only [List.mem_cons, List.not_mem_nil, or_false] at hi
    rcases hi with rfl | rfl | rfl
    · exact ⟨fun hl => ⟨_, exchange8_next (d := .reg q) trivial (lockLegal_of_noLock hl), rfl⟩,
        complete_checkLock_illegal rfl⟩
    · exact ⟨fun hl => ⟨_, exchange16_next (d := .reg p) trivial (lockLegal_of_noLock hl), rfl⟩,
        complete_checkLock_illegal rfl⟩
    · exact ⟨fun hl => ⟨_, exchange16_next (d := .reg .ax) trivial (lockLegal_of_noLock hl), rfl⟩,
        complete_checkLock_illegal rfl⟩

end Sys2Proof.Machine
end

section
/-! Which bytes are an undefined form, and which begin no row of the table (R72, R75, R114, R183, R185, R186). -/

namespace Sys2Proof
open Sys2Proof.Machine

variable {bs pre : List Byte} {rows : Rows}

/-! ### Parsers that find every form defined -/

/-- A parser that calls no bytes an undefined form. -/
def Defined {α : Type} (p : List Byte → Parsed α) : Prop := ∀ bs, p bs ≠ .error .undefinedForm

theorem Defined.pure {α : Type} (a : α) : Defined (fun bs => (.ok (a, bs) : Parsed α)) := fun _ => nofun

theorem Defined.unknown {α : Type} : Defined (fun _ => (.error .unknownOpcode : Parsed α)) := fun _ => nofun

/-- What ends a reading in two parts ended one of them. -/
theorem andThen_eq_error {α β : Type} {p : Parsed α} {f : α → List Byte → Parsed β} {e : DecodeError} :
    andThen p f = .error e ↔ p = .error e ∨ ∃ a rest, p = .ok (a, rest) ∧ f a rest = .error e := by
  cases p with
  | ok q => exact ⟨fun h => .inr ⟨q.1, q.2, rfl, h⟩, fun h => by
      obtain h | ⟨a, rest, hq, h⟩ := h
      · cases h
      · cases hq; exact h⟩
  | error e' => exact ⟨fun h => .inl (by cases h; rfl), fun h => by
      obtain h | ⟨a, rest, hq, -⟩ := h
      · cases h; rfl
      · cases hq⟩

theorem Defined.andThen {α β : Type} {p : List Byte → Parsed α} {f : α → List Byte → Parsed β} (hp : Defined p)
    (hf : ∀ a, Defined (f a)) : Defined (fun bs => Sys2Proof.andThen (p bs) f) := by
  intro bs h
  rcases andThen_eq_error.1 h with h | ⟨a, rest, -, h⟩
  · exact hp bs h
  · exact hf a rest h

theorem defined_takeByte : Defined takeByte := by
  intro bs
  cases bs <;> nofun

theorem defined_takeWord : Defined takeWord := by
  intro bs
  match bs with
  | [] | [_] | _ :: _ :: _ => nofun

theorem defined_takeOperand (b : Byte) : Defined (takeOperand b) := by
  intro bs h
  unfold takeOperand at h
  split at h
  · split at h
    · split at h
      · cases h
      · next he => cases h; exact defined_takeWord _ he
    · cases h
  · split at h
    · cases h
    · next he => cases h; exact defined_takeByte _ he
  · split at h
    · cases h
    · next he => cases h; exact defined_takeWord _ he
  · cases h

theorem defined_takeModRm : Defined takeModRm := by
  intro bs h
  unfold takeModRm at h
  split at h
  · cases h
  · split at h
    · cases h
    · next he => cases h; exact defined_takeOperand _ _ he

theorem defined_parseByte (k) : Defined (parseByte k) := .andThen defined_takeByte fun _ => .pure _
theorem defined_parseWord (k) : Defined (parseWord k) := .andThen defined_takeWord fun _ => .pure _
theorem defined_parseWords (k) : Defined (parseWords k) := .andThen defined_takeWord fun _ => defined_parseWord _
theorem defined_parseRm8 (k) : Defined (parseRm8 k) := .andThen defined_takeModRm fun _ => .pure _
theorem defined_parseRm16 (k) : Defined (parseRm16 k) := .andThen defined_takeModRm fun _ => .pure _
theorem defined_parseRm8R8 (k) : Defined (parseRm8R8 k) := .andThen defined_takeModRm fun _ => .pure _
theorem defined_parseRm16R16 (k) : Defined (parseRm16R16 k) := .andThen defined_takeModRm fun _ => .pure _
theorem defined_parseRm8Byte (k) : Defined (parseRm8Byte k) := .andThen defined_takeModRm fun _ => defined_parseByte _
theorem defined_parseRm16Byte (k) : Defined (parseRm16Byte k) := .andThen defined_takeModRm fun _ => defined_parseByte _
theorem defined_parseRm16Word (k) : Defined (parseRm16Word k) := .andThen defined_takeModRm fun _ => defined_parseWord _
theorem defined_parseRm16R16Byte (k) : Defined (parseRm16R16Byte k) :=
  .andThen defined_takeModRm fun _ => defined_parseByte _
theorem defined_parseEsc (x) : Defined (parseEsc x) := .andThen defined_takeModRm fun _ => .pure _

/-! ### The three parsers that find undefined forms -/

/-- Reading a 16-bit operand ends in an undefined form where what follows does. -/
theorem andThen_modRm16_eq_undefined {f : BitVec 3 → RM16 → List Byte → Parsed Instr} :
    andThen (takeModRm bs) (fun p rest => f p.1 (toRm16 p.2) rest) = .error .undefinedForm ↔
      ∃ y d rest, d.wellFormed = true ∧ bs = encodeRm16 y d ++ rest ∧ f y d rest = .error .undefinedForm := by
  rw [andThen_eq_error, or_iff_right (defined_takeModRm bs)]
  constructor
  · rintro ⟨⟨y, e⟩, rest, hp, h⟩
    obtain ⟨he, hb⟩ := takeModRm_eq_ok.1 hp
    exact ⟨y, toRm16 e, rest, (toRm16_wellFormed e).trans he, encodeOperand_rm16 y e ▸ hb, h⟩
  · rintro ⟨y, d, rest, hd, hb, h⟩
    obtain ⟨e, rfl⟩ := exists_toRm16 d
    exact ⟨(y, e), rest, takeModRm_eq_ok.2 ⟨(toRm16_wellFormed e).symm.trans hd, encodeOperand_rm16 y e ▸ hb⟩, h⟩

/-- The segment numbers 6 and 7 (R75). -/
theorem Seg.ofCode_eq_none : ∀ y : BitVec 3, Seg.ofCode y = none ↔ 6 ≤ y.toNat := by decide

theorem parseSeg_eq_undefined {k : RM16 → Seg → Instr} : parseSeg k bs = .error .undefinedForm ↔
    ∃ y d rest, d.wellFormed = true ∧ 6 ≤ y.toNat ∧ bs = encodeRm16 y d ++ rest := by
  refine (andThen_modRm16_eq_undefined (f := fun y d rest => match Seg.ofCode y with
    | some g => .ok (k d g, rest)
    | none => .error .undefinedForm)).trans ?_
  refine exists_congr fun y => exists_congr fun d => exists_congr fun rest => ?_
  rw [← Seg.ofCode_eq_none, and_comm (a := Seg.ofCode y = none)]
  refine and_congr_right fun _ => and_congr_right fun _ => ?_
  cases Seg.ofCode y <;> simp

/-- The segment numbers 6 and 7, and that of CS (R75, R114). -/
theorem Seg.ofCode_none_or_cs : ∀ y : BitVec 3,
    (Seg.ofCode y = none ∨ Seg.ofCode y = some .cs) ↔ (y.toNat = 1 ∨ 6 ≤ y.toNat) := by decide

theorem parseSegDest_eq_undefined {k : Seg → RM16 → Instr} : parseSegDest k bs = .error .undefinedForm ↔
    ∃ y d rest, d.wellFormed = true ∧ (y.toNat = 1 ∨ 6 ≤ y.toNat) ∧ bs = encodeRm16 y d ++ rest := by
  refine (andThen_modRm16_eq_undefined (f := fun y d rest => match Seg.ofCode y with
    | some .cs => .error .undefinedForm
    | some g => .ok (k g d, rest)
    | none => .error .undefinedForm)).trans ?_
  refine exists_congr fun y => exists_congr fun d => exists_congr fun rest => ?_
  rw [← Seg.ofCode_none_or_cs, and_comm (a := _ ∨ _)]
  refine and_congr_right fun _ => and_congr_right fun _ => ?_
  cases hg : Seg.ofCode y with
  | none => simp
  | some g => cases g <;> simp

/-- A register operand where memory is asked for (R183, R185, R186). -/
theorem parseMem_eq_undefined {k : BitVec 3 → Mem → Instr} : parseMem k bs = .error .undefinedForm ↔
    ∃ y r rest, bs = modRm 3 y r :: rest := by
  rw [parseMem, andThen_eq_error, or_iff_right (defined_takeModRm bs)]
  constructor
  · rintro ⟨⟨y, e⟩, rest, hp, h⟩
    cases e with
    | mem m => cases h
    | reg r => exact ⟨y, r, rest, (takeModRm_eq_ok.1 hp).2⟩
  · rintro ⟨y, r, rest, rfl⟩
    exact ⟨(y, .reg r), rest, takeModRm_eq_ok.2 ⟨rfl, rfl⟩, rfl⟩

/-! ### The decoder -/

/-- After the opcode bytes `pre`, an answer `p` on the bytes `bs` calls only those forms undefined that the rules do. -/
def FindsUndefined (pre bs : List Byte) (p : Parsed Instr) : Prop :=
  p = .error .undefinedForm → UndefinedForm (pre ++ bs)

theorem Defined.findsUndefined {p : List Byte → Parsed Instr} (h : Defined p) : FindsUndefined pre bs (p bs) :=
  fun hp => absurd hp (h bs)

theorem findsUndefined_8C : FindsUndefined [0x8C#8] bs (parseSeg .movRm16Sreg bs) := by
  intro h
  obtain ⟨y, d, rest, hd, hy, rfl⟩ := parseSeg_eq_undefined.1 h
  exact .inl ⟨y, d, rest, hd, hy, rfl⟩

theorem findsUndefined_8E : FindsUndefined [0x8E#8] bs (parseSegDest .movSregRm16 bs) := by
  intro h
  obtain ⟨y, d, rest, hd, hy, rfl⟩ := parseSegDest_eq_undefined.1 h
  exact .inr (.inl ⟨y, d, rest, hd, hy, rfl⟩)

theorem findsUndefined_62 :
    FindsUndefined [0x62#8] bs (parseMem (fun y m => .boundR16M (Reg16.ofCode y) m) bs) := by
  intro h
  obtain ⟨y, r, rest, rfl⟩ := parseMem_eq_undefined.1 h
  exact .inr (.inr (.inl ⟨y, r, rest, rfl⟩))

/-- A group calls a form undefined that the row of the `reg` field does. -/
theorem parseGroup_eq_undefined : parseGroup bs rows = .error .undefinedForm ↔
    ∃ y p, firstReg bs = some y ∧ rows y.toNat = some p ∧ p bs = .error .undefinedForm := by
  cases bs with
  | nil => simp [parseGroup, firstReg]
  | cons b bs =>
    simp only [parseGroup, firstReg]
    cases hr : rows (regField b).toNat <;> simp [hr]

theorem defined_parseGroup (hr : ∀ n p, rows n = some p → Defined p) : Defined (fun bs => parseGroup bs rows) := by
  intro bs h
  obtain ⟨y, p, -, hp, h⟩ := parseGroup_eq_undefined.1 h
  exact hr _ p hp bs h

/-- The rows of every group that names no form of a register undefined. -/
theorem defined_rows (h : rows ∈ [group80, group81, group83, groupC0, groupC1, groupC6, groupC7, groupD0, groupD1,
    groupD2, groupD3, groupF6, groupF7, groupFE, group0FBA]) (n : Nat) (p : List Byte → Parsed Instr)
    (hp : rows n = some p) : Defined p := by
  simp only [List.mem_cons, List.not_mem_nil, or_false] at h
  rcases h with rfl | rfl | rfl | rfl | rfl | rfl | rfl | rfl | rfl | rfl | rfl | rfl | rfl | rfl | rfl
  all_goals
    simp only [group80.eq_def, group81.eq_def, group83.eq_def, groupC0.eq_def, groupC1.eq_def, groupC6.eq_def,
      groupC7.eq_def, groupD0.eq_def, groupD1.eq_def, groupD2.eq_def, groupD3.eq_def, groupF6.eq_def, groupF7.eq_def,
      groupFE.eq_def, group0FBA.eq_def] at hp
    split at hp <;> cases hp
  all_goals
    apply_rules [defined_parseRm8, defined_parseRm16, defined_parseRm8Byte, defined_parseRm16Byte,
      defined_parseRm16Word]

/-- A group of which row 3 alone asks for memory finds the register forms of that row. -/
theorem parseGroup_row_three {k : BitVec 3 → Mem → Instr} (h3 : rows 3 = some (parseMem k))
    (hr : ∀ n p, n ≠ 3 → rows n = some p → Defined p) :
    parseGroup bs rows = .error .undefinedForm ↔ ∃ r rest, bs = modRm 3 3 r :: rest := by
  rw [parseGroup_eq_undefined]
  constructor
  · rintro ⟨y, p, hy, hp, h⟩
    by_cases hn : y.toNat = 3
    · obtain rfl : y = 3 := BitVec.eq_of_toNat_eq hn
      obtain rfl : parseMem k = p := Option.some.inj (h3.symm.trans hp)
      obtain ⟨z, r, rest, rfl⟩ := parseMem_eq_undefined.1 h
      obtain rfl : z = 3 := by simpa [firstReg] using hy
      exact ⟨r, rest, rfl⟩
    · exact absurd h (hr _ p hn hp bs)
  · rintro ⟨r, rest, rfl⟩
    exact ⟨3, parseMem k, by simp [firstReg], h3, parseMem_eq_undefined.2 ⟨3, r, rest, rfl⟩⟩

theorem parseGroup_FF_eq_undefined :
    parseGroup bs groupFF = .error .undefinedForm ↔ ∃ r rest, bs = modRm 3 3 r :: rest := by
  refine parseGroup_row_three rfl fun n p hn hp => ?_
  rw [groupFF.eq_def] at hp
  split at hp <;> cases hp
  case h_4 => exact absurd rfl hn
  all_goals exact defined_parseRm16 _

theorem parseGroup_0F01_eq_undefined :
    parseGroup bs group0F01 = .error .undefinedForm ↔ ∃ r rest, bs = modRm 3 3 r :: rest := by
  refine parseGroup_row_three rfl fun n p hn hp => ?_
  rw [group0F01.eq_def] at hp
  split at hp <;> cases hp
  exact absurd rfl hn

theorem findsUndefined_FF : FindsUndefined [0xFF#8] bs (parseGroup bs groupFF) := by
  intro h
  obtain ⟨r, rest, rfl⟩ := parseGroup_FF_eq_undefined.1 h
  exact .inr (.inr (.inr (.inl ⟨r, rest, rfl⟩)))

theorem findsUndefined_0F01 : FindsUndefined [0x0F#8, 0x01#8] bs (parseGroup bs group0F01) := by
  intro h
  obtain ⟨r, rest, rfl⟩ := parseGroup_0F01_eq_undefined.1 h
  exact .inr (.inr (.inr (.inr ⟨r, rest, rfl⟩)))

theorem findsUndefined_decodePrimary (op : Nat) :
    FindsUndefined [BitVec.ofNat 8 op] bs (decodePrimary op bs) := by
  unfold decodePrimary
  split
  all_goals
    apply_rules [findsUndefined_8C, findsUndefined_8E, findsUndefined_62, findsUndefined_FF, Defined.findsUndefined,
      Defined.pure, Defined.unknown, defined_parseByte, defined_parseWord, defined_parseWords, defined_parseRm8R8,
      defined_parseRm16R16, defined_parseEsc, defined_parseGroup, defined_rows]
    all_goals simp

theorem findsUndefined_decodeEscaped (op : Nat) :
    FindsUndefined [0x0F#8, BitVec.ofNat 8 op] bs (decodeEscaped op bs) := by
  unfold decodeEscaped
  split
  all_goals
    apply_rules [findsUndefined_0F01, Defined.findsUndefined, Defined.pure, Defined.unknown, defined_parseRm16R16,
      defined_parseRm16R16Byte, defined_parseGroup, defined_rows]
    all_goals simp

theorem findsUndefined_decodeOp : FindsUndefined [] bs (decodeOp bs) := by
  cases bs with
  | nil => nofun
  | cons b bs =>
    simp only [decodeOp]
    split
    · next hb =>
      obtain rfl : b = 0x0F#8 := BitVec.eq_of_toNat_eq hb
      cases bs with
      | nil => nofun
      | cons b bs =>
        have h := findsUndefined_decodeEscaped (bs := bs) b.toNat
        rwa [BitVec.ofNat_toNat, BitVec.setWidth_eq] at h
    · have h := findsUndefined_decodePrimary (bs := bs) b.toNat
      rwa [BitVec.ofNat_toNat, BitVec.setWidth_eq] at h

/-- The decoder finds the undefined forms of the rules, and no others (R72). -/
theorem decodeOp_eq_undefined : decodeOp bs = .error .undefinedForm ↔ UndefinedForm bs := by
  refine ⟨findsUndefined_decodeOp, ?_⟩
  rintro (⟨y, d, rest, hd, hy, rfl⟩ | ⟨y, d, rest, hd, hy, rfl⟩ | ⟨y, r, rest, rfl⟩ | ⟨r, rest, rfl⟩ | ⟨r, rest, rfl⟩)
  · exact parseSeg_eq_undefined.2 ⟨y, d, rest, hd, hy, rfl⟩
  · exact parseSegDest_eq_undefined.2 ⟨y, d, rest, hd, hy, rfl⟩
  · exact parseMem_eq_undefined (k := fun y m => .boundR16M (Reg16.ofCode y) m).2 ⟨y, r, rest, rfl⟩
  · exact parseGroup_FF_eq_undefined.2 ⟨r, rest, rfl⟩
  · exact parseGroup_0F01_eq_undefined.2 ⟨r, rest, rfl⟩

/-- Bytes stay unknown where no row of the table begins and every pattern rejects them (R72). -/
theorem decodeWith_eq_unknown {l : List Pattern} : decodeWith l bs = .error .unknownOpcode ↔
    decodeOp bs = .error .unknownOpcode ∧ ∀ p ∈ l, Rejects p bs := by
  rw [← matchAny_false, decodeWith]
  cases decodeOp bs with
  | ok q => simp
  | error e =>
    cases e with
    | short | undefinedForm => simp
    | unknownOpcode =>
      cases hm : matchAny l bs with
      | none => simp
      | some r => cases r <;> simp

/-- Bytes that begin no row of the table begin none with any bytes after them. -/
theorem ne_encode_of_unknown {more rest : List Byte} {i : Instr} (h : decodeOp bs = .error .unknownOpcode)
    (hw : i.wellFormed = true) (hi : isPrefix i = false) : bs ++ more ≠ encode i ++ rest := by
  intro he
  have hmore : decodeOp (bs ++ more) = .error .unknownOpcode := by
    rw [stable_decodeOp bs more (by rw [h]; nofun), h]
    rfl
  rw [he, decodeOp_of_decode (decodeOfEncode i rest hw) hi] at hmore
  cases hmore

end Sys2Proof
end

section
/-! LOCK where it is not legal, and bytes that are no instruction (R72, R152): exception 6, or a refusal. -/

namespace Sys2Proof.Machine
open Sys2Proof

variable {s t : State} {i p : Instr} {ps : List Instr} {bs : List Byte} {f : Fetched} {e : DecodeError}

/-! ### LOCK before every form -/

/-- The check of LOCK is the first thing every instruction does; for a lockable row it asks for a memory destination. -/
theorem exec_lock_illegal (hi : isPrefix i = false) (hn : lockLegal i = false) (hl : s.pfx.lock = true) :
    exec i s = raise 6#8 s := by
  cases i with
  | lockPrefix | esPrefix | csPrefix | ssPrefix | dsPrefix | fsPrefix | gsPrefix | repnePrefix | repPrefix
    | operandSizePrefix | addressSizePrefix => cases hi
  | int3 | intN | into => exact if_pos hl
  | addRm8R8 | orRm8R8 | adcRm8R8 | sbbRm8R8 | andRm8R8 | subRm8R8 | xorRm8R8
    | addRm8Imm8 | orRm8Imm8 | adcRm8Imm8 | sbbRm8Imm8 | andRm8Imm8 | subRm8Imm8 | xorRm8Imm8
    | xchgRm8R8 | incRm8 | decRm8 | notRm8 | negRm8
    | addRm16R16 | orRm16R16 | adcRm16R16 | sbbRm16R16 | andRm16R16 | subRm16R16 | xorRm16R16
    | addRm16Imm16 | orRm16Imm16 | adcRm16Imm16 | sbbRm16Imm16 | andRm16Imm16 | subRm16Imm16 | xorRm16Imm16
    | addRm16Imm8 | orRm16Imm8 | adcRm16Imm8 | sbbRm16Imm8 | andRm16Imm8 | subRm16Imm8 | xorRm16Imm8
    | xchgRm16R16 | incRm16 | decRm16 | notRm16 | negRm16
    | btsRm16R16 | btsRm16Imm8 | btrRm16R16 | btrRm16Imm8 | btcRm16R16 | btcRm16Imm8 =>
      exact complete_checkLock_illegal hn hl
  | _ => exact complete_checkLock_illegal rfl hl

/-! ### A step that decodes no instruction -/

theorem exec_prefix_recorded (hp : isPrefix p = true) (hop : p ≠ .operandSizePrefix) (had : p ≠ .addressSizePrefix)
    (s : State) : ∃ t, exec p s = .next t := by
  cases p with
  | lockPrefix | esPrefix | csPrefix | ssPrefix | dsPrefix | fsPrefix | gsPrefix | repnePrefix | repPrefix =>
      exact ⟨_, rfl⟩
  | operandSizePrefix => exact absurd rfl hop
  | addressSizePrefix => exact absurd rfl had
  | _ => cases hp

/-- Without 66 and 67 the prefixes are all recorded, and nothing else is changed (R78). -/
theorem runPrefixes_recorded (hps : ∀ p ∈ ps, isPrefix p = true) (hop : .operandSizePrefix ∉ ps)
    (had : .addressSizePrefix ∉ ps) (s : State) : ∃ q, runPrefixes ps s = .next (s.withPrefixes q) := by
  have hrun : ∃ t, runPrefixes ps s = .next t := by
    induction ps generalizing s with
    | nil => exact ⟨s, rfl⟩
    | cons p ps ih =>
      obtain ⟨hop', hops⟩ := List.ne_and_not_mem_of_not_mem_cons hop
      obtain ⟨had', hads⟩ := List.ne_and_not_mem_of_not_mem_cons had
      obtain ⟨t, ht⟩ := exec_prefix_recorded (hps p List.mem_cons_self) hop'.symm had'.symm s
      rw [runPrefixes, ht]
      exact ih (fun q hq => hps q (List.mem_cons_of_mem p hq)) hops hads t
  obtain ⟨t, ht⟩ := hrun
  obtain ⟨q, rfl⟩ := runPrefixes_next hps ht
  exact ⟨q, ht⟩

theorem runFetched_error (hb : f.body = .error e) (he : e ≠ .short) (hr : runPrefixes f.prefixes s = .next t) :
    runFetched f s = runBody (.error e) t := by
  rw [runFetched, hb, hr]
  cases e with
  | short => exact absurd rfl he
  | undefinedForm | unknownOpcode => rfl

/-- A step whose bytes are no instruction ends as they do, with the prefixes before them recorded. -/
theorem step_eq_runBody_error (hno : NoEvent (arrive s)) (hp : (arrive s).pastEnd = false)
    (hs : splitPrefixes (fetchWindow (arrive s).begin).1 = (ps, bs)) (hop : .operandSizePrefix ∉ ps)
    (had : .addressSizePrefix ∉ ps) (hd : decodeWith (arrive s).begin.cfg.undefinedOpcodes bs = .error e)
    (he : e ≠ .short) : ∃ q, step s = runBody (.error e) ((arrive s).begin.withPrefixes q) := by
  have hps : ∀ p ∈ ps, isPrefix p = true := by
    have h := isPrefix_of_mem_splitPrefixes (bs := (fetchWindow (arrive s).begin).1)
    rwa [hs] at h
  obtain ⟨q, hq⟩ := runPrefixes_recorded hps hop had (arrive s).begin
  obtain ⟨hpre, -, -, hbody⟩ := fetch_body rfl hs
  refine ⟨q, ?_⟩
  rw [step_eq_runFetched hno hp]
  exact runFetched_error (hbody e hd) he (hpre ▸ hq)

/-- Settles O37: the check of LOCK by the shape of each meaning, the undefined forms and the unknown bytes by the
decoder, and the steps by what an exception keeps of the prefixes: nothing. -/
theorem lockElsewhereRaises6 : Obligations.LockElsewhereRaises6 := by
  refine ⟨fun i s => exec_lock_illegal, fun s => raise_deliverable, fun bs => decodeOp_eq_undefined,
    fun pats bs => decodeWith_undefined.trans (or_congr_left decodeOp_eq_undefined), ?_,
    fun bs h more rest i hw hi => ne_encode_of_unknown h hw hi, fun pats bs => decodeWith_eq_unknown, ?_,
    fun s => ⟨rfl, rfl⟩⟩
  · rintro s u ps bs hno hp rfl hs hop had hd hm hdel
    obtain ⟨q, hq⟩ := step_eq_runBody_error hno hp hs hop had hd nofun
    rw [hq, runBody, raise_withPrefixes]
    exact raise_deliverable hm hdel
  · rintro s u ps bs hno hp rfl hs hop had hd
    obtain ⟨q, hq⟩ := step_eq_runBody_error hno hp hs hop had hd nofun
    exact hq

end Sys2Proof.Machine
end

section
/-! Deliveries and the instructions that end in one or return from one (R180 to R184, R229, R231, R236): INT 3, INT n and
INTO, which ask for a vector; BOUND, which may raise 5; IRET. -/

namespace Sys2Proof.Machine
open Sys2Proof

variable {s : State} {n : Nat}

/-! ### A delivery by the limit -/

section
variable {b : Bool} {v : Byte} {ret start : Word}

/-- A delivery whose premises hold is the entry of its vector, whatever raised it (R229). -/
theorem deliver_deliverable (hm : s.mem.Wf) (hd : Deliverable v s) :
    ∃ t, deliver b v ret start s = .next t ∧ Entered v ret s t := by
  obtain ⟨hlimit, hframe⟩ := deliverable_checks hd
  refine ⟨s.entered v ret, ?_, entered_spec hm hd⟩
  rw [deliver_enter hlimit hframe, enter, enterOp_room hd]

theorem beyondLimit_eq_true : s.beyondLimit v = true ↔ s.idtrLimit.toNat < 4 * v.toNat + 3 := decide_eq_true_iff

theorem deliver_beyond (h : s.idtrLimit.toNat < 4 * v.toNat + 3) : deliver b v ret start s = deliverTable start s := by
  rw [deliver, if_pos (beyondLimit_eq_true.2 h)]

/-- A vector beyond the limit is replaced by 8, with the current instruction as return address (R231). -/
theorem deliver_beyond_enters (hm : s.mem.Wf) (h : s.idtrLimit.toNat < 4 * v.toNat + 3) (hd : Deliverable 8#8 s) :
    ∃ t, deliver b v ret start s = .next t ∧ Entered 8#8 start s t := by
  obtain ⟨hlimit, hframe⟩ := deliverable_checks hd
  refine ⟨s.entered 8#8 start, ?_, entered_spec hm hd⟩
  rw [deliver_beyond h, deliverTable, hlimit, hframe, enter, enterOp_room hd]
  rfl

/-- Where entry 8 is beyond the limit too, nothing is left to deliver (R231, D11). -/
theorem deliver_beyond_stops (h : s.idtrLimit.toNat < 4 * v.toNat + 3) (h8 : s.idtrLimit.toNat < 4 * 8 + 3) :
    deliver b v ret start s = .fault .deliveryFault := by
  rw [deliver_beyond h, deliverTable, if_pos (beyondLimit_eq_true.2 h8)]

end

/-! ### INT 3, INT n, INTO -/

theorem softwareInterrupt_eq_deliver (v : Byte) (n : Nat) (hl : s.pfx.lock = false) :
    softwareInterrupt v n s = deliver true v (s.nextIp n) s.ip s := by
  rw [softwareInterrupt, hl, if_neg Bool.false_ne_true]

theorem exec_int3 (hl : s.pfx.lock = false) : exec .int3 s = deliver true 3#8 (s.nextIp 1) s.ip s :=
  softwareInterrupt_eq_deliver _ _ hl

theorem exec_intN (v : Byte) (hl : s.pfx.lock = false) : exec (.intN v) s = deliver true v (s.nextIp 2) s.ip s :=
  softwareInterrupt_eq_deliver _ _ hl

theorem exec_into_overflow (hl : s.pfx.lock = false) (ho : getFlag .ovf s.flags = true) :
    exec .into s = deliver true 4#8 (s.nextIp 1) s.ip s := by
  show interruptOnOverflow 1 s = _
  rw [interruptOnOverflow, hl, if_neg Bool.false_ne_true, if_pos ho]

theorem exec_into_no_overflow (hl : s.pfx.lock = false) (ho : getFlag .ovf s.flags = false) :
    exec .into s = .next (s.retire false 1) := by
  show interruptOnOverflow 1 s = _
  rw [interruptOnOverflow, hl, if_neg Bool.false_ne_true, ho, if_neg Bool.false_ne_true]

/-- Settles O39: each instruction is the delivery of its vector, and INTO without overflow is the end of an instruction.
A limit below entry 3 or 4 is below entry 8, so the replacement stops there. -/
theorem softwareInterrupts : Obligations.SoftwareInterrupts := by
  intro v s hl
  rw [exec_int3 hl, exec_intN v hl]
  refine ⟨deliver_deliverable, deliver_deliverable, deliver_beyond_enters, deliver_beyond_stops, fun h => ?_,
    fun ho h => ?_, fun ho => ?_, fun ho => ?_⟩
  · exact deliver_beyond_stops (v := 3#8) h (by omega)
  · rw [exec_into_overflow hl ho]
    exact deliver_beyond_stops (v := 4#8) h (by omega)
  · rw [exec_into_overflow hl ho]
    exact deliver_deliverable
  · exact ⟨_, exec_into_no_overflow hl ho, rfl, rfl, ⟨fun _ => rfl, rfl⟩, retired_retire (.refl s) false 1⟩

/-! ### BOUND -/

/-- The register lies outside the signed limits `lower` and `upper` (R183). -/
abbrev OutOfBounds (v lower upper : Word) : Prop := v.toInt < lower.toInt ∨ upper.toInt < v.toInt

/-- A BOUND whose two limits can be read does nothing but compare (R183). -/
theorem checkBounds_readable {r : Reg16} {m : Mem} (hl : s.pfx.lock = false) (hr : MemReadable m 4 s) :
    checkBounds r m n s =
      if OutOfBounds (s.reg16 r) (wordAt s (operandAddr s m)) (wordAt s (operandAddr s m + 2)) then raise 5#8 s
      else .next (s.retire false n) := by
  rw [checkBounds, noLock_check _ hl, ok_bind, segReadPair_present hr.1 hr.2, ok_bind]
  exact apply_ite (complete s) _ _ _

/-- Settles O40: the two words of the operand are the limits, and the comparison is with either included. -/
theorem boundChecksSignedLimits : Obligations.BoundChecksSignedLimits := by
  intro r m s hl hr
  have hexec : exec (.boundR16M r m) s = _ := checkBounds_readable hl hr
  refine ⟨fun hlower hupper => ?_, fun hout => hexec.trans (if_pos hout)⟩
  have hin := not_or.2 ⟨Int.not_lt.2 hlower, Int.not_lt.2 hupper⟩
  exact ⟨_, hexec.trans (if_neg hin), rfl, rfl, ⟨fun _ => rfl, rfl⟩, retired_retire (.refl s) false _⟩

/-! ### IRET -/

/-- Apart from the NMI mask a return from an interrupt is a control transfer with a new SP and new FLAGS. -/
theorem returned_jumped (s : State) (ip cs img : Word) :
    Jumped cs ip s { s.returned ip cs img with nmiMasked := s.nmiMasked } :=
  jumped_jump ((beside_setReg16 s .sp (s.regs.sp + 6#16)).trans (beside_setFlags _ (loadFlags img))) cs ip

/-- What IRET makes of a bit of the popped word (R16, R17, R184, D23). -/
theorem getLsbD_loadFlags (img : Word) {j : Nat} (hj : j < 16) :
    (loadFlags img).getLsbD j =
      if j = 1 then true else if j = 3 ∨ j = 5 ∨ j = 15 then false else img.getLsbD j := by
  have hfixed : (j = 3 ∨ j = 5 ∨ 15 ≤ j) ↔ (j = 3 ∨ j = 5 ∨ j = 15) := by omega
  rw [loadFlags, getLsbD_fixedFlags, if_congr hfixed rfl rfl]

/-- At these three values of SP one of the three popped words lies at offset 65,535. -/
theorem interruptReturn_cross (hl : s.pfx.lock = false)
    (hsp : s.regs.sp = 0xFFFF ∨ s.regs.sp = 0xFFFD ∨ s.regs.sp = 0xFFFB) : interruptReturn s = raise 12#8 s := by
  have hc : checkStackWords [s.regs.sp, s.regs.sp + 2#16, s.regs.sp + 4#16] = .error (.exception 12#8) := by
    rcases hsp with h | h | h <;> rw [h] <;> rfl
  rw [interruptReturn, noLock_check _ hl, returnOp, hc]
  rfl

/-- Settles O41: the three words are checked, then read, and the state they are loaded into is a control transfer. -/
theorem iretRestores : Obligations.IretRestores := by
  refine fun s hl => ⟨fun h0 h2 h4 => ?_, interruptReturn_cross hl⟩
  exact ⟨_, interruptReturn_next h0 h2 h4 hl, rfl, returned_jumped s _ _ _, rfl, rfl, fun j hj => getLsbD_loadFlags _ hj⟩

end Sys2Proof.Machine
end

section
/-! CALL (R185): the words a call pushes, and where it goes. -/

namespace Sys2Proof.Machine
open Sys2Proof

variable {s t u : State} {v w : Word} {n : Nat}

/-! ### Near -/

/-- A near CALL keeps the code segment and the flags. -/
theorem callNear_completed (hm : s.mem.Wf) (v target : Word) :
    Pushed1 v s ((s.pushed v).jump target) ∧ Jumped (s.sel .cs) target s ((s.pushed v).jump target) ∧
      ((s.pushed v).jump target).flags = s.flags := by
  have hcs : (s.pushed v).setSel .cs (s.sel .cs) = s.pushed v := setSel_same_cs (s.pushed v)
  have hj := hcs ▸ jumped_jump (beside_pushed s v) (s.sel .cs) target
  exact ⟨(pushed_pushed1 hm v).congr rfl rfl, hj, rfl⟩

/-- Settles O42: both forms push the offset after them and jump. The name `callNear` alone is the meaning's. -/
theorem Statements.callNear : Obligations.CallNear := by
  refine fun v d s hm hl hp => ⟨?_, fun hr => ?_⟩
  · exact ⟨_, callNear_next hp hl, callNear_completed hm _ _⟩
  · exact ⟨_, callNearIndirect_next hr hp hl, callNear_completed hm _ _⟩

/-! ### Far -/

/-- Two words pushed one below the other lie apart: SP wraps between them, a linear address does not (R41). -/
theorem pushed_words_apart (s : State) :
    s.lin .ss (s.regs.sp - 4#16) + 2 ≤ s.lin .ss (s.regs.sp - 2#16) ∨
      s.lin .ss (s.regs.sp - 2#16) + 2 ≤ s.lin .ss (s.regs.sp - 4#16) := by
  have happart : (s.regs.sp - 4#16).toNat + 2 ≤ (s.regs.sp - 2#16).toNat ∨
      (s.regs.sp - 2#16).toNat + 2 ≤ (s.regs.sp - 4#16).toNat := by bv_omega
  simp only [State.lin]
  omega

/-- A word that reads as before, byte by byte, is as before. -/
theorem wordAt_congr {a : Nat} (h : ∀ x, a ≤ x → x < a + 2 → t.mem.read x = s.mem.read x) : wordAt t a = wordAt s a := by
  rw [wordAt, wordAt, h a (by omega) (by omega), h (a + 1) (by omega) (by omega)]

/-- A byte that is in none of the pushed words is outside each of them. -/
theorem outside_of_not_inPushed {i x : Nat} (h : ¬ InPushed n s x) (hi : 1 ≤ i) (hn : i ≤ n) :
    x < s.lin .ss (s.regs.sp - BitVec.ofNat 16 (2 * i)) ∨ s.lin .ss (s.regs.sp - BitVec.ofNat 16 (2 * i)) + 2 ≤ x := by
  by_contra hin
  exact h ⟨i, hi, hn, by omega⟩

/-- A push after a push leaves both words. -/
theorem Pushed1.pushed2 (h : Pushed1 v s u) (k : Pushed1 w u t) (hs : u.segs = s.segs) : Pushed2 v w s t := by
  have hsp : u.regs.sp - 2#16 = s.regs.sp - 4#16 := by
    rw [show u.regs.sp = s.regs.sp - 2#16 from congrArg Regs.sp h.regs, BitVec.sub_sub]
    rfl
  have haddr : u.lin .ss (u.regs.sp - 2#16) = s.lin .ss (s.regs.sp - 4#16) := by
    rw [State.lin, State.lin, State.sel, State.sel, hs, hsp]
  obtain ⟨kregs, ktop, krest⟩ := k
  rw [haddr] at ktop krest
  have happart := pushed_words_apart s
  refine ⟨?_, ?_, ktop, fun x hx => ?_⟩
  · rw [kregs, hsp, h.regs]
    rfl
  · rw [wordAt_congr fun x hlo hhi => krest x (by omega), h.top]
  · have hout2 := outside_of_not_inPushed hx (i := 1) (by omega) (by omega)
    have hout4 := outside_of_not_inPushed hx (i := 2) (by omega) (by omega)
    rw [krest x hout4, h.rest x hout2]

theorem pushed_pushed_pushed2 (hm : s.mem.Wf) (v w : Word) : Pushed2 v w s ((s.pushed v).pushed w) :=
  (pushed_pushed1 hm v).pushed2 (pushed_pushed1 (pushed_wf hm) w) rfl

/-- `Pushed2` looks at registers and memory only. -/
theorem Pushed2.congr (h : Pushed2 v w s t) (hregs : u.regs = t.regs) (hmem : u.mem = t.mem) : Pushed2 v w s u := by
  obtain ⟨regs, first, second, rest⟩ := h
  have hword : ∀ a, wordAt u a = wordAt t a := fun a => wordAt_congr fun x _ _ => by rw [hmem]
  exact ⟨hregs.trans regs, (hword _).trans first, (hword _).trans second, fun x hx => by rw [hmem, rest x hx]⟩

theorem callFarOp_room {o c : Word} (h2 : PushRoom 2#16 s) (h4 : PushRoom 4#16 s) :
    callFarOp o c n s = .ok (s.calledFar o c n) := by
  have hc : checkStackWords [s.regs.sp - 2#16, s.regs.sp - 4#16] = .ok () := checkStackWords_ok (by simp [h2.1, h4.1])
  have hnext : PushRoom 2#16 (s.pushed (s.sel .cs)) := h4.after_push (by rw [pushed_sp_sub]; rfl)
  rw [callFarOp, hc, ok_bind, push16_room h2, ok_bind, push16_room hnext]
  rfl

/-- A completed far CALL pushed CS and the offset after it, and kept the flags. -/
theorem calledFar_completed (hm : s.mem.Wf) (o c : Word) (n : Nat) :
    Pushed2 (s.sel .cs) (s.nextIp n) s (s.calledFar o c n) ∧ Jumped c o s (s.calledFar o c n) ∧
      (s.calledFar o c n).flags = s.flags :=
  ⟨(pushed_pushed_pushed2 hm _ _).congr rfl rfl,
    jumped_jump ((beside_pushed s _).trans (beside_pushed _ _)) c o, rfl⟩

theorem callFar_next {o c : Word} (hl : s.pfx.lock = false) (h2 : PushRoom 2#16 s) (h4 : PushRoom 4#16 s) :
    callFar o c n s = .next (s.calledFar o c n) := by
  rw [callFar, noLock_check _ hl, ok_bind, callFarOp_room h2 h4, complete_ok]

theorem callFarIndirect_next {m : Mem} (hl : s.pfx.lock = false) (h2 : PushRoom 2#16 s) (h4 : PushRoom 4#16 s)
    (hr : MemReadable m 4 s) :
    callFarIndirect m n s =
      .next (s.calledFar (wordAt s (operandAddr s m)) (wordAt s (operandAddr s m + 2)) n) := by
  rw [callFarIndirect, noLock_check _ hl, ok_bind, segReadPair_present hr.1 hr.2, ok_bind, callFarOp_room h2 h4, complete_ok]
  rfl

/-- Settles O43: both forms push CS and the offset after them and go to the pointer. The name `callFar` alone is the
meaning's. -/
theorem Statements.callFar : Obligations.CallFar := by
  refine fun o c m s hm hl h2 h4 => ⟨?_, fun hr => ?_⟩
  · exact ⟨_, callFar_next hl h2 h4, calledFar_completed hm o c 5⟩
  · exact ⟨_, callFarIndirect_next hl h2 h4 hr, calledFar_completed hm _ _ _⟩

end Sys2Proof.Machine
end

section
/-! LIDT, WAIT and ESC (R186 to R188). -/

namespace Sys2Proof.Machine
open Sys2Proof

variable {s : State} {n : Nat}

/-! ### LIDT -/

/-- The base of IDTR from the word after the limit and the byte after that (R18, R186). -/
theorem toNat_idtrBase (b : Byte) (w : Word) : ((b ++ w).setWidth 32 : Dword).toNat = w.toNat + 65536 * b.toNat := by
  have hb := b.isLt
  have hw := w.isLt
  rw [BitVec.toNat_setWidth, BitVec.toNat_append, ← Nat.shiftLeft_add_eq_or_of_lt hw, Nat.shiftLeft_eq]
  omega

theorem segReadIdt_present {g : Seg} {off : Word} (hc : crosses off 6 = false)
    (h : ∀ k < 6, PresentByte s (s.lin g off + k)) :
    segReadIdt g off s = .ok (wordAt s (s.lin g off),
      (s.mem.read (s.lin g off + 4) ++ wordAt s (s.lin g off + 2)).setWidth 32) := by
  have hlimit : loadWord s (s.lin g off) = .ok (wordAt s (s.lin g off)) := loadWord_present (h 0 (by omega)) (h 1 (by omega))
  have hlow := loadWord_present (h 2 (by omega)) (h 3 (by omega))
  have hhigh := loadWord_present (h 4 (by omega)) (h 5 (by omega))
  have hbyte : lowByte (wordAt s (s.lin g off + 4)) = s.mem.read (s.lin g off + 4) := lowByte_wordOf _ _
  rw [segReadIdt, checkExtreme_ok hc, ok_bind, hlimit, ok_bind, hlow, ok_bind, hhigh, ok_bind, hbyte]
  rfl

theorem loadIdtr_next {m : Mem} (hl : s.pfx.lock = false) (hr : MemReadable m 6 s) :
    loadIdtr m n s = .next ({ s with
      idtrLimit := wordAt s (operandAddr s m)
      idtrBase := (s.mem.read (operandAddr s m + 4) ++ wordAt s (operandAddr s m + 2)).setWidth 32 }.retire false n) := by
  rw [loadIdtr, noLock_check _ hl, ok_bind, segReadIdt_present hr.1 hr.2]
  rfl

/-- Settles O44: but for IDTR the state after LIDT is the end of an instruction that changed nothing. -/
theorem lidtLoads : Obligations.LidtLoads := by
  intro m s hl hr
  exact ⟨_, loadIdtr_next hl hr, rfl, toNat_idtrBase _ _, rfl, rfl, ⟨fun _ => rfl, rfl⟩, retired_retire (.refl s) false _⟩

/-! ### WAIT -/

theorem waitCoprocessor_unavailable (hl : s.pfx.lock = false) (ht : s.msw.getLsbD 3 = true) :
    waitCoprocessor s = raise 7#8 s := by
  rw [waitCoprocessor, noLock_check _ hl, ok_bind, State.mswTs, if_pos ht, complete_exception]

theorem waitCoprocessor_error (hl : s.pfx.lock = false) (ht : s.msw.getLsbD 3 = false) (hc : s.copErrorPending = true) :
    waitCoprocessor s = raise 16#8 s := by
  rw [waitCoprocessor, noLock_check _ hl, ok_bind, State.mswTs, ht, if_neg Bool.false_ne_true, if_pos hc,
    complete_exception]

theorem waitCoprocessor_next (hl : s.pfx.lock = false) (ht : s.msw.getLsbD 3 = false) (hc : s.copErrorPending = false) :
    waitCoprocessor s = .next (s.retire false 1) := by
  rw [waitCoprocessor, noLock_check _ hl, ok_bind, State.mswTs, ht, if_neg Bool.false_ne_true, hc,
    if_neg Bool.false_ne_true, pure_eq_ok, complete_ok]

/-! ### ESC -/

section
variable {x y : BitVec 3} {d : RM16}

/-- EM and TS are asked one after the other, with the same exception (R187). -/
theorem coprocessorEscape_unavailable (hl : s.pfx.lock = false)
    (h : s.msw.getLsbD 2 = true ∨ s.msw.getLsbD 3 = true) : coprocessorEscape x y d s = raise 7#8 s := by
  rw [coprocessorEscape, noLock_check _ hl, ok_bind, State.mswEm, State.mswTs]
  by_cases hem : s.msw.getLsbD 2 = true
  · rw [if_pos hem, complete_exception]
  · rw [if_neg hem, if_pos (h.resolve_left hem), complete_exception]

theorem coprocessorEscape_error (hl : s.pfx.lock = false) (he : s.msw.getLsbD 2 = false) (ht : s.msw.getLsbD 3 = false)
    (hc : s.copErrorPending = true) : coprocessorEscape x y d s = raise 16#8 s := by
  rw [coprocessorEscape, noLock_check _ hl, ok_bind, State.mswEm, State.mswTs, he, ht, if_neg Bool.false_ne_true,
    if_neg Bool.false_ne_true, if_pos hc, complete_exception]

/-- Past #7 and #16 an ESC with a memory operand raises where that crosses, and is refused where it does not. -/
theorem coprocessorEscape_mem {m : Mem} (hl : s.pfx.lock = false) (he : s.msw.getLsbD 2 = false)
    (ht : s.msw.getLsbD 3 = false) (hc : s.copErrorPending = false) :
    coprocessorEscape x y (.mem m) s =
      if 0xFFFF < (effectiveOffset s m).toNat + Config.escWidth x y - 1 then raise (crossVector (operandSeg s m)) s
      else .refused .coprocessorOperation := by
  rw [coprocessorEscape_checked hl he ht hc, checkEscOperand_mem]
  split <;> rfl

end

/-- Settles O45: each clause is one branch of the checks, in their order. -/
theorem waitAndEsc : Obligations.WaitAndEsc := by
  refine ⟨fun s hl => ⟨waitCoprocessor_unavailable hl, waitCoprocessor_error hl, fun ht hc => ?_⟩,
    fun x y d s hl => ⟨fun h => ?_, fun he ht hc => ?_, fun he ht hc => ⟨?_, ?_⟩⟩⟩
  · exact ⟨_, waitCoprocessor_next hl ht hc, rfl, rfl, ⟨fun _ => rfl, rfl⟩, retired_retire (.refl s) false 1⟩
  · have hraise : exec (.esc x y d) s = raise 7#8 s := coprocessorEscape_unavailable hl h
    exact ⟨hraise, fun hm hd => hraise ▸ raise_deliverable hm hd⟩
  · have hraise : exec (.esc x y d) s = raise 16#8 s := coprocessorEscape_error hl he ht hc
    exact ⟨hraise, fun hm hd => hraise ▸ raise_deliverable hm hd⟩
  · rintro r rfl
    exact coprocessorEscape_checked hl he ht hc
  · rintro m rfl
    exact coprocessorEscape_mem hl he ht hc

end Sys2Proof.Machine
end

section
/-! Deliveries that enter a handler, are replaced, or stop the machine (60_exceptions.md section 3: R229 to R231, D11). -/

namespace Sys2Proof.Machine
open Sys2Proof

variable {s : State} {b : Bool} {v : Byte} {ret start : Word}

/-- Settles O46: a delivery whose premises hold is the entry of its vector, whatever raised it. -/
theorem deliveryEntersTheHandler : Obligations.DeliveryEntersTheHandler := fun _ _ _ _ _ hm hd =>
  deliver_deliverable hm hd

/-- The default limit is the last byte of entry 255 (R231, R261). -/
theorem not_beyond_default_limit (h : s.idtrLimit = 0x3FF) : ¬ s.idtrLimit.toNat < 4 * v.toNat + 3 := by
  have hv := v.isLt
  have hlimit : s.idtrLimit.toNat = 0x3FF := congrArg BitVec.toNat h
  omega

/-- Settles O47: beyond the limit a delivery is that of 8, which is entered or, beyond the limit itself, stops the
machine. -/
theorem vectorBeyondTheLimitRaises8 : Obligations.VectorBeyondTheLimitRaises8 := fun _ _ _ _ _ hm =>
  ⟨fun h => ⟨deliver_beyond_enters hm h, deliver_beyond_stops h⟩, not_beyond_default_limit⟩

/-! ### A frame that crosses -/

/-- An 8 that replaces another vector stops where its own frame crosses, as it does beyond the limit (R229, D11). -/
theorem deliverTable_frameCrosses (h : s.frameCrosses = true) : deliverTable start s = .fault .deliveryFault := by
  rw [deliverTable, if_pos h, ite_self]

/-- The 12 that a software interrupt's pushes raise has a frame at the same SP, so it is not delivered either; nor is the
8 that replaces it beyond the limit (R229, D11). -/
theorem deliverStack_frameCrosses (h : s.frameCrosses = true) : deliverStack start s = .fault .deliveryFault := by
  rw [deliverStack, deliverTable_frameCrosses h, if_pos h, ite_self]

/-- Where the frame crosses, none of the vectors a delivery can come to is entered (R229, R237, D11). -/
theorem deliver_frameCrosses (h : s.frameCrosses = true) : deliver b v ret start s = .fault .deliveryFault := by
  rw [deliver, deliverTable_frameCrosses h, deliverStack_frameCrosses h, if_pos h, ite_self, ite_self]

/-- The third word of a frame crosses offset 0 at SP = 5; `frameCrosses_of_sp` tells of the first two. -/
theorem frameCrosses_of_sp_five (h : s.regs.sp = 5) : s.frameCrosses = true := by
  rw [State.frameCrosses, h]
  rfl

/-- Settles O48: at SP = 1, 3 and 5 the first, second or third word of the frame crosses. -/
theorem undeliverableFrameStops : Obligations.UndeliverableFrameStops := by
  rintro b v ret start s (h1 | h3 | h5)
  · exact deliver_frameCrosses (frameCrosses_of_sp (.inl h1))
  · exact deliver_frameCrosses (frameCrosses_of_sp (.inr h3))
  · exact deliver_frameCrosses (frameCrosses_of_sp_five h5)

end Sys2Proof.Machine
end

section
/-! Which step changes IDTR (R18, R261): one that executes LIDT. -/

namespace Sys2Proof.Machine
open Sys2Proof

variable {s t u : State} {i : Instr}

/-- IDTR is the same in both states. -/
structure SameIdtr (s t : State) : Prop where
  limit : t.idtrLimit = s.idtrLimit
  base : t.idtrBase = s.idtrBase

theorem SameIdtr.refl (s : State) : SameIdtr s s := ⟨rfl, rfl⟩

theorem SameIdtr.trans (h : SameIdtr s t) (k : SameIdtr t u) : SameIdtr s u :=
  ⟨k.limit.trans h.limit, k.base.trans h.base⟩

theorem SameSystem.sameIdtr (h : SameSystem s t) : SameIdtr s t := ⟨h.idtrLimit, h.idtrBase⟩

/-! ### The events of a boundary -/

theorem applyEvent_sameIdtr (s : State) (e : EnvEvent) : SameIdtr s (applyEvent s e) := by
  cases e with
  | nmi => simp only [applyEvent]; split <;> exact ⟨rfl, rfl⟩
  | intr v => exact ⟨rfl, rfl⟩
  | intrWithdrawn => exact ⟨rfl, rfl⟩
  | copError b => exact ⟨rfl, rfl⟩
  | busWrite a b => simp only [applyEvent]; split <;> exact ⟨rfl, rfl⟩

theorem applyEvents_sameIdtr (es : List EnvEvent) (s : State) : SameIdtr s (es.foldl applyEvent s) := by
  induction es generalizing s with
  | nil => exact .refl s
  | cons e es ih => exact (applyEvent_sameIdtr s e).trans (ih (applyEvent s e))

theorem arrive_sameIdtr (s : State) : SameIdtr s (arrive s) := by
  unfold arrive
  split
  · exact .refl s
  · next es rest _ =>
    have hpop : SameIdtr s { s with env := rest } := ⟨rfl, rfl⟩
    exact hpop.trans (applyEvents_sameIdtr es _)

/-! ### Deliveries and instructions -/

theorem entered_sameIdtr (s : State) (v : Byte) (ret : Word) : SameIdtr s (s.entered v ret) :=
  (entered_sameSystem s v ret).sameIdtr

/-- A delivery reads the table IDTR names and does not move it, from a state with the IDTR of `s`. -/
theorem deliverEvent_sameIdtr {v : Byte} (hu : SameIdtr s u) (h : deliverEvent v u = .next t) : SameIdtr s t := by
  obtain ⟨v', ret, rfl⟩ := deliver_inv h
  exact hu.trans (entered_sameIdtr u v' ret)

/-- Of the six ways an instruction can end, only LIDT's own changes IDTR (R18). -/
theorem Executed.sameIdtr (h : Executed i s t) : (∃ m, i = .lidtM m) ∨ SameIdtr s t := by
  cases h with
  | recorded lock seg state => subst state; exact .inr ⟨rfl, rfl⟩
  | retired locked n frame => exact .inr frame.system.sameIdtr
  | transferred cs ip frame => exact .inr frame.system.sameIdtr
  | segmentLoaded g d v n instr state => subst state; exact .inr ⟨rfl, rfl⟩
  | returned ip cs img instr state => subst state; exact .inr ⟨rfl, rfl⟩
  | idtrLoaded m limit base n instr state => exact .inl ⟨m, instr⟩

theorem begin_withPrefixes_sameIdtr (s : State) (p : Prefixes) : SameIdtr s (s.begin.withPrefixes p) := ⟨rfl, rfl⟩

theorem runInstruction_sameIdtr (h : runInstruction s = .next t) :
    (s.pastEnd = false ∧ ∃ m, (fetch s.begin).body = .ok (.lidtM m)) ∨ SameIdtr s t := by
  obtain ⟨p, ⟨v, ret, rfl⟩ | ⟨hpast, i, hi, -, h⟩⟩ := runInstruction_cases h
  · exact .inr ((begin_withPrefixes_sameIdtr s p).trans (entered_sameIdtr _ v ret))
  · rcases (exec_executed h).sameIdtr with ⟨m, rfl⟩ | hsame
    · exact .inl ⟨hpast, m, hi⟩
    · exact .inr ((begin_withPrefixes_sameIdtr s p).trans hsame)

/-- A boundary keeps IDTR unless it delivers nothing and the instruction it runs is an LIDT. -/
theorem atBoundary_sameIdtr (h : atBoundary s = .next t) :
    (NoEvent s ∧ s.pastEnd = false ∧ ∃ m, (fetch s.begin).body = .ok (.lidtM m)) ∨ SameIdtr s t := by
  rcases atBoundary_next h with h | h | ⟨v, h⟩ | ⟨hno, h⟩
  · exact .inr (deliverEvent_sameIdtr (u := { s with dr6 := stepDr6 s, stepDue := false }) ⟨rfl, rfl⟩ h)
  · exact .inr (deliverEvent_sameIdtr (u := { s with nmiMasked := true, nmiPending := false }) ⟨rfl, rfl⟩ h)
  · exact .inr (deliverEvent_sameIdtr (u := { s with intrPending := none }) ⟨rfl, rfl⟩ h)
  · exact (runInstruction_sameIdtr h).imp_left (⟨hno, ·⟩)

/-- Settles O58: neither the events of the boundary nor what follows them changes IDTR without an LIDT; and the limit of
reset is the last byte of the last entry. -/
theorem onlyLidtChangesIdtr : Obligations.OnlyLidtChangesIdtr := by
  refine ⟨fun p => ⟨rfl, rfl⟩, fun s t h hne => ?_, fun s v h => ?_⟩
  · rcases atBoundary_sameIdtr h with hlidt | hkept
    · exact hlidt
    · have hsame : SameIdtr s t := (arrive_sameIdtr s).trans hkept
      exact absurd hne (not_or.2 ⟨not_not.2 hsame.limit, not_not.2 hsame.base⟩)
  · exact Bool.eq_false_iff.2 (mt beyondLimit_eq_true.1 (not_beyond_default_limit h))

end Sys2Proof.Machine
end
